-- ==== Sys2Proof/Word.lean ====
section
/-! DEFINITION. The words and the numbered things of the S420: bytes, device timer readings, and the ids of queues, slots,
surfaces, palettes, marks, interrupt vectors and engines (spec/00, Identity). -/

namespace Sys2Proof

/-- A byte of frame memory or of host memory. -/
abbrev Byte := BitVec 8

/-- A reading of the device timer, in µs, 64 bits wide (R180). -/
abbrev Time := BitVec 64

/-- A submission queue number, 0..7 (R42). -/
abbrev QueueId := Fin 8

/-- A completion queue number, 0..3 (R137). -/
abbrev CqId := Fin 4

/-- A window slot number, 0..31 (R61). -/
abbrev SlotId := Fin 32

/-- A surface id, 0..63 (R3). -/
abbrev SurfaceId := Fin 64

/-- A palette number, 0..3 (R16). -/
abbrev PaletteId := Fin 4

/-- A mark number, 0..15 (R125). -/
abbrev MarkId := Fin 16

/-- An interrupt vector, 0..31 (R147). -/
abbrev VectorId := Fin 32

/-- The two raster engines (R85). -/
inductive EngineId where
  | re0
  | re1
  deriving DecidableEq, Repr

/-- The place of an engine in the pair (RE0, RE1). -/
def EngineId.index : EngineId → Fin 2
  | .re0 => 0
  | .re1 => 1

/-- The two halves of the setup record address (R168). -/
inductive SetupHalf where
  | lo
  | hi
  deriving DecidableEq, Repr

/-- An operation record: the 64 bytes delivered by a fetch, byte k in bits 8k+7..8k (R21, section 12.2). -/
abbrev OpRecord := BitVec 512

/-- A setup record: the 256 bytes delivered by the setup read, byte k in bits 8k+7..8k (R171, section 12.4). -/
abbrev SetupRecord := BitVec 2048

end Sys2Proof
end

