-- ==== Sys2Proof/Syntax.lean ====
section
/-! DEFINITION. The commands and events that the part takes: one constructor for each row of spec/opcode_table.json, with
what the row carries from outside (a written value, the data of an answer, the queue, slot or engine concerned). -/

namespace Sys2Proof

/-- One command or event. The rule named is the row's rule in the table. -/
inductive Instr where
  /-- SUBMIT (R45): a write to SUBMIT naming a queue and a new tail. -/
  | submit (queue : QueueId) (tail : BitVec 12)
  /-- CONSUME (R143): a write to CONSUME naming a completion queue and a new head. -/
  | consume (cq : CqId) (head : BitVec 12)
  /-- RESUME (R56): a write to QCTL with the action RESUME. -/
  | resume (queue : QueueId)
  /-- ABORT (R57): a write to QCTL with the action ABORT. -/
  | abort (queue : QueueId)
  /-- ENABLE (R172): a write to CONTROL with ENABLE 1 and RESET 0. -/
  | enable
  /-- DISABLE (R169): a write to CONTROL with ENABLE 0 and RESET 0. -/
  | disable
  /-- FUNCTION_RESET (R178): a write to CONTROL with RESET 1. -/
  | functionReset
  /-- STATUS_CLEAR (R170): a write of the value to STATUS. -/
  | statusClear (value : BitVec 32)
  /-- SETUP_ADDRESS_WRITE (R168): a write to SETUP_LO or SETUP_HI. -/
  | setupAddressWrite (half : SetupHalf) (value : BitVec 32)
  /-- REGISTER_WRITE (R167): a write of `size` bytes at an offset of the memory region. -/
  | registerWrite (offset : BitVec 12) (size : Nat) (value : BitVec 32)
  /-- COLD_RESET (R179): power-on or the reset pin. -/
  | coldReset
  /-- LINK_RESET (R179): a PCIe hot reset or loss of the link. -/
  | linkReset
  /-- PENDING_MESSAGE_SEND (R147): software turns on the enables set here and unmasks these vectors; the pending messages go. -/
  | pendingMessageSend (busMastering messageInterrupts : Bool) (unmask : List VectorId)
  /-- SETUP_READ_ARRIVAL (R173): the setup record arrives. -/
  | setupReadArrival (record : SetupRecord)
  /-- SETUP_READ_FAULT (R173): the setup read faults. -/
  | setupReadFault
  /-- ABANDONED_READ_ANSWER (R173): the answer to an abandoned setup read comes. -/
  | abandonedReadAnswer
  /-- FETCH_START (R48): the chosen queue takes this FREE slot and its record is read. -/
  | fetchStart (slot : SlotId)
  /-- RECORD_ARRIVAL (R49): the data of the fetch arrives. -/
  | recordArrival (record : OpRecord)
  /-- FETCH_FAULT (R50): the fetch faults. -/
  | fetchFault
  /-- OVERTAKEN_FETCH_END (R51): the answer to an overtaken fetch comes. -/
  | overtakenFetchEnd
  /-- ABORT_ACK_PLACE (R58): the queue's owed acknowledgement, which waits for any FREE slot, takes this one. -/
  | abortAckPlace (queue : QueueId) (slot : SlotId)
  /-- DISPATCH (R73): the dispatch arbiter gives the earliest READY engine operation to an idle engine. -/
  | dispatch
  /-- HOST_READ_DATA (R110, R113, R118): the bytes of host memory from an address on arrive for the read of the line in hand. -/
  | hostReadData (engine : EngineId) (address : BitVec 64) (data : List Byte)
  /-- EXPORT_WRITE_ACCEPTED (R115): the link accepts a write of the next `pixels` host pixels of the line. -/
  | exportWriteAccepted (engine : EngineId) (pixels : Nat)
  /-- LINE_COMPLETE (R87): the engine completes its line in hand. -/
  | lineComplete (engine : EngineId)
  /-- IMPORT_READ_FAULT (R119): a read of the engine's IMPORT line faults. -/
  | importReadFault (engine : EngineId)
  /-- EXPORT_WRITE_FAULT (R120): a write of the engine's EXPORT line faults. -/
  | exportWriteFault (engine : EngineId)
  /-- LOADPAL_READ_FAULT (R121): the read of the engine's LOADPAL entry faults. -/
  | loadpalReadFault (engine : EngineId)
  /-- COMPLETION_WRITE_ISSUE (R141): the completion queue issues the write of its oldest member. -/
  | completionWriteIssue (cq : CqId)
  /-- COMPLETION_WRITE_ACCEPTED (R142): the write in flight is accepted. -/
  | completionWriteAccepted (cq : CqId)
  /-- COMPLETION_WRITE_FAULT (R149): the write in flight faults. -/
  | completionWriteFault (cq : CqId)
  /-- ABANDONED_WRITE_ANSWER (R150): the answer to the oldest abandoned completion write comes; `reached` says whether the
  entry reached host memory. -/
  | abandonedWriteAnswer (reached : Bool)
  /-- MESSAGE_WRITE_FAULT (R147): the message at this place of `written` is answered with a write fault. -/
  | messageWriteFault (index : Nat)
  /-- COALESCING_TIMER_EXPIRY (R146): the completion queue's coalescing timer reaches its deadline. -/
  | coalescingTimerExpiry (cq : CqId)
  /-- WAIT_EXPIRY (R131): the deadline of the WAIT in this slot is reached, and so is that of every other WAIT which has the same. -/
  | waitExpiry (slot : SlotId)
  /-- FRAME_START (R157): the frame timer reaches its deadline. -/
  | frameStart
  /-- PCIE_CONFIGURATION_TURN_OFF (R147): software turns off the enables set here and masks these vectors. -/
  | pcieConfigurationTurnOff (busMastering messageInterrupts : Bool) (mask : List VectorId)
  /-- LINK_UP (R179): the PCIe link comes up. -/
  | linkUp
  /-- SCAN_PIXEL (R161): the scan takes the panel pixel (x, row). -/
  | scanPixel (x row : Nat)
  /-- ABANDONED_FETCH_ANSWER (R51): the answer to an abandoned fetch comes. -/
  | abandonedFetchAnswer
  /-- ABANDONED_ENGINE_ACCESS_ANSWER (R124): the answer to an engine access of before a reset comes. -/
  | abandonedEngineAccessAnswer
  deriving DecidableEq, Repr

end Sys2Proof
end

