-- ==== Sys2Proof/Config.lean ====
section
/-! DEFINITION. What is fixed for the part (its identity and its sizes) and the values that the manual leaves open. -/

namespace Sys2Proof.Config

/-- The identity value that IDENT reads (section 10.1). -/
def identity : BitVec 32 := 0x04205C03#32

/-- Frame memory is 33 554 432 bytes (R1). -/
def frameBytes : Nat := 33554432

/-- One more than the top of the 64-bit host address space (R34, R171). -/
def hostBytes : Nat := 18446744073709551616

/-- FREE VALUE (log 8): which of the orders of things that come together is taken, at the n-th such choice (R79, R132, R140,
R141, R147, R148, R180). Nothing is known of it. -/
opaque togetherOrder : Nat → Nat

/-- FREE VALUE (log 9): how many more pixels of its line in hand a drawing engine has visited by the n-th moment at which that shows: a pixel
of the scan (R90, R108) or a reset (R106). Nothing is known of it. -/
opaque pixelsVisited : Nat → Nat

/-- FREE VALUE (log 24): which of the FREE slots is taken, at the n-th such choice, by an acknowledgement that is placed at once (R58) and by
a fetch that starts within a step (R47, R48). Nothing is known of it. -/
opaque slotTaken : Nat → Nat

end Sys2Proof.Config
end

