-- ==== Sys2Proof/Machine/Types.lean ====
section
/-! DEFINITION. The data that the blocks of the S420 hold: surface records, operations and their regions, slots, engines,
queue contexts, the mark table's and the presentation unit's records. Plain data only. -/

namespace Sys2Proof.Machine

/-! ## Surfaces (chapter 1) -/

/-- The pixel formats (spec/00, Pixel formats). -/
inductive Format where
  | i8
  | p16
  | p32
  | m1
  deriving DecidableEq, Repr

/-- A rectangle (x, y, w, h) in logical coordinates. -/
structure Rect where
  x : Nat
  y : Nat
  w : Nat
  h : Nat
  deriving DecidableEq, Repr

/-- A scroll band (R12). -/
structure Band where
  top : Nat
  rows : Nat
  origin : Nat
  deriving DecidableEq, Repr

/-- The fields of a surface record that DEFINE sets (R3). -/
structure SurfaceFields where
  base : Nat
  width : Nat
  height : Nat
  format : Format
  stride : Nat
  palette : PaletteId
  band : Option Band
  deriving DecidableEq, Repr

/-- The states of a surface record (R4). -/
inductive SurfaceState where
  | free
  | defined
  | retiring
  deriving DecidableEq, Repr

/-- A surface record (R3): `fields` is absent in FREE. -/
structure Surface where
  state : SurfaceState
  fields : Option SurfaceFields
  shown : Bool
  presentRefs : Nat
  deriving DecidableEq, Repr

/-- A FREE surface record (R3, R15). -/
def Surface.freed : Surface := { state := .free, fields := none, shown := false, presentRefs := 0 }

/-! ## Operations (chapter 2) -/

/-- The orientation of a host buffer (R29). -/
structure Orientation where
  columns : Bool
  xReverse : Bool
  yReverse : Bool
  deriving DecidableEq, Repr

/-- A host buffer of IMPORT or EXPORT (R29, R34). -/
structure HostBuffer where
  address : BitVec 64
  pitch : Nat
  format : Format
  orientation : Orientation
  deriving DecidableEq, Repr

/-- The fifteen kinds (R21, section 12.2). -/
inductive Kind where
  | fill
  | copy
  | pattern
  | expand
  | importPixels
  | exportPixels
  | loadPalette
  | define
  | retire
  | scroll
  | signal
  | wait
  | present
  | setPanel
  | note
  deriving DecidableEq, Repr

/-- The kinds with their parameters (R30 to R39). A key, a clip and a background colour are present when their flag is. -/
inductive Op where
  | fill (dst : SurfaceId) (rect : Rect) (colour : BitVec 32) (rop : BitVec 4) (clip : Option Rect)
  | copy (src : SurfaceId) (srcX srcY : Nat) (dst : SurfaceId) (rect : Rect) (rop : BitVec 4) (key : Option (BitVec 32))
      (clip : Option Rect)
  | pattern (src : SurfaceId) (patX patY phaseX phaseY : Nat) (dst : SurfaceId) (rect : Rect) (rop : BitVec 4)
      (key : Option (BitVec 32)) (clip : Option Rect)
  | expand (src : SurfaceId) (srcX srcY : Nat) (dst : SurfaceId) (rect : Rect) (fore : BitVec 32) (back : Option (BitVec 32))
      (rop : BitVec 4) (clip : Option Rect)
  | importPixels (host : HostBuffer) (palette : PaletteId) (dst : SurfaceId) (rect : Rect) (key : Option (BitVec 32))
      (clip : Option Rect)
  | exportPixels (src : SurfaceId) (rect : Rect) (host : HostBuffer)
  | loadPalette (palette : PaletteId) (first count : Nat) (address : BitVec 64)
  | define (id : SurfaceId) (fields : SurfaceFields)
  | retire (id : SurfaceId)
  | scroll (id : SurfaceId) (origin : Nat)
  | signal (mark : MarkId) (value : BitVec 32)
  | wait (mark : MarkId) (value : BitVec 32) (timeout : Nat)
  | present (id : SurfaceId)
  | setPanel (display : Bool) (firstRow lastRow : Nat) (border : BitVec 24)
  | note
  deriving DecidableEq, Repr

/-- The statuses of a slot (R138). -/
inductive Status where
  | ok
  | aborted
  | badKind
  | badField
  | surfaceState
  | badFormat
  | badRange
  | overlap
  | displayBusy
  | geometry
  | hostFault
  | markRegress
  | waitTimeout
  | fetchFault
  | queueAborted
  deriving DecidableEq, Repr

/-! ## The window (chapter 4) -/

/-- The 69 resources (R65). -/
inductive Resource where
  | surface (id : SurfaceId)
  | palette (id : PaletteId)
  | panel
  deriving DecidableEq, Repr

/-- A region: a rectangle of its resource, or the whole resource when `rect` is absent (R65). -/
structure Region where
  resource : Resource
  rect : Option Rect
  deriving DecidableEq, Repr

/-- The slot states (R62). -/
inductive SlotState where
  | free
  | fetching
  | blocked
  | ready
  | running
  | ended
  deriving DecidableEq, Repr

/-- A window slot (R61). `sequence`, `record`, `op` and `status` are absent in the states that hold none. The parameters are held as
the record was read (`record`), whether or not it passes its checks, and as the operation that an admitted record names (`op`). -/
structure Slot where
  state : SlotState
  queue : Option QueueId
  sequence : Option (BitVec 32)
  tag : BitVec 16
  kind : BitVec 8
  flags : BitVec 8
  record : Option OpRecord
  op : Option Op
  reads : List Region
  writes : List Region
  deps : List SlotId
  orderedPending : Bool
  engine : Option EngineId
  linesDone : Nat
  status : Option Status
  detail : BitVec 32
  deriving DecidableEq, Repr

/-- A FREE slot holds no field but its state (R80). -/
def Slot.freed : Slot :=
  { state := .free, queue := none, sequence := none, tag := 0#16, kind := 0#8, flags := 0#8, record := none, op := none,
    reads := [], writes := [], deps := [], orderedPending := false, engine := none, linesDone := 0, status := none, detail := 0#32 }

/-- The end of a slot: its status and detail (R74, R79). -/
structure Ending where
  slot : SlotId
  status : Status
  detail : BitVec 32
  deriving DecidableEq, Repr

/-! ## The fetch unit (chapter 3) -/

/-- The states of a configured queue (R43). UNUSED is the absence of a context. -/
inductive QueueState where
  | opened
  | waiting
  | halted
  | draining
  deriving DecidableEq, Repr

/-- The service classes (R42). -/
inductive ServiceClass where
  | normal
  | urgent
  deriving DecidableEq, Repr

/-- The error policies (R53). -/
inductive ErrorPolicy where
  | goOn
  | halt
  deriving DecidableEq, Repr

/-- What an owed acknowledgement has a claim on (R58): the first slot of its queue to become FREE, or, when its queue held no slot
at the ABORT, any FREE slot. -/
inductive Claim where
  | firstFreed
  | anyFree
  deriving DecidableEq, Repr

/-- The abort record (R42, R57, R58): absent, owed, placed in a slot, or removed unplaced at the entry to STOPPING (R60). -/
inductive AbortRecord where
  | absent
  | owed (skipped : Nat) (claim : Claim)
  | placed (slot : SlotId)
  | removed
  deriving DecidableEq, Repr

/-- A configured submission queue context (R42). -/
structure Queue where
  state : QueueState
  base : BitVec 64
  size : Nat
  service : ServiceClass
  cq : CqId
  policy : ErrorPolicy
  quota : Nat
  head : Nat
  tail : Nat
  occupied : Nat
  abort : AbortRecord
  deriving DecidableEq, Repr

/-- The fetch in flight (R48, R51). `sent` is false when bus mastering was off at the request, which is then refused (R110). -/
structure Fetch where
  queue : QueueId
  slot : SlotId
  address : Nat
  sent : Bool
  discard : Bool
  deriving DecidableEq, Repr

/-! ## The raster engines (chapters 5 and 6) -/

/-- The engine states (R85). -/
inductive EngineState where
  | idle
  | active
  | stopRequested
  | detached
  deriving DecidableEq, Repr

/-- The read of host memory that a line of an IMPORT or a LOADPAL has issued: its host byte address and its length (R110, R112,
R118). `sent` is false when bus mastering was off at the request, which is then refused (R110). -/
structure HostRead where
  address : Nat
  length : Nat
  sent : Bool
  deriving DecidableEq, Repr

/-- The plan of a drawing kind (R98, R99). -/
structure Plan where
  bottomUp : Bool
  rightLeft : Bool
  deriving DecidableEq, Repr

/-- What an engine takes at dispatch (R86): the operation, the records of the surfaces it names with their band origins, the
plan and the pattern latch. With it, the progress of the line in hand: the read that it has outstanding (R110), the host pixels
whose data has arrived, the number of host pixels whose write was accepted, and the number of pixels that a drawing kind has visited, in
its pixel order (R90). `begun` is the model's own: the number of open choices taken when the line in hand was begun, by which it is known
which completion writes were issued before (R141, log 12). -/
structure Job where
  op : Op
  src : Option SurfaceFields
  dst : Option SurfaceFields
  plan : Plan
  latch : List (BitVec 32)
  read : Option HostRead
  arrived : List Nat
  accepted : Nat
  drawn : Nat
  begun : Nat
  deriving DecidableEq, Repr

/-- A raster engine (R85). -/
structure Engine where
  state : EngineState
  slot : Option SlotId
  line : Nat
  job : Option Job
  deriving DecidableEq, Repr

/-- An IDLE engine: no slot, no plan and no pattern latch (R85). DESIGN CHOICE (unsafe, log 29): its line is 0; R85 gives the field no
value in IDLE. -/
def Engine.idled : Engine := { state := .idle, slot := none, line := 0, job := none }

/-! ## The mark table (chapter 7) -/

/-- An entry of the waiting list (R126). -/
structure WaitEntry where
  slot : SlotId
  queue : QueueId
  mark : MarkId
  value : BitVec 32
  deadline : Option Time
  deriving DecidableEq, Repr

/-! ## The completion unit (chapter 8) -/

/-- The seven fields of a completion record (R138). -/
structure CompletionEntry where
  sq : QueueId
  kind : BitVec 8
  tag : BitVec 16
  status : Status
  lap : BitVec 8
  sqHead : BitVec 16
  detail : BitVec 32
  deriving DecidableEq, Repr

/-- A completion write in flight (R141). `choice` is the model's own: the number of open choices taken at its issue, that of the order of the
issue included, by which it is known which lines were begun before (log 12). -/
structure CompletionWrite where
  slot : SlotId
  address : Nat
  entry : CompletionEntry
  sent : Bool
  choice : Nat
  deriving DecidableEq, Repr

/-- A configured completion queue context (R137). -/
structure CompletionQueue where
  base : BitVec 64
  size : Nat
  vector : VectorId
  threshold : Nat
  timer : Nat
  tail : Nat
  head : Nat
  lap : BitVec 8
  outstanding : Nat
  posting : List SlotId
  inFlight : Option CompletionWrite
  count : Nat
  deadline : Option Time
  deriving DecidableEq, Repr

/-! ## The presentation unit (chapter 9) -/

/-- The panel parameters (R152). -/
structure PanelParams where
  width : Nat
  height : Nat
  period : Nat
  deriving DecidableEq, Repr

/-- The panel output pins (R161, R162): blank, or data enable active with 24 colour bits. -/
inductive PanelOutput where
  | blank
  | colour (value : BitVec 24)
  deriving DecidableEq, Repr

/-- The presentation unit (R152 to R154). `scan` is how many panel pixels of the frame the scan has passed (R160), absent while no
frame has begun since the frame timer was started. -/
structure Presentation where
  panel : Option PanelParams
  display : Bool
  shown : Option SurfaceId
  firstRow : Nat
  lastRow : Option Nat
  border : BitVec 24
  frameCounter : BitVec 32
  latchedOrigin : Option Nat
  held : Option SlotId
  frameDeadline : Option Time
  scan : Option Nat
  output : PanelOutput
  deriving DecidableEq, Repr

/-! ## Device control and the host link (chapter 10, R110, R147) -/

/-- The device states (R170). -/
inductive DeviceState where
  | off
  | loading
  | running
  | stopping
  | fault
  deriving DecidableEq, Repr

/-- The fault causes (R170). -/
inductive FaultCause where
  | none
  | setupRead
  | setupInvalid
  | completionWrite
  deriving DecidableEq, Repr

/-- The setup read in flight (R172). -/
structure SetupRead where
  address : BitVec 64
  deriving DecidableEq, Repr

/-- Device control (R168 to R173, R180). -/
structure Control where
  deviceState : DeviceState
  enable : Bool
  cause : FaultCause
  submitIgnored : Bool
  consumeIgnored : Bool
  qctlIgnored : Bool
  enableIgnored : Bool
  setupLo : BitVec 32
  setupHi : BitVec 32
  deviceVector : VectorId
  timer : Time
  setupRead : Option SetupRead
  deriving DecidableEq, Repr

/-- What the part writes over the link (R110, R141, R147, R150): bytes at a host address that the link has accepted, an interrupt
message, the completion write of a queue that is issued and not yet answered, or one that was abandoned and not yet answered. -/
inductive LinkWrite where
  | bytes (address : Nat) (data : List Byte)
  | message (vector : VectorId)
  | issued (cq : CqId) (address : Nat) (data : List Byte)
  | abandoned (address : Nat) (data : List Byte)
  deriving DecidableEq, Repr

/-- The host link: whether it is up, the function's PCIe configuration, the pending flags, and the model's record of the part's
writes in the order in which the link takes them, the order of their issue: the bytes accepted, in the order of their acceptance, and
behind them the completion writes in flight; a message stands at its place of issue (R110, R116, R141; log 12). -/
structure HostLink where
  up : Bool
  busMastering : Bool
  messageInterrupts : Bool
  masked : Vector Bool 32
  pendingFlags : Vector Bool 32
  written : List LinkWrite
  deriving DecidableEq, Repr

end Sys2Proof.Machine
end

