-- ==== Sys2Proof/Machine/State.lean ====
section
/-! DEFINITION. The state of the S420, block by block, with the queue of waiting commands; the fault and refusal reasons; the
state after a cold reset; and the accessors of the things that come in numbers. -/

namespace Sys2Proof.Machine

/-- Why a command stops the model. -/
inductive Fault where
  /-- An engine or the scan would touch a byte of frame memory at or above 33554432, which does not exist (R1). Raised by
  DISPATCH (a pattern latch), LINE_COMPLETE, HOST_READ_DATA, EXPORT_WRITE_ACCEPTED and SCAN_PIXEL. Safe: by the extent law of R6
  no surface of a run from reset reaches there. -/
  | noSuchFrameByte
  deriving DecidableEq, Repr

/-- Why a command has no meaning. -/
inductive Refusal where
  /-- A command whose meaning is not written. No arm of exec answers it. Safe. -/
  | notModelled (mnemonic : String)
  deriving DecidableEq, Repr

/-- The state of the part. -/
structure State where
  /-- The commands that wait, first in, first out (the model's own). -/
  pending : List Instr
  /-- Device control (chapter 10). -/
  control : Control
  /-- The host link (R110, R147, R179). -/
  link : HostLink
  /-- The submission queue contexts; absent is UNUSED (R42, R43). -/
  queues : Vector (Option Queue) 8
  /-- The queue last served in the URGENT class (R47). -/
  lastUrgent : QueueId
  /-- The queue last served in the NORMAL class (R47). -/
  lastNormal : QueueId
  /-- The fetch in flight (R48). -/
  fetch : Option Fetch
  /-- The queues whose acknowledgement waits for any FREE slot, in the order of their ABORTs (R58). -/
  ackOrder : List QueueId
  /-- The window slots (R61). -/
  slots : Vector Slot 32
  /-- The slots that hold a sequence number, earliest first (R63). -/
  order : List SlotId
  /-- The admission sequence counter (R63). -/
  sequence : BitVec 32
  /-- The surface table (R3). -/
  surfaces : Vector Surface 64
  /-- The palette store: entry e of palette p under the number 256p + e, a canonical list (R16). -/
  palettes : List (Nat × BitVec 24)
  /-- Frame memory, a canonical list of the bytes that do not read 00h (R1, log 6). -/
  frame : List Host.Cell
  /-- RE0 and RE1 (R85). -/
  engines : Vector Engine 2
  /-- The marks (R125). -/
  marks : Vector (BitVec 32) 16
  /-- The waiting list, in admission order (R126). -/
  waiting : List WaitEntry
  /-- The presentation unit (R152, R153). -/
  presentation : Presentation
  /-- The completion queue contexts; absent is unconfigured (R137). -/
  cqs : Vector (Option CompletionQueue) 4
  /-- How many open choices have been taken: the argument of the free values of Config (the model's own, log 10). -/
  choices : Nat
  deriving DecidableEq, Repr

/-- Device control after a cold reset (R168 to R170, R173, R180). -/
def Control.coldReset : Control :=
  { deviceState := .off, enable := false, cause := .none, submitIgnored := false, consumeIgnored := false,
    qctlIgnored := false, enableIgnored := false, setupLo := 0#32, setupHi := 0#32, deviceVector := 0, timer := 0#64,
    setupRead := none }

/-- The presentation unit after a reset (R153, R166). -/
def Presentation.afterReset : Presentation :=
  { panel := none, display := false, shown := none, firstRow := 0, lastRow := none, border := 0#24, frameCounter := 0#32,
    latchedOrigin := none, held := none, frameDeadline := none, scan := none, output := .blank }

/-- The machine right after a cold reset, before the link first comes up (R179). -/
def State.reset : State :=
  { pending := []
    control := Control.coldReset
    link := { up := false, busMastering := false, messageInterrupts := false, masked := Vector.replicate 32 false,
              pendingFlags := Vector.replicate 32 false, written := [] }
    queues := Vector.replicate 8 none
    lastUrgent := 7
    lastNormal := 7
    fetch := none
    ackOrder := []
    slots := Vector.replicate 32 Slot.freed
    order := []
    sequence := 0#32
    surfaces := Vector.replicate 64 Surface.freed
    palettes := []
    frame := []
    engines := Vector.replicate 2 Engine.idled
    marks := Vector.replicate 16 0#32
    waiting := []
    presentation := Presentation.afterReset
    cqs := Vector.replicate 4 none
    choices := 0 }

/-! ## Reading and replacing one of many -/

/-- Submission queue q's context, absent when UNUSED. -/
def State.queue (s : State) (q : QueueId) : Option Queue := s.queues[q]

/-- Replace submission queue q's context. -/
def State.setQueue (s : State) (q : QueueId) (c : Option Queue) : State := { s with queues := s.queues.set q c }

/-- Change submission queue q's context, when it is configured. -/
def State.modifyQueue (s : State) (q : QueueId) (f : Queue → Queue) : State := s.setQueue q ((s.queue q).map f)

/-- Window slot i. -/
def State.slot (s : State) (i : SlotId) : Slot := s.slots[i]

/-- Replace window slot i. -/
def State.setSlot (s : State) (i : SlotId) (sl : Slot) : State := { s with slots := s.slots.set i sl }

/-- The surface record of an id. -/
def State.surface (s : State) (id : SurfaceId) : Surface := s.surfaces[id]

/-- Replace the surface record of an id. -/
def State.setSurface (s : State) (id : SurfaceId) (r : Surface) : State := { s with surfaces := s.surfaces.set id r }

/-- An engine. -/
def State.engine (s : State) (e : EngineId) : Engine := s.engines[e.index]

/-- Replace an engine. -/
def State.setEngine (s : State) (e : EngineId) (g : Engine) : State := { s with engines := s.engines.set e.index g }

/-- A mark's value. -/
def State.mark (s : State) (m : MarkId) : BitVec 32 := s.marks[m]

/-- Replace a mark's value. -/
def State.setMark (s : State) (m : MarkId) (v : BitVec 32) : State := { s with marks := s.marks.set m v }

/-- Completion queue k's context, absent when unconfigured. -/
def State.cq (s : State) (k : CqId) : Option CompletionQueue := s.cqs[k]

/-- Replace completion queue k's context. -/
def State.setCq (s : State) (k : CqId) (c : Option CompletionQueue) : State := { s with cqs := s.cqs.set k c }

/-- Change completion queue k's context, when it is configured. -/
def State.modifyCq (s : State) (k : CqId) (f : CompletionQueue → CompletionQueue) : State :=
  s.setCq k ((s.cq k).map f)

end Sys2Proof.Machine
end

