-- ==== Sys2Proof/Machine/Flags.lean ====
section
/-! DEFINITION. The status words that software reads (chapter 12.1) and the codes in them: STATUS, CONTROL, QCTL, completion
statuses; the sticky flags; what a read of the register window returns (R167, R184). -/

namespace Sys2Proof.Machine

/-- The device state's code. -/
def DeviceState.code : DeviceState → BitVec 3
  | .off => 0
  | .loading => 1
  | .running => 2
  | .stopping => 3
  | .fault => 4

/-- The fault cause's code. -/
def FaultCause.code : FaultCause → BitVec 2
  | .none => 0
  | .setupRead => 1
  | .setupInvalid => 2
  | .completionWrite => 3

/-- The queue state's code; UNUSED is 0. -/
def queueCode : Option Queue → BitVec 3
  | none => 0
  | some c => match c.state with
    | .opened => 1
    | .waiting => 2
    | .halted => 3
    | .draining => 4

/-- A completion status's code (section 12.3). -/
def Status.code : Status → BitVec 8
  | .ok => 0x00
  | .aborted => 0x01
  | .badKind => 0x02
  | .badField => 0x03
  | .surfaceState => 0x04
  | .badFormat => 0x05
  | .badRange => 0x06
  | .overlap => 0x07
  | .displayBusy => 0x08
  | .geometry => 0x09
  | .hostFault => 0x0A
  | .markRegress => 0x0B
  | .waitTimeout => 0x0C
  | .fetchFault => 0x0D
  | .queueAborted => 0x0E

/-- The two bytes of a 16-bit field, least significant first. -/
def bytes16 (v : BitVec 16) : List Byte := [v.extractLsb' 0 8, v.extractLsb' 8 8]

/-- The four bytes of a 32-bit field, least significant first. -/
def bytes32 (v : BitVec 32) : List Byte :=
  [v.extractLsb' 0 8, v.extractLsb' 8 8, v.extractLsb' 16 8, v.extractLsb' 24 8]

/-- The 16 bytes of a completion record (section 12.3, R186). -/
def CompletionEntry.bytes (e : CompletionEntry) : List Byte :=
  [BitVec.ofNat 8 e.sq.val, e.kind] ++ bytes16 e.tag ++ [e.status.code, e.lap] ++ bytes16 e.sqHead ++ bytes32 e.detail ++
    bytes32 0#32

/-- A status that R53 counts as an error of an operation: any other than OK and ABORTED; QUEUE_ABORTED is no operation's ending. -/
def Status.isError : Status → Bool
  | .ok | .aborted | .queueAborted => false
  | _ => true

/-- The STATUS word: device state in bits 2..0, fault cause in bits 5..4, sticky flags in bits 8 to 11. -/
def Control.statusWord (c : Control) : BitVec 32 :=
  c.deviceState.code.setWidth 32 ||| (c.cause.code.setWidth 32 <<< 4) |||
    ((BitVec.ofBool c.submitIgnored).setWidth 32 <<< 8) ||| ((BitVec.ofBool c.consumeIgnored).setWidth 32 <<< 9) |||
    ((BitVec.ofBool c.qctlIgnored).setWidth 32 <<< 10) ||| ((BitVec.ofBool c.enableIgnored).setWidth 32 <<< 11)

/-- A write to STATUS clears each sticky flag written as 1 (R170, R184). -/
def Control.clearFlags (c : Control) (value : BitVec 32) : Control :=
  { c with submitIgnored := c.submitIgnored && !value.getLsbD 8, consumeIgnored := c.consumeIgnored && !value.getLsbD 9,
           qctlIgnored := c.qctlIgnored && !value.getLsbD 10, enableIgnored := c.enableIgnored && !value.getLsbD 11 }

/-- The CONTROL word: ENABLE in bit 0; RESET reads 0. -/
def Control.controlWord (c : Control) : BitVec 32 := (BitVec.ofBool c.enable).setWidth 32

/-- The QCTL word: the eight queue state codes in bits 23..0, queue 0 in bits 2..0. -/
def State.qctlWord (s : State) : BitVec 32 :=
  (List.finRange 8).foldl (fun w n => w ||| ((queueCode (s.queue n)).setWidth 32 <<< (3 * n.val))) 0#32

/-- The 32-bit value that a read at an offset returns (R167): SUBMIT, CONSUME and every offset at or above 20h read 0. -/
def State.readRegister (s : State) (offset : BitVec 12) : BitVec 32 :=
  match offset.toNat / 4 with
  | 0 => Config.identity
  | 1 => s.control.setupLo
  | 2 => s.control.setupHi
  | 3 => s.control.controlWord
  | 4 => s.control.statusWord
  | 7 => s.qctlWord
  | _ => 0#32

/-- The byte that a read at an offset returns: the addressed byte of the register's value (R167). -/
def State.readRegisterByte (s : State) (offset : BitVec 12) : Byte :=
  (s.readRegister offset).extractLsb' (8 * (offset.toNat % 4)) 8

end Sys2Proof.Machine
end

