-- ==== Sys2Proof/Machine/Memory.lean ====
section
/-! DEFINITION. The two stores of the part, frame memory (R1, R5) and the palette store (R16), over one canonical form of a
sparse list; band mapping (R12); reading and writing one pixel of a surface. -/

namespace Sys2Proof.Machine

/-! ## Sparse stores -/

/-- What a store holds at an address; an unlisted address reads as `dflt`. -/
def Store.read {α : Type} (dflt : α) : List (Nat × α) → Nat → α
  | [], _ => dflt
  | (k, v) :: rest, a => if k = a then v else Store.read dflt rest a

/-- Write a value at an address, keeping addresses strictly rising and listing no value equal to `dflt`. -/
def Store.write {α : Type} [DecidableEq α] (dflt : α) : List (Nat × α) → Nat → α → List (Nat × α)
  | [], a, v => if v = dflt then [] else [(a, v)]
  | (k, w) :: rest, a, v =>
    if a < k then (if v = dflt then (k, w) :: rest else (a, v) :: (k, w) :: rest)
    else if a = k then (if v = dflt then rest else (a, v) :: rest)
    else (k, w) :: Store.write dflt rest a v

/-- The canonical form: addresses strictly rising, no entry equal to what an unlisted address reads as. -/
abbrev Store.Wf {α : Type} (dflt : α) (m : List (Nat × α)) : Prop :=
  m.Pairwise (fun p q => p.1 < q.1) ∧ ∀ p ∈ m, p.2 ≠ dflt

/-! ## Frame memory -/

/-- Frame memory: the list of its bytes that do not read 00h. -/
abbrev FrameMemory := List Host.Cell

/-- DESIGN CHOICE (unsafe, log 6): a byte that nothing has written reads 00h. R2 leaves it open. -/
def Memory.unwritten : Byte := 0#8

/-- One byte of frame memory. -/
def Memory.read (m : FrameMemory) (a : Nat) : Byte := Store.read Memory.unwritten m a

/-- Write one byte of frame memory. A byte at or above 33554432 does not exist (R1): the commands that would write one fault
before they write, and nothing is written here. -/
def Memory.write (m : FrameMemory) (a : Nat) (v : Byte) : FrameMemory :=
  if a < Config.frameBytes then Store.write Memory.unwritten m a v else m

/-- The canonical form of frame memory, with every listed byte inside the 33554432 (R1). -/
abbrev Memory.wf (m : FrameMemory) : Prop := Store.Wf Memory.unwritten m ∧ ∀ p ∈ m, p.1 < Config.frameBytes

/-! ## The palette store -/

/-- The number of entry e of palette p in the store. -/
def Palette.number (p : PaletteId) (e : Nat) : Nat := 256 * p.val + e

/-- A palette entry (R16). -/
def Palette.read (m : List (Nat × BitVec 24)) (p : PaletteId) (e : BitVec 8) : BitVec 24 :=
  Store.read 0#24 m (Palette.number p e.toNat)

/-- Write a palette entry whole (R18). -/
def Palette.write (m : List (Nat × BitVec 24)) (p : PaletteId) (e : Nat) (c : BitVec 24) : List (Nat × BitVec 24) :=
  Store.write 0#24 m (Palette.number p e) c

/-! ## Formats, rows and bytes -/

/-- Bytes per pixel; an M1 pixel is a bit (spec/00, Pixel formats). -/
def Format.bytes : Format → Nat
  | .i8 => 1
  | .p16 => 2
  | .p32 => 4
  | .m1 => 0

/-- The bits of a pixel value: 8 for I8, 16 for P16, the 24 colour bits for P32, 1 for M1 (R23). -/
def Format.mask : Format → BitVec 32
  | .i8 => 0xFF#32
  | .p16 => 0xFFFF#32
  | .p32 => 0xFFFFFF#32
  | .m1 => 1#32

/-- A field taken at the width of a format (R25, R26). -/
def Format.trim (f : Format) (v : BitVec 32) : BitVec 32 := v &&& f.mask

/-- The row bytes of a row of `width` pixels (R5). -/
def Format.rowBytes (f : Format) (width : Nat) : Nat :=
  match f with
  | .m1 => (width + 7) / 8
  | f => width * f.bytes

/-- The bytes of a pixel value, least significant first; a P32 pad is written 00h (R5, R24). -/
def Format.encode (f : Format) (v : BitVec 32) : List Byte :=
  match f with
  | .i8 => [v.extractLsb' 0 8]
  | .p16 => [v.extractLsb' 0 8, v.extractLsb' 8 8]
  | .p32 => [v.extractLsb' 0 8, v.extractLsb' 8 8, v.extractLsb' 16 8, 0#8]
  | .m1 => []

/-- A pixel value from its bytes, least significant first; a P32 pad is not used (R5, R26). -/
def Format.decode (f : Format) (bytes : List Byte) : BitVec 32 :=
  let b := fun (k : Nat) => (bytes.getD k 0#8).setWidth 32
  match f with
  | .i8 => b 0
  | .p16 => b 0 ||| (b 1 <<< 8)
  | .p32 => b 0 ||| (b 1 <<< 8) ||| (b 2 <<< 16)
  | .m1 => 0#32

/-- The physical row of logical row r through a band with the given origin (R12). -/
def Band.physicalRow (b : Band) (origin r : Nat) : Nat :=
  if b.top ≤ r ∧ r < b.top + b.rows then b.top + (r - b.top + origin) % b.rows else r

/-- The physical row of logical row r of a surface (R12, R89). -/
def SurfaceFields.physicalRow (d : SurfaceFields) (r : Nat) : Nat :=
  match d.band with
  | none => r
  | some b => b.physicalRow b.origin r

/-- The extent's size: stride × height (R6). -/
def SurfaceFields.extentBytes (d : SurfaceFields) : Nat := d.stride * d.height

/-- The first byte of pixel x of physical row p (R5); for M1 the byte that holds its bit. -/
def SurfaceFields.pixelByte (d : SurfaceFields) (x p : Nat) : Nat :=
  d.base + p * d.stride + (match d.format with | .m1 => x / 8 | f => x * f.bytes)

/-- The number of bytes that a pixel touches. -/
def Format.touched : Format → Nat
  | .i8 => 1
  | .p16 => 2
  | .p32 => 4
  | .m1 => 1

/-- Every byte of pixel x of physical row p exists (R1). -/
def SurfaceFields.pixelExists (d : SurfaceFields) (x p : Nat) : Bool :=
  d.pixelByte x p + d.format.touched ≤ Config.frameBytes

/-- The bit of an M1 pixel in its byte: the leftmost pixel is the most significant bit (R5). -/
def m1Bit (x : Nat) : Nat := 7 - x % 8

/-- The value of pixel x of physical row p (R5): a P32 pad is not used (R91). -/
def readPhysical (m : FrameMemory) (d : SurfaceFields) (x p : Nat) : BitVec 32 :=
  let a := d.pixelByte x p
  match d.format with
  | .m1 => if (Memory.read m a).getLsbD (m1Bit x) then 1#32 else 0#32
  | f => f.decode ((List.range f.bytes).map fun k => Memory.read m (a + k))

/-- The value of logical pixel (x, y) of a surface (R89). -/
def readPixel (m : FrameMemory) (d : SurfaceFields) (x y : Nat) : BitVec 32 := readPhysical m d x (d.physicalRow y)

/-- Write bytes at consecutive addresses. -/
def Memory.writeBytes (m : FrameMemory) (a : Nat) : List Byte → FrameMemory
  | [] => m
  | b :: rest => Memory.writeBytes (Memory.write m a b) (a + 1) rest

/-- An M1 byte with one pixel's bit replaced, the other seven as they are (R1). -/
def setM1 (b : Byte) (bit : Nat) (v : BitVec 32) : Byte :=
  if v.getLsbD 0 then b ||| (1#8 <<< bit) else b &&& ~~~(1#8 <<< bit)

/-- Write logical pixel (x, y) of a surface: whole, only the bytes that hold it, an M1 pixel under the bit mask (R1, R91). -/
def writePixel (m : FrameMemory) (d : SurfaceFields) (x y : Nat) (v : BitVec 32) : FrameMemory :=
  let a := d.pixelByte x (d.physicalRow y)
  match d.format with
  | .m1 => Memory.write m a (setM1 (Memory.read m a) (m1Bit x) v)
  | f => Memory.writeBytes m a (f.encode v)

/-! ## Rectangles -/

/-- (x, y) lies in the rectangle. -/
def Rect.holds (r : Rect) (x y : Nat) : Bool := r.x ≤ x && x < r.x + r.w && r.y ≤ y && y < r.y + r.h

/-- Two rectangles overlap: their column ranges intersect and their row ranges intersect (spec/00). -/
def Rect.overlaps (a b : Rect) : Bool :=
  a.x < b.x + b.w && b.x < a.x + a.w && a.y < b.y + b.h && b.y < a.y + a.h

/-- The intersection of two rectangles that overlap (R66). -/
def Rect.intersect (a b : Rect) : Rect :=
  let x := max a.x b.x
  let y := max a.y b.y
  { x := x, y := y, w := min (a.x + a.w) (b.x + b.w) - x, h := min (a.y + a.h) (b.y + b.h) - y }

/-- The rectangle lies inside a surface (spec/00). -/
def Rect.inside (r : Rect) (d : SurfaceFields) : Bool := r.x + r.w ≤ d.width && r.y + r.h ≤ d.height

end Sys2Proof.Machine
end

