-- ==== Sys2Proof/Machine/Pixels.lean ====
section
/-! DEFINITION. What value a destination pixel receives: ROP (R23), conversion (R24, R94), key (R26), orientation (R29), and the
traversal plan (R98, R99). -/

namespace Sys2Proof.Machine

/-- A code reads the destination when it is any other than 0, 5, 10 and 15 (R23). -/
def ropReadsDestination (code : BitVec 4) : Bool := code ≠ 0#4 && code ≠ 5#4 && code ≠ 10#4 && code ≠ 15#4

/-- All bits set where the code's bit k is 1. -/
def ropTerm (code : BitVec 4) (k : Nat) : BitVec 32 := if code.getLsbD k then BitVec.allOnes 32 else 0#32

/-- The raster operation: result bit = bit (S + 2·D) of the code, over the width of the destination format (R23, R91). -/
def ropCombine (code : BitVec 4) (f : Format) (src dst : BitVec 32) : BitVec 32 :=
  f.trim ((ropTerm code 0 &&& ~~~src &&& ~~~dst) ||| (ropTerm code 1 &&& src &&& ~~~dst) |||
    (ropTerm code 2 &&& ~~~src &&& dst) ||| (ropTerm code 3 &&& src &&& dst))

/-- P16 to P32 (R94): 8v + floor(v/4) for red and blue, 4g + floor(g/16) for green. -/
def widen (v : BitVec 32) : BitVec 32 :=
  let r := v.toNat / 2048 % 32
  let g := v.toNat / 32 % 64
  let b := v.toNat % 32
  BitVec.ofNat 32 ((8 * r + r / 4) * 65536 + (4 * g + g / 16) * 256 + (8 * b + b / 4))

/-- P32 to P16 (R94): floor(R/8), floor(G/4), floor(B/8). -/
def narrow (v : BitVec 32) : BitVec 32 :=
  let r := v.toNat / 65536 % 256
  let g := v.toNat / 256 % 256
  let b := v.toNat % 256
  BitVec.ofNat 32 (r / 8 * 2048 + g / 4 * 32 + b / 8)

/-- The pairings that R24 allows. M1 pairs with M1 only, and only in a COPY; a host buffer is never M1. -/
def conversionAllowed : Format → Format → Bool
  | .i8, .i8 | .i8, .p16 | .i8, .p32 | .p16, .p16 | .p16, .p32 | .p32, .p16 | .p32, .p32 | .m1, .m1 => true
  | .i8, .m1 | .p16, .i8 | .p16, .m1 | .p32, .i8 | .p32, .m1 | .m1, .i8 | .m1, .p16 | .m1, .p32 => false

/-- A conversion looks entries up in a palette: I8 to P16 or P32 (R24). -/
def conversionLooksUp (src dst : Format) : Bool := src = .i8 && (dst = .p16 || dst = .p32)

/-- Format conversion (R24, R94). `colour` gives the palette entry of an index. A pairing marked FORMAT never runs; here it
copies. -/
def convertPixel (colour : BitVec 8 → BitVec 24) (src dst : Format) (v : BitVec 32) : BitVec 32 :=
  match src, dst with
  | .i8, .p32 => (colour (v.setWidth 8)).setWidth 32
  | .i8, .p16 => narrow ((colour (v.setWidth 8)).setWidth 32)
  | .p16, .p32 => widen v
  | .p32, .p16 => narrow v
  | _, _ => dst.trim v

/-- A pixel is keyed when it equals the key over the width of the source format (R26). -/
def keyed (key : Option (BitVec 32)) (f : Format) (v : BitVec 32) : Bool :=
  match key with
  | none => false
  | some k => f.trim v = f.trim k

/-- (x, y) lies outside a clip rectangle that is present (R27). -/
def clippedOut (clip : Option Rect) (x y : Nat) : Bool :=
  match clip with
  | none => false
  | some c => !c.holds x y

/-! ## Host buffers (R29) -/

/-- The number L of pixels of a buffer line. -/
def Orientation.lineLength (o : Orientation) (r : Rect) : Nat := if o.columns then r.h else r.w

/-- The number N of buffer lines. -/
def Orientation.lines (o : Orientation) (r : Rect) : Nat := if o.columns then r.w else r.h

/-- x′ for k (R29). -/
def Orientation.column (o : Orientation) (r : Rect) (k : Nat) : Nat := if o.xReverse then r.x + r.w - 1 - k else r.x + k

/-- y′ for k (R29). -/
def Orientation.row (o : Orientation) (r : Rect) (k : Nat) : Nat := if o.yReverse then r.y + r.h - 1 - k else r.y + k

/-- The rectangle pixel of pixel j of line i (R29). -/
def Orientation.pixel (o : Orientation) (r : Rect) (i j : Nat) : Nat × Nat :=
  if o.columns then (o.column r i, o.row r j) else (o.column r j, o.row r i)

/-! ## Operations: what they name -/

/-- The rectangle of an engine kind that has one: destination rectangle, or source rectangle of EXPORT. -/
def Op.rect : Op → Option Rect
  | .fill _ r _ _ _ | .copy _ _ _ _ r _ _ _ | .pattern _ _ _ _ _ _ r _ _ _ | .expand _ _ _ _ r _ _ _ _
  | .importPixels _ _ _ r _ _ | .exportPixels _ r _ => some r
  | .loadPalette _ _ _ _ | .define _ _ | .retire _ | .scroll _ _ | .signal _ _ | .wait _ _ _ | .present _
  | .setPanel _ _ _ _ | .note => none

/-- The destination surface of an engine kind. -/
def Op.dst : Op → Option SurfaceId
  | .fill d _ _ _ _ | .copy _ _ _ d _ _ _ _ | .pattern _ _ _ _ _ d _ _ _ _ | .expand _ _ _ d _ _ _ _ _
  | .importPixels _ _ d _ _ _ => some d
  | .exportPixels _ _ _ | .loadPalette _ _ _ _ | .define _ _ | .retire _ | .scroll _ _ | .signal _ _ | .wait _ _ _
  | .present _ | .setPanel _ _ _ _ | .note => none

/-- The source or pattern surface of an engine kind. -/
def Op.src : Op → Option SurfaceId
  | .copy s _ _ _ _ _ _ _ | .pattern s _ _ _ _ _ _ _ _ _ | .expand s _ _ _ _ _ _ _ _ | .exportPixels s _ _ => some s
  | .fill _ _ _ _ _ | .importPixels _ _ _ _ _ _ | .loadPalette _ _ _ _ | .define _ _ | .retire _ | .scroll _ _
  | .signal _ _ | .wait _ _ _ | .present _ | .setPanel _ _ _ _ | .note => none

/-- The clip rectangle, when present. -/
def Op.clip : Op → Option Rect
  | .fill _ _ _ _ c | .copy _ _ _ _ _ _ _ c | .pattern _ _ _ _ _ _ _ _ _ c | .expand _ _ _ _ _ _ _ _ c
  | .importPixels _ _ _ _ _ c => c
  | .exportPixels _ _ _ | .loadPalette _ _ _ _ | .define _ _ | .retire _ | .scroll _ _ | .signal _ _ | .wait _ _ _
  | .present _ | .setPanel _ _ _ _ | .note => none

/-- The engine kinds (R73). -/
def Op.isEngine : Op → Bool
  | .fill _ _ _ _ _ | .copy _ _ _ _ _ _ _ _ | .pattern _ _ _ _ _ _ _ _ _ _ | .expand _ _ _ _ _ _ _ _ _
  | .importPixels _ _ _ _ _ _ | .exportPixels _ _ _ | .loadPalette _ _ _ _ => true
  | .define _ _ | .retire _ | .scroll _ _ | .signal _ _ | .wait _ _ _ | .present _ | .setPanel _ _ _ _ | .note => false

/-- The four drawing kinds (R90). -/
def Op.isDrawing : Op → Bool
  | .fill _ _ _ _ _ | .copy _ _ _ _ _ _ _ _ | .pattern _ _ _ _ _ _ _ _ _ _ | .expand _ _ _ _ _ _ _ _ _ => true
  | .importPixels _ _ _ _ _ _ | .exportPixels _ _ _ | .loadPalette _ _ _ _ | .define _ _ | .retire _ | .scroll _ _
  | .signal _ _ | .wait _ _ _ | .present _ | .setPanel _ _ _ _ | .note => false

/-- A WAIT. -/
def Op.isWait : Op → Bool
  | .wait _ _ _ => true
  | _ => false

/-- The kinds that the presentation unit holds (R77). -/
def Op.isPresentation : Op → Bool
  | .present _ | .setPanel _ _ _ _ => true
  | _ => false

/-- The clip leaves nothing to write (R27). -/
def Op.emptyClip (op : Op) : Bool :=
  match op.rect, op.clip with
  | some r, some c => !r.overlaps c
  | _, _ => false

/-- The number of lines of an engine kind (R87, R111). -/
def Op.lines : Op → Nat
  | .fill _ r _ _ _ | .copy _ _ _ _ r _ _ _ | .pattern _ _ _ _ _ _ r _ _ _ | .expand _ _ _ _ r _ _ _ _ => r.h
  | .importPixels h _ _ r _ _ => h.orientation.lines r
  | .exportPixels _ r h => h.orientation.lines r
  | .loadPalette _ _ count _ => count
  | .define _ _ | .retire _ | .scroll _ _ | .signal _ _ | .wait _ _ _ | .present _ | .setPanel _ _ _ _ | .note => 0

/-! ## The plan (R98, R99) -/

/-- The plan of a kind that moves (srcX, srcY, w, h) onto `rect`: R99 when both lie on one surface and overlap, R98 otherwise. -/
def movePlan (same : Bool) (srcX srcY : Nat) (rect : Rect) : Plan :=
  if same && Rect.overlaps { x := srcX, y := srcY, w := rect.w, h := rect.h } rect then
    if srcY < rect.y then { bottomUp := true, rightLeft := false }
    else if rect.y = srcY ∧ srcX < rect.x then { bottomUp := false, rightLeft := true }
    else { bottomUp := false, rightLeft := false }
  else { bottomUp := false, rightLeft := false }

/-- The plan of an operation (R98, R99); the transfer kinds do not use it (R111). -/
def Op.plan : Op → Plan
  | .copy s x y d r _ _ _ => movePlan (s == d) x y r
  | .expand s x y d r _ _ _ _ => movePlan (s == d) x y r
  | _ => { bottomUp := false, rightLeft := false }

/-- The destination row of line k (R87). -/
def Plan.row (p : Plan) (r : Rect) (k : Nat) : Nat := if p.bottomUp then r.y + r.h - 1 - k else r.y + k

/-- The destination columns in pixel order (R98, R99). -/
def Plan.columns (p : Plan) (r : Rect) : List Nat :=
  let cols := (List.range r.w).map (r.x + ·)
  if p.rightLeft then cols.reverse else cols

end Sys2Proof.Machine
end

