-- ==== Sys2Proof/Machine/Operands.lean ====
section
/-! DEFINITION. The operand forms: how the fields of an operation record and of a setup record are read from their bytes and
judged against their ranges (R21, R22, R30 to R40 steps 1 and 2, R171, R184 to R186, chapter 12). -/

namespace Sys2Proof.Machine

/-! ## Fields: least significant byte first (chapter 12) -/

/-- The byte at an offset of a record. -/
def byteAt {n : Nat} (r : BitVec n) (offset : Nat) : BitVec 8 := r.extractLsb' (8 * offset) 8

/-- The 16-bit field at an offset of a record. -/
def half16At {n : Nat} (r : BitVec n) (offset : Nat) : BitVec 16 := r.extractLsb' (8 * offset) 16

/-- The 32-bit field at an offset of a record. -/
def word32At {n : Nat} (r : BitVec n) (offset : Nat) : BitVec 32 := r.extractLsb' (8 * offset) 32

/-- The 64-bit field at an offset of a record. -/
def long64At {n : Nat} (r : BitVec n) (offset : Nat) : BitVec 64 := r.extractLsb' (8 * offset) 64

/-- A number that must lie below n. -/
def below (n v : Nat) : Option (Fin n) := if h : v < n then some ⟨v, h⟩ else none

/-- A value under a condition. -/
def when {α : Type} (c : Bool) (v : α) : Option α := if c then some v else none

/-! ## The header -/

/-- The kind of a kind code (section 12.2). -/
def Kind.ofCode (code : BitVec 8) : Option Kind :=
  match code.toNat with
  | 0x01 => some .fill
  | 0x02 => some .copy
  | 0x03 => some .pattern
  | 0x04 => some .expand
  | 0x05 => some .importPixels
  | 0x06 => some .exportPixels
  | 0x07 => some .loadPalette
  | 0x08 => some .define
  | 0x09 => some .retire
  | 0x0A => some .scroll
  | 0x0B => some .signal
  | 0x0C => some .wait
  | 0x0D => some .present
  | 0x0E => some .setPanel
  | 0x0F => some .note
  | _ => none

/-- QUIET: bit 0 of the flags byte. -/
def flagQuiet (flags : BitVec 8) : Bool := flags.getLsbD 0

/-- ORDERED: bit 1. -/
def flagOrdered (flags : BitVec 8) : Bool := flags.getLsbD 1

/-- CLIP: bit 2. -/
def flagClip (flags : BitVec 8) : Bool := flags.getLsbD 2

/-- KEY: bit 3. -/
def flagKey (flags : BitVec 8) : Bool := flags.getLsbD 3

/-- BACK: bit 4. -/
def flagBack (flags : BitVec 8) : Bool := flags.getLsbD 4

/-- The flags that a kind allows (R22). -/
def Kind.allowedFlags : Kind → BitVec 8
  | .fill => 0b00111#8
  | .copy | .pattern | .importPixels => 0b01111#8
  | .expand => 0b10111#8
  | .define | .wait => 0b00001#8
  | .exportPixels | .loadPalette | .retire | .scroll | .signal | .present | .setPanel | .note => 0b00011#8

/-- No flag is set that the kind does not allow, and no undefined bit (R22). -/
def Kind.flagsOk (k : Kind) (flags : BitVec 8) : Bool := flags &&& ~~~k.allowedFlags = 0#8

/-! ## Parameter fields -/

/-- A format code (section 12.2). -/
def formatOf (code : BitVec 8) : Option Format :=
  match code.toNat with
  | 0 => some .i8
  | 1 => some .p16
  | 2 => some .p32
  | 3 => some .m1
  | _ => none

/-- A host format: M1 is refused (R34). -/
def hostFormatOf (code : BitVec 8) : Option Format :=
  match formatOf code with
  | some .m1 => none
  | f => f

/-- A rectangle at an offset: x and y in 0..4095, w and h in 1..4096 (spec/00). -/
def rectAt (r : OpRecord) (offset : Nat) : Option Rect :=
  let x := (half16At r offset).toNat
  let y := (half16At r (offset + 2)).toNat
  let w := (half16At r (offset + 4)).toNat
  let h := (half16At r (offset + 6)).toNat
  when (x ≤ 4095 && y ≤ 4095 && 1 ≤ w && w ≤ 4096 && 1 ≤ h && h ≤ 4096) { x := x, y := y, w := w, h := h }

/-- The clip rectangle, read only under CLIP (R27). -/
def clipOf (r : OpRecord) (flags : BitVec 8) : Option (Option Rect) :=
  if flagClip flags then (rectAt r 0x14).map some else some none

/-- The key field, read only under KEY (R26). -/
def keyOf (r : OpRecord) (flags : BitVec 8) : Option (BitVec 32) :=
  if flagKey flags then some (word32At r 0x24) else none

/-- The background colour, read only under BACK (R22). -/
def backOf (r : OpRecord) (flags : BitVec 8) : Option (BitVec 32) :=
  if flagBack flags then some (word32At r 0x20) else none

/-- The source position, each coordinate in 0..4095 (R31 to R33). -/
def sourcePositionOf (r : OpRecord) : Option (Nat × Nat) :=
  let x := (half16At r 0x10).toNat
  let y := (half16At r 0x12).toNat
  when (x ≤ 4095 && y ≤ 4095) (x, y)

/-- The ROP code, 0..15 (R23). -/
def ropOf (r : OpRecord) : Option (BitVec 4) := when (byteAt r 6 ≤ 15#8) ((byteAt r 6).setWidth 4)

/-- The orientation, 0..7: major × 4 + y reverse × 2 + x reverse (R29, section 12.2). -/
def orientationOf (r : OpRecord) : Option Orientation :=
  let o := byteAt r 0x34
  when (o ≤ 7#8) { columns := o.getLsbD 2, xReverse := o.getLsbD 0, yReverse := o.getLsbD 1 }

/-- A host buffer for a rectangle: format, orientation, alignment, pitch and end (R34, R35). -/
def hostBufferOf (r : OpRecord) (rect : Rect) : Option HostBuffer := do
  let f ← hostFormatOf (byteAt r 7)
  let o ← orientationOf r
  let address := long64At r 0x28
  let pitch := (word32At r 0x30).toNat
  let content := o.lineLength rect * f.bytes
  when (address.toNat % f.bytes = 0 && pitch % f.bytes = 0 && content ≤ pitch &&
      address.toNat + (o.lines rect - 1) * pitch + content ≤ Config.hostBytes)
    { address := address, pitch := pitch, format := f, orientation := o }

/-- The band of a DEFINE: absent, or rows ≥ 2, origin < rows, top + rows ≤ height (R12, R37, R185). -/
def bandOf (r : OpRecord) (height : Nat) : Option (Option Band) :=
  let top := (half16At r 0x14).toNat
  let rows := (half16At r 0x16).toNat
  let origin := (half16At r 0x18).toNat
  match (byteAt r 0x12).toNat with
  | 0 => some none
  | 1 => when (2 ≤ rows && origin < rows && top + rows ≤ height) (some { top := top, rows := rows, origin := origin })
  | _ => none

/-- The surface fields of a DEFINE (R37): base a multiple of 256, width and height 1..4096, stride a multiple of 64 from the row
bytes to 16384. -/
def surfaceFieldsOf (r : OpRecord) : Option SurfaceFields := do
  let f ← formatOf (byteAt r 7)
  let palette ← below 4 (byteAt r 0x37).toNat
  let base := (word32At r 8).toNat
  let width := (half16At r 0x0C).toNat
  let height := (half16At r 0x0E).toNat
  let stride := (half16At r 0x10).toNat
  let band ← bandOf r height
  when (base % 256 = 0 && 1 ≤ width && width ≤ 4096 && 1 ≤ height && height ≤ 4096 && stride % 64 = 0 &&
      f.rowBytes width ≤ stride && stride ≤ 16384)
    { base := base, width := width, height := height, format := f, stride := stride, palette := palette, band := band }

/-- The parameters that a kind reads, each in its range; none when a field is out of its range (R40 step 2, R185).
`panelHeight` is the panel parameter that PANEL's rows are judged against (R39). -/
def Kind.fieldsOf (k : Kind) (panelHeight : Nat) (r : OpRecord) : Option Op :=
  let flags := byteAt r 1
  match k with
  | .fill => do
    let dst ← below 64 (byteAt r 4).toNat
    let rop ← ropOf r
    let rect ← rectAt r 8
    let clip ← clipOf r flags
    some (.fill dst rect (word32At r 0x1C) rop clip)
  | .copy => do
    let dst ← below 64 (byteAt r 4).toNat
    let src ← below 64 (byteAt r 5).toNat
    let rop ← ropOf r
    let rect ← rectAt r 8
    let at_ ← sourcePositionOf r
    let clip ← clipOf r flags
    some (.copy src at_.1 at_.2 dst rect rop (keyOf r flags) clip)
  | .pattern => do
    let dst ← below 64 (byteAt r 4).toNat
    let src ← below 64 (byteAt r 5).toNat
    let rop ← ropOf r
    let rect ← rectAt r 8
    let at_ ← sourcePositionOf r
    let phaseX ← below 8 (byteAt r 0x35).toNat
    let phaseY ← below 8 (byteAt r 0x36).toNat
    let clip ← clipOf r flags
    some (.pattern src at_.1 at_.2 phaseX.val phaseY.val dst rect rop (keyOf r flags) clip)
  | .expand => do
    let dst ← below 64 (byteAt r 4).toNat
    let src ← below 64 (byteAt r 5).toNat
    let rop ← ropOf r
    let rect ← rectAt r 8
    let at_ ← sourcePositionOf r
    let clip ← clipOf r flags
    some (.expand src at_.1 at_.2 dst rect (word32At r 0x1C) (backOf r flags) rop clip)
  | .importPixels => do
    let dst ← below 64 (byteAt r 4).toNat
    let rect ← rectAt r 8
    let host ← hostBufferOf r rect
    let palette ← below 4 (byteAt r 0x37).toNat
    let clip ← clipOf r flags
    some (.importPixels host palette dst rect (keyOf r flags) clip)
  | .exportPixels => do
    let src ← below 64 (byteAt r 5).toNat
    let rect ← rectAt r 8
    let host ← hostBufferOf r rect
    some (.exportPixels src rect host)
  | .loadPalette => do
    let palette ← below 4 (byteAt r 0x37).toNat
    let first := (byteAt r 0x38).toNat
    let count := (half16At r 0x3A).toNat
    let address := long64At r 0x28
    when (1 ≤ count && count ≤ 256 && first + count ≤ 256 && address.toNat % 4 = 0 &&
        address.toNat + 4 * count ≤ Config.hostBytes)
      (.loadPalette palette first count address)
  | .define => do
    let id ← below 64 (byteAt r 4).toNat
    let fields ← surfaceFieldsOf r
    some (.define id fields)
  | .retire => do
    let id ← below 64 (byteAt r 4).toNat
    some (.retire id)
  | .scroll => do
    let id ← below 64 (byteAt r 4).toNat
    some (.scroll id (half16At r 0x18).toNat)
  | .signal => do
    let mark ← below 16 (byteAt r 0x38).toNat
    some (.signal mark (word32At r 0x3C))
  | .wait => do
    let mark ← below 16 (byteAt r 0x38).toNat
    some (.wait mark (word32At r 0x3C) (half16At r 0x3A).toNat)
  | .present => do
    let id ← below 64 (byteAt r 4).toNat
    some (.present id)
  | .setPanel =>
    let display := byteAt r 0x38
    let first := (half16At r 0x3A).toNat
    let last := (half16At r 0x3C).toNat
    when (display ≤ 1#8 && first ≤ last && last < panelHeight)
      (.setPanel (display.getLsbD 0) first last ((word32At r 0x1C).setWidth 24))
  | .note => some .note

/-- Steps 1 and 2 of the admission checks (R40): the kind code, then the flags and the fields. -/
def decodeRecord (panelHeight : Nat) (r : OpRecord) : Except Status Op :=
  match Kind.ofCode (byteAt r 0) with
  | none => .error .badKind
  | some k =>
    if k.flagsOk (byteAt r 1) then
      match k.fieldsOf panelHeight r with
      | some op => .ok op
      | none => .error .badField
    else .error .badField

/-! ## The setup record (R171, section 12.4) -/

/-- A ring size: a power of two in 16..4096. -/
def ringSizeOk (n : Nat) : Bool := [16, 32, 64, 128, 256, 512, 1024, 2048, 4096].contains n

/-- sq_count. -/
def setupSqCount (r : SetupRecord) : Nat := (byteAt r 0).toNat

/-- cq_count. -/
def setupCqCount (r : SetupRecord) : Nat := (byteAt r 1).toNat

/-- The device vector, when its byte lies in 0..31 (R173, R186). -/
def setupDeviceVector (r : SetupRecord) : Option VectorId := below 32 (byteAt r 2).toNat

/-- SQ descriptor n as the context that the entry to RUNNING gives the queue (R42); none when a field is out of its range. -/
def setupQueue (r : SetupRecord) (n : QueueId) : Option Queue := do
  let o := 0x10 + 16 * n.val
  let base := long64At r o
  let size := (half16At r (o + 8)).toNat
  let service := byteAt r (o + 0x0A)
  let cq ← below 4 (byteAt r (o + 0x0B)).toNat
  let policy := byteAt r (o + 0x0C)
  let quota := (byteAt r (o + 0x0D)).toNat
  when (base.toNat % 64 = 0 && ringSizeOk size && service ≤ 1#8 && cq.val < setupCqCount r && policy ≤ 1#8 &&
      1 ≤ quota && quota ≤ 32 && base.toNat + size * 64 ≤ Config.hostBytes)
    { state := .opened, base := base, size := size, service := if service = 1#8 then .urgent else .normal, cq := cq,
      policy := if policy = 1#8 then .halt else .goOn, quota := quota, head := 0, tail := 0, occupied := 0, abort := .absent }

/-- CQ descriptor m as the context that the entry to RUNNING gives the completion queue (R137). -/
def setupCq (r : SetupRecord) (m : CqId) : Option CompletionQueue := do
  let o := 0x90 + 16 * m.val
  let base := long64At r o
  let size := (half16At r (o + 8)).toNat
  let vector ← below 32 (byteAt r (o + 0x0A)).toNat
  let threshold := (byteAt r (o + 0x0B)).toNat
  let timer := (half16At r (o + 0x0C)).toNat
  when (base.toNat % 64 = 0 && ringSizeOk size && 1 ≤ threshold && timer ≤ 1000 &&
      base.toNat + size * 16 ≤ Config.hostBytes)
    { base := base, size := size, vector := vector, threshold := threshold, timer := timer, tail := 0, head := 0, lap := 1#8,
      outstanding := 0, posting := [], inFlight := none, count := 0, deadline := none }

/-- The panel parameters (R152). -/
def setupPanel (r : SetupRecord) : Option PanelParams :=
  let width := (half16At r 0xD0).toNat
  let height := (half16At r 0xD2).toNat
  let period := (word32At r 0xD4).toNat
  when (16 ≤ width && width ≤ 2048 && 16 ≤ height && height ≤ 2048 && 8000 ≤ period && period ≤ 50000)
    { width := width, height := height, period := period }

/-- The record is valid (R171). Descriptors numbered sq_count or cq_count and above are not judged. -/
def setupValid (r : SetupRecord) : Bool :=
  1 ≤ setupSqCount r && setupSqCount r ≤ 8 && 1 ≤ setupCqCount r && setupCqCount r ≤ 4 &&
  (setupDeviceVector r).isSome &&
  (List.finRange 8).all (fun n => n.val ≥ setupSqCount r || (setupQueue r n).isSome) &&
  (List.finRange 4).all (fun m => m.val ≥ setupCqCount r || (setupCq r m).isSome) &&
  (setupPanel r).isSome

/-- The queue contexts at the entry to RUNNING (R42). -/
def setupQueues (r : SetupRecord) : Vector (Option Queue) 8 :=
  Vector.ofFn fun n => if n.val < setupSqCount r then setupQueue r n else none

/-- The completion queue contexts at the entry to RUNNING (R137). -/
def setupCqs (r : SetupRecord) : Vector (Option CompletionQueue) 4 :=
  Vector.ofFn fun m => if m.val < setupCqCount r then setupCq r m else none

end Sys2Proof.Machine
end

