-- ==== Sys2Proof/Machine/Regions.lean ====
section
/-! DEFINITION. The admission checks that need the surface table (R7 to R9, R13, R40 steps 3 to 9), and the regions that an
admitted operation holds (R65 to R67). -/

namespace Sys2Proof.Machine

/-- The fields of a surface that is DEFINED. -/
def State.definedFields (s : State) (id : SurfaceId) : Option SurfaceFields :=
  if (s.surface id).state = .defined then (s.surface id).fields else none

/-- The extents of two surfaces overlap: the lower end of each is at or below the upper end of the other (R6). -/
def extentsOverlap (a b : SurfaceFields) : Bool := a.base < b.base + b.extentBytes && b.base < a.base + a.extentBytes

/-- The extent crosses 01FF_FFFFh or overlaps that of a DEFINED or RETIRING surface (R8). -/
def State.extentTaken (s : State) (d : SurfaceFields) : Bool :=
  Config.frameBytes < d.base + d.extentBytes ||
  (List.finRange 64).any fun i =>
    match (s.surface i).fields with
    | some f => (s.surface i).state ≠ .free && extentsOverlap d f
    | none => false

/-- KEY on an M1 source is refused (R26, R40 step 4). -/
def keyRefused (key : Option (BitVec 32)) (src : SurfaceFields) : Bool := key.isSome && src.format = .m1

/-- Steps 3 to 6 for a kind that names a source and a destination surface: state, key, pairing, rectangles. -/
def State.checkMove (s : State) (src dst : SurfaceId) (key : Option (BitVec 32)) (paired : Format → Format → Bool)
    (srcRect rect : Rect) : Option Status :=
  match s.definedFields src, s.definedFields dst with
  | some a, some b =>
    if keyRefused key a then some .badField
    else if !paired a.format b.format then some .badFormat
    else if !(srcRect.inside a && rect.inside b) then some .badRange
    else none
  | _, _ => some .surfaceState

/-- Steps 3 to 9 of R40: the status of the first check that fails, or none when the record passes. -/
def State.checkOp (s : State) (op : Op) : Option Status :=
  match op with
  | .fill dst rect _ _ _ =>
    match s.definedFields dst with
    | none => some .surfaceState
    | some b => if rect.inside b then none else some .badRange
  | .copy src x y dst rect _ key _ =>
    s.checkMove src dst key conversionAllowed { x := x, y := y, w := rect.w, h := rect.h } rect
  | .pattern src x y _ _ dst rect _ key _ =>
    s.checkMove src dst key (fun a b => a = b) { x := x, y := y, w := 8, h := 8 } rect
  | .expand src x y dst rect _ _ _ _ =>
    s.checkMove src dst none (fun a _ => a = .m1) { x := x, y := y, w := rect.w, h := rect.h } rect
  | .importPixels host _ dst rect _ _ =>
    match s.definedFields dst with
    | none => some .surfaceState
    | some b =>
      if !conversionAllowed host.format b.format then some .badFormat
      else if rect.inside b then none else some .badRange
  | .exportPixels src rect host =>
    match s.definedFields src with
    | none => some .surfaceState
    | some a =>
      if !conversionAllowed a.format host.format then some .badFormat
      else if rect.inside a then none else some .badRange
  | .define id d =>
    if (s.surface id).state ≠ .free then some .surfaceState
    else if s.extentTaken d then some .overlap else none
  | .retire id =>
    if (s.surface id).state ≠ .defined then some .surfaceState
    else if (s.surface id).shown || 0 < (s.surface id).presentRefs then some .displayBusy else none
  | .scroll id origin =>
    match (s.definedFields id).bind SurfaceFields.band with
    | none => some .surfaceState
    | some b => if origin < b.rows then none else some .badField
  | .present id =>
    match s.definedFields id with
    | none => some .surfaceState
    | some d =>
      if d.format = .m1 then some .badFormat
      else match s.presentation.panel with
        | none => some .geometry
        | some p => if d.width = p.width ∧ d.height = p.height then none else some .geometry
  | .loadPalette _ _ _ _ | .signal _ _ | .wait _ _ _ | .setPanel _ _ _ _ | .note => none

/-- The admission checks of R40 in order: the operation, or the status of the first check that fails. -/
def State.checkRecord (s : State) (r : OpRecord) : Except Status Op :=
  match decodeRecord ((s.presentation.panel.map PanelParams.height).getD 0) r with
  | .error st => .error st
  | .ok op =>
    match s.checkOp op with
    | some st => .error st
    | none => .ok op

/-! ## Regions -/

/-- A rectangle of a surface. -/
def regionOf (id : SurfaceId) (r : Rect) : Region := { resource := .surface id, rect := some r }

/-- A whole resource. -/
def whole (r : Resource) : Region := { resource := r, rect := none }

/-- Two regions meet (R65). -/
def Region.meets (a b : Region) : Bool :=
  a.resource = b.resource &&
  match a.rect, b.rect with
  | some p, some q => p.overlaps q
  | _, _ => true

/-- dst∩clip (R66). -/
def clippedRect (rect : Rect) (clip : Option Rect) : Rect :=
  match clip with
  | none => rect
  | some c => rect.intersect c

/-- The palette read region of a conversion that looks up (R66). -/
def lookupRegion (looksUp : Bool) (p : PaletteId) : List Region := if looksUp then [whole (.palette p)] else []

/-- The destination read region, if D is read (R66). -/
def destinationRead (rop : BitVec 4) (dst : SurfaceId) (r : Rect) : List Region :=
  if ropReadsDestination rop then [regionOf dst r] else []

/-- The read regions of R66, for an operation whose clip leaves something to write. -/
def State.readRegions (s : State) (op : Op) : List Region :=
  match op with
  | .fill dst rect _ rop clip => destinationRead rop dst (clippedRect rect clip)
  | .copy src x y dst rect rop _ clip =>
    regionOf src { x := x, y := y, w := rect.w, h := rect.h } :: destinationRead rop dst (clippedRect rect clip) ++
    match (s.surface src).fields, (s.surface dst).fields with
    | some a, some b => lookupRegion (conversionLooksUp a.format b.format) a.palette
    | _, _ => []
  | .pattern src x y _ _ dst rect rop _ clip =>
    regionOf src { x := x, y := y, w := 8, h := 8 } :: destinationRead rop dst (clippedRect rect clip)
  | .expand src x y dst rect _ _ rop clip =>
    regionOf src { x := x, y := y, w := rect.w, h := rect.h } :: destinationRead rop dst (clippedRect rect clip)
  | .importPixels host palette dst _ _ _ =>
    match (s.surface dst).fields with
    | some b => lookupRegion (host.format = .i8 && b.format ≠ .i8) palette
    | none => []
  | .exportPixels src rect host =>
    regionOf src rect ::
    match (s.surface src).fields with
    | some a => lookupRegion (conversionLooksUp a.format host.format) a.palette
    | none => []
  | .present id => [whole (.surface id)]
  | .loadPalette _ _ _ _ | .define _ _ | .retire _ | .scroll _ _ | .signal _ _ | .wait _ _ _ | .setPanel _ _ _ _ | .note => []

/-- The write region of R66, for an operation whose clip leaves something to write. -/
def Op.writeRegions : Op → List Region
  | .fill dst rect _ _ clip | .copy _ _ _ dst rect _ _ clip | .pattern _ _ _ _ _ dst rect _ _ clip
  | .expand _ _ _ dst rect _ _ _ clip | .importPixels _ _ dst rect _ clip => [regionOf dst (clippedRect rect clip)]
  | .loadPalette p _ _ _ => [whole (.palette p)]
  | .retire id | .scroll id _ => [whole (.surface id)]
  | .present _ | .setPanel _ _ _ _ => [whole .panel]
  | .exportPixels _ _ _ | .define _ _ | .signal _ _ | .wait _ _ _ | .note => []

/-- The read regions that an admitted operation holds: none when its clip leaves nothing to write (R67). -/
def State.heldReads (s : State) (op : Op) : List Region := if op.emptyClip then [] else s.readRegions op

/-- The write region that an admitted operation holds: none when its clip leaves nothing to write (R67). DESIGN CHOICE (unsafe, log 34):
without regions such an operation has no dependency (R27, R68), so that it does not wait for an earlier SCROLL of a surface that it names,
where R13 has every later operation naming the surface wait for the SCROLL. -/
def Op.heldWrites (op : Op) : List Region := if op.emptyClip then [] else op.writeRegions

/-- One list has a region that meets one of the other. -/
def anyMeet (xs ys : List Region) : Bool := xs.any fun x => ys.any fun y => x.meets y

/-- A region of a slot meets one of the operation's, and at least one of the two is a write region (R68). -/
def Slot.conflicts (sl : Slot) (reads writes : List Region) : Bool :=
  anyMeet sl.writes writes || anyMeet sl.writes reads || anyMeet sl.reads writes

/-- BLOCKED, READY or RUNNING: admitted and not ended (R68). -/
def Slot.unended (sl : Slot) : Bool := sl.state = .blocked || sl.state = .ready || sl.state = .running

/-- The operation names the surface (R7). -/
def Op.names (op : Op) (id : SurfaceId) : Bool :=
  op.dst = some id || op.src = some id ||
  match op with
  | .define x _ | .retire x | .scroll x _ | .present x => x = id
  | _ => false

/-- The surface of a RETIRE or a SCROLL, each of which waits for every earlier operation naming it that has not ended (R9, R13). -/
def Op.settledSurface : Op → Option SurfaceId
  | .retire id | .scroll id _ => some id
  | _ => none

/-- The slot holds an operation that names the surface. -/
def Slot.names (sl : Slot) (id : SurfaceId) : Bool := sl.op.any fun op => op.names id

/-- The dependency set of an operation at its admission: the unended slots whose regions conflict with its own (R68), and for a RETIRE or a
SCROLL those that name its surface (R9, R10, R13). An operation whose clip leaves nothing to write holds no region (R67) and would be
missed by R68 alone; DESIGN CHOICE (unsafe, log 34): such a slot is in the set as R9 and R13 have it, by which the law of R7 holds. -/
def State.dependencies (s : State) (op : Op) : List SlotId :=
  (List.finRange 32).filter fun i => (s.slot i).unended &&
    ((s.slot i).conflicts (s.heldReads op) op.heldWrites || op.settledSurface.any (s.slot i).names)

end Sys2Proof.Machine
end

