-- ==== Sys2Proof/Machine/Ops.lean ====
section
/-! DEFINITION. The shared operations of the blocks: the free order of things that come together, the timers (R180), interrupts (R147),
the issue of completion writes (R138, R141), the freeing of a slot (R80), the ending of slots (R79) with what it releases (R69, R70,
R75 to R77, R129, R130), and the end of a stop (R175). -/

namespace Sys2Proof.Machine

/-! ## Things that come together -/

/-- Put an element at a place of a list. -/
def insertAt {α : Type} (n : Nat) (x : α) (l : List α) : List α := l.take n ++ x :: l.drop n

/-- The order numbered k of a list's elements; every order has a number. One element has one order. -/
def shuffle {α : Type} : Nat → List α → List α
  | _, [] => []
  | _, [x] => [x]
  | k, x :: y :: rest =>
    insertAt (k % (rest.length + 2)) x (shuffle (k / (rest.length + 2)) (y :: rest))

/-- The order in which things that come together are taken, now: a free value (log 8). -/
def State.together {α : Type} (s : State) (l : List α) : List α := shuffle (Config.togetherOrder s.choices) l

/-- One open choice has been taken. -/
def State.choose (s : State) : State := { s with choices := s.choices + 1 }

/-! ## Timers -/

/-- The later of two device timer readings. -/
def laterTime (a b : Time) : Time := if a.toNat < b.toNat then b else a

/-- The device timer has reached a reading (R180, log 3). -/
def State.reach (s : State) (deadline : Time) : State :=
  { s with control := { s.control with timer := laterTime s.control.timer deadline } }

/-- The timers that run, each with the event of its expiry and its deadline: the WAITs with a timeout and the frame timer in RUNNING,
and the coalescing timers (R131, R146, R154, R180). -/
def State.liveTimers (s : State) : List (Instr × Time) :=
  (if s.control.deviceState = .running then
    s.waiting.filterMap fun w => w.deadline.map fun d => (.waitExpiry w.slot, d)
  else []) ++
  ((List.finRange 4).filterMap fun k =>
    match s.cq k with
    | some c => c.deadline.map fun d => (.coalescingTimerExpiry k, d)
    | none => none) ++
  match s.presentation.panel, s.presentation.frameDeadline with
  | some _, some d => if s.control.deviceState = .running then [(.frameStart, d)] else []
  | _, _ => []

/-- The device timer may come to a reading: no timer that runs has an earlier deadline, at which it would expire first (R180). -/
def State.mayReach (s : State) (deadline : Time) : Bool := s.liveTimers.all fun x => deadline.toNat ≤ x.2.toNat

/-! ## The host link and interrupts -/

/-- A message is sent only while message interrupts and bus mastering are enabled and the vector is not masked (R147). -/
def HostLink.allows (l : HostLink) (v : VectorId) : Bool := l.messageInterrupts && l.busMastering && !l.masked[v]

/-- The part issues a write (R110, R141). -/
def State.emit (s : State) (w : LinkWrite) : State := { s with link := { s.link with written := s.link.written ++ [w] } }

/-- A completion write in flight. -/
def LinkWrite.isIssued : LinkWrite → Bool
  | .issued _ _ _ => true
  | .bytes _ _ | .message _ | .abandoned _ _ => false

/-- Bytes join the part's writes: behind all that the link has taken, ahead of every completion write in flight. -/
def acceptBytes (address : Nat) (data : List Byte) (written : List LinkWrite) : List LinkWrite :=
  written.takeWhile (fun w => !w.isIssued) ++ .bytes address data :: written.dropWhile fun w => !w.isIssued

/-- The link accepts bytes: it takes the part's writes in the order of issue, and they reach host memory in the order in which they are
accepted (R110, R116, R141). -/
def State.accept (s : State) (address : Nat) (data : List Byte) : State :=
  { s with link := { s.link with written := acceptBytes address data s.link.written } }

/-- The entry is the issued completion write of a queue. -/
def LinkWrite.isIssuedBy (k : CqId) : LinkWrite → Bool
  | .issued p _ _ => p = k
  | .bytes _ _ | .message _ | .abandoned _ _ => false

/-- The completion write of a queue is the next that the link takes: none that was issued before it is in flight (R141). -/
def HostLink.takesNext (l : HostLink) (k : CqId) : Bool :=
  (l.written.takeWhile fun w => !w.isIssuedBy k).all fun w => !w.isIssued

/-- The link can take a write of a transfer's line in hand: no completion write is in flight that was issued before the line was begun, since
the line's writes are issued after that (R110, R141). -/
def State.takesLine (s : State) (j : Job) : Bool :=
  (List.finRange 4).all fun k =>
    match (s.cq k).bind CompletionQueue.inFlight with
    | some w => !w.sent || decide (j.begun < w.choice)
    | none => true

/-- The completion write of a queue is no longer in flight. -/
def State.dropIssued (s : State) (k : CqId) : State :=
  { s with link := { s.link with written := s.link.written.filter fun w => !w.isIssuedBy k } }

/-- An interrupt is raised on a vector: a message, or the vector's pending flag (R147). -/
def State.interrupt (s : State) (v : VectorId) : State :=
  if s.link.allows v then s.emit (.message v)
  else { s with link := { s.link with pendingFlags := s.link.pendingFlags.set v true } }

/-- The device vector is signalled (R148, R174 to R176). -/
def State.signalDevice (s : State) : State := s.interrupt s.control.deviceVector

/-! ## The issue of completion writes (R141) -/

/-- The completion record of a slot (R138): lap and sq_head as they stand at the issue. -/
def State.completionEntry (s : State) (c : CompletionQueue) (i : SlotId) : CompletionEntry :=
  let sl := s.slot i
  { sq := sl.queue.getD 0
    kind := sl.kind
    tag := sl.tag
    status := sl.status.getD .ok
    lap := c.lap
    sqHead := match sl.queue.bind s.queue with | some q => BitVec.ofNat 16 q.head | none => 0#16
    detail := sl.detail }

/-- The write of a slot's completion record at base + tail × 16 (R141). -/
def State.completionWrite (s : State) (c : CompletionQueue) (i : SlotId) : CompletionWrite :=
  { slot := i, address := c.base.toNat + c.tail * 16, entry := s.completionEntry c i, sent := s.link.busMastering,
    choice := s.choices }

/-- The conditions of R141 but the posting list's. -/
def State.mayIssue (s : State) (c : CompletionQueue) : Bool :=
  (s.control.deviceState = .running || s.control.deviceState = .stopping) && c.inFlight.isNone &&
    c.outstanding + 1 < c.size

/-- A completion queue's write is in flight; the link takes it in the order of issue, unless bus mastering is off (R110, R141). -/
def State.putInFlight (s : State) (k : CqId) (c : CompletionQueue) (w : CompletionWrite) : State :=
  let t := s.setCq k (some { c with inFlight := some w })
  if w.sent then t.emit (.issued k w.address w.entry.bytes) else t

/-- A completion queue issues the write of the oldest member of its posting list when the conditions of R141 hold. -/
def State.issue (s : State) (k : CqId) : State :=
  match s.cq k with
  | none => s
  | some c =>
    match c.posting with
    | [] => s
    | i :: _ => if s.mayIssue c then s.putInFlight k c (s.completionWrite c i) else s

/-- The completion queues for which the conditions of R141 hold. -/
def State.writesDue (s : State) : List CqId :=
  (List.finRange 4).filter fun k =>
    match s.cq k with
    | some c => !c.posting.isEmpty && s.mayIssue c
    | none => false

/-- Every write whose conditions hold is issued at once; the four queues issue independently, so in a free order (R141). -/
def State.issueWrites (s : State) : State := (s.together s.writesDue).foldl State.issue s.choose

/-! ## Slots and their queues -/

/-- The slot is FREE. -/
def State.isFree (s : State) (i : SlotId) : Bool := (s.slot i).state = .free

/-- A slot joins the posting list of the completion queue bound to its queue, after every slot that ended before it (R79, R140). -/
def State.post (s : State) (i : SlotId) (q : QueueId) : State :=
  match s.queue q with
  | none => s
  | some c => s.modifyCq c.cq fun k => { k with posting := k.posting ++ [i] }

/-- A DRAINING queue's acknowledgement has been placed, and it holds no slot but the acknowledgement's (R59). -/
def State.drained (s : State) (q : QueueId) (c : Queue) : Bool :=
  c.state = .draining &&
  match c.abort with
  | .placed j => (List.finRange 32).all fun i => i = j || (s.slot i).queue ≠ some q
  | _ => false

/-- The end of DRAINING (R59). -/
def State.endDraining (s : State) (q : QueueId) : State :=
  match s.queue q with
  | none => s
  | some c => if s.drained q c then s.setQueue q (some { c with state := .opened, abort := .absent }) else s

/-- The slot that an acknowledgement takes (R58): ENDED with QUEUE_ABORTED and the skipped count, tag 0 and kind 0. -/
def acknowledgementSlot (q : QueueId) (skipped : Nat) : Slot :=
  { Slot.freed with state := .ended, queue := some q, status := some .queueAborted, detail := BitVec.ofNat 32 skipped }

/-- The acknowledgement of a queue is placed in a slot: occupied rises, it joins the posting list, and DRAINING may end (R52, R58,
R59). -/
def State.placeAck (s : State) (q : QueueId) (c : Queue) (skipped : Nat) (i : SlotId) : State :=
  let t := s.setSlot i (acknowledgementSlot q skipped)
  let t := t.setQueue q (some { c with occupied := c.occupied + 1, abort := .placed i })
  let t := { t with ackOrder := s.ackOrder.filter (· ≠ q) }
  (t.post i q).endDraining q

/-- The first acknowledgement that waits for any FREE slot takes this one (R58). -/
def State.serveWaiting (s : State) (i : SlotId) : State :=
  match s.ackOrder with
  | [] => s
  | p :: _ =>
    match s.queue p with
    | none => s
    | some c =>
      match c.abort with
      | .owed n .anyFree => s.placeAck p c n i
      | _ => s

/-- A slot of a queue has become FREE (R58, R80): an owed acknowledgement of the queue takes it at once; otherwise DRAINING may end
(R59), and the first acknowledgement that waits for any slot takes it. In FAULT no acknowledgement is placed and the queue context
keeps every other field (R58, R60): that a DRAINING queue is not then made OPEN by R59 is a DESIGN CHOICE (unsafe, log 24). -/
def State.claimFreed (s : State) (q : QueueId) (i : SlotId) : State :=
  if s.control.deviceState = .fault then s
  else match s.queue q with
  | none => s
  | some c =>
    match c.abort with
    | .owed n .firstFreed => s.placeAck q c n i
    | _ => (s.endDraining q).serveWaiting i

/-- A slot becomes FREE, with the effects on its queue (R80): occupied falls by one, and the slot goes to the first claimant. -/
def State.freeSlot (s : State) (i : SlotId) : State :=
  match (s.slot i).queue with
  | none => s
  | some q =>
    let s := { s.setSlot i Slot.freed with order := s.order.filter (· ≠ i) }
    let s := s.modifyQueue q (fun (c : Queue) => { c with occupied := c.occupied - 1 })
    s.claimFreed q i

/-! ## Surfaces -/

/-- Change a surface record. -/
def State.modifySurface (s : State) (id : SurfaceId) (f : Surface → Surface) : State := s.setSurface id (f (s.surface id))

/-- A counted PRESENT leaves present_refs (R14). -/
def State.dropPresent (s : State) (id : SurfaceId) : State :=
  s.modifySurface id fun r => { r with presentRefs := r.presentRefs - 1 }

/-- An unexecuted RETIRE returns its surface to DEFINED, with its fields as they were (R11). -/
def State.returnRetiring (s : State) (id : SurfaceId) : State :=
  s.modifySurface id fun r => if r.state = .retiring then { r with state := .defined } else r

/-- Replace a band's origin (R13), which is always below its rows (R12): a SCROLL whose origin is not has been refused. -/
def Band.withOrigin (b : Band) (origin : Nat) : Band := { b with origin := if origin < b.rows then origin else b.origin }

/-- Replace the band origin of a surface (R13). -/
def Surface.withOrigin (r : Surface) (origin : Nat) : Surface :=
  { r with fields := r.fields.map fun d => { d with band := d.band.map fun b => b.withOrigin origin } }

/-! ## The ending of slots (R79) -/

/-- The slot as it stands after its end: status and detail set; regions, dependency set and ordered pending cleared (R61). -/
def Slot.endedWith (sl : Slot) (st : Status) (detail : BitVec 32) : Slot :=
  { sl with state := .ended, reads := [], writes := [], deps := [], orderedPending := false, engine := none,
            status := some st, detail := detail }

/-- What the end of an admitted operation does to its surface's claims: a PRESENT leaves present_refs, a RETIRE that did not
execute returns its surface to DEFINED (step 3 of R79). -/
def State.releaseClaim (s : State) (sl : Slot) (st : Status) : State :=
  if sl.unended then
    match sl.op with
    | some (.present id) => s.dropPresent id
    | some (.retire id) => if st = .ok then s else s.returnRetiring id
    | _ => s
  else s

/-- What an ending does to its queue's state: an error under HALT halts an OPEN or WAITING queue (R53); otherwise the end of its
WAIT takes a WAITING queue to OPEN (R54). -/
def Queue.afterEnding (c : Queue) (waited : Bool) (st : Status) : Queue :=
  if st.isError && c.policy = .halt && (c.state = .opened || c.state = .waiting) then { c with state := .halted }
  else if waited && c.state = .waiting then { c with state := .opened }
  else c

/-- The slot holds a WAIT that waits. -/
def Slot.isWaiting (sl : Slot) : Bool :=
  sl.unended && match sl.op with | some op => op.isWait | none => false

/-- One slot ends: the steps of R79 but the release of its dependents. -/
def State.endSlot (s : State) (e : Ending) : State :=
  let sl := s.slot e.slot
  match sl.queue with
  | none => s
  | some q =>
    let s := s.releaseClaim sl e.status
    let s := s.setSlot e.slot (sl.endedWith e.status e.detail)
    let s := { s with
      waiting := s.waiting.filter (fun w => w.slot ≠ e.slot)
      presentation := { s.presentation with
        held := if s.presentation.held = some e.slot then none else s.presentation.held } }
    let s := s.modifyQueue q (fun c => c.afterEnding sl.isWaiting e.status)
    if e.status = .ok ∧ flagQuiet sl.flags then s.freeSlot e.slot else s.post e.slot q

/-- The slots are removed from every dependency set (R69). -/
def State.removeDependencies (s : State) (gone : List SlotId) : State :=
  { s with slots := Vector.ofFn fun i =>
      { s.slots[i] with deps := s.slots[i].deps.filter fun d => !gone.contains d } }

/-- Slots that end together, joining their posting lists in either order (R79). -/
def State.endTogether (s : State) (es : List Ending) : State :=
  let t := (s.together es).foldl State.endSlot s.choose
  t.removeDependencies (es.map Ending.slot)

/-! ## Release (R69, R70, R75 to R77) -/

/-- An earlier slot of the same queue is BLOCKED, READY or RUNNING (R70). -/
def State.earlierUnended (s : State) (i : SlotId) : Bool :=
  (s.order.takeWhile (· ≠ i)).any fun j => (s.slot j).queue = (s.slot i).queue && (s.slot j).unended

/-- Ordered pending is tested again in every queue (R70). -/
def State.retestOrdered (s : State) : State :=
  { s with slots := Vector.ofFn fun i =>
      { s.slots[i] with orderedPending := s.slots[i].orderedPending && s.earlierUnended i } }

/-- A BLOCKED slot whose dependency set is empty, whose ordered pending is no, and which is not a WAIT (R69). -/
def Slot.releasable (sl : Slot) : Bool := sl.state = .blocked && sl.deps.isEmpty && !sl.orderedPending && !sl.isWaiting

/-- The slots that become READY now: none outside RUNNING (R81, R82). -/
def State.releasableSlots (s : State) : List SlotId :=
  if s.control.deviceState = .running then s.order.filter fun i => (s.slot i).releasable else []

/-- The slots become READY. -/
def State.markReady (s : State) (ready : List SlotId) : State :=
  { s with slots := Vector.ofFn fun i =>
      if ready.contains i then { s.slots[i] with state := .ready } else s.slots[i] }

/-- A SIGNAL executed on its mark (R129, R130): the endings it brings, its own and those of the WAITs it satisfies. -/
def State.executeSignal (s : State) (i : SlotId) (m : MarkId) (v : BitVec 32) : State × List Ending :=
  if v.toNat < (s.mark m).toNat then (s, [{ slot := i, status := .markRegress, detail := s.mark m }])
  else
    let satisfied := fun (w : WaitEntry) => w.mark = m && w.value.toNat ≤ v.toNat
    ({ s.setMark m v with waiting := s.waiting.filter fun w => !satisfied w },
     { slot := i, status := .ok, detail := v } ::
       (s.waiting.filter satisfied).map fun w => { slot := w.slot, status := .ok, detail := v })

/-- A READY slot is handed to the block that executes its kind (section 4.6): the window and the mark table execute theirs at
once, the presentation unit holds its own, and an engine kind waits for DISPATCH. -/
def State.execute (s : State) (i : SlotId) : State × List Ending :=
  match (s.slot i).op with
  | some (.retire id) => (s.setSurface id Surface.freed, [{ slot := i, status := .ok, detail := 0#32 }])
  | some (.scroll id origin) =>
    (s.modifySurface id (fun r => r.withOrigin origin), [{ slot := i, status := .ok, detail := 0#32 }])
  | some .note => (s, [{ slot := i, status := .ok, detail := 0#32 }])
  | some (.signal m v) => s.executeSignal i m v
  | some (.present _) | some (.setPanel _ _ _ _) =>
    (({ s with presentation := { s.presentation with held := some i } } : State).setSlot i
      { s.slot i with state := .running }, [])
  | some op => if op.emptyClip then (s, [{ slot := i, status := .ok, detail := 0#32 }]) else (s, [])
  | none => (s, [])

/-- READY slots are executed one after another, in a free order (R132). -/
def State.executeAll (s : State) (ready : List SlotId) : State × List Ending :=
  (s.together ready).foldl
    (fun (p : State × List Ending) i =>
      let r := p.1.execute i
      (r.1, p.2 ++ r.2))
    (s.choose, [])

/-- Endings, what they release, what that ends in its turn, and so on within the one step. Each round ends at least one slot, so
33 rounds are enough for 32 slots. DESIGN CHOICE (unsafe, log 31): what one ending releases is executed before what a RETIRE, SCROLL or
NOTE that it releases releases in its turn, and the posting goes round by round; R132 leaves that order open. -/
def State.settle : Nat → State → List Ending → State
  | 0, s, _ => s
  | _ + 1, s, [] => s
  | n + 1, s, e :: es =>
    let s := (s.endTogether (e :: es)).retestOrdered
    let ready := s.releasableSlots
    let r := (s.markReady ready).executeAll ready
    State.settle n r.1 r.2

/-- The rounds that `settle` may take. -/
def settleRounds : Nat := 33

/-! ## The end of a stop (R175) -/

/-- The interrupts of R148 at the passage from STOPPING to OFF: one for each completion queue whose count is at least 1. -/
def State.stopInterrupts (s : State) : State :=
  let due := (List.finRange 4).filterMap fun k =>
    match s.cq k with
    | some c => if 1 ≤ c.count then some c.vector else none
    | none => none
  (s.together due).foldl State.interrupt s.choose

/-- Every queue and completion queue unconfigured, with the panel parameters (R60, R151, R152). -/
def State.unconfigure (s : State) : State :=
  { s with
    queues := Vector.replicate 8 none
    cqs := Vector.replicate 4 none
    ackOrder := []
    presentation := { s.presentation with panel := none } }

/-- Every window slot is FREE. -/
def State.windowFree (s : State) : Bool := (List.finRange 32).all fun i => (s.slot i).state = .free

/-- A STOPPING device whose slots are all FREE enters OFF (R175). -/
def State.finishStop (s : State) : State :=
  if s.control.deviceState = .stopping ∧ s.windowFree then
    let s := s.stopInterrupts.unconfigure
    let s := { s with control := { s.control with deviceState := .off } }
    s.signalDevice
  else s

/-- What closes a step in which slots may have ended or become FREE: the completion writes that are then due are issued (R141), and a
stop may end (R175). -/
def State.conclude (s : State) : State := s.issueWrites.finishStop

/-- The endings that one event brings, with all that follows in its step. -/
def State.endSlots (s : State) (es : List Ending) : State :=
  if es.isEmpty then s.finishStop else (State.settle settleRounds s es).conclude

end Sys2Proof.Machine
end

