-- ==== Sys2Proof/Machine/Arbiter.lean ====
section
/-! DEFINITION. The fetch arbiter: eligibility and choice (R46, R47), the start of a fetch (R48) and its refusal (R110), and the fetches that
start within a step because it leaves the fetch path free and a queue eligible (R47). -/

namespace Sys2Proof.Machine

/-- Condition 5 of R46: the window has a FREE slot that no owed acknowledgement has a claim on. While an acknowledgement waits for a
slot, no queue is eligible (R58). -/
def State.slotForFetch (s : State) : Bool := s.ackOrder.isEmpty && (List.finRange 32).any s.isFree

/-- A queue is eligible for a fetch (R46). -/
def State.eligible (s : State) (q : QueueId) : Bool :=
  match s.queue q with
  | none => false
  | some c =>
    s.control.deviceState = .running && c.state = .opened && c.head ≠ c.tail && c.occupied < c.quota &&
    s.slotForFetch && s.fetch.isNone

/-- A queue is in a service class. -/
def State.inClass (s : State) (k : ServiceClass) (q : QueueId) : Bool :=
  match s.queue q with
  | none => false
  | some c => c.service = k

/-- The queues in the order of the search that starts one above the queue last served and wraps from 7 to 0 (R47). -/
def searchFrom (last : QueueId) : List QueueId := (List.finRange 8).map fun (k : Fin 8) => last + 1 + k

/-- The first eligible queue of a class in its search order (R47). -/
def State.firstEligible (s : State) (k : ServiceClass) (last : QueueId) : Option QueueId :=
  (searchFrom last).find? fun q => s.eligible q && s.inClass k q

/-- The arbiter's choice: an eligible URGENT queue before any NORMAL one (R47). -/
def State.chosenQueue (s : State) : Option QueueId :=
  match s.firstEligible .urgent s.lastUrgent with
  | some q => some q
  | none => s.firstEligible .normal s.lastNormal

/-- The record at the head of a queue lies at base + head × 64 (R44, R48). -/
def Queue.recordAddress (c : Queue) : Nat := c.base.toNat + c.head * 64

/-- A fetch starts for a queue in a slot (R47, R48). -/
def State.startFetch (s : State) (q : QueueId) (c : Queue) (i : SlotId) : State :=
  let t := s.setSlot i { Slot.freed with state := .fetching, queue := some q }
  let t := t.setQueue q (some { c with occupied := c.occupied + 1 })
  { t with
    lastUrgent := if c.service = .urgent then q else s.lastUrgent
    lastNormal := if c.service = .normal then q else s.lastNormal
    fetch := some { queue := q, slot := i, address := c.recordAddress, sent := s.link.busMastering, discard := false } }

/-- A fetch is begun while bus mastering is off: its read is refused at once (R110), a read fault (R50). The slot is ENDED with FETCH_FAULT and
the head as detail and is posted, the fetch path is free, and the queue is HALTED whatever its policy. -/
def State.refuseFetch (s : State) (q : QueueId) (c : Queue) (i : SlotId) : State :=
  let t : State := { s.startFetch q c i with fetch := none }
  let t := t.setSlot i { t.slot i with state := .ended, status := some .fetchFault, detail := BitVec.ofNat 32 c.head }
  let t := t.modifyQueue q fun (d : Queue) => { d with state := .halted }
  (t.post i q).issueWrites

/-- A fetch is begun for a queue in a slot (R48): its read is sent, or with bus mastering off refused at once (R110). -/
def State.beginFetch (s : State) (q : QueueId) (c : Queue) (i : SlotId) : State :=
  if s.link.busMastering then s.startFetch q c i else s.refuseFetch q c i

/-- The FREE slots of the window. -/
def State.freeSlots (s : State) : List SlotId := (List.finRange 32).filter s.isFree

/-- The FREE slot that is taken within a step, by a fetch or by an acknowledgement: R48 and R58 do not say which, so it is a free value (log 24). -/
def State.anyFreeSlot (s : State) : Option SlotId := s.freeSlots[Config.slotTaken s.choices % s.freeSlots.length]?

/-- The fetch that the arbiter starts now (R47, R48): the chosen queue with its context, and the slot it takes. -/
def State.nextFetch (s : State) : Option (QueueId × Queue × SlotId) :=
  match s.chosenQueue with
  | none => none
  | some q =>
    match s.queue q, s.anyFreeSlot with
    | some c, some i => some (q, c, i)
    | _, _ => none

/-- Fetches that start one after another, each because the one before was refused. -/
def State.serve : Nat → State → State
  | 0, s => s
  | n + 1, s =>
    match s.nextFetch with
    | none => s
    | some (q, c, i) => State.serve n (s.choose.beginFetch q c i)

/-- The end of a step that may have left the fetch path free and a queue eligible: the fetch of the chosen queue starts in it (R47). A refused
fetch halts its queue, so 8 rounds are enough for 8 queues. -/
def State.serveFetch (s : State) : State := State.serve 8 s

end Sys2Proof.Machine
end

