-- ==== Sys2Proof/Machine/Admission.lean ====
section
/-! DEFINITION. RECORD_ARRIVAL (R49): the head advances, the fetch path is freed, and the window admits or refuses the record
(R40, R41, R63 to R70, R127, R128). -/

namespace Sys2Proof.Machine

/-- The slot of an arrived record before its check: its sequence number, tag, kind byte, flags byte and parameters (R61, R63). -/
def arrivedSlot (q : QueueId) (sequence : BitVec 32) (r : OpRecord) : Slot :=
  { Slot.freed with
    state := .fetching, queue := some q, sequence := some sequence, kind := byteAt r 0, flags := byteAt r 1, tag := half16At r 2,
    record := some r }

/-- The effects that belong to admission on the surface table (step 1 of R64): R8, R9, R14. -/
def State.admissionEffect (s : State) (op : Op) : State :=
  match op with
  | .define id d => s.setSurface id { state := .defined, fields := some d, shown := false, presentRefs := 0 }
  | .retire id => s.modifySurface id fun r => { r with state := .retiring }
  | .present id => s.modifySurface id fun r => { r with presentRefs := r.presentRefs + 1 }
  | _ => s

/-- ORDERED, or a SIGNAL (R70). -/
def Op.ordered (op : Op) (flags : BitVec 8) : Bool :=
  flagOrdered flags || match op with | .signal _ _ => true | _ => false

/-- At least one slot of the queue is BLOCKED, READY or RUNNING (R70). -/
def State.queueUnended (s : State) (q : QueueId) : Bool :=
  (List.finRange 32).any fun j => (s.slot j).queue = some q && (s.slot j).unended

/-- The timeout's deadline: absent for 0, else the device timer plus timeout × 1000 µs (R128). -/
def State.waitDeadline (s : State) (timeout : Nat) : Option Time :=
  if timeout = 0 then none else some (s.control.timer + BitVec.ofNat 64 (timeout * 1000))

/-- An unsatisfied WAIT is entered in the waiting list, and its queue, if OPEN, becomes WAITING (R54, R128). -/
def State.enterWait (s : State) (i : SlotId) (q : QueueId) (m : MarkId) (v : BitVec 32) (timeout : Nat) : State :=
  let t : State := { s with waiting := s.waiting ++
    [{ slot := i, queue := q, mark := m, value := v, deadline := s.waitDeadline timeout }] }
  t.modifyQueue q fun (c : Queue) => if c.state = .opened then { c with state := .waiting } else c

/-- The slot of an admitted operation: its parameters, regions, dependency set and ordered pending (steps 2 and 3 of R64). -/
def State.admittedSlot (s : State) (sl : Slot) (q : QueueId) (op : Op) : Slot :=
  { sl with
    op := some op, reads := s.heldReads op, writes := op.heldWrites, deps := s.dependencies op,
    orderedPending := op.ordered sl.flags && s.queueUnended q }

/-- The READY slots given are executed, and what ends is settled. -/
def State.release (s : State) (ready : List SlotId) : State :=
  let r := s.executeAll ready
  r.1.endSlots r.2

/-- The first state of an admitted operation (step 4 of R64). A DEFINE ends OK; a WAIT ends OK or is entered in the waiting list;
any other is BLOCKED, or READY and released at once, where an empty clip ends it OK. -/
def State.firstState (s : State) (i : SlotId) (q : QueueId) (op : Op) (sl : Slot) : State :=
  match op with
  | .define _ _ => (s.setSlot i sl).endSlots [{ slot := i, status := .ok, detail := 0#32 }]
  | .wait m v timeout =>
    if v.toNat ≤ (s.mark m).toNat then (s.setSlot i sl).endSlots [{ slot := i, status := .ok, detail := s.mark m }]
    else (s.setSlot i { sl with state := .blocked }).enterWait i q m v timeout
  | _ =>
    if sl.deps.isEmpty && !sl.orderedPending then (s.setSlot i { sl with state := .ready }).release [i]
    else s.setSlot i { sl with state := .blocked }

/-- The admission of an arrived record in its slot (R64): a sequence number, the checks, then refusal or admission. -/
def State.admission (s : State) (q : QueueId) (i : SlotId) (r : OpRecord) : State :=
  let sl := arrivedSlot q s.sequence r
  let s := { s.setSlot i sl with sequence := s.sequence + 1#32, order := s.order ++ [i] }
  match s.checkRecord r with
  | .error st => s.endSlots [{ slot := i, status := st, detail := 0#32 }]
  | .ok op => (s.admissionEffect op).firstState i q op (s.admittedSlot sl q op)

/-- RECORD_ARRIVAL (R49): the data of a fetch that was sent and has not been overtaken. DESIGN CHOICE (unsafe, log 36): the record is refused or
admitted first, with all that this does to its queue (R53, R54), and the fetch that the freed path then allows starts after it (R47), so that
the refusal of a record under HALT policy keeps the next one from being fetched. -/
def execRecordArrival (record : OpRecord) (s : State) : Host.Outcome State Fault Refusal :=
  match s.fetch with
  | none => .next s
  | some f =>
    if f.discard || !f.sent then .next s
    else match s.queue f.queue with
      | none => .next s
      | some c =>
        let t := s.setQueue f.queue (some { c with head := (c.head + 1) % c.size })
        .next ({ t with fetch := none }.admission f.queue f.slot record).serveFetch

end Sys2Proof.Machine
end

