-- ==== Sys2Proof/Machine/Draw.lean ====
section
/-! DEFINITION. What an engine does to frame memory, pixel by pixel: the drawing kinds (R90 to R96), an imported pixel (R113), an
exported pixel (R115), and which of these touch only bytes that exist (R1). -/

namespace Sys2Proof.Machine

/-- The palette colours of an engine's lookups: the palette of the IMPORT record, else that of the source surface (R17). -/
def Job.colours (j : Job) (palettes : List (Nat × BitVec 24)) : BitVec 8 → BitVec 24 :=
  match j.op, j.src with
  | .importPixels _ p _ _ _ _, _ => Palette.read palettes p
  | _, some a => Palette.read palettes a.palette
  | _, none => fun _ => 0#24

/-- The pattern latch: the 64 values of the pattern region, row by row (R95). -/
def patternLatch (m : FrameMemory) (d : SurfaceFields) (x y : Nat) : List (BitVec 32) :=
  (List.range 64).map fun k => readPixel m d (x + k % 8) (y + k / 8)

/-- The latch entry of destination pixel (x, y) (R28, R95). -/
def latchEntry (latch : List (BitVec 32)) (phaseX phaseY : Nat) (rect : Rect) (x y : Nat) : BitVec 32 :=
  latch.getD (8 * ((phaseY + y - rect.y) % 8) + (phaseX + x - rect.x) % 8) 0#32

/-- The source operand of destination pixel (x, y), or none when the pixel is not written: clipped, keyed or transparent
(steps 1 to 5 of R90, R92 to R96). -/
def Job.operand (j : Job) (palettes : List (Nat × BitVec 24)) (m : FrameMemory) (dst : SurfaceFields) (x y : Nat) :
    Option (BitVec 32) :=
  if clippedOut j.op.clip x y then none
  else match j.op, j.src with
    | .fill _ _ colour _ _, _ => some (dst.format.trim colour)
    | .copy _ sx sy _ rect _ key _, some a =>
      let v := readPixel m a (sx + (x - rect.x)) (sy + (y - rect.y))
      if keyed key a.format v then none else some (convertPixel (j.colours palettes) a.format dst.format v)
    | .pattern _ _ _ phaseX phaseY _ rect _ key _, some a =>
      let v := latchEntry j.latch phaseX phaseY rect x y
      if keyed key a.format v then none else some v
    | .expand _ sx sy _ rect fore back _ _, some a =>
      if readPixel m a (sx + (x - rect.x)) (sy + (y - rect.y)) = 1#32 then some (dst.format.trim fore)
      else back.map dst.format.trim
    | _, _ => none

/-- The ROP code of a drawing kind; IMPORT and EXPORT write as SOURCE does (R23). -/
def Op.rop : Op → BitVec 4
  | .fill _ _ _ rop _ | .copy _ _ _ _ _ rop _ _ | .pattern _ _ _ _ _ _ _ rop _ _ | .expand _ _ _ _ _ _ _ rop _ => rop
  | _ => 10#4

/-- One destination pixel of a drawing kind (R90, R91). -/
def Job.drawPixel (j : Job) (palettes : List (Nat × BitVec 24)) (dst : SurfaceFields) (y : Nat) (m : FrameMemory) (x : Nat) :
    FrameMemory :=
  match j.operand palettes m dst x y with
  | none => m
  | some v => writePixel m dst x y (ropCombine j.op.rop dst.format v (readPixel m dst x y))

/-- The number of pixels that a line of a drawing kind visits (R90). -/
def Job.lineWidth (j : Job) : Nat := match j.op.rect with | some r => r.w | none => 0

/-- `count` pixels of line k from the `start`-th on, in the plan's pixel order (R90, R98, R99). -/
def Job.drawSome (j : Job) (palettes : List (Nat × BitVec 24)) (m : FrameMemory) (k start count : Nat) : FrameMemory :=
  match j.op.rect, j.dst with
  | some r, some d => (((j.plan.columns r).drop start).take count).foldl (j.drawPixel palettes d (j.plan.row r k)) m
  | _, _ => m

/-- Line k of a drawing kind (R87). -/
def Job.drawLine (j : Job) (palettes : List (Nat × BitVec 24)) (m : FrameMemory) (k : Nat) : FrameMemory :=
  j.drawSome palettes m k 0 j.lineWidth

/-- What is left of line k, the line in hand, after the pixels that were visited (R87, R90). -/
def Job.drawRest (j : Job) (palettes : List (Nat × BitVec 24)) (m : FrameMemory) (k : Nat) : FrameMemory :=
  j.drawSome palettes m k j.drawn j.lineWidth

/-! ## Transfers -/

/-- One imported host pixel j of line i with value v (R113). -/
def Job.importPixel (jb : Job) (palettes : List (Nat × BitVec 24)) (line j : Nat) (v : BitVec 32) (m : FrameMemory) :
    FrameMemory :=
  match jb.op, jb.dst with
  | .importPixels host _ _ rect key clip, some d =>
    let xy := host.orientation.pixel rect line j
    if clippedOut clip xy.1 xy.2 then m
    else if keyed key host.format v then m
    else writePixel m d xy.1 xy.2 (convertPixel (jb.colours palettes) host.format d.format v)
  | _, _ => m

/-- Imported host pixels from j on, with their values. -/
def Job.importRun (jb : Job) (palettes : List (Nat × BitVec 24)) (line : Nat) : Nat → List (BitVec 32) → FrameMemory → FrameMemory
  | _, [], m => m
  | j, v :: rest, m => jb.importRun palettes line (j + 1) rest (jb.importPixel palettes line j v m)

/-- The bytes of exported host pixel j of line i (R115). -/
def Job.exportPixel (jb : Job) (palettes : List (Nat × BitVec 24)) (m : FrameMemory) (line j : Nat) : List Byte :=
  match jb.op, jb.src with
  | .exportPixels _ rect host, some a =>
    let xy := host.orientation.pixel rect line j
    host.format.encode (convertPixel (jb.colours palettes) a.format host.format (readPixel m a xy.1 xy.2))
  | _, _ => []

/-- The host byte address of pixel j of line i (R112). -/
def HostBuffer.pixelAddress (h : HostBuffer) (line j : Nat) : Nat :=
  h.address.toNat + line * h.pitch + j * h.format.bytes

/-- The bytes of a run of pixels cut into pixel values (R112). -/
def Format.decodeRun (f : Format) (data : List Byte) : List (BitVec 32) :=
  (List.range (data.length / f.bytes)).map fun k => f.decode ((data.drop (k * f.bytes)).take f.bytes)

/-! ## Bytes that exist (R1) -/

/-- Every byte of the first `columns` pixels of logical row y exists: the last pixel's last byte is the highest. -/
def SurfaceFields.rowExists (d : SurfaceFields) (columns y : Nat) : Bool := d.pixelExists (columns - 1) (d.physicalRow y)

/-- Line k of a drawing kind touches only bytes that exist. -/
def Job.lineExists (j : Job) (k : Nat) : Bool :=
  match j.op.rect, j.dst with
  | some r, some d =>
    let y := j.plan.row r k
    d.rowExists (r.x + r.w) y &&
    match j.op, j.src with
    | .copy _ sx sy _ _ _ _ _, some a => a.rowExists (sx + r.w) (sy + (y - r.y))
    | .expand _ sx sy _ _ _ _ _ _, some a => a.rowExists (sx + r.w) (sy + (y - r.y))
    | _, _ => true
  | _, _ => true

/-- The pattern region touches only bytes that exist. -/
def patternExists (d : SurfaceFields) (x y : Nat) : Bool := (List.range 8).all fun k => d.rowExists (x + 8) (y + k)

/-- Host pixels j to j + n − 1 of line i map to surface pixels whose bytes exist. -/
def Job.pixelsExist (jb : Job) (line j n : Nat) : Bool :=
  match jb.op with
  | .importPixels host _ _ rect _ _ =>
    match jb.dst with
    | some d => (List.range n).all fun k =>
        let xy := host.orientation.pixel rect line (j + k)
        d.pixelExists xy.1 (d.physicalRow xy.2)
    | none => true
  | .exportPixels _ rect host =>
    match jb.src with
    | some a => (List.range n).all fun k =>
        let xy := host.orientation.pixel rect line (j + k)
        a.pixelExists xy.1 (a.physicalRow xy.2)
    | none => true
  | _ => true

end Sys2Proof.Machine
end

