-- ==== Sys2Proof/Machine/Device.lean ====
section
/-! DEFINITION. The device-level events that device control hands to every block in one step: entry to RUNNING (R174), to
STOPPING (R175), to FAULT (R176), FAULT to OFF (R177), and the effect that the three resets share (R178). -/

namespace Sys2Proof.Machine

/-! ## Engines told to stop, engines cut off -/

/-- An ACTIVE engine that is asked becomes STOP_REQUESTED (R102). -/
def Engine.askStop (g : Engine) : Engine := if g.state = .active then { g with state := .stopRequested } else g

/-- Ask every engine whose slot satisfies a condition to stop (R102). -/
def State.askEngines (s : State) (asked : SlotId → Bool) : State :=
  { s with engines := Vector.ofFn fun k =>
      match s.engines[k].slot with
      | some i => if asked i then s.engines[k].askStop else s.engines[k]
      | none => s.engines[k] }

/-- At the passage from FAULT to OFF an engine still in its line in hand becomes DETACHED (R107). -/
def Engine.detach (g : Engine) : Engine :=
  match g.slot with
  | some _ => { g with state := .detached, slot := none }
  | none => g

/-- An engine visits up to `count` more pixels of its drawing line in hand, in the plan's pixel order (R90). A line of a transfer kind holds
what its answers have written (R113, R124). -/
def State.drawOn (s : State) (e : EngineId) (count : Nat) : State :=
  let g := s.engine e
  match g.job with
  | some j =>
    if g.state ≠ .idle ∧ j.op.isDrawing ∧ j.lineExists g.line then
      let n := min count (j.lineWidth - j.drawn)
      ({ s with frame := j.drawSome s.palettes s.frame g.line j.drawn n } : State).setEngine e
        { g with job := some { j with drawn := j.drawn + n } }
    else s
  | none => s

/-- Both engines have come as far in their lines in hand as they have: how far is a free value (R90, R106, R108; log 9). -/
def State.visitPixels (s : State) : State :=
  { (s.drawOn .re0 (Config.pixelsVisited s.choices)).drawOn .re1 (Config.pixelsVisited (s.choices + 1)) with
    choices := s.choices + 2 }

/-! ## The presentation unit -/

/-- The shown surface's flag is cleared (R14). -/
def State.clearShown (s : State) : State :=
  match s.presentation.shown with
  | some id => s.modifySurface id fun r => { r with shown := false }
  | none => s

/-- The frame timer stops, the frame in hand is not completed and the panel goes blank (R162). -/
def Presentation.stopped (p : Presentation) : Presentation :=
  { p with frameDeadline := none, scan := none, output := .blank }

/-- Display OFF, shown none and the latched origin absent, with the timer stopped (R163, R165). -/
def Presentation.turnedOff (p : Presentation) : Presentation :=
  { p.stopped with display := false, shown := none, latchedOrigin := none }

/-! ## Entry to RUNNING (R174) -/

/-- The entry to RUNNING with a valid setup record. -/
def State.enterRunning (s : State) (r : SetupRecord) : State :=
  let s := { s with
    control := { s.control with deviceState := .running, setupRead := none }
    queues := setupQueues r
    lastUrgent := 7
    lastNormal := 7
    cqs := setupCqs r
    sequence := 0#32
    presentation := { s.presentation with
      panel := setupPanel r
      display := false
      shown := none
      firstRow := 0
      lastRow := (setupPanel r).map fun (p : PanelParams) => p.height - 1
      latchedOrigin := none
      held := none
      frameDeadline := (setupPanel r).map fun (p : PanelParams) => s.control.timer + BitVec.ofNat 64 p.period
      scan := none } }
  s.signalDevice

/-! ## Entry to FAULT (R176) -/

/-- A completion write that is issued and not yet answered is abandoned, at an entry to FAULT and at a reset (R150, R151). -/
def LinkWrite.abandon : LinkWrite → LinkWrite
  | .issued _ a data => .abandoned a data
  | .bytes a data => .bytes a data
  | .message v => .message v
  | .abandoned a data => .abandoned a data

/-- A completion queue at an entry to FAULT: no write in flight, its timer idle, its count kept (R150). -/
def CompletionQueue.frozen (c : CompletionQueue) : CompletionQueue := { c with inFlight := none, deadline := none }

/-- The entry to FAULT with its cause. -/
def State.enterFault (s : State) (cause : FaultCause) : State :=
  let s := { s with
    control := { s.control with deviceState := .fault, cause := cause, setupRead := none }
    link := { s.link with written := s.link.written.map LinkWrite.abandon }
    fetch := s.fetch.map fun (f : Fetch) => { f with discard := true }
    presentation := s.presentation.stopped
    cqs := Vector.ofFn fun k => s.cqs[k].map CompletionQueue.frozen }
  (s.askEngines fun _ => true).signalDevice

/-! ## Entry to STOPPING (R175) -/

/-- An owed, unplaced acknowledgement is removed (R60). -/
def Queue.dropAcknowledgement (c : Queue) : Queue :=
  match c.abort with
  | .owed _ _ => { c with abort := .removed }
  | _ => c

/-- The slot holds a PRESENT or PANEL held by the presentation unit (R77). -/
def Slot.isHeld (sl : Slot) : Bool :=
  sl.state = .running && match sl.op with | some op => op.isPresentation | none => false

/-- The slot ends at once when its queue is aborted or the device stops: BLOCKED, READY, or a held PRESENT or PANEL (R57, R81). -/
def Slot.endsAtOnce (sl : Slot) : Bool := sl.state = .blocked || sl.state = .ready || sl.isHeld

/-- The ABORTED endings, detail 0, of the slots that satisfy a condition. -/
def State.abortedEndings (s : State) (which : Slot → Bool) : List Ending :=
  ((List.finRange 32).filter fun i => which (s.slot i)).map fun i => { slot := i, status := .aborted, detail := 0#32 }

/-- The entry to STOPPING, and to OFF when no slot is held (R175). -/
def State.enterStopping (s : State) : State :=
  let s := { s with
    control := { s.control with deviceState := .stopping, enable := false }
    fetch := s.fetch.map fun (f : Fetch) => { f with discard := true }
    queues := Vector.ofFn fun q => s.queues[q].map Queue.dropAcknowledgement
    ackOrder := [] }
  let s := s.clearShown
  let s := { s with presentation := s.presentation.turnedOff }
  let s := s.askEngines fun _ => true
  s.endSlots (s.abortedEndings Slot.endsAtOnce)

/-! ## FAULT to OFF (R177) -/

/-- Every slot is discarded: a counted PRESENT leaves present_refs, an unexecuted RETIRE returns its surface (R83). -/
def State.discardSlots (s : State) : State :=
  let t := (List.finRange 32).foldl (fun t i => t.releaseClaim (s.slot i) .aborted) s
  { t with slots := Vector.replicate 32 Slot.freed, order := [] }

/-- The passage from FAULT to OFF when ENABLE is cleared (R177). -/
def State.faultToOff (s : State) : State :=
  let s := s.discardSlots.clearShown
  let s := s.unconfigure
  { s with
    control := { s.control with deviceState := .off, enable := false }
    fetch := none
    waiting := []
    engines := Vector.ofFn fun k => s.engines[k].detach
    presentation := { s.presentation.turnedOff with held := none } }

/-! ## Resets (R178) -/

/-- The effects that a function reset shares with a link reset and a cold reset (R178). An engine stops in its line in hand, of which the pixels
that it has visited keep their new values (R106). -/
def State.resetBlocks (s : State) : State :=
  { s with
    frame := s.visitPixels.frame
    choices := s.visitPixels.choices
    control := { s.control with
      deviceState := .off, enable := false, cause := .none, submitIgnored := false, consumeIgnored := false,
      qctlIgnored := false, enableIgnored := false, deviceVector := 0, setupRead := none }
    link := { s.link with
      pendingFlags := Vector.replicate 32 false
      written := s.link.written.map LinkWrite.abandon }
    queues := Vector.replicate 8 none
    fetch := none
    ackOrder := []
    slots := Vector.replicate 32 Slot.freed
    order := []
    sequence := 0#32
    surfaces := Vector.replicate 64 Surface.freed
    engines := Vector.replicate 2 Engine.idled
    marks := Vector.replicate 16 0#32
    waiting := []
    presentation := Presentation.afterReset
    cqs := Vector.replicate 4 none }

/-- A link reset's effects beside those of a function reset: SETUP_LO and SETUP_HI 0, the PCIe configuration at its reset values,
the link down (R179). DESIGN CHOICE (log 7): the vector masks reset to unmasked. -/
def State.resetLink (s : State) : State :=
  { s with
    control := { s.control with setupLo := 0#32, setupHi := 0#32 }
    link := { s.link with
      up := false, busMastering := false, messageInterrupts := false, masked := Vector.replicate 32 false } }

end Sys2Proof.Machine
end

