-- ==== Sys2Proof/Machine/Completions.lean ====
section
/-! DEFINITION. The completion unit: COMPLETION_WRITE_ISSUE (R138, R141), COMPLETION_WRITE_ACCEPTED (R142, R145, R146),
COMPLETION_WRITE_FAULT (R149), ABANDONED_WRITE_ANSWER (R150) and COALESCING_TIMER_EXPIRY (R146). -/

namespace Sys2Proof.Machine

/-- COMPLETION_WRITE_ISSUE (R141): the completion queue issues the write of its oldest member, when the conditions hold. The steps that
make them hold issue it themselves, at once. -/
def execCompletionWriteIssue (k : CqId) (s : State) : Host.Outcome State Fault Refusal :=
  if s.writesDue.contains k then .next (s.choose.issue k) else .next s

/-- Lap steps by one, from 255 to 1 (R142). -/
def nextLap (lap : BitVec 8) : BitVec 8 := if lap = 255#8 then 1#8 else lap + 1#8

/-- Steps 1 to 3 of R142 in the context: tail and lap, outstanding, the member leaves the list, and the write is answered. -/
def CompletionQueue.advance (c : CompletionQueue) (i : SlotId) : CompletionQueue :=
  { c with
    tail := (c.tail + 1) % c.size
    lap := if c.tail + 1 = c.size then nextLap c.lap else c.lap
    outstanding := c.outstanding + 1
    posting := c.posting.filter (· ≠ i)
    inFlight := none }

/-- Step 4 of R142 in the context (R145, R146): the threshold's interrupt sets count to 0 and idles the timer; a count that leaves 0
below the threshold starts it. -/
def CompletionQueue.countEntry (c : CompletionQueue) (now : Time) : CompletionQueue :=
  if c.threshold ≤ c.count + 1 then { c with count := 0, deadline := none }
  else { c with
    count := c.count + 1
    deadline := if c.count = 0 ∧ c.timer ≠ 0 then some (now + BitVec.ofNat 64 (c.timer * 10)) else c.deadline }

/-- An accepted completion write (R142): its entry stands among the part's writes where its acceptance puts it (R116). The last step
tests R141 again. -/
def State.writeAccepted (s : State) (k : CqId) (c : CompletionQueue) (w : CompletionWrite) : State :=
  let t := (s.accept w.address w.entry.bytes).dropIssued k
  let t := t.setCq k (some ((c.advance w.slot).countEntry s.control.timer))
  let t := t.freeSlot w.slot
  let t := if c.threshold ≤ c.count + 1 then t.interrupt c.vector else t
  t.conclude.serveFetch

/-- COMPLETION_WRITE_ACCEPTED (R142): the answer to a write that was sent. The link takes the part's writes in the order of issue (R141), so that
no acceptance comes while a completion write issued before is in flight (log 1). -/
def execCompletionWriteAccepted (k : CqId) (s : State) : Host.Outcome State Fault Refusal :=
  match s.cq k with
  | none => .next s
  | some c =>
    match c.inFlight with
    | none => .next s
    | some w => if w.sent && s.link.takesNext k then .next (s.writeAccepted k c w) else .next s

/-- COMPLETION_WRITE_FAULT (R149): the entry was not sent; tail, lap, outstanding, count and the list stay; the device enters FAULT. -/
def execCompletionWriteFault (k : CqId) (s : State) : Host.Outcome State Fault Refusal :=
  match s.cq k with
  | none => .next s
  | some c =>
    match c.inFlight with
    | none => .next s
    | some _ =>
      .next (((s.dropIssued k).setCq k (some { c with inFlight := none })).enterFault .completionWrite)

/-- The oldest abandoned completion write is answered: its bytes reached host memory, in its place among the part's writes, or did not (R110,
R150). Its answer is without effect on the part, and holds back none of the writes behind it (log 28). -/
def answerAbandoned (reached : Bool) : List LinkWrite → List LinkWrite
  | [] => []
  | .abandoned a data :: rest => if reached then .bytes a data :: rest else rest
  | w :: rest => w :: answerAbandoned reached rest

/-- ABANDONED_WRITE_ANSWER (R150): no effect on the part; the entry may have reached host memory. -/
def execAbandonedWriteAnswer (reached : Bool) (s : State) : Host.Outcome State Fault Refusal :=
  .next { s with link := { s.link with written := answerAbandoned reached s.link.written } }

/-- The expiry of a coalescing timer (R146). -/
def State.coalesce (s : State) (k : CqId) (c : CompletionQueue) (deadline : Time) : State :=
  let t := (s.reach deadline).setCq k (some { c with count := 0, deadline := none })
  if 1 ≤ c.count then t.interrupt c.vector else t

/-- COALESCING_TIMER_EXPIRY (R146): the timer runs, and the device timer reaches its deadline, which no other timer's comes before
(R180). -/
def execCoalescingTimerExpiry (k : CqId) (s : State) : Host.Outcome State Fault Refusal :=
  match s.cq k with
  | none => .next s
  | some c =>
    match c.deadline with
    | none => .next s
    | some d => if s.mayReach d then .next (s.coalesce k c d) else .next s

end Sys2Proof.Machine
end

