-- ==== Sys2Proof/Machine/Fetch.lean ====
section
/-! DEFINITION. The commands of the fetch path: FETCH_START, FETCH_FAULT, OVERTAKEN_FETCH_END, ABORT_ACK_PLACE and
ABANDONED_FETCH_ANSWER (R47 to R52, R58). RECORD_ARRIVAL stands in Admission. -/

namespace Sys2Proof.Machine

/-- FETCH_START (R48): the chosen queue takes this FREE slot. A step that makes a fetch possible starts it itself (R47), so that in a run
from reset the command finds none left to start (log 4). -/
def execFetchStart (slot : SlotId) (s : State) : Host.Outcome State Fault Refusal :=
  match s.chosenQueue with
  | none => .next s
  | some q =>
    match s.queue q with
    | some c => if s.isFree slot then .next (s.beginFetch q c slot).serveFetch else .next s
    | none => .next s

/-- The slot of a faulted fetch ends with FETCH_FAULT and the head as detail, and its queue is HALTED whatever its policy (R50). A
DRAINING queue's fetch is overtaken and does not come here. -/
def State.fetchFaulted (s : State) (f : Fetch) (c : Queue) : State :=
  let t := ({ s with fetch := none } : State).endSlots
    [{ slot := f.slot, status := .fetchFault, detail := BitVec.ofNat 32 c.head }]
  t.modifyQueue f.queue fun (c : Queue) => if c.state = .draining then c else { c with state := .halted }

/-- FETCH_FAULT (R50): a read fault on a fetch that has not been overtaken. -/
def execFetchFault (s : State) : Host.Outcome State Fault Refusal :=
  match s.fetch with
  | none => .next s
  | some f =>
    if f.discard then .next s
    else match s.queue f.queue with
      | some c => .next (s.fetchFaulted f c).serveFetch
      | none => .next s

/-- OVERTAKEN_FETCH_END (R51): the data or the fault of an overtaken fetch is discarded, the fetch path and the slot are freed. -/
def execOvertakenFetchEnd (s : State) : Host.Outcome State Fault Refusal :=
  match s.fetch with
  | none => .next s
  | some f => if f.discard then .next (({ s with fetch := none } : State).freeSlot f.slot).conclude.serveFetch else .next s

/-- The slot may be taken now by the queue's owed acknowledgement (R58): it waits for any slot, it is the first of those that
wait, and the slot is FREE. (An ABORT that finds a FREE slot places it at once, and a slot that is freed is taken as it is freed:
State.abortAction, State.claimFreed.) -/
def State.mayPlace (s : State) (q : QueueId) (claim : Claim) (i : SlotId) : Bool :=
  match claim with
  | .anyFree => s.ackOrder.head? = some q && s.isFree i
  | .firstFreed => false

/-- ABORT_ACK_PLACE (R58): not in FAULT. -/
def execAbortAckPlace (queue : QueueId) (slot : SlotId) (s : State) : Host.Outcome State Fault Refusal :=
  match s.queue queue with
  | none => .next s
  | some c =>
    match c.abort with
    | .owed n claim =>
      if s.control.deviceState ≠ .fault ∧ s.mayPlace queue claim slot then
        .next (s.placeAck queue c n slot).issueWrites.serveFetch
      else .next s
    | _ => .next s

/-- ABANDONED_FETCH_ANSWER (R51): it has no effect. -/
def execAbandonedFetchAnswer (s : State) : Host.Outcome State Fault Refusal := .next s

end Sys2Proof.Machine
end

