-- ==== Sys2Proof/Machine/Link.lean ====
section
/-! DEFINITION. The PCIe configuration and the interrupt messages: PENDING_MESSAGE_SEND, PCIE_CONFIGURATION_TURN_OFF and
MESSAGE_WRITE_FAULT (R147). -/

namespace Sys2Proof.Machine

/-- The configuration with enables turned on and vectors unmasked. -/
def HostLink.turnOn (l : HostLink) (busMastering messageInterrupts : Bool) (unmask : List VectorId) : HostLink :=
  { l with
    busMastering := l.busMastering || busMastering
    messageInterrupts := l.messageInterrupts || messageInterrupts
    masked := Vector.ofFn fun v => l.masked[v] && !unmask.contains v }

/-- The configuration with enables turned off and vectors masked. -/
def HostLink.turnOff (l : HostLink) (busMastering messageInterrupts : Bool) (mask : List VectorId) : HostLink :=
  { l with
    busMastering := l.busMastering && !busMastering
    messageInterrupts := l.messageInterrupts && !messageInterrupts
    masked := Vector.ofFn fun v => l.masked[v] || mask.contains v }

/-- The vectors whose flag is pending and whose message may go (R147). -/
def HostLink.sendable (l : HostLink) : List VectorId := (List.finRange 32).filter fun v => l.pendingFlags[v] && l.allows v

/-- One message for each pending vector that may send, and its flag cleared (R147). -/
def State.sendPending (s : State) : State :=
  let due := s.link.sendable
  let t := { s.choose with link := { s.link with
    pendingFlags := Vector.ofFn fun v => s.link.pendingFlags[v] && !due.contains v } }
  (s.together due).foldl (fun t v => t.emit (.message v)) t

/-- PENDING_MESSAGE_SEND (R147): software turns the function's configuration on, and the messages that next may go are sent. The
configuration is reached only while the link is up (log 22). DESIGN CHOICE (unsafe, log 35): this holds in FAULT too, so that the message of
a vector whose flag was set before goes then, a completion queue's vector as well (R147), where R150 says that no interrupt is sent on
such a vector in FAULT. -/
def execPendingMessageSend (busMastering messageInterrupts : Bool) (unmask : List VectorId) (s : State) :
    Host.Outcome State Fault Refusal :=
  if s.link.up then
    let t : State := { s with link := s.link.turnOn busMastering messageInterrupts unmask }
    .next t.sendPending
  else .next s

/-- PCIE_CONFIGURATION_TURN_OFF (R147): later reads and writes of the part fault, and interrupts are held as pending. -/
def execPcieConfigurationTurnOff (busMastering messageInterrupts : Bool) (mask : List VectorId) (s : State) :
    Host.Outcome State Fault Refusal :=
  if s.link.up then .next { s with link := s.link.turnOff busMastering messageInterrupts mask } else .next s

/-- The entry of `written` is a message. -/
def LinkWrite.isMessage : LinkWrite → Bool
  | .message _ => true
  | .bytes _ _ | .issued _ _ _ | .abandoned _ _ => false

/-- MESSAGE_WRITE_FAULT (R147): the message is dropped; it is not sent again, no pending flag is set, and the device does not
enter FAULT. -/
def execMessageWriteFault (index : Nat) (s : State) : Host.Outcome State Fault Refusal :=
  match s.link.written[index]? with
  | some w =>
    if w.isMessage then .next { s with link := { s.link with written := s.link.written.eraseIdx index } } else .next s
  | none => .next s

end Sys2Proof.Machine
end

