-- ==== Sys2Proof/Machine/Loading.lean ====
section
/-! DEFINITION. The setup read's answers: SETUP_READ_ARRIVAL, SETUP_READ_FAULT and ABANDONED_READ_ANSWER (R171, R173, R174). -/

namespace Sys2Proof.Machine

/-- The device vector is taken when its byte lies in 0..31 (R173). -/
def State.takeDeviceVector (s : State) (r : SetupRecord) : State :=
  match setupDeviceVector r with
  | some v => { s with control := { s.control with deviceVector := v } }
  | none => s

/-- The setup record has arrived (R173): the device vector first, then RUNNING for a valid record, FAULT with SETUP_INVALID for
any other. -/
def State.setupArrived (s : State) (r : SetupRecord) : State :=
  let s := s.takeDeviceVector r
  if setupValid r then s.enterRunning r else s.enterFault .setupInvalid

/-- SETUP_READ_ARRIVAL (R173): all 256 bytes of the read have arrived in LOADING. -/
def execSetupReadArrival (record : SetupRecord) (s : State) : Host.Outcome State Fault Refusal :=
  match s.control.setupRead with
  | some _ => if s.control.deviceState = .loading then .next (s.setupArrived record) else .next s
  | none => .next s

/-- SETUP_READ_FAULT (R173): FAULT with SETUP_READ; the device vector is the one held before the load. -/
def execSetupReadFault (s : State) : Host.Outcome State Fault Refusal :=
  match s.control.setupRead with
  | some _ => if s.control.deviceState = .loading then .next (s.enterFault .setupRead) else .next s
  | none => .next s

/-- ABANDONED_READ_ANSWER (R173): an answer to an abandoned read has no effect. -/
def execAbandonedReadAnswer (s : State) : Host.Outcome State Fault Refusal := .next s

end Sys2Proof.Machine
end

