-- ==== Sys2Proof/Machine/Panel.lean ====
section
/-! DEFINITION. The expiries of the mark table and the presentation unit, and the scan: WAIT_EXPIRY (R131), FRAME_START (R154 to
R159, R181), SCAN_PIXEL (R160 to R162). -/

namespace Sys2Proof.Machine

/-- The expiries of the entries whose deadline is this reading, which expire together (R131): each WAIT ends WAIT_TIMEOUT with its mark's
value. -/
def State.timeouts (s : State) (deadline : Time) : List Ending :=
  (s.waiting.filter fun w => w.deadline = some deadline).map fun w =>
    { slot := w.slot, status := .waitTimeout, detail := s.mark w.mark }

/-- WAIT_EXPIRY (R131): in RUNNING, the device timer reaches the deadline of the slot's entry, which no other timer's comes before
(R180); with the entry expires every other of the same deadline, in the one step. -/
def execWaitExpiry (slot : SlotId) (s : State) : Host.Outcome State Fault Refusal :=
  match s.waiting.find? (fun w => w.slot = slot) with
  | none => .next s
  | some w =>
    match w.deadline with
    | none => .next s
    | some d =>
      if s.control.deviceState = .running ∧ s.mayReach d then .next ((s.reach d).endSlots (s.timeouts d)).serveFetch
      else .next s

/-! ## Frame starts -/

/-- The counter's step: from FFFF_FFFFh to 1 (R155). -/
def nextFrame (n : BitVec 32) : BitVec 32 := if n = 0xFFFFFFFF#32 then 1#32 else n + 1#32

/-- A held operation takes effect (R157, R158); its ending follows the latch (R181). -/
def State.takeEffect (s : State) (op : Op) : State :=
  match op with
  | .present id =>
    let t := if s.presentation.shown = some id then s else s.clearShown
    let t := t.modifySurface id fun r => { r with shown := true }
    { t with presentation := { t.presentation with shown := some id } }
  | .setPanel display first last border =>
    { s with presentation := { s.presentation with
        display := display, firstRow := first, lastRow := some last, border := border } }
  | _ => s

/-- The band origin of the shown surface, absent when none is shown or it has no band (R156). -/
def State.originToLatch (s : State) : Option Nat :=
  match s.presentation.shown with
  | none => none
  | some id => ((s.surface id).fields.bind SurfaceFields.band).map Band.origin

/-- The device timer has reached the deadline, and the frame is counted (R154, R155). -/
def State.countFrame (s : State) (deadline : Time) : State :=
  { s.reach deadline with
    presentation := { s.presentation with frameCounter := nextFrame s.presentation.frameCounter } }

/-- The held operation, if there is one, takes effect (R157, R158). -/
def State.applyHeld (s : State) : State :=
  match s.presentation.held.bind fun i => (s.slot i).op with
  | some op => s.takeEffect op
  | none => s

/-- The origin is latched, the next deadline set, the scan starts at the first pixel, and the panel is blank when the display is OFF
(R154, R156, R160, R162). -/
def State.latchFrame (s : State) (p : PanelParams) (deadline : Time) : State :=
  { s with presentation := { s.presentation with
    latchedOrigin := s.originToLatch
    frameDeadline := some (deadline + BitVec.ofNat 64 p.period)
    scan := some 0
    output := if s.presentation.display then s.presentation.output else .blank } }

/-- The operation that took effect ends OK with the frame counter, and what it releases is handed over (R157, R159, R181). -/
def State.endHeld (s : State) (held : Option SlotId) : State :=
  match held with
  | some i => (s.endSlots [{ slot := i, status := .ok, detail := s.presentation.frameCounter }]).serveFetch
  | none => s

/-- A frame start at a deadline (R154 to R159): the counter, the held operation, the latch, the next deadline, then the ending. -/
def State.beginFrame (s : State) (p : PanelParams) (deadline : Time) : State :=
  ((s.countFrame deadline).applyHeld.latchFrame p deadline).endHeld s.presentation.held

/-- The scan of the frame has ended, or none has begun (R160). -/
def Presentation.scanEnded (p : Presentation) (panel : PanelParams) : Bool :=
  match p.scan with
  | none => true
  | some n => panel.width * panel.height ≤ n

/-- FRAME_START (R157): in RUNNING, the device timer reaches the frame timer's deadline, which no other timer's comes before (R180). The
scan of a frame ends before the next frame start (R160). -/
def execFrameStart (s : State) : Host.Outcome State Fault Refusal :=
  match s.presentation.panel, s.presentation.frameDeadline with
  | some p, some d =>
    if s.control.deviceState = .running ∧ s.mayReach d ∧ s.presentation.scanEnded p then .next (s.beginFrame p d) else .next s
  | _, _ => .next s

/-! ## The scan -/

/-- The panel colour of a pixel value (R161). -/
def panelColour (f : Format) (colours : BitVec 8 → BitVec 24) (v : BitVec 32) : BitVec 24 :=
  (convertPixel colours f .p32 v).setWidth 24

/-- The physical row that the scan reads for row r: through the band with the latched origin (R161). -/
def State.scanRow (s : State) (d : SurfaceFields) (r : Nat) : Nat :=
  match d.band, s.presentation.latchedOrigin with
  | some b, some o => b.physicalRow o r
  | _, _ => r

/-- Row r is an active row (R161). -/
def Presentation.activeRow (p : Presentation) (r : Nat) : Bool :=
  p.firstRow ≤ r && match p.lastRow with | some l => r ≤ l | none => false

/-- The record of the surface shown at row r, when the display is ON and the row is active (the last line of R161's table). -/
def State.scannedSurface (s : State) (r : Nat) : Option SurfaceFields :=
  if s.presentation.display && s.presentation.activeRow r then
    s.presentation.shown.bind fun id => (s.surface id).fields
  else none

/-- What the panel outputs at pixel (x, r) (R161). -/
def State.scanOutput (s : State) (x r : Nat) : PanelOutput :=
  if !s.presentation.display then .blank
  else match s.scannedSurface r with
    | none => .colour s.presentation.border
    | some d => .colour (panelColour d.format (Palette.read s.palettes d.palette) (readPhysical s.frame d x (s.scanRow d r)))

/-- The pixel that the scan reads exists (R1). -/
def State.scanExists (s : State) (x r : Nat) : Bool :=
  match s.scannedSurface r with
  | none => true
  | some d => d.pixelExists x (s.scanRow d r)

/-- SCAN_PIXEL (R161): while the frame timer runs, the scan of the frame takes its next pixel, rows and columns ascending, each in turn
(R160). The engines write while the panel is scanned, and what they have written of their lines in hand by now is what the scan reads (R78,
R108; log 15). DESIGN CHOICE (unsafe, log 32): the output holds its value until the next pixel, and after the last one until the next
frame's first. -/
def execScanPixel (x row : Nat) (s : State) : Host.Outcome State Fault Refusal :=
  match s.presentation.panel with
  | none => .next s
  | some p =>
    if s.control.deviceState = .running ∧ x < p.width ∧ row < p.height ∧
        s.presentation.scan = some (row * p.width + x) then
      if s.scanExists x row then
        let t := s.visitPixels
        .next { t with presentation := { t.presentation with
          output := t.scanOutput x row, scan := some (row * p.width + x + 1) } }
      else .fault .noSuchFrameByte
    else .next s

/-! ## What falls due -/

/-- The timers that have reached their deadline, the earliest first to expire (R180). -/
def State.dueTimers (s : State) : List (Instr × Time) :=
  s.liveTimers.filter fun x => x.2.toNat ≤ s.control.timer.toNat && s.mayReach x.2

/-- The next pixel of a scan that has not ended (R160). -/
def Presentation.nextPixel (p : Presentation) : Option Instr :=
  match p.panel, p.scan with
  | some panel, some n => if n < panel.width * panel.height then some (.scanPixel (n % panel.width) (n / panel.width)) else none
  | _, _ => none

/-- The event that falls due now: the expiry of a timer that has reached its deadline, one of those that reach theirs together in a
free order (R180); before a frame start, what is left of the scan (R160). -/
def State.dueEvent (s : State) : Option Instr :=
  match s.together s.dueTimers with
  | [] => none
  | x :: _ => if x.1 = .frameStart then some (s.presentation.nextPixel.getD .frameStart) else some x.1

end Sys2Proof.Machine
end

