-- ==== Sys2Proof/Machine/Registers.lean ====
section
/-! DEFINITION. The register writes: SUBMIT, CONSUME, RESUME, ABORT, ENABLE, DISABLE, FUNCTION_RESET, STATUS_CLEAR,
SETUP_ADDRESS_WRITE and REGISTER_WRITE (R45, R55 to R57, R143, R167 to R172, R178, R184). -/

namespace Sys2Proof.Machine

/-- A register write reaches the part only while the link is up (R179). -/
def State.whileUp (s : State) (t : State) : State := if s.link.up then t else s

/-! ## The channels -/

/-- A SUBMIT is ignored: SUBMIT_IGNORED is set (R45). -/
def State.refuseSubmit (s : State) : State := { s with control := { s.control with submitIgnored := true } }

/-- A write to SUBMIT (R45): ignored when the queue is UNUSED or the tail is not less than its size. -/
def State.submitWrite (s : State) (q : QueueId) (tail : BitVec 12) : State :=
  match s.queue q with
  | none => s.refuseSubmit
  | some c => if tail.toNat < c.size then (s.setQueue q (some { c with tail := tail.toNat })).serveFetch else s.refuseSubmit

/-- A CONSUME is ignored: CONSUME_IGNORED is set (R143). -/
def State.refuseConsume (s : State) : State := { s with control := { s.control with consumeIgnored := true } }

/-- The distance from a head to a new head, modulo the ring's size. -/
def ringDistance (size head newHead : Nat) : Nat := (newHead + size - head) % size

/-- A write to CONSUME (R143): ignored when the completion queue is unconfigured, the head is not less than size, or the distance
exceeds outstanding. One that is taken tests R141 again. -/
def State.consumeWrite (s : State) (k : CqId) (head : BitVec 12) : State :=
  match s.cq k with
  | none => s.refuseConsume
  | some c =>
    let distance := ringDistance c.size c.head head.toNat
    if head.toNat < c.size ∧ distance ≤ c.outstanding then
      (s.setCq k (some { c with head := head.toNat, outstanding := c.outstanding - distance })).issueWrites
    else s.refuseConsume

/-- A QCTL write is ignored: QCTL_IGNORED is set (R55). -/
def State.refuseQctl (s : State) : State := { s with control := { s.control with qctlIgnored := true } }

/-- The action RESUME (R55, R56): taken in RUNNING on a HALTED queue, which becomes WAITING when its most recently admitted
operation is an unended WAIT (by R54 its entry of the waiting list), and OPEN otherwise. -/
def State.resumeAction (s : State) (q : QueueId) : State :=
  match s.queue q with
  | none => s.refuseQctl
  | some c =>
    if s.control.deviceState = .running ∧ c.state = .halted then
      (s.setQueue q (some { c with state := if s.waiting.any (fun w => w.queue = q) then .waiting else .opened })).serveFetch
    else s.refuseQctl

/-- A fetch of the queue is in flight and not overtaken. -/
def State.fetching (s : State) (q : QueueId) : Bool :=
  match s.fetch with
  | some f => f.queue = q && !f.discard
  | none => false

/-- The skipped count of an ABORT (step 1 of R57). -/
def State.skippedCount (s : State) (q : QueueId) (c : Queue) : Nat :=
  let n := ringDistance c.size c.head c.tail
  if n = 0 ∧ s.fetching q then 1 else n

/-- What an owed acknowledgement has a claim on when its ABORT is taken (R58). -/
def Queue.firstClaim (c : Queue) : Claim := if c.occupied = 0 then .anyFree else .firstFreed

/-- Steps 1 to 3 of R57: the snapshot, the head, DRAINING with its abort record, and the fetch marked for discard. -/
def State.beginAbort (s : State) (q : QueueId) (c : Queue) : State :=
  let t := s.setQueue q (some { c with
    state := .draining, head := c.tail, abort := .owed (s.skippedCount q c) c.firstClaim })
  { t with
    ackOrder := if c.occupied = 0 then s.ackOrder ++ [q] else s.ackOrder
    fetch := s.fetch.map fun (f : Fetch) => if f.queue = q then { f with discard := true } else f }

/-- The acknowledgement of an ABORT of a queue that held no slot takes a FREE slot at once, unless none is FREE or others wait before
it (R58). -/
def State.placeAtOnce (s : State) (q : QueueId) : State :=
  match s.queue q, s.anyFreeSlot with
  | some c, some i =>
    match c.abort with
    | .owed n .anyFree => if s.ackOrder = [q] then (s.choose.placeAck q c n i).issueWrites else s
    | _ => s
  | _, _ => s

/-- The action ABORT (R55, R57): taken in RUNNING on a queue in OPEN, WAITING or HALTED. -/
def State.abortAction (s : State) (q : QueueId) : State :=
  match s.queue q with
  | none => s.refuseQctl
  | some c =>
    if s.control.deviceState = .running ∧ c.state ≠ .draining then
      let t := s.beginAbort q c
      let t := t.askEngines fun i => (s.slot i).queue = some q
      ((t.endSlots (t.abortedEndings fun sl => sl.queue = some q && sl.endsAtOnce)).placeAtOnce q).serveFetch
    else s.refuseQctl

/-- A write to QCTL: bits 2..0 the queue, bits 9..8 the action, 1 RESUME, 2 ABORT, any other ignored (R55, R184). -/
def State.qctlWrite (s : State) (value : BitVec 32) : State :=
  let q : QueueId := (value.extractLsb' 0 3).toFin
  match (value.extractLsb' 8 2).toNat with
  | 1 => s.resumeAction q
  | 2 => s.abortAction q
  | _ => s.refuseQctl

/-! ## CONTROL -/

/-- The setup record address of SETUP_HI and SETUP_LO (R168). -/
def Control.loadAddress (c : Control) : BitVec 64 := c.setupHi ++ c.setupLo

/-- The entry to LOADING (R172): the cause cleared, and the read issued, or FAULT at once for a refused load address (R172) or, with bus
mastering off, for the refused read (R110, R179). -/
def State.beginLoad (s : State) : State :=
  let a := s.control.loadAddress
  let s := { s with control := { s.control with deviceState := .loading, enable := true, cause := .none } }
  if a.toNat % 64 ≠ 0 ∨ Config.hostBytes < a.toNat + 256 then s.enterFault .setupInvalid
  else if s.link.busMastering then { s with control := { s.control with setupRead := some { address := a } } }
  else s.enterFault .setupRead

/-- A CONTROL write with RESET 0 and ENABLE 1 (R169). -/
def State.enableWrite (s : State) : State :=
  if s.control.enable then s
  else match s.control.deviceState with
    | .off => s.beginLoad
    | .stopping | .fault => { s with control := { s.control with enableIgnored := true } }
    | .loading | .running => s

/-- A CONTROL write with RESET 0 and ENABLE 0 (R169): LOADING is abandoned (R173), RUNNING stops (R175), FAULT goes to OFF (R177). -/
def State.disableWrite (s : State) : State :=
  if s.control.enable then
    match s.control.deviceState with
    | .loading => { s with control := { s.control with deviceState := .off, enable := false, setupRead := none } }
    | .running => s.enterStopping
    | .fault => s.faultToOff
    | .off | .stopping => s
  else s

/-- A write to CONTROL: bit 1 RESET, bit 0 ENABLE (R169, R184). -/
def State.controlWrite (s : State) (value : BitVec 32) : State :=
  if value.getLsbD 1 then s.resetBlocks
  else if value.getLsbD 0 then s.enableWrite
  else s.disableWrite

/-- A write to SETUP_LO or SETUP_HI replaces that half in every device state (R168). -/
def State.setupWrite (s : State) (half : SetupHalf) (value : BitVec 32) : State :=
  match half with
  | .lo => { s with control := { s.control with setupLo := value } }
  | .hi => { s with control := { s.control with setupHi := value } }

/-- A write to STATUS clears the flags written as 1 (R170). -/
def State.statusWrite (s : State) (value : BitVec 32) : State := { s with control := s.control.clearFlags value }

/-- A full 32-bit write to the register at an offset; a write to IDENT or at or above 20h is ignored (R167, R184). -/
def State.wordWrite (s : State) (offset : BitVec 12) (value : BitVec 32) : State :=
  match offset.toNat with
  | 0x04 => s.setupWrite .lo value
  | 0x08 => s.setupWrite .hi value
  | 0x0C => s.controlWrite value
  | 0x10 => s.statusWrite value
  | 0x14 => s.submitWrite (value.extractLsb' 16 3).toFin (value.extractLsb' 0 12)
  | 0x18 => s.consumeWrite (value.extractLsb' 16 2).toFin (value.extractLsb' 0 12)
  | 0x1C => s.qctlWrite value
  | _ => s

/-! ## The meanings -/

/-- SUBMIT (R45). -/
def execSubmit (q : QueueId) (tail : BitVec 12) (s : State) : Host.Outcome State Fault Refusal :=
  .next (s.whileUp (s.submitWrite q tail))

/-- CONSUME (R143). -/
def execConsume (k : CqId) (head : BitVec 12) (s : State) : Host.Outcome State Fault Refusal :=
  .next (s.whileUp (s.consumeWrite k head))

/-- RESUME (R55, R56). -/
def execResume (q : QueueId) (s : State) : Host.Outcome State Fault Refusal := .next (s.whileUp (s.resumeAction q))

/-- ABORT (R55, R57). -/
def execAbort (q : QueueId) (s : State) : Host.Outcome State Fault Refusal := .next (s.whileUp (s.abortAction q))

/-- ENABLE (R169, R172). -/
def execEnable (s : State) : Host.Outcome State Fault Refusal := .next (s.whileUp s.enableWrite)

/-- DISABLE (R169, R173, R175, R177). -/
def execDisable (s : State) : Host.Outcome State Fault Refusal := .next (s.whileUp s.disableWrite)

/-- FUNCTION_RESET (R178). -/
def execFunctionReset (s : State) : Host.Outcome State Fault Refusal := .next (s.whileUp s.resetBlocks)

/-- STATUS_CLEAR (R170). -/
def execStatusClear (value : BitVec 32) (s : State) : Host.Outcome State Fault Refusal :=
  .next (s.whileUp (s.statusWrite value))

/-- SETUP_ADDRESS_WRITE (R168). -/
def execSetupAddressWrite (half : SetupHalf) (value : BitVec 32) (s : State) : Host.Outcome State Fault Refusal :=
  .next (s.whileUp (s.setupWrite half value))

/-- REGISTER_WRITE (R167): a write of fewer than 32 bits is ignored and sets no flag; a full write is taken by its register, and
is ignored at IDENT and at or above 20h. A size above 4 bytes is no access of a register and is ignored (log 17). -/
def execRegisterWrite (offset : BitVec 12) (size : Nat) (value : BitVec 32) (s : State) : Host.Outcome State Fault Refusal :=
  .next (s.whileUp (if size = 4 then s.wordWrite offset value else s))

end Sys2Proof.Machine
end

