-- ==== Sys2Proof/Machine/Resets.lean ====
section
/-! DEFINITION. COLD_RESET, LINK_RESET and LINK_UP (R179). FUNCTION_RESET stands with the register writes. -/

namespace Sys2Proof.Machine

/-- LINK_RESET (R179): the effects of a function reset and those of the link. -/
def execLinkReset (s : State) : Host.Outcome State Fault Refusal := .next s.resetBlocks.resetLink

/-- COLD_RESET (R179): the effects of a link reset, and the palettes and the device timer cleared. Frame memory is not
initialised (R2): its cells keep what they hold. -/
def execColdReset (s : State) : Host.Outcome State Fault Refusal :=
  let t := s.resetBlocks.resetLink
  .next { t with palettes := [], control := { t.control with timer := 0#64 } }

/-- LINK_UP (R179): the register window becomes reachable. -/
def execLinkUp (s : State) : Host.Outcome State Fault Refusal := .next { s with link := { s.link with up := true } }

end Sys2Proof.Machine
end

