-- ==== Sys2Proof/Machine/Engines.lean ====
section
/-! DEFINITION. The raster engines: DISPATCH (R73, R86) and LINE_COMPLETE (R87, R101, R104, R107, R111). -/

namespace Sys2Proof.Machine

/-! ## Dispatch -/

/-- The engines that the arbiter gives operations to, RE0 before RE1: the idle ones, and none while either is DETACHED (R73, R107). -/
def State.idleEngines (s : State) : List EngineId :=
  if (s.engine .re0).state = .detached ∨ (s.engine .re1).state = .detached then []
  else [EngineId.re0, EngineId.re1].filter fun e => (s.engine e).state = .idle

/-- A slot holds a READY engine operation. -/
def Slot.readyForEngine (sl : Slot) : Bool :=
  sl.state = .ready && match sl.op with | some op => op.isEngine | none => false

/-- The earliest READY engine operation (R73). -/
def State.earliestReady (s : State) : Option SlotId := s.order.find? fun i => (s.slot i).readyForEngine

/-- The read that a line of an operation issues as it is begun (R110, R112, R118): line i of an IMPORT reads the bytes of its L pixels
from host address + i × pitch on, line k of a LOADPAL the 4 bytes at host address + 4k; no other kind reads host memory. -/
def Op.lineRead (op : Op) (line : Nat) (busMastering : Bool) : Option HostRead :=
  match op with
  | .importPixels host _ _ rect _ _ =>
    some { address := host.pixelAddress line 0, length := host.orientation.lineLength rect * host.format.bytes,
           sent := busMastering }
  | .loadPalette _ _ _ address => some { address := address.toNat + 4 * line, length := 4, sent := busMastering }
  | _ => none

/-- What an engine takes at dispatch (R86): the surface records as they stand, the plan, and for a PATTERN its latch (R95); the read of
the first line is issued. -/
def State.jobFor (s : State) (op : Op) : Job :=
  let src := op.src.bind fun i => (s.surface i).fields
  let latch := match op, src with
    | .pattern _ x y _ _ _ _ _ _ _, some a => patternLatch s.frame a x y
    | _, _ => []
  { op := op, src := src, dst := op.dst.bind fun i => (s.surface i).fields, plan := op.plan, latch := latch,
    read := op.lineRead 0 s.link.busMastering, arrived := [], accepted := 0, drawn := 0, begun := s.choices }

/-- The pattern region of an operation's job touches only bytes that exist. -/
def Job.latchExists (j : Job) : Bool :=
  match j.op, j.src with
  | .pattern _ x y _ _ _ _ _ _ _, some a => patternExists a x y
  | _, _ => true

/-- A slot is given to an engine: RUNNING, the engine named, lines done 0; the engine ACTIVE at line 0 (R73, R86). -/
def State.giveTo (s : State) (e : EngineId) (i : SlotId) (j : Job) : State :=
  (s.setSlot i { s.slot i with state := .running, engine := some e, linesDone := 0 }).setEngine e
    { state := .active, slot := some i, line := 0, job := some j }

/-- The earliest READY engine operation, when there is one, goes to an engine (R73); there is no such state when its pattern region
touches a byte that does not exist. -/
def State.dispatchTo (s : State) (e : EngineId) : Option State :=
  match s.earliestReady with
  | none => some s
  | some i =>
    match (s.slot i).op with
    | none => some s
    | some op => if (s.jobFor op).latchExists then some (s.giveTo e i (s.jobFor op)) else none

/-- The dispatch arbiter's one act over some engines, in turn (R73). -/
def State.dispatchAll (s : State) : List EngineId → Option State
  | [] => some s
  | e :: rest =>
    match s.dispatchTo e with
    | some t => t.dispatchAll rest
    | none => none

/-- The dispatch arbiter acts: the device is RUNNING, an engine is idle, none is DETACHED, and an engine operation is READY (R73). -/
def State.mayDispatch (s : State) : Bool :=
  s.control.deviceState = .running && !s.idleEngines.isEmpty && s.earliestReady.isSome

/-- The engine has begun a line whose read was not sent: with bus mastering off it is refused at once (R110). -/
def Engine.readRefused (g : Engine) : Bool :=
  g.state = .active && match g.job.bind Job.read with | some r => !r.sent | none => false

/-- The reads of the first lines that are refused at once (R110): their transfers end with HOST_FAULT in the same step (R119, R121). -/
def State.refuseReads (s : State) (given : List EngineId) : State :=
  match given.filter fun e => (s.engine e).readRefused with
  | [] => s
  | refused =>
    ((refused.foldl (fun t e => t.setEngine e Engine.idled) s).endSlots (refused.filterMap fun e =>
      (s.engine e).slot.map fun i => { slot := i, status := .hostFault, detail := BitVec.ofNat 32 (s.engine e).line })).serveFetch

/-- DISPATCH (R73): in RUNNING, the earliest READY engine operation goes to an idle engine; with both idle, it goes to RE0 and the next
earliest, if there is one, to RE1. The engines begin at once (R86). -/
def execDispatch (s : State) : Host.Outcome State Fault Refusal :=
  if s.mayDispatch then
    match s.dispatchAll s.idleEngines with
    | some t => .next (t.refuseReads s.idleEngines)
    | none => .fault .noSuchFrameByte
  else .next s

/-! ## Lines -/

/-- The line in hand has had every answer that it needs (R111): a drawing line needs none; an IMPORT line the data of its L
pixels; an EXPORT line the acceptance of its L pixels; a LOADPAL line its entry. -/
def Job.lineReady (j : Job) : Bool :=
  match j.op with
  | .importPixels host _ _ rect _ _ => (List.range (host.orientation.lineLength rect)).all fun k => j.arrived.contains k
  | .exportPixels _ rect host => j.accepted = host.orientation.lineLength rect
  | .loadPalette _ _ _ _ => j.arrived.contains 0
  | _ => true

/-- The next line is begun: its read is issued, and no answer has come yet (R87, R110). -/
def Engine.nextLine (g : Engine) (busMastering : Bool) (choices : Nat) : Engine :=
  { g with
    line := g.line + 1
    job := g.job.map fun (j : Job) =>
      { j with read := j.op.lineRead (g.line + 1) busMastering, arrived := [], accepted := 0, drawn := 0, begun := choices } }

/-- Lines done of the engine's slot rises to the number of complete lines (R87). -/
def State.countLine (s : State) (g : Engine) : State :=
  match g.slot with
  | some i => s.setSlot i { s.slot i with linesDone := g.line + 1 }
  | none => s

/-- A slot stopped by FAULT stays RUNNING with no engine (R82, R104). -/
def State.leaveSlot (s : State) (g : Engine) : State :=
  match g.slot with
  | some i => s.setSlot i { s.slot i with engine := none }
  | none => s

/-- An engine reports the end of its operation to the window: it drops its slot and becomes IDLE, and the slot ends (R74). -/
def State.reportEnd (s : State) (e : EngineId) (st : Status) (lines : Nat) : State :=
  let g := s.engine e
  let s := s.setEngine e Engine.idled
  match g.slot with
  | some i => (s.endSlots [{ slot := i, status := st, detail := BitVec.ofNat 32 lines }]).serveFetch
  | none => s

/-- An engine stops without a report: it drops its slot and becomes IDLE (R104, R107, R122). -/
def State.dropEngine (s : State) (e : EngineId) : State := (s.leaveSlot (s.engine e)).setEngine e Engine.idled

/-- The ends that are reported: in RUNNING and STOPPING (R104, R122). -/
def Control.reports (c : Control) : Bool := c.deviceState = .running || c.deviceState = .stopping

/-- A host fault on the line in hand ends the transfer whether or not a stop was asked for (R122): HOST_FAULT with the complete
lines in RUNNING and STOPPING, no report in FAULT or from a DETACHED engine. -/
def State.hostFault (s : State) (e : EngineId) : State :=
  if s.control.reports && (s.engine e).state ≠ .detached then s.reportEnd e .hostFault (s.engine e).line else s.dropEngine e

/-- The next line is begun: a read that is refused at once is a host fault on it (R110, R119, R121). -/
def State.beginLine (s : State) (e : EngineId) : State :=
  let t := s.setEngine e ((s.engine e).nextLine s.link.busMastering s.choices)
  if (t.engine e).readRefused then t.hostFault e else t

/-- What follows the completion of a line (R87, R101, R103, R104, R107). -/
def State.afterLine (s : State) (e : EngineId) (j : Job) : State :=
  let g := s.engine e
  let s := s.countLine g
  match g.state with
  | .active =>
    if g.line + 1 = j.op.lines then s.reportEnd e .ok (g.line + 1)
    else s.beginLine e
  | .stopRequested => if s.control.reports then s.reportEnd e .aborted (g.line + 1) else s.dropEngine e
  | .detached => s.dropEngine e
  | .idle => s

/-- The frame memory that the completion of the line in hand leaves: what is left of a drawing line is written now, a transfer's pixels were
written as their data came (R90, R113). -/
def State.lineMemory (s : State) (j : Job) (line : Nat) : FrameMemory :=
  if j.op.isDrawing then j.drawRest s.palettes s.frame line else s.frame

/-- An engine completes its line in hand (R87, R90). -/
def State.completeLine (s : State) (e : EngineId) (j : Job) : State :=
  ({ s with frame := s.lineMemory j (s.engine e).line } : State).afterLine e j

/-- Replace the job of an engine. -/
def State.setJob (s : State) (e : EngineId) (j : Job) : State := s.setEngine e { s.engine e with job := some j }

/-- An answer has come for the line in hand of a transfer, and its job stands as given: the line whose last answer this was is complete, in the
same step (R111, R118). -/
def State.answered (s : State) (e : EngineId) (j : Job) : State :=
  if j.lineReady then (s.setJob e j).completeLine e j else s.setJob e j

/-- LINE_COMPLETE (R87): an engine that is not IDLE completes its line in hand. A transfer's line is complete within the step of its last
answer (R111), so that in a run from reset the command finds none (log 30). -/
def execLineComplete (e : EngineId) (s : State) : Host.Outcome State Fault Refusal :=
  let g := s.engine e
  match g.job with
  | none => .next s
  | some j =>
    if g.state ≠ .idle ∧ j.lineReady then
      if j.lineExists g.line || !j.op.isDrawing then
        .next (s.completeLine e j)
      else .fault .noSuchFrameByte
    else .next s

end Sys2Proof.Machine
end

