-- ==== Sys2Proof/Machine/Transfers.lean ====
section
/-! DEFINITION. The host transfers' answers: HOST_READ_DATA (R113, R118), EXPORT_WRITE_ACCEPTED (R115), the three host faults
(R119 to R122), and ABANDONED_ENGINE_ACCESS_ANSWER (R124). -/

namespace Sys2Proof.Machine

/-- The job of an engine that carries out an operation. -/
def State.workingJob (s : State) (e : EngineId) : Option Job :=
  if (s.engine e).state = .idle then none else (s.engine e).job

/-- The pixel of the line in hand that a host byte address belongs to (R112); none when no read is outstanding that was sent, or the
address begins no pixel of it (R110). -/
def Job.pixelAt (j : Job) (bytes address : Nat) : Option Nat :=
  match j.read with
  | some r =>
    if r.sent && r.address ≤ address && (address - r.address) % bytes = 0 then some ((address - r.address) / bytes) else none
  | none => none

/-- The data lies inside the outstanding read and is whole pixels of it, none of which has come before (R110, R113; log 18). -/
def Job.dataFits (j : Job) (bytes pixel : Nat) (data : List Byte) : Bool :=
  let n := data.length / bytes
  match j.read with
  | some r => data.length % bytes = 0 && 1 ≤ n && (pixel + n) * bytes ≤ r.length &&
      (List.range n).all fun k => !j.arrived.contains (pixel + k)
  | none => false

/-- The pixels whose data has come. -/
def Job.arrive (j : Job) (pixel n : Nat) : Job :=
  { j with arrived := j.arrived ++ (List.range n).map fun k => pixel + k }

/-- Read data of an IMPORT line (R113). -/
def State.importData (s : State) (e : EngineId) (j : Job) (pixel : Nat) (data : List Byte) (host : HostBuffer) : State :=
  let values := host.format.decodeRun data
  let t : State := { s with frame := j.importRun s.palettes (s.engine e).line pixel values s.frame }
  t.answered e (j.arrive pixel values.length)

/-- The read data of a LOADPAL line: entry first + k written whole; the pad byte is not used (R118). -/
def State.entryData (s : State) (e : EngineId) (j : Job) (p : PaletteId) (first : Nat) (data : List Byte) : State :=
  let colour := (Format.p32.decode data).setWidth 24
  let t : State := { s with palettes := Palette.write s.palettes p (first + (s.engine e).line) colour }
  t.answered e (j.arrive 0 1)

/-- HOST_READ_DATA (R112, R113, R118): the bytes of host memory from an address on arrive for the read of the engine's line in hand. -/
def execHostReadData (e : EngineId) (address : BitVec 64) (data : List Byte) (s : State) : Host.Outcome State Fault Refusal :=
  match s.workingJob e with
  | none => .next s
  | some j =>
    match j.op with
    | .importPixels host _ _ _ _ _ =>
      match j.pixelAt host.format.bytes address.toNat with
      | none => .next s
      | some pixel =>
        if j.dataFits host.format.bytes pixel data then
          if j.pixelsExist (s.engine e).line pixel (data.length / host.format.bytes) then
            .next (s.importData e j pixel data host)
          else .fault .noSuchFrameByte
        else .next s
    | .loadPalette p first _ _ =>
      match j.pixelAt 4 address.toNat with
      | none => .next s
      | some pixel => if j.dataFits 4 pixel data then .next (s.entryData e j p first data) else .next s
    | _ => .next s

/-- The bytes of exported host pixels from j on (R115). -/
def Job.exportRun (jb : Job) (palettes : List (Nat × BitVec 24)) (m : FrameMemory) (line j n : Nat) : List Byte :=
  (List.range n).flatMap fun k => jb.exportPixel palettes m line (j + k)

/-- A write of the next n host pixels of an EXPORT line is accepted (R115): it reaches host memory behind every write accepted before it (R116). -/
def State.exportAccepted (s : State) (e : EngineId) (j : Job) (host : HostBuffer) (n : Nat) : State :=
  let line := (s.engine e).line
  (s.accept (host.pixelAddress line j.accepted) (j.exportRun s.palettes s.frame line j.accepted n)).answered e
    { j with accepted := j.accepted + n }

/-- EXPORT_WRITE_ACCEPTED (R115): with bus mastering off every write of the part faults, and none is sent (R110). The link takes the part's
writes in the order of issue (R141), so that no acceptance comes while a completion write is in flight that was issued before the line
was begun (log 1, log 12). -/
def execExportWriteAccepted (e : EngineId) (pixels : Nat) (s : State) : Host.Outcome State Fault Refusal :=
  match s.workingJob e with
  | none => .next s
  | some j =>
    match j.op with
    | .exportPixels _ rect host =>
      if s.link.busMastering && s.takesLine j && 1 ≤ pixels && j.accepted + pixels ≤ host.orientation.lineLength rect then
        if j.pixelsExist (s.engine e).line j.accepted pixels then .next (s.exportAccepted e j host pixels)
        else .fault .noSuchFrameByte
      else .next s
    | _ => .next s

/-- IMPORT_READ_FAULT (R119): while a read of the line is unanswered. -/
def execImportReadFault (e : EngineId) (s : State) : Host.Outcome State Fault Refusal :=
  match s.workingJob e with
  | none => .next s
  | some j =>
    match j.op with
    | .importPixels _ _ _ _ _ _ => if j.lineReady then .next s else .next (s.hostFault e)
    | _ => .next s

/-- EXPORT_WRITE_FAULT (R120): while a write of the line is not accepted. -/
def execExportWriteFault (e : EngineId) (s : State) : Host.Outcome State Fault Refusal :=
  match s.workingJob e with
  | none => .next s
  | some j =>
    match j.op with
    | .exportPixels _ _ _ => if j.lineReady then .next s else .next (s.hostFault e)
    | _ => .next s

/-- LOADPAL_READ_FAULT (R121): while the read of the entry is unanswered. -/
def execLoadpalReadFault (e : EngineId) (s : State) : Host.Outcome State Fault Refusal :=
  match s.workingJob e with
  | none => .next s
  | some j =>
    match j.op with
    | .loadPalette _ _ _ _ => if j.lineReady then .next s else .next (s.hostFault e)
    | _ => .next s

/-- ABANDONED_ENGINE_ACCESS_ANSWER (R124): read data of before a reset is discarded, and a host fault has no effect. DESIGN CHOICE
(unsafe, log 33): an EXPORT write that was issued and not answered at the reset, of which R124 says nothing, never joins `written`, whatever
its answer. -/
def execAbandonedEngineAccessAnswer (s : State) : Host.Outcome State Fault Refusal := .next s

end Sys2Proof.Machine
end

