-- ==== Sys2Proof/Machine/Dispatch.lean ====
section
/-! DEFINITION. The command's effect on the part: one arm for each row of spec/opcode_table.json. -/

namespace Sys2Proof.Machine

def exec (i : Instr) (s : State) : Host.Outcome State Fault Refusal :=
  match i with
  | .submit q tail => Sys2Proof.Machine.execSubmit q tail s
  | .consume k head => Sys2Proof.Machine.execConsume k head s
  | .resume q => Sys2Proof.Machine.execResume q s
  | .abort q => Sys2Proof.Machine.execAbort q s
  | .enable => Sys2Proof.Machine.execEnable s
  | .disable => Sys2Proof.Machine.execDisable s
  | .functionReset => Sys2Proof.Machine.execFunctionReset s
  | .statusClear value => Sys2Proof.Machine.execStatusClear value s
  | .setupAddressWrite half value => Sys2Proof.Machine.execSetupAddressWrite half value s
  | .registerWrite offset size value => Sys2Proof.Machine.execRegisterWrite offset size value s
  | .coldReset => Sys2Proof.Machine.execColdReset s
  | .linkReset => Sys2Proof.Machine.execLinkReset s
  | .pendingMessageSend bm mi unmask => Sys2Proof.Machine.execPendingMessageSend bm mi unmask s
  | .setupReadArrival record => Sys2Proof.Machine.execSetupReadArrival record s
  | .setupReadFault => Sys2Proof.Machine.execSetupReadFault s
  | .abandonedReadAnswer => Sys2Proof.Machine.execAbandonedReadAnswer s
  | .fetchStart slot => Sys2Proof.Machine.execFetchStart slot s
  | .recordArrival record => Sys2Proof.Machine.execRecordArrival record s
  | .fetchFault => Sys2Proof.Machine.execFetchFault s
  | .overtakenFetchEnd => Sys2Proof.Machine.execOvertakenFetchEnd s
  | .abortAckPlace q slot => Sys2Proof.Machine.execAbortAckPlace q slot s
  | .dispatch => Sys2Proof.Machine.execDispatch s
  | .hostReadData e address data => Sys2Proof.Machine.execHostReadData e address data s
  | .exportWriteAccepted e pixels => Sys2Proof.Machine.execExportWriteAccepted e pixels s
  | .lineComplete e => Sys2Proof.Machine.execLineComplete e s
  | .importReadFault e => Sys2Proof.Machine.execImportReadFault e s
  | .exportWriteFault e => Sys2Proof.Machine.execExportWriteFault e s
  | .loadpalReadFault e => Sys2Proof.Machine.execLoadpalReadFault e s
  | .completionWriteIssue k => Sys2Proof.Machine.execCompletionWriteIssue k s
  | .completionWriteAccepted k => Sys2Proof.Machine.execCompletionWriteAccepted k s
  | .completionWriteFault k => Sys2Proof.Machine.execCompletionWriteFault k s
  | .abandonedWriteAnswer reached => Sys2Proof.Machine.execAbandonedWriteAnswer reached s
  | .messageWriteFault index => Sys2Proof.Machine.execMessageWriteFault index s
  | .coalescingTimerExpiry k => Sys2Proof.Machine.execCoalescingTimerExpiry k s
  | .waitExpiry slot => Sys2Proof.Machine.execWaitExpiry slot s
  | .frameStart => Sys2Proof.Machine.execFrameStart s
  | .pcieConfigurationTurnOff bm mi mask => Sys2Proof.Machine.execPcieConfigurationTurnOff bm mi mask s
  | .linkUp => Sys2Proof.Machine.execLinkUp s
  | .scanPixel x row => Sys2Proof.Machine.execScanPixel x row s
  | .abandonedFetchAnswer => Sys2Proof.Machine.execAbandonedFetchAnswer s
  | .abandonedEngineAccessAnswer => Sys2Proof.Machine.execAbandonedEngineAccessAnswer s

end Sys2Proof.Machine
end

