-- ==== Sys2Proof/Machine/Idle.lean ====
section
/-! DEFINITION. What the part does by itself on an empty queue, before the device timer counts: a fetch and a dispatch that are possible
(R47, R73), and what falls due (R160, R180). -/

namespace Sys2Proof.Machine

/-- The fetch that the arbiter starts now (R47): there is a chosen queue, and the fetch takes a FREE slot; which one R48 does not say, so
it is a free value (log 24). -/
def State.possibleFetch (s : State) : Option Instr := if s.chosenQueue.isSome then s.anyFreeSlot.map Instr.fetchStart else none

/-- The event that comes on an empty queue (log 2): a fetch that is possible, else a dispatch that is, else what falls due. -/
def State.ownEvent (s : State) : Option Instr :=
  match s.possibleFetch with
  | some c => some c
  | none => if s.mayDispatch then some .dispatch else s.dueEvent

end Sys2Proof.Machine
end

