-- ==== Sys2Proof/Safety.lean ====
section
/-! DEFINITION. What a safe run is: no step stops it; the laws of the spec that every state of a run keeps: the canonical form of
the stores, the extent law of R6, the ring law of R141, and which commands are resets (R125); and the terms in which the statements
say what several commands share: a vector signalled, a slot answered, the entry to FAULT, the state after a reset. -/

namespace Sys2Proof.Safety

open Sys2Proof.Machine

/-- A command runs on a state: it answers a next state. -/
def Runs (c : Instr) (s : State) : Prop := ∃ t, exec c s = .next t

/-- A run of k steps from a state is safe: it meets neither a fault nor a refusal. -/
def SafeFor (k : Nat) (s : State) : Prop := ∃ t, Sys2Proof.core.run k s = .next t

/-- A state is reached from another in some number of steps. -/
def Reaches (s t : State) : Prop := ∃ k, Sys2Proof.core.run k s = .next t

/-- Both stores are in their canonical form (R1, R16). -/
def StoresCanonical (s : State) : Prop := Memory.wf s.frame ∧ Store.Wf 0#24 s.palettes

/-- The extent of a surface record: its lower end and its size, when it holds fields (R6). -/
def extent (r : Surface) : Option (Nat × Nat) := r.fields.map fun d => (d.base, d.extentBytes)

/-- A surface record claims a range of frame memory: it is DEFINED or RETIRING, and the range is its extent (R6). -/
def Claims (s : State) (i : SurfaceId) (e : Nat × Nat) : Prop := (s.surface i).state ≠ .free ∧ extent (s.surface i) = some e

/-- The extent law (R6): every claimed extent ends at or below 01FF_FFFFh, and no two surfaces share a byte. -/
def ExtentsApart (s : State) : Prop :=
  (∀ i e, Claims s i e → e.1 + e.2 ≤ Config.frameBytes) ∧
  ∀ i j e f, i ≠ j → Claims s i e → Claims s j f → ∀ a, ¬(e.1 ≤ a ∧ a < e.1 + e.2 ∧ f.1 ≤ a ∧ a < f.1 + f.2)

/-- The ring law (R141): what a completion queue has written and not seen consumed, with the write in flight, stays below its
size. -/
def RingsBounded (s : State) : Prop :=
  ∀ k c, s.cq k = some c → c.outstanding + (if c.inFlight.isSome then 1 else 0) + 1 ≤ c.size

/-- The command causes a cold, link or function reset (R169, R178, R179, R184). -/
def isReset : Instr → Bool
  | .coldReset | .linkReset | .functionReset => true
  | .registerWrite offset size value => offset = 0x0C#12 && size = 4 && value.getLsbD 1
  | _ => false

/-- A timer runs, with the event of its expiry and its deadline: in RUNNING a WAIT with a timeout and the frame timer, and in every state a
coalescing timer (R131, R146, R154, R180). -/
def Deadline (s : State) (c : Instr) (d : Time) : Prop :=
  (s.control.deviceState = .running ∧ ∃ w ∈ s.waiting, w.deadline = some d ∧ c = .waitExpiry w.slot) ∨
  (∃ k b, s.cq k = some b ∧ b.deadline = some d ∧ c = .coalescingTimerExpiry k) ∨
  (s.control.deviceState = .running ∧ s.presentation.panel.isSome = true ∧ s.presentation.frameDeadline = some d ∧ c = .frameStart)

/-- No timer that runs has a deadline before this reading of the device timer (R180). -/
def NoEarlierDeadline (s : State) (d : Time) : Prop := ∀ c x, Deadline s c x → d.toNat ≤ x.toNat

/-! ## Pixels, bytes and lines, in the spec's own terms -/

/-- (x, y) lies outside a clip rectangle that is present (R27). -/
def outside (clip : Option Rect) (x y : Nat) : Bool :=
  clip.any fun c => decide (x < c.x ∨ c.x + c.w ≤ x ∨ y < c.y ∨ c.y + c.h ≤ y)

/-- The bits of a pixel value of a format: 8 for I8, 16 for P16, the 24 colour bits for P32, one for M1 (R26, R91). -/
def valueBits : Format → Nat
  | .i8 => 8
  | .p16 => 16
  | .p32 => 24
  | .m1 => 1

/-- A key that is present equals the pixel in every bit of a value of the format; no other bit is compared (R26). -/
def equalsKey (key : Option (BitVec 32)) (f : Format) (v : BitVec 32) : Bool :=
  key.any fun k => (List.range (valueBits f)).all fun b => v.getLsbD b == k.getLsbD b

/-- The value that the bytes of a pixel hold, least significant byte first; a P32 pad is not used (R5, R91). An M1 pixel is no whole
byte. -/
def valueOf (f : Format) (bytes : List Byte) : BitVec 32 :=
  let b := fun (k : Nat) => (bytes.getD k 0#8).toNat
  match f with
  | .i8 => BitVec.ofNat 32 (b 0)
  | .p16 => BitVec.ofNat 32 (b 0 + 256 * b 1)
  | .p32 => BitVec.ofNat 32 (b 0 + 256 * b 1 + 65536 * b 2)
  | .m1 => 0#32

/-- A FILL has written a pixel of a format that held a, and it holds b (R92, R91, R23): bit by bit, bit S + 2·D of the code, where S is the
bit of the colour and D that of the pixel; SOURCE therefore writes the colour, XOR inverts the bits set in it, ZERO and ONE ignore it. -/
def Filled (f : Format) (rop : BitVec 4) (colour a b : BitVec 32) : Prop :=
  (∀ k, b.getLsbD k = (decide (k < valueBits f) && rop.getLsbD ((colour.getLsbD k).toNat + 2 * (a.getLsbD k).toNat))) ∧
  (rop = 10#4 → b = colour &&& f.mask) ∧ (rop = 6#4 → b = a ^^^ (colour &&& f.mask)) ∧ (rop = 0#4 → b = 0#32) ∧
  (rop = 15#4 → b = f.mask)

/-- The bytes that hold a pixel value, least significant first; a P32 pad is 00h (R5, R91, R113, R115). -/
def bytesOf (f : Format) (v : BitVec 32) : List Byte :=
  match f with
  | .i8 => [BitVec.ofNat 8 v.toNat]
  | .p16 => [BitVec.ofNat 8 v.toNat, BitVec.ofNat 8 (v.toNat / 256)]
  | .p32 => [BitVec.ofNat 8 v.toNat, BitVec.ofNat 8 (v.toNat / 256), BitVec.ofNat 8 (v.toNat / 65536), 0x00#8]
  | .m1 => []

/-- The number L of pixels of a line of a host buffer (R29). -/
def pixelsPerLine (o : Orientation) (r : Rect) : Nat := if o.columns then r.h else r.w

/-- The rectangle pixel of pixel j of line i of a host buffer (R29): column k from the left, or from the right under x reverse, row l from
the top, or from the bottom under y reverse, where k is j and l is i in ROWS, and the other way round in COLUMNS. -/
def placeOf (o : Orientation) (r : Rect) (i j : Nat) : Nat × Nat :=
  let k := if o.columns then i else j
  let l := if o.columns then j else i
  (if o.xReverse then r.x + r.w - 1 - k else r.x + k, if o.yReverse then r.y + r.h - 1 - l else r.y + l)

/-- The number of lines of an engine kind (R87, R111): the rows of a drawing's rectangle, the N lines of a host buffer (R29), the entries of
a LOADPAL. -/
def linesOf : Op → Nat
  | .fill _ r _ _ _ | .copy _ _ _ _ r _ _ _ | .pattern _ _ _ _ _ _ r _ _ _ | .expand _ _ _ _ r _ _ _ _ => r.h
  | .importPixels host _ _ r _ _ | .exportPixels _ r host => if host.orientation.columns then r.w else r.h
  | .loadPalette _ _ count _ => count
  | _ => 0

/-- The line in hand has every answer that R111 asks for: an IMPORT's the data of its L pixels, an EXPORT's the acceptance of its L pixels,
a LOADPAL's its entry; a drawing line asks for none. -/
def LineAnswered (j : Job) : Prop :=
  match j.op with
  | .importPixels host _ _ rect _ _ => ∀ k, k < pixelsPerLine host.orientation rect → k ∈ j.arrived
  | .exportPixels _ rect host => j.accepted = pixelsPerLine host.orientation rect
  | .loadPalette _ _ _ _ => 0 ∈ j.arrived
  | _ => True

/-- Pixel x of physical row p of a surface has a byte at or above 33554432, which does not exist (R1). -/
def MissesByte (d : SurfaceFields) (x p : Nat) : Prop := Config.frameBytes < d.pixelByte x p + d.format.touched

/-- The command would touch a byte of frame memory that does not exist (R1): in the pattern region that a DISPATCH latches, in the line of
a drawing kind or in its source row, in a pixel of an IMPORT or EXPORT line, in the pixel that the scan reads. -/
def TouchesMissingByte (s : State) : Instr → Prop
  | .dispatch => ∃ i src x y phaseX phaseY dst rect rop key clip d r,
      (s.slot i).state = .ready ∧ (s.slot i).op = some (.pattern src x y phaseX phaseY dst rect rop key clip) ∧ (s.surface src).fields = some d ∧
      r < 8 ∧ MissesByte d (x + 7) (d.physicalRow (y + r))
  | .lineComplete e => ∃ j r d, (s.engine e).job = some j ∧ j.op.isDrawing = true ∧ j.op.rect = some r ∧
      (j.dst = some d ∧ MissesByte d (r.x + r.w - 1) (d.physicalRow (j.plan.row r (s.engine e).line)) ∨
       j.src = some d ∧ ∃ x y, ((∃ i k rop key clip, j.op = .copy i x y k r rop key clip) ∨
          ∃ i k fore back rop clip, j.op = .expand i x y k r fore back rop clip) ∧
        MissesByte d (x + r.w - 1) (d.physicalRow (y + (j.plan.row r (s.engine e).line - r.y))))
  | .hostReadData e address data => ∃ j host p id rect key clip d r k n, (s.engine e).job = some j ∧
      j.op = .importPixels host p id rect key clip ∧ j.dst = some d ∧ j.read = some r ∧ k < data.length / host.format.bytes ∧
      n = (address.toNat - r.address) / host.format.bytes + k ∧
      MissesByte d (placeOf host.orientation rect (s.engine e).line n).1
        (d.physicalRow (placeOf host.orientation rect (s.engine e).line n).2)
  | .exportWriteAccepted e pixels => ∃ j id rect host d k n, (s.engine e).job = some j ∧ j.op = .exportPixels id rect host ∧
      j.src = some d ∧ k < pixels ∧ n = j.accepted + k ∧ MissesByte d (placeOf host.orientation rect (s.engine e).line n).1
        (d.physicalRow (placeOf host.orientation rect (s.engine e).line n).2)
  | .scanPixel x r => ∃ id d, s.presentation.display = true ∧ s.presentation.shown = some id ∧
      (s.surface id).fields = some d ∧ MissesByte d x (s.scanRow d r)
  | _ => False

/-- The command is a write to STATUS with this bit as 1 (R170, R184). -/
def clearsFlag (c : Instr) (bit : Nat) : Bool :=
  match c with
  | .statusClear value => value.getLsbD bit
  | .registerWrite offset size value => offset = 0x10#12 && size = 4 && value.getLsbD bit
  | _ => false

/-! ## What several commands share -/

/-- An interrupt on a vector takes the link from l to l' (R147): a message when message interrupts and bus mastering are on and the
vector is not masked, else the vector's pending flag. -/
def Signalled (l l' : HostLink) (v : VectorId) : Prop :=
  l' = if l.messageInterrupts = true ∧ l.busMastering = true ∧ l.masked[v] = false
    then { l with written := l.written ++ [.message v] }
    else { l with pendingFlags := l.pendingFlags.set v true }

/-- A slot as it stands after its end (R61, R79): its status and detail set; regions, dependency set and ordered pending cleared. -/
def slotEnded (sl : Slot) (st : Status) (detail : BitVec 32) : Slot :=
  { sl with
    state := .ended, reads := [], writes := [], deps := [], orderedPending := false, engine := none, status := some st,
    detail := detail }

/-- Slot i, which held sl, has ended (R61, R79): after OK with QUIET it is FREE, or holds an acknowledgement that was waiting for a slot
(R58); in every other case it is ENDED with the status and detail, its regions, dependency set and ordered pending cleared. -/
def Answered (t : State) (i : SlotId) (sl : Slot) (st : Status) (detail : BitVec 32) : Prop :=
  if st = .ok ∧ sl.flags.getLsbD 0 = true then
    t.slot i = Slot.freed ∨ ∃ q n, t.slot i = { Slot.freed with
      state := .ended, queue := some q, status := some .queueAborted, detail := BitVec.ofNat 32 n }
  else t.slot i = slotEnded sl st detail

/-- The completion write that a completion queue issues now (R138, R141): in RUNNING and STOPPING, with no write in flight and
outstanding below size − 1, that of the oldest member of its posting list at base + tail × 16. Its `choice` counts the open choice of the
order of the issue (log 12). -/
def nextWrite (u : State) (k : CqId) : Option CompletionWrite :=
  match u.cq k with
  | some c =>
    if (u.control.deviceState = .running ∨ u.control.deviceState = .stopping) ∧ c.inFlight = none ∧ c.outstanding + 1 < c.size
    then c.posting.head?.map fun i =>
      { slot := i, address := c.base.toNat + c.tail * 16, entry := u.completionEntry c i, sent := u.link.busMastering,
        choice := u.choices + 1 }
    else none
  | none => none

/-- That write as the link takes it; none when bus mastering is off (R110). -/
def nextIssued (u : State) (k : CqId) : Option LinkWrite :=
  match nextWrite u k with
  | some w => if w.sent then some (.issued k w.address w.entry.bytes) else none
  | none => none

/-- The completion writes that are due are issued at once and take u to t (R141): each is in flight and, unless bus mastering is off,
stands among the part's writes behind every earlier one; nothing else changes. -/
def WritesIssued (u t : State) : Prop :=
  ∃ l : List CqId, l.Nodup ∧ (∀ k, k ∈ l ↔ (nextWrite u k).isSome) ∧
    t = { u with
      cqs := t.cqs
      link := { u.link with written := u.link.written ++ l.filterMap (nextIssued u) }
      choices := t.choices } ∧
    ∀ k, t.cq k = (u.cq k).map fun c =>
      { c with inFlight := match nextWrite u k with | some w => some w | none => c.inFlight }

/-- Slot i has joined the posting list of the completion queue bound to submission queue q, behind every member that was there
(R79, R140). A write that was in flight stays so; with none, the write of the oldest member is in flight now when the device is
RUNNING or STOPPING and outstanding is below size − 1 (R141). -/
def Posted (s t : State) (q : QueueId) (i : SlotId) : Prop :=
  ∀ c k, s.queue q = some c → s.cq c.cq = some k → ∃ l w,
    t.cq c.cq = some { k with posting := k.posting ++ l, inFlight := w } ∧ i ∈ l ∧ (k.inFlight.isSome = true → w = k.inFlight) ∧
    (k.inFlight = none →
      (w.isSome = true ↔ (s.control.deviceState = .running ∨ s.control.deviceState = .stopping) ∧ k.outstanding + 1 < k.size) ∧
      ∀ x, w = some x → (k.posting ++ l).head? = some x.slot ∧ x.address = k.base.toNat + k.tail * 16 ∧ x.entry.lap = k.lap)

/-- What an acknowledgement is in its slot (R58): ENDED with QUEUE_ABORTED and the skipped count, tag 0 and kind 0. -/
def ackSlot (p : QueueId) (skipped : Nat) : Slot :=
  { Slot.freed with state := .ended, queue := some p, status := some .queueAborted, detail := BitVec.ofNat 32 skipped }

/-- A queue's context after DRAINING may have ended (R59): OPEN when its acknowledgement is placed and it holds no other slot. -/
def drainEnded (s : State) (q : QueueId) (d : Queue) : Queue :=
  if d.state = .draining ∧ ∃ j, d.abort = .placed j ∧ ∀ i, i ≠ j → (s.slot i).queue ≠ some q
  then { d with state := .opened, abort := .absent } else d

/-- The acknowledgement of queue p, whose context is b, takes slot i and takes s to u (R58, R59): occupied rises by one, it joins the end
of the posting list of the queue's completion queue, it waits no longer, and DRAINING may end. -/
def AckPlaced (s u : State) (p : QueueId) (b : Queue) (skipped : Nat) (i : SlotId) : Prop :=
  u = { (s.setSlot i (ackSlot p skipped)).setQueue p
      (some (drainEnded (s.setSlot i (ackSlot p skipped)) p { b with occupied := b.occupied + 1, abort := .placed i })) with
    cqs := u.cqs, ackOrder := s.ackOrder.filter (· ≠ p) } ∧
  ∀ k, u.cq k = if b.cq = k then (s.cq k).map fun c => { c with posting := c.posting ++ [i] } else s.cq k

/-- Slot i of queue q, whose context is d, becomes FREE and takes s to u (R58, R59, R60, R80): occupied falls by one. In FAULT that is all.
Otherwise an acknowledgement that the queue owes to the first of its slots takes the slot; where there is none DRAINING may end, and
the first acknowledgement that waits for any slot takes it. -/
def SlotFreed (s u : State) (i : SlotId) (q : QueueId) (d : Queue) : Prop :=
  ∃ s0, s0 = { (s.setSlot i Slot.freed).setQueue q (some { d with occupied := d.occupied - 1 }) with
      order := s.order.filter (· ≠ i) } ∧
    (s.control.deviceState = .fault → u = s0) ∧
    (s.control.deviceState ≠ .fault →
      (∀ n, d.abort = .owed n .firstFreed → AckPlaced s0 u q { d with occupied := d.occupied - 1 } n i) ∧
      ((∀ n, d.abort ≠ .owed n .firstFreed) →
        ∃ s1, s1 = s0.setQueue q (some (drainEnded s0 q { d with occupied := d.occupied - 1 })) ∧
          (s.ackOrder = [] → u = s1) ∧
          ∀ p rest b n, s.ackOrder = p :: rest → s1.queue p = some b → b.abort = .owed n .anyFree → AckPlaced s1 u p b n i))

/-- A queue's context after one of its operations has ended (R53, R54): an error under HALT policy takes OPEN or WAITING to HALTED; else
the end of its WAIT takes WAITING to OPEN. -/
def queueAfter (c : Queue) (waited : Bool) (st : Status) : Queue :=
  if (st ≠ .ok ∧ st ≠ .aborted ∧ st ≠ .queueAborted) ∧ c.policy = .halt ∧ (c.state = .opened ∨ c.state = .waiting)
  then { c with state := .halted }
  else if waited = true ∧ c.state = .waiting then { c with state := .opened } else c

/-- Slot i of queue q, whose context is c, ends with a status and a detail, releases nothing, and takes s to t (R79). The slot ENDs, its entry
leaves the waiting list, it is held no longer, and its queue goes where R53 and R54 take it; it is freed after OK with QUIET, and else it
joins the end of its posting list. It leaves every dependency set, and ordered pending stays where an earlier slot of the same queue is
still unended (R69, R70). The completion writes that are then due are issued (R141). Nothing else changes: what the end does to a claim
on a surface stands in s already. -/
def EndsAlone (s t : State) (i : SlotId) (q : QueueId) (c : Queue) (st : Status) (detail : BitVec 32) : Prop :=
  ∃ r v u : State,
    r = { (s.setSlot i (slotEnded (s.slot i) st detail)).setQueue q (some (queueAfter c (s.slot i).isWaiting st)) with
      waiting := s.waiting.filter fun w => w.slot ≠ i
      presentation := { s.presentation with held := if s.presentation.held = some i then none else s.presentation.held } } ∧
    (if st = .ok ∧ (s.slot i).flags.getLsbD 0 = true then SlotFreed r v i q (queueAfter c (s.slot i).isWaiting st)
      else v = { r with cqs := v.cqs } ∧
        ∀ k, v.cq k = if c.cq = k then (s.cq k).map fun b => { b with posting := b.posting ++ [i] } else s.cq k) ∧
    u = { v with slots := u.slots, choices := u.choices } ∧
    (∀ j, ∃ b, u.slot j = { v.slot j with deps := (v.slot j).deps.filter (· ≠ i), orderedPending := b } ∧
      (b = true ↔ (v.slot j).orderedPending = true ∧
        ∃ k ∈ s.order.takeWhile (· ≠ j), k ≠ i ∧ (s.slot k).queue = (s.slot j).queue ∧ (s.slot k).unended = true)) ∧
    WritesIssued u t

/-- A completion write in flight: it was issued, and neither answered nor given up since (R142, R150). -/
def Awaited : LinkWrite → Prop
  | .issued _ _ _ => True
  | _ => False

/-- The link takes the completion write of queue k next (R141): none that was issued before it is in flight. -/
def TakenNext (s : State) (k : CqId) : Prop :=
  ∀ before p a d rest, s.link.written = before ++ .issued p a d :: rest → (∀ x ∈ before, ¬Awaited x) → p = k

/-- A completion write that was sent is in flight, and was issued before the line in hand of a transfer was begun (R110, R141). -/
def WriteAhead (s : State) (j : Job) : Prop :=
  ∃ k c w, s.cq k = some c ∧ c.inFlight = some w ∧ w.sent = true ∧ w.choice ≤ j.begun

/-- The link accepts bytes and takes the part's writes from l to l' (R110, R116, R141): they reach host memory behind every write taken before
and ahead of every completion write in flight. -/
def LinkAccepts (l l' : List LinkWrite) (address : Nat) (data : List Byte) : Prop :=
  ∃ before rest, l = before ++ rest ∧ (∀ x ∈ before, ¬Awaited x) ∧ (∀ x, rest.head? = some x → Awaited x) ∧
    l' = before ++ .bytes address data :: rest

/-- A completion write that was issued and not answered, when it is given up (R150, R151). -/
def givenUp : LinkWrite → LinkWrite
  | .issued _ a data => .abandoned a data
  | w => w

/-- An engine after a stop is asked of it: ACTIVE becomes STOP_REQUESTED (R102). -/
def stopAsked (g : Engine) : Engine := if g.state = .active then { g with state := .stopRequested } else g

/-- The read of host memory that a line of an operation issues (R110, R112, R118): line i of an IMPORT reads its L pixels from host address +
i × pitch on, line k of a LOADPAL the 4 bytes at host address + 4k; it is refused when bus mastering is off. -/
def lineReadOf (op : Op) (line : Nat) (busMastering : Bool) : Option HostRead :=
  match op with
  | .importPixels host _ _ rect _ _ => some {
      address := host.address.toNat + line * host.pitch
      length := pixelsPerLine host.orientation rect * host.format.bytes
      sent := busMastering }
  | .loadPalette _ _ _ address => some { address := address.toNat + 4 * line, length := 4, sent := busMastering }
  | _ => none

/-- The operation reads host memory, line by line: an IMPORT or a LOADPAL (R113, R118). -/
def readsHost (op : Op) : Bool :=
  match op with
  | .importPixels _ _ _ _ _ _ | .loadPalette _ _ _ _ => true
  | _ => false

/-- A queue may be fetched for now (R46). -/
def FetchPossible (s : State) : Prop :=
  s.control.deviceState = .running ∧ s.fetch = none ∧ s.ackOrder = [] ∧ (∃ i, (s.slot i).state = .free) ∧
  ∃ q c, s.queue q = some c ∧ c.state = .opened ∧ c.head ≠ c.tail ∧ c.occupied < c.quota

/-- A fetch is begun for queue q, whose context is c, in slot i, and takes s to this state (R47, R48): the slot is FETCHING, occupied rises by
one, the queue is the one last served in its class, and the record at base + head × 64 is read. -/
def fetchBegun (s : State) (q : QueueId) (c : Queue) (i : SlotId) : State :=
  { (s.setSlot i { Slot.freed with state := .fetching, queue := some q }).setQueue q (some { c with occupied := c.occupied + 1 }) with
    lastUrgent := if c.service = .urgent then q else s.lastUrgent
    lastNormal := if c.service = .normal then q else s.lastNormal
    fetch := some { queue := q, slot := i, address := c.base.toNat + c.head * 64, sent := true, discard := false } }

/-- A fetch is begun while bus mastering is off, and takes s to t (R110, R50): its read is refused at once, so that the fetch path stays free;
the slot is ENDED with FETCH_FAULT and the head as detail and joins its posting list, the queue is HALTED, and the completion writes
that are then due are issued (R141). -/
def FetchRefused (s t : State) (q : QueueId) (c : Queue) (i : SlotId) : Prop :=
  ∃ v : State,
    v = { (s.setSlot i { Slot.freed with
          state := .ended, queue := some q, status := some .fetchFault, detail := BitVec.ofNat 32 c.head }).setQueue q
        (some { c with occupied := c.occupied + 1, state := .halted }) with
      lastUrgent := if c.service = .urgent then q else s.lastUrgent
      lastNormal := if c.service = .normal then q else s.lastNormal
      fetch := none
      cqs := v.cqs } ∧
    (∀ k, v.cq k = if c.cq = k then (s.cq k).map fun b => { b with posting := b.posting ++ [i] } else s.cq k) ∧
    WritesIssued v t

/-- The fetch that u makes possible starts, within the step, and takes u to t (R47): none is possible and t is u; or the chosen queue's fetch
takes a FREE slot, which one is open (log 24), and its read is sent; or with bus mastering off that read is refused at once, and the
arbiter chooses again. -/
inductive FetchServed : State → State → Prop where
  /-- No queue is eligible. -/
  | rest {u : State} : ¬FetchPossible u → FetchServed u u
  /-- The read is sent. -/
  | begun {u : State} {q : QueueId} {c : Queue} {i : SlotId} : u.chosenQueue = some q → u.queue q = some c →
      (u.slot i).state = .free → u.link.busMastering = true →
      FetchServed u (fetchBegun { u with choices := u.choices + 1 } q c i)
  /-- The read is refused. -/
  | refused {u v t : State} {q : QueueId} {c : Queue} {i : SlotId} : u.chosenQueue = some q → u.queue q = some c →
      (u.slot i).state = .free → u.link.busMastering = false →
      FetchRefused { u with choices := u.choices + 1 } v q c i → FetchServed v t → FetchServed u t

/-- Command c answers a next state: it takes s to u, and the fetch that is then possible starts in the same step (R47). -/
def GoesTo (c : Instr) (s u : State) : Prop := ∃ t, exec c s = .next t ∧ FetchServed u t

/-- The slot holds a READY engine operation (R73). -/
def ReadyForEngine (sl : Slot) : Prop := sl.state = .ready ∧ ∃ op, sl.op = some op ∧ op.isEngine = true

/-- The dispatch arbiter may act now (R73): an engine is IDLE, none is DETACHED, and an engine operation is READY. -/
def DispatchPossible (s : State) : Prop :=
  s.control.deviceState = .running ∧ (∃ e, (s.engine e).state = .idle) ∧ (∀ e, (s.engine e).state ≠ .detached) ∧
  ∃ i ∈ s.order, ReadyForEngine (s.slot i)

/-- What an engine takes at the dispatch of an operation (R86): the surface records as they stand, the plan, for a PATTERN the 64 values of
its pattern region (R95), and for an IMPORT or a LOADPAL the read of its first line (R110, R112, R118). -/
def JobTaken (s : State) (op : Op) (job : Job) : Prop :=
  job = { op := op, src := op.src.bind fun id => (s.surface id).fields, dst := op.dst.bind fun id => (s.surface id).fields,
          plan := op.plan, latch := job.latch, arrived := [], accepted := 0, drawn := 0, begun := s.choices,
          read := lineReadOf op 0 s.link.busMastering } ∧
  ∀ src x y phaseX phaseY dst rect rop key clip a, op = .pattern src x y phaseX phaseY dst rect rop key clip →
    (s.surface src).fields = some a →
    job.latch.length = 64 ∧ ∀ k, k < 64 → job.latch[k]? = some (readPixel s.frame a (x + k % 8) (y + k / 8))

/-- Slot i is given to an engine with a job (R73): RUNNING on it with lines done 0, and the engine ACTIVE at line 0. -/
def given (s : State) (e : EngineId) (i : SlotId) (job : Job) : State :=
  (s.setSlot i { s.slot i with state := .running, engine := some e, linesDone := 0 }).setEngine e
    { state := .active, slot := some i, line := 0, job := some job }

/-- Slot i of queue q, whose context is d, was given to engine e with bus mastering off, and its first read was refused at once, within the
step from s to t (R110, R119, R121): the slot ends HOST_FAULT with detail 0 and is posted, an OPEN or WAITING queue under HALT policy is
HALTED (R53), the engine is IDLE again, and frame memory and palettes stay. -/
def FirstReadRefused (s t : State) (e : EngineId) (i : SlotId) (q : QueueId) (d : Queue) : Prop :=
  t.engine e = Engine.idled ∧ Answered t i { s.slot i with linesDone := 0 } .hostFault 0#32 ∧ Posted s t q i ∧
  (d.policy = .halt → d.state = .opened ∨ d.state = .waiting → ∃ d', t.queue q = some d' ∧ d'.state = .halted) ∧
  t.frame = s.frame ∧ t.palettes = s.palettes

/-- An entry to FAULT with a cause takes s to t (R176): the device vector is signalled, the engines that hold a slot are asked to
stop, the fetch and the writes in flight are given up, the frame timer and the coalescing timers stop, the panel is blank, and
everything else is kept. -/
def FaultEntry (s t : State) (cause : FaultCause) : Prop :=
  t.control = { s.control with deviceState := .fault, cause := cause, setupRead := none } ∧
  Signalled { s.link with written := s.link.written.map givenUp } t.link s.control.deviceVector ∧
  t.fetch = s.fetch.map (fun (f : Fetch) => { f with discard := true }) ∧
  t.presentation = { s.presentation with frameDeadline := none, scan := none, output := .blank } ∧
  (∀ k, t.cq k = (s.cq k).map fun (c : CompletionQueue) => { c with inFlight := none, deadline := none }) ∧
  (∀ e, t.engine e = if (s.engine e).slot.isSome then stopAsked (s.engine e) else s.engine e) ∧
  t.queues = s.queues ∧ t.slots = s.slots ∧ t.order = s.order ∧ t.sequence = s.sequence ∧ t.ackOrder = s.ackOrder ∧
  t.surfaces = s.surfaces ∧ t.palettes = s.palettes ∧ t.frame = s.frame ∧ t.marks = s.marks ∧ t.waiting = s.waiting

/-- A surface record after the slots named are discarded or aborted and nothing of it is shown any more (R11, R14, R15): each of those
slots that holds an unended PRESENT of the surface leaves present_refs, one that holds its unended RETIRE returns it to DEFINED, and
the shown flag is cleared on the surface that was shown. -/
def unclaimed (s : State) (gone : SlotId → Bool) (i : SurfaceId) : Surface :=
  { s.surface i with
    state := if (s.surface i).state = .retiring ∧ ∃ j, gone j = true ∧ (s.slot j).unended = true ∧ (s.slot j).op = some (.retire i)
      then .defined else (s.surface i).state
    shown := if s.presentation.shown = some i then false else (s.surface i).shown
    presentRefs := (s.surface i).presentRefs - ((List.finRange 32).filter fun j =>
      gone j && (s.slot j).unended && decide ((s.slot j).op = some (.present i))).length }

/-- The place of destination column x in a line's pixel order (R90, R98, R99). -/
def visitPlace (p : Plan) (r : Rect) (x : Nat) : Nat := if p.rightLeft then r.x + r.w - 1 - x else x - r.x

/-- Engine e visits some more pixels of its drawing line in hand, in the plan's pixel order, and takes s to t (R90, R108): how many is left
open. -/
def Visits (s t : State) (e : EngineId) : Prop :=
  ∃ n, t = (match (s.engine e).job with
    | some j =>
      if (s.engine e).state ≠ .idle ∧ j.op.isDrawing = true ∧ j.lineExists (s.engine e).line = true
      then ({ s with frame := j.drawSome s.palettes s.frame (s.engine e).line j.drawn n } : State).setEngine e
        { s.engine e with job := some { j with drawn := j.drawn + n } }
      else s
    | none => s) ∧
    ∀ j r, (s.engine e).job = some j → j.op.rect = some r → n = 0 ∨ j.drawn + n ≤ r.w

/-- Both engines do, and take s to t. -/
def LinesVisited (s t : State) : Prop :=
  ∃ u v, Visits s u .re0 ∧ Visits u v .re1 ∧ t = { v with choices := t.choices }

/-- A reset may cut an engine's line in hand and take frame memory from m to m' (R106, R124): of a drawing line some more pixels, in the
plan's pixel order, have been written, how many is left open; a transfer's line holds what its answers have written. -/
def CutLine (s : State) (e : EngineId) (m m' : FrameMemory) : Prop :=
  ∃ n, m' = match (s.engine e).job with
    | some j =>
      if (s.engine e).state ≠ .idle ∧ j.op.isDrawing = true ∧ j.lineExists (s.engine e).line = true
      then j.drawSome s.palettes m (s.engine e).line j.drawn n else m
    | none => m

/-- What a function reset, a link reset and a cold reset share takes s to t (R178): each block at its reset values. -/
def BlocksReset (s t : State) : Prop :=
  t.control = { s.control with
    deviceState := .off, enable := false, cause := .none, submitIgnored := false, consumeIgnored := false,
    qctlIgnored := false, enableIgnored := false, deviceVector := 0, setupRead := none, setupLo := t.control.setupLo,
    setupHi := t.control.setupHi, timer := t.control.timer } ∧
  (∀ q, t.queue q = none) ∧ t.fetch = none ∧ t.ackOrder = [] ∧ (∀ i, t.slot i = Slot.freed) ∧ t.order = [] ∧
  t.sequence = 0#32 ∧ (∀ e, t.engine e = Engine.idled) ∧ (∀ k, t.cq k = none) ∧ (∀ v : VectorId, t.link.pendingFlags[v] = false) ∧
  t.link.written = s.link.written.map givenUp ∧ (∀ i, t.surface i = Surface.freed) ∧ (∀ m, t.mark m = 0#32) ∧ t.waiting = [] ∧
  t.presentation = Presentation.afterReset

/-- The pairings of formats that the table of R24 does not mark FORMAT. -/
abbrev Convertible (a b : Format) : Prop :=
  a = b ∨ (a = .i8 ∧ b = .p16) ∨ (a = .i8 ∧ b = .p32) ∨ (a = .p16 ∧ b = .p32) ∨ (a = .p32 ∧ b = .p16)

/-- The number in the bytes of a record from an offset on, least significant byte first (R185, R186). -/
def field {n : Nat} (r : BitVec n) (offset bytes : Nat) : Nat := (r.extractLsb' (8 * offset) (8 * bytes)).toNat

/-- The flag at this bit of the flags byte is set (section 12.2): 0 QUIET, 1 ORDERED, 2 CLIP, 3 KEY, 4 BACK. -/
abbrev flagSet (r : OpRecord) (bit : Nat) : Prop := r.getLsbD (8 + bit) = true

/-- The flags byte sets an undefined bit, or one of the five on a kind that the table of R22 does not give it (R22, R185): ORDERED on
DEFINE or WAIT; CLIP but on FILL, COPY, PATTERN, EXPAND and IMPORT; KEY but on COPY, PATTERN and IMPORT; BACK but on EXPAND. -/
abbrev FlagsRefused (r : OpRecord) : Prop :=
  flagSet r 5 ∨ flagSet r 6 ∨ flagSet r 7 ∨
  (flagSet r 1 ∧ field r 0 1 ∈ [0x08, 0x0C]) ∨
  (flagSet r 2 ∧ field r 0 1 ∉ [0x01, 0x02, 0x03, 0x04, 0x05]) ∨
  (flagSet r 3 ∧ field r 0 1 ∉ [0x02, 0x03, 0x05]) ∨
  (flagSet r 4 ∧ field r 0 1 ≠ 0x04)

/-- A rectangle field is outside its ranges (spec/00, R27): x and y in 0..4095, w and h in 1..4096. -/
abbrev RectRefused (r : OpRecord) (offset : Nat) : Prop :=
  4095 < field r offset 2 ∨ 4095 < field r (offset + 2) 2 ∨
  field r (offset + 4) 2 = 0 ∨ 4096 < field r (offset + 4) 2 ∨ field r (offset + 6) 2 = 0 ∨ 4096 < field r (offset + 6) 2

/-- The clip rectangle, where CLIP is set, is outside its ranges (R27). -/
abbrev ClipRefused (r : OpRecord) : Prop := flagSet r 2 ∧ RectRefused r 0x14

/-- The source position is outside its ranges (R31 to R33). -/
abbrev SourceRefused (r : OpRecord) : Prop := 4095 < field r 0x10 2 ∨ 4095 < field r 0x12 2

/-- Lines of so many pixels, of so many bytes each, do not lie in host memory as R34 asks: the address or the pitch is no multiple of the
bytes of a pixel, the pitch is smaller than a line's content, or the last byte lies beyond the top of the host address space. -/
abbrev LinesRefused (r : OpRecord) (bytes pixels lines : Nat) : Prop :=
  field r 0x28 8 % bytes ≠ 0 ∨ field r 0x30 4 % bytes ≠ 0 ∨ field r 0x30 4 < pixels * bytes ∨
  2 ^ 64 < field r 0x28 8 + (lines - 1) * field r 0x30 4 + pixels * bytes

/-- A host format that is none or M1, an orientation above 7, or lines that are refused, of w pixels in ROWS and of h in COLUMNS (R29, R34,
R35). -/
abbrev HostBufferRefused (r : OpRecord) : Prop :=
  2 < field r 7 1 ∨ 7 < field r 0x34 1 ∨
  (field r 0x34 1 < 4 ∧ LinesRefused r (2 ^ field r 7 1) (field r 0x0C 2) (field r 0x0E 2)) ∨
  (4 ≤ field r 0x34 1 ∧ LinesRefused r (2 ^ field r 7 1) (field r 0x0E 2) (field r 0x0C 2))

/-- A field of a DEFINE is outside its range (R37): the base, the width, the height, the format, the stride with the row bytes of R5, the
palette, and where a band is present its rows, its origin and its top. -/
abbrev DefineRefused (r : OpRecord) : Prop :=
  63 < field r 4 1 ∨ 3 < field r 7 1 ∨ 3 < field r 0x37 1 ∨ field r 8 4 % 256 ≠ 0 ∨
  field r 0x0C 2 = 0 ∨ 4096 < field r 0x0C 2 ∨ field r 0x0E 2 = 0 ∨ 4096 < field r 0x0E 2 ∨
  field r 0x10 2 % 64 ≠ 0 ∨ 16384 < field r 0x10 2 ∨
  field r 0x10 2 < (if field r 7 1 = 3 then (field r 0x0C 2 + 7) / 8 else field r 0x0C 2 * 2 ^ field r 7 1) ∨
  1 < field r 0x12 1 ∨
  (field r 0x12 1 = 1 ∧
    (field r 0x16 2 < 2 ∨ field r 0x16 2 ≤ field r 0x18 2 ∨ field r 0x0E 2 < field r 0x14 2 + field r 0x16 2))

/-- A field that a FILL, COPY, PATTERN or EXPAND reads is outside its range (R30 to R33). -/
abbrev DrawFieldRefused (r : OpRecord) : Prop :=
  (field r 0 1 ∈ [0x01, 0x02, 0x03, 0x04] ∧ (63 < field r 4 1 ∨ 15 < field r 6 1 ∨ RectRefused r 8 ∨ ClipRefused r)) ∨
  (field r 0 1 ∈ [0x02, 0x03, 0x04] ∧ (63 < field r 5 1 ∨ SourceRefused r)) ∨
  (field r 0 1 = 0x03 ∧ (7 < field r 0x35 1 ∨ 7 < field r 0x36 1))

/-- A field that an IMPORT, EXPORT or LOADPAL reads is outside its range (R34 to R36). -/
abbrev TransferFieldRefused (r : OpRecord) : Prop :=
  (field r 0 1 = 0x05 ∧ (63 < field r 4 1 ∨ 3 < field r 0x37 1 ∨ ClipRefused r)) ∨
  (field r 0 1 = 0x06 ∧ 63 < field r 5 1) ∨
  (field r 0 1 ∈ [0x05, 0x06] ∧ (RectRefused r 8 ∨ HostBufferRefused r)) ∨
  (field r 0 1 = 0x07 ∧
    (3 < field r 0x37 1 ∨ field r 0x3A 2 = 0 ∨ 256 < field r 0x3A 2 ∨ 256 < field r 0x38 1 + field r 0x3A 2 ∨
      field r 0x28 8 % 4 ≠ 0 ∨ 2 ^ 64 < field r 0x28 8 + 4 * field r 0x3A 2))

/-- A field that one of the other kinds reads is outside its range (R37 to R39). -/
abbrev TableFieldRefused (panelHeight : Nat) (r : OpRecord) : Prop :=
  (field r 0 1 = 0x08 ∧ DefineRefused r) ∨
  (field r 0 1 ∈ [0x09, 0x0A, 0x0D] ∧ 63 < field r 4 1) ∨
  (field r 0 1 ∈ [0x0B, 0x0C] ∧ 15 < field r 0x38 1) ∨
  (field r 0 1 = 0x0E ∧ (1 < field r 0x38 1 ∨ field r 0x3C 2 < field r 0x3A 2 ∨ panelHeight ≤ field r 0x3C 2))

/-- A field that the record's kind reads is outside the range that its rule gives it (R185). -/
def FieldRefused (panelHeight : Nat) (r : OpRecord) : Prop :=
  DrawFieldRefused r ∨ TransferFieldRefused r ∨ TableFieldRefused panelHeight r

/-! ## What a record that is not refused says (section 12.2) -/

/-- The rectangle in the eight bytes from an offset on: x, y, w and h. -/
def rectIn (r : OpRecord) (offset : Nat) : Rect :=
  { x := field r offset 2, y := field r (offset + 2) 2, w := field r (offset + 4) 2, h := field r (offset + 6) 2 }

/-- The clip rectangle, read when CLIP is set. -/
def clipIn (r : OpRecord) : Option Rect := if flagSet r 2 then some (rectIn r 0x14) else none

/-- The key, read when KEY is set. -/
def keyIn (r : OpRecord) : Option (BitVec 32) := if flagSet r 3 then some (BitVec.ofNat 32 (field r 0x24 4)) else none

/-- The back colour, read when BACK is set. -/
def backIn (r : OpRecord) : Option (BitVec 32) := if flagSet r 4 then some (BitVec.ofNat 32 (field r 0x20 4)) else none

/-- The code of a format. -/
def formatCode : Format → Nat
  | .i8 => 0
  | .p16 => 1
  | .p32 => 2
  | .m1 => 3

/-- The record describes this host buffer: its address, pitch, format and orientation, which is major × 4 + y reverse × 2 + x reverse. -/
def HostBufferIn (r : OpRecord) (host : HostBuffer) : Prop :=
  host.address.toNat = field r 0x28 8 ∧ host.pitch = field r 0x30 4 ∧ formatCode host.format = field r 7 1 ∧
  host.orientation.columns.toNat * 4 + host.orientation.yReverse.toNat * 2 + host.orientation.xReverse.toNat = field r 0x34 1

/-- The record describes these surface fields (R37): a band only where band present is 1. -/
def SurfaceFieldsIn (r : OpRecord) (d : SurfaceFields) : Prop :=
  formatCode d.format = field r 7 1 ∧ d.base = field r 8 4 ∧ d.width = field r 0x0C 2 ∧ d.height = field r 0x0E 2 ∧
  d.stride = field r 0x10 2 ∧ d.palette.val = field r 0x37 1 ∧
  d.band = if field r 0x12 1 = 1 then some { top := field r 0x14 2, rows := field r 0x16 2, origin := field r 0x18 2 } else none

/-- The operation is the one that the record's bytes say, by the tables of section 12.2 (R185): the kind by its code, and each parameter by
the field that the kind reads for it. -/
def Says (r : OpRecord) (op : Op) : Prop :=
  match op with
  | .fill dst rect colour rop clip => field r 0 1 = 0x01 ∧ dst.val = field r 4 1 ∧ rop.toNat = field r 6 1 ∧ rect = rectIn r 8 ∧
      colour.toNat = field r 0x1C 4 ∧ clip = clipIn r
  | .copy src x y dst rect rop key clip => field r 0 1 = 0x02 ∧ dst.val = field r 4 1 ∧ src.val = field r 5 1 ∧
      rop.toNat = field r 6 1 ∧ rect = rectIn r 8 ∧ x = field r 0x10 2 ∧ y = field r 0x12 2 ∧ key = keyIn r ∧ clip = clipIn r
  | .pattern src x y phaseX phaseY dst rect rop key clip => field r 0 1 = 0x03 ∧ dst.val = field r 4 1 ∧ src.val = field r 5 1 ∧
      rop.toNat = field r 6 1 ∧ rect = rectIn r 8 ∧ x = field r 0x10 2 ∧ y = field r 0x12 2 ∧ phaseX = field r 0x35 1 ∧
      phaseY = field r 0x36 1 ∧ key = keyIn r ∧ clip = clipIn r
  | .expand src x y dst rect fore back rop clip => field r 0 1 = 0x04 ∧ dst.val = field r 4 1 ∧ src.val = field r 5 1 ∧
      rop.toNat = field r 6 1 ∧ rect = rectIn r 8 ∧ x = field r 0x10 2 ∧ y = field r 0x12 2 ∧ fore.toNat = field r 0x1C 4 ∧
      back = backIn r ∧ clip = clipIn r
  | .importPixels host palette dst rect key clip => field r 0 1 = 0x05 ∧ dst.val = field r 4 1 ∧ rect = rectIn r 8 ∧
      HostBufferIn r host ∧ palette.val = field r 0x37 1 ∧ key = keyIn r ∧ clip = clipIn r
  | .exportPixels src rect host => field r 0 1 = 0x06 ∧ src.val = field r 5 1 ∧ rect = rectIn r 8 ∧ HostBufferIn r host
  | .loadPalette palette first count address => field r 0 1 = 0x07 ∧ palette.val = field r 0x37 1 ∧ first = field r 0x38 1 ∧
      count = field r 0x3A 2 ∧ address.toNat = field r 0x28 8
  | .define id d => field r 0 1 = 0x08 ∧ id.val = field r 4 1 ∧ SurfaceFieldsIn r d
  | .retire id => field r 0 1 = 0x09 ∧ id.val = field r 4 1
  | .scroll id origin => field r 0 1 = 0x0A ∧ id.val = field r 4 1 ∧ origin = field r 0x18 2
  | .signal mark value => field r 0 1 = 0x0B ∧ mark.val = field r 0x38 1 ∧ value.toNat = field r 0x3C 4
  | .wait mark value timeout => field r 0 1 = 0x0C ∧ mark.val = field r 0x38 1 ∧ value.toNat = field r 0x3C 4 ∧
      timeout = field r 0x3A 2
  | .present id => field r 0 1 = 0x0D ∧ id.val = field r 4 1
  | .setPanel display first last border => field r 0 1 = 0x0E ∧ display.toNat = field r 0x38 1 ∧ first = field r 0x3A 2 ∧
      last = field r 0x3C 2 ∧ border.toNat = field r 0x1C 4 % 2 ^ 24
  | .note => field r 0 1 = 0x0F

/-! ## The setup record (R171, R186, section 12.4) -/

/-- The ring of a descriptor at an offset, of entries of so many bytes, is refused: its base is no multiple of 64, its size no power of two
in 16..4096, or it passes the top of the host address space. -/
def RingRefused (r : SetupRecord) (offset bytes : Nat) : Prop :=
  field r offset 8 % 64 ≠ 0 ∨ (∀ k, 4 ≤ k → k ≤ 12 → field r (offset + 8) 2 ≠ 2 ^ k) ∨
  2 ^ 64 < field r offset 8 + field r (offset + 8) 2 * bytes

/-- SQ descriptor n is refused: its ring, a class or policy above 1, a cq not below cq_count, a quota outside 1..32. -/
def SqRefused (r : SetupRecord) (n : Nat) : Prop :=
  RingRefused r (0x10 + 16 * n) 64 ∨ 1 < field r (0x1A + 16 * n) 1 ∨ field r 1 1 ≤ field r (0x1B + 16 * n) 1 ∨
  1 < field r (0x1C + 16 * n) 1 ∨ field r (0x1D + 16 * n) 1 = 0 ∨ 32 < field r (0x1D + 16 * n) 1

/-- CQ descriptor m is refused: its ring, a vector above 31, a threshold of 0, a timer above 1000. -/
def CqRefused (r : SetupRecord) (m : Nat) : Prop :=
  RingRefused r (0x90 + 16 * m) 16 ∨ 31 < field r (0x9A + 16 * m) 1 ∨ field r (0x9B + 16 * m) 1 = 0 ∨
  1000 < field r (0x9C + 16 * m) 2

/-- The setup record is invalid: a count or the device vector outside its range, a descriptor below its count refused, or a panel field
outside its range. -/
def SetupRefused (r : SetupRecord) : Prop :=
  field r 0 1 = 0 ∨ 8 < field r 0 1 ∨ field r 1 1 = 0 ∨ 4 < field r 1 1 ∨ 31 < field r 2 1 ∨
  (∃ n, n < field r 0 1 ∧ SqRefused r n) ∨ (∃ m, m < field r 1 1 ∧ CqRefused r m) ∨
  field r 0xD0 2 < 16 ∨ 2048 < field r 0xD0 2 ∨ field r 0xD2 2 < 16 ∨ 2048 < field r 0xD2 2 ∨
  field r 0xD4 4 < 8000 ∨ 50000 < field r 0xD4 4

/-- The context that SQ descriptor n gives its queue at the entry to RUNNING (R42): OPEN, with head, tail and occupied 0. -/
def SqGives (r : SetupRecord) (n : Nat) (c : Queue) : Prop :=
  c = { state := .opened, base := BitVec.ofNat 64 (field r (0x10 + 16 * n) 8), size := field r (0x18 + 16 * n) 2,
        service := if field r (0x1A + 16 * n) 1 = 1 then .urgent else .normal, cq := c.cq,
        policy := if field r (0x1C + 16 * n) 1 = 1 then .halt else .goOn, quota := field r (0x1D + 16 * n) 1,
        head := 0, tail := 0, occupied := 0, abort := .absent } ∧
  c.cq.val = field r (0x1B + 16 * n) 1

/-- The context that CQ descriptor m gives its completion queue at the entry to RUNNING (R137): tail, head and outstanding 0, lap 1, nothing
posted or in flight, count 0 and the timer idle. -/
def CqGives (r : SetupRecord) (m : Nat) (c : CompletionQueue) : Prop :=
  c = { base := BitVec.ofNat 64 (field r (0x90 + 16 * m) 8), size := field r (0x98 + 16 * m) 2, vector := c.vector,
        threshold := field r (0x9B + 16 * m) 1, timer := field r (0x9C + 16 * m) 2, tail := 0, head := 0, lap := 1#8,
        outstanding := 0, posting := [], inFlight := none, count := 0, deadline := none } ∧
  c.vector.val = field r (0x9A + 16 * m) 1

/-- The rectangle leaves a surface (spec/00). -/
abbrev Leaves (r : Rect) (d : SurfaceFields) : Prop := d.width < r.x + r.w ∨ d.height < r.y + r.h

/-- The extent of new surface fields crosses the top of frame memory or meets that of a DEFINED or RETIRING surface (R6, R8). -/
def ExtentTaken (s : State) (d : SurfaceFields) : Prop :=
  Config.frameBytes < d.base + d.extentBytes ∨
  ∃ i f, (s.surface i).state ≠ .free ∧ (s.surface i).fields = some f ∧ d.base < f.base + f.extentBytes ∧
    f.base < d.base + d.extentBytes

/-- The extents of two surfaces share no byte (R6). -/
def Apart (a d : SurfaceFields) : Prop := a.base + a.extentBytes ≤ d.base ∨ d.base + d.extentBytes ≤ a.base

/-- The fields of a surface are as DEFINE admits them (R12, R37, R6): a pixel in each row, rows that fit their stride, an extent that
lies in frame memory, and a band that lies inside the surface, its origin below its rows. -/
def SoundFields (d : SurfaceFields) : Prop :=
  0 < d.width ∧ d.format.rowBytes d.width ≤ d.stride ∧ d.base + d.extentBytes ≤ Config.frameBytes ∧
  ∀ b, d.band = some b → b.origin < b.rows ∧ b.top + b.rows ≤ d.height

/-- Every surface record that holds fields, and every copy of one that an engine has taken (R86), is as DEFINE admits it. -/
def SurfacesSound (s : State) : Prop :=
  (∀ i d, (s.surface i).fields = some d → SoundFields d) ∧
  ∀ e j, (s.engine e).job = some j → (∀ d, j.src = some d → SoundFields d) ∧ ∀ d, j.dst = some d → SoundFields d

/-- Byte a holds pixel (x, y) of a surface, or a part of it (R5, R12). -/
def HoldsPixel (d : SurfaceFields) (x y a : Nat) : Prop :=
  let row := d.base + d.physicalRow y * d.stride
  if d.format = .m1 then a = row + x / 8 else row + x * d.format.bytes ≤ a ∧ a < row + (x + 1) * d.format.bytes

/-- The data of a fetch f of a configured queue may arrive (R49): it was sent and has not been overtaken. -/
def Arriving (s : State) (f : Fetch) (c : Queue) : Prop :=
  s.fetch = some f ∧ f.sent = true ∧ f.discard = false ∧ s.queue f.queue = some c

/-- What the slot of a fetch holds of an arrived record: its queue, its sequence number, its kind, flags, tag and parameters (R61,
R63). -/
def arrived (s : State) (f : Fetch) (r : OpRecord) : Slot :=
  { Slot.freed with
    queue := some f.queue, sequence := some s.sequence, kind := r.extractLsb' 0 8, flags := r.extractLsb' 8 8,
    tag := r.extractLsb' 16 16, record := some r }

/-- The sequence number is given, the head advances and the fetch path is free after an arrival for queue q (R49, R63). -/
def Advanced (s t : State) (q : QueueId) (c : Queue) : Prop :=
  t.sequence = s.sequence + 1#32 ∧ t.fetch = none ∧ ∃ d, t.queue q = some d ∧ d.head = (c.head + 1) % c.size ∧ d.tail = c.tail

/-- Slot j waits on something other than slot i: on a mark, on another slot, or on an earlier unended slot of its own queue. -/
def HeldBack (s : State) (i j : SlotId) : Prop :=
  (s.slot j).isWaiting = true ∨ (∃ k ∈ (s.slot j).deps, k ≠ i) ∨
  ((s.slot j).orderedPending = true ∧
    ∃ k ∈ s.order.takeWhile (· ≠ j), k ≠ i ∧ (s.slot k).queue = (s.slot j).queue ∧ (s.slot k).unended = true)

/-- The end of slot i releases nothing: every other BLOCKED slot waits on something else. -/
def ReleasesNothing (s : State) (i : SlotId) : Prop :=
  ∀ j, j ≠ i → (s.slot j).state = .blocked → HeldBack s i j

/-- The end of the slots named releases nothing: every other BLOCKED slot waits on a mark, on another slot, or on an earlier unended slot
of its own queue (R69, R70). -/
def ReleasesNone (s : State) (gone : SlotId → Bool) : Prop :=
  ∀ j, gone j = false → (s.slot j).state = .blocked →
    (s.slot j).isWaiting = true ∨ (∃ k ∈ (s.slot j).deps, gone k = false) ∨
    ((s.slot j).orderedPending = true ∧
      ∃ k ∈ s.order.takeWhile (· ≠ j), gone k = false ∧ (s.slot k).queue = (s.slot j).queue ∧ (s.slot k).unended = true)

/-- Slot k waits for the end of slot i alone (R69, R70): it is BLOCKED and no WAIT, it depends on no other slot, and ordered pending, if
set, stands for slot i alone. -/
def WaitsOnlyFor (s : State) (i k : SlotId) : Prop :=
  k ≠ i ∧ k ∈ s.order ∧ (s.slot k).state = .blocked ∧ (s.slot k).isWaiting = false ∧ (∀ d ∈ (s.slot k).deps, d = i) ∧
  ((s.slot k).orderedPending = true → ∀ j ∈ s.order.takeWhile (· ≠ k), (s.slot j).queue = (s.slot k).queue →
    (s.slot j).unended = true → j = i)

/-- What is true of the window and the waiting list in every state of a run (R63, R126): no slot stands twice in the admission order, and
every entry of the waiting list is that of a WAIT that waits. -/
def WindowOrderly (s : State) : Prop := s.order.Nodup ∧ ∀ w ∈ s.waiting, (s.slot w.slot).isWaiting = true

/-! ## Regions (R65 to R68) -/

/-- The clip leaves nothing to write (R27, R67): it has no column or no row in common with the rectangle. -/
def clippedAway (op : Op) : Bool :=
  match op with
  | .fill _ r _ _ (some c) | .copy _ _ _ _ r _ _ (some c) | .pattern _ _ _ _ _ _ r _ _ (some c)
  | .expand _ _ _ _ r _ _ _ (some c) | .importPixels _ _ _ r _ (some c) =>
    decide (r.x + r.w ≤ c.x ∨ c.x + c.w ≤ r.x ∨ r.y + r.h ≤ c.y ∨ c.y + c.h ≤ r.y)
  | _ => false

/-- dst∩clip (R66): from the larger of the left columns to the smaller of the right ones, and the rows likewise. -/
def cut (r : Rect) : Option Rect → Rect
  | none => r
  | some c =>
    { x := max r.x c.x, y := max r.y c.y, w := min (r.x + r.w) (c.x + c.w) - max r.x c.x,
      h := min (r.y + r.h) (c.y + c.h) - max r.y c.y }

/-- The write region of an admitted operation, by the table of R66; none when its clip leaves nothing to write (R67). -/
def WriteRegion (op : Op) (a : Region) : Prop :=
  clippedAway op = false ∧
  match op with
  | .fill dst r _ _ clip | .copy _ _ _ dst r _ _ clip | .pattern _ _ _ _ _ dst r _ _ clip | .expand _ _ _ dst r _ _ _ clip
  | .importPixels _ _ dst r _ clip => a = { resource := .surface dst, rect := some (cut r clip) }
  | .loadPalette p _ _ _ => a = { resource := .palette p, rect := none }
  | .retire id | .scroll id _ => a = { resource := .surface id, rect := none }
  | .present _ | .setPanel _ _ _ _ => a = { resource := .panel, rect := none }
  | .exportPixels _ _ _ | .define _ _ | .signal _ _ | .wait _ _ _ | .note => False

/-- The region is dst∩clip and D is read: the ROP code is other than 0, 5, 10 and 15 (R66, R23). -/
def ReadsDestination (rop : BitVec 4) (dst : SurfaceId) (r : Rect) (clip : Option Rect) (a : Region) : Prop :=
  (rop ≠ 0#4 ∧ rop ≠ 5#4 ∧ rop ≠ 10#4 ∧ rop ≠ 15#4) ∧ a = { resource := .surface dst, rect := some (cut r clip) }

/-- The region is the palette of a surface from which I8 pixels are converted to P16 or P32 (R66). -/
def ReadsPalette (src : Option SurfaceFields) (dst : Format) (a : Region) : Prop :=
  ∃ f, src = some f ∧ f.format = .i8 ∧ (dst = .p16 ∨ dst = .p32) ∧ a = { resource := .palette f.palette, rect := none }

/-- The read regions of an admitted operation, by the table of R66; none when its clip leaves nothing to write (R67). -/
def ReadRegion (s : State) (op : Op) (a : Region) : Prop :=
  clippedAway op = false ∧
  match op with
  | .fill dst r _ rop clip => ReadsDestination rop dst r clip a
  | .copy src x y dst r rop _ clip =>
    a = { resource := .surface src, rect := some { x := x, y := y, w := r.w, h := r.h } } ∨ ReadsDestination rop dst r clip a ∨
    ∃ g, (s.surface dst).fields = some g ∧ ReadsPalette (s.surface src).fields g.format a
  | .pattern src x y _ _ dst r rop _ clip =>
    a = { resource := .surface src, rect := some { x := x, y := y, w := 8, h := 8 } } ∨ ReadsDestination rop dst r clip a
  | .expand src x y dst r _ _ rop clip =>
    a = { resource := .surface src, rect := some { x := x, y := y, w := r.w, h := r.h } } ∨ ReadsDestination rop dst r clip a
  | .importPixels host p dst _ _ _ =>
    ∃ g, (s.surface dst).fields = some g ∧ host.format = .i8 ∧ g.format ≠ .i8 ∧ a = { resource := .palette p, rect := none }
  | .exportPixels src r host =>
    a = { resource := .surface src, rect := some r } ∨ ReadsPalette (s.surface src).fields host.format a
  | .present id => a = { resource := .surface id, rect := none }
  | .loadPalette _ _ _ _ | .define _ _ | .retire _ | .scroll _ _ | .signal _ _ | .wait _ _ _ | .setPanel _ _ _ _ | .note => False

/-- Two regions meet (R65): they name the same resource, and one of them is whole, or their columns and their rows intersect. -/
def Meet (a b : Region) : Prop :=
  a.resource = b.resource ∧ ∀ p q, a.rect = some p → b.rect = some q →
    p.x < q.x + q.w ∧ q.x < p.x + p.w ∧ p.y < q.y + q.h ∧ q.y < p.y + p.h

/-- Slot k of state s was released in the step to t and went where its kind goes (R69, R75 to R77): an engine operation is READY; one whose
clip leaves nothing, and a NOTE, end OK with detail 0; a RETIRE frees its surface and ends OK (R10), a SCROLL replaces the band origin and
ends OK (R13); a SIGNAL ends OK with its value, its mark at or above it and no satisfied WAIT left, or MARK_REGRESS (R129, R130); a
PRESENT or PANEL is RUNNING, and is the held operation where no other that is BLOCKED fails to wait for it (R157). -/
def Released (s t : State) (k : SlotId) : Prop :=
  ∀ op q, (s.slot k).op = some op → (s.slot k).queue = some q →
    (op.isEngine = true → clippedAway op = false →
      t.slot k = { s.slot k with state := .ready, deps := [], orderedPending := false }) ∧
    (clippedAway op = true ∨ op = .note → Answered t k (s.slot k) .ok 0#32) ∧
    (∀ id, op = .retire id → Answered t k (s.slot k) .ok 0#32 ∧ t.surface id = Surface.freed) ∧
    (∀ id o, op = .scroll id o → Answered t k (s.slot k) .ok 0#32 ∧
      ((∀ j, j ≠ k → (s.slot j).state = .blocked → (s.slot j).op ≠ some (.retire id) ∧ ∀ p, (s.slot j).op ≠ some (.scroll id p)) →
        ∀ d b, (s.surface id).fields = some d → d.band = some b → o < b.rows →
          (t.surface id).fields = some { d with band := some { b with origin := o } })) ∧
    (∀ m v, op = .signal m v →
      (Answered t k (s.slot k) .ok v ∧ v.toNat ≤ (t.mark m).toNat ∧
        ∀ w ∈ t.waiting, w.mark = m → v.toNat < w.value.toNat) ∨
      ∃ x, v.toNat < x.toNat ∧ x.toNat ≤ (t.mark m).toNat ∧ Answered t k (s.slot k) .markRegress x) ∧
    (op.isPresentation = true → t.slot k = { s.slot k with state := .running, deps := [], orderedPending := false } ∧
      ((∀ j, j ≠ k → (s.slot j).state = .blocked → (∃ o, (s.slot j).op = some o ∧ o.isPresentation = true) →
          k ∈ (s.slot j).deps) →
        t.presentation.held = some k))

/-- The operation names the surface (R7). -/
def NamesSurface (op : Op) (id : SurfaceId) : Prop :=
  match op with
  | .fill x _ _ _ _ | .importPixels _ _ x _ _ _ | .exportPixels x _ _ | .define x _ | .retire x | .scroll x _ | .present x => x = id
  | .copy x _ _ y _ _ _ _ | .pattern x _ _ _ _ y _ _ _ _ | .expand x _ _ y _ _ _ _ _ => x = id ∨ y = id
  | .loadPalette _ _ _ _ | .signal _ _ | .wait _ _ _ | .setPanel _ _ _ _ | .note => False

/-- Slot j holds an unended operation that conflicts with the operation: a region of one meets a region of the other, and at least one of
the two is a write region (R68); or the operation is a RETIRE or a SCROLL, and that of slot j names its surface (R9, R10, R13). -/
def Conflicts (s : State) (op : Op) (j : SlotId) : Prop :=
  (s.slot j).unended = true ∧
  ((∃ a ∈ (s.slot j).writes, ∃ b, (WriteRegion op b ∨ ReadRegion s op b) ∧ Meet a b) ∨
   (∃ a ∈ (s.slot j).reads, ∃ b, WriteRegion op b ∧ Meet a b) ∨
   ∃ id o, (op = .retire id ∨ ∃ n, op = .scroll id n) ∧ (s.slot j).op = some o ∧ NamesSurface o id)

/-- The operation, in queue q, must wait for its own queue (R70): it is ORDERED or a SIGNAL, and a slot of the queue other than its own
has not ended. -/
def MustWait (s : State) (i : SlotId) (q : QueueId) (op : Op) (flags : BitVec 8) : Prop :=
  (flags.getLsbD 1 = true ∨ ∃ m v, op = .signal m v) ∧
  ∃ j, j ≠ i ∧ (s.slot j).queue = some q ∧ (s.slot j).unended = true

/-- The operation arrives in slot i free to run (R64): it conflicts with no unended operation and need not wait for its queue. -/
def FreeToRun (s : State) (i : SlotId) (q : QueueId) (op : Op) (flags : BitVec 8) : Prop :=
  (∀ j, j ≠ i → ¬Conflicts s op j) ∧ ¬MustWait s i q op flags

end Sys2Proof.Safety
end

