-- ==== Sys2Proof/Certificates/Slice0/Obligations.lean ====
section
/-! DEFINITION. The statements for the provers, in the order: the machine as a whole, the laws that every step keeps, then the
commands by family. Each says in its docstring which rule of spec/ it formalises. -/

open Sys2Proof Sys2Proof.Machine Sys2Proof.Safety

/-! ## The machine as a whole -/

/-- A step takes the command at the front of the queue and runs it on the state with the queue's rest. -/
def Obligations.StepRunsFrontCommand : Prop :=
  ∀ (c : Instr) (rest : List Instr) (s : State), step { s with pending := c :: rest } = exec c { s with pending := rest }

/-- No command touches the queue of waiting commands. -/
def Obligations.ExecKeepsPending : Prop :=
  ∀ (c : Instr) (s t : State), exec c s = .next t → t.pending = s.pending

/-- No command is refused, and a command faults only where it would touch a byte of frame memory that does not exist (R1). That such a
command stops, before it writes anything, is the model's choice (log 16, log 1). -/
def Obligations.OnlyMissingBytesFault : Prop :=
  ∀ (c : Instr) (s : State), Runs c s ∨ (exec c s = .fault .noSuchFrameByte ∧ TouchesMissingByte s c)

/-- What a cold reset leaves, as the rules state it, in device control, the fetch unit, the window, the surface, palette and mark tables, the
engines, the completion unit, the presentation unit and the host link (R15, R16, R42, R61, R63, R85, R125, R126, R137, R153, R168 to R170,
R173, R178 to R180); that the line of an IDLE engine is 0 is the model's choice (log 29). What the spec leaves open is not in it: frame
memory (log 6), the vector masks (log 7), the queue last served (log 11), the record of writes (log 12) and whether the link is up
(log 22). -/
def Obligations.ResetValues : Prop :=
  State.reset.control =
    { deviceState := .off, enable := false, cause := .none, submitIgnored := false, consumeIgnored := false,
      qctlIgnored := false, enableIgnored := false, setupLo := 0#32, setupHi := 0#32, deviceVector := 0, timer := 0#64,
      setupRead := none } ∧
  (∀ q, State.reset.queue q = none) ∧ (∀ k, State.reset.cq k = none) ∧ State.reset.fetch = none ∧ State.reset.ackOrder = [] ∧
  (∀ i, (State.reset.slot i).state = .free) ∧ State.reset.order = [] ∧ State.reset.sequence = 0#32 ∧
  State.reset.link.busMastering = false ∧ State.reset.link.messageInterrupts = false ∧
  (∀ v : VectorId, State.reset.link.pendingFlags[v] = false) ∧
  (∀ i, State.reset.surface i = { state := .free, fields := none, shown := false, presentRefs := 0 }) ∧
  (∀ p e, Palette.read State.reset.palettes p e = 0#24) ∧
  (∀ e, State.reset.engine e = { state := .idle, slot := none, line := 0, job := none }) ∧
  (∀ m, State.reset.mark m = 0#32) ∧ State.reset.waiting = [] ∧
  State.reset.presentation.panel = none ∧ State.reset.presentation.frameDeadline = none ∧
  State.reset.presentation.display = false ∧ State.reset.presentation.shown = none ∧ State.reset.presentation.firstRow = 0 ∧
  State.reset.presentation.lastRow = none ∧ State.reset.presentation.border = 0#24 ∧
  State.reset.presentation.frameCounter = 0#32 ∧ State.reset.presentation.latchedOrigin = none ∧
  State.reset.presentation.held = none ∧ State.reset.presentation.output = .blank

/-! ## The laws that every step keeps -/

/-- Right after reset the stores are in canonical form, the surfaces lie apart and are sound, no completion ring is overrun, and no fetch is
possible that has not started. -/
def Obligations.LawsHoldAtReset : Prop :=
  StoresCanonical State.reset ∧ ExtentsApart State.reset ∧ SurfacesSound State.reset ∧ RingsBounded State.reset ∧
  ¬FetchPossible State.reset

/-- Every step keeps frame memory and the palette store in their canonical form (R1, R16). -/
def Obligations.StoresStayCanonical : Prop :=
  ∀ s t : State, StoresCanonical s → step s = .next t → StoresCanonical t

/-- Every step keeps the extent law: no two surfaces in state DEFINED or RETIRING share any byte of frame memory, and every such
extent ends at or below 01FF_FFFFh (R6, R8). -/
def Obligations.ExtentsStayApart : Prop :=
  ∀ s t : State, ExtentsApart s → step s = .next t → ExtentsApart t

/-- Every step keeps the surfaces sound: the row bytes fit the stride, the extent ends at or below 01FF_FFFFh, a band lies inside its
surface and its origin is less than its rows, for every surface record and for every copy of one that an engine works with (R6, R12, R37, R86). -/
def Obligations.SurfacesStaySound : Prop :=
  ∀ s t : State, SurfacesSound s → step s = .next t → SurfacesSound t

/-- Every step keeps the ring law: the entries written and not consumed, with the write in flight, never exceed the size minus one
(R141, R143). -/
def Obligations.RingsStayBounded : Prop :=
  ∀ s t : State, RingsBounded s → step s = .next t → RingsBounded t

/-- A mark's value never decreases, except that a cold, link or function reset sets every mark to 0 (R125, R136). -/
def Obligations.MarksNeverDecrease : Prop :=
  ∀ (c : Instr) (s t : State), exec c s = .next t →
    (∀ m, (s.mark m).toNat ≤ (t.mark m).toNat) ∨ (isReset c = true ∧ ∀ m, t.mark m = 0#32)

/-- A sticky flag that is set stays set until a write to STATUS that carries its bit as 1, or a reset (R170, R184). -/
def Obligations.StickyFlagsStaySet : Prop :=
  ∀ (c : Instr) (s t : State), exec c s = .next t → isReset c = false →
    (s.control.submitIgnored = true → t.control.submitIgnored = true ∨ clearsFlag c 8 = true) ∧
    (s.control.consumeIgnored = true → t.control.consumeIgnored = true ∨ clearsFlag c 9 = true) ∧
    (s.control.qctlIgnored = true → t.control.qctlIgnored = true ∨ clearsFlag c 10 = true) ∧
    (s.control.enableIgnored = true → t.control.enableIgnored = true ∨ clearsFlag c 11 = true)

/-- Palettes change only by LOADPAL data and by a cold reset (R16, R18): every other command, the read data of an IMPORT among them, leaves
the palette store as it was; and the data of line k of a LOADPAL, with first + k below 256 (R36) and the stores canonical, leave every entry
but entry first + k of its palette. -/
def Obligations.PalettesChangeOnlyByLoadpal : Prop :=
  ∀ (c : Instr) (s t : State), exec c s = .next t → c ≠ .coldReset →
    ((∀ e a d j p first n x, c = .hostReadData e a d → (s.engine e).job = some j → j.op ≠ .loadPalette p first n x) →
      t.palettes = s.palettes) ∧
    ∀ e a d j p first n x, c = .hostReadData e a d → (s.engine e).job = some j → j.op = .loadPalette p first n x →
      StoresCanonical s → first + (s.engine e).line < 256 →
      ∀ q y, q ≠ p ∨ y.toNat ≠ first + (s.engine e).line → Palette.read t.palettes q y = Palette.read s.palettes q y

/-- The device state moves in one command other than a reset only as the table of section 10.8 lets it (R169 to R177). Two pairs are no
arrow of that table but two of them in one step, as the model reads it: OFF to FAULT, through LOADING, for a load that faults at once
(R172, R179), and RUNNING to OFF, through STOPPING, for a stop that finds every slot FREE (log 26, DEDUCED). -/
def Obligations.DeviceStateFollowsTable : Prop :=
  ∀ (c : Instr) (s t : State), exec c s = .next t → isReset c = false →
    (s.control.deviceState, t.control.deviceState) ∈
      [(.off, .off), (.off, .loading), (.off, .fault), (.loading, .loading), (.loading, .running), (.loading, .fault),
       (.loading, .off), (.running, .running), (.running, .stopping), (.running, .off), (.running, .fault),
       (.stopping, .stopping), (.stopping, .off), (.stopping, .fault), (.fault, .fault), (.fault, .off)]

/-- The device timer (R180): a cold reset sets it to 0, every other command leaves it or carries it on, and no step carries it past the
deadline of a timer that runs. What a step on an empty queue does is the model's choice (log 2). A fetch that is possible starts, in
some FREE slot (R46, R47); else a dispatch that is possible is made (R73); else, where a timer is due, the step is the expiry of one
that is due with none before it, or, before a frame start, the next pixel of a scan that has not ended (R160); else it counts one µs
and changes nothing else. -/
def Obligations.TimerRunsOn : Prop :=
  (∀ (c : Instr) (s t : State), exec c s = .next t →
    (c = .coldReset ∧ t.control.timer = 0#64) ∨ s.control.timer.toNat ≤ t.control.timer.toNat) ∧
  (∀ (s t : State) (c : Instr) (d : Time), step s = .next t → Deadline s c d → s.control.timer.toNat ≤ d.toNat →
    t.control.timer.toNat ≤ d.toNat) ∧
  (∀ s : State, s.pending = [] → FetchPossible s →
    ∃ i, (s.slot i).state = .free ∧ step s = exec (.fetchStart i) { s with choices := s.choices + 1 }) ∧
  (∀ s : State, s.pending = [] → ¬FetchPossible s → DispatchPossible s →
    step s = exec .dispatch { s with choices := s.choices + 1 }) ∧
  (∀ s : State, s.pending = [] → ¬FetchPossible s → ¬DispatchPossible s →
    (∀ c d, Deadline s c d → s.control.timer.toNat < d.toNat) →
    step s = .next { s with control := { s.control with timer := s.control.timer + 1#64 } }) ∧
  ∀ (s : State) (c : Instr) (d : Time), s.pending = [] → ¬FetchPossible s → ¬DispatchPossible s → Deadline s c d →
    d.toNat ≤ s.control.timer.toNat →
    ∃ c d, Deadline s c d ∧ d.toNat ≤ s.control.timer.toNat ∧ NoEarlierDeadline s d ∧
      (step s = exec c { s with choices := s.choices + 1 } ∨
        c = .frameStart ∧ ∃ p n, s.presentation.panel = some p ∧ s.presentation.scan = some n ∧ n < p.width * p.height ∧
          step s = exec (.scanPixel (n % p.width) (n / p.width)) { s with choices := s.choices + 1 })

/-! ## The register window -/

/-- SUBMIT (R45): the tail is replaced, in every device and queue state; an UNUSED queue or a tail not less than the size is refused
with SUBMIT_IGNORED. CONSUME (R143): head is replaced and outstanding falls by the distance (new head − head) mod size, and a write
whose conditions then hold is issued at once (R141); an unconfigured queue, a head not less than size and a distance above outstanding
are refused with CONSUME_IGNORED. Nothing else changes, but that the fetch which a new tail makes possible starts in the same step (R47). -/
def Obligations.ChannelsTakeIndices : Prop :=
  ∀ (s : State) (v : BitVec 12), s.link.up = true →
    (∀ q c, s.queue q = some c → v.toNat < c.size →
      GoesTo (.submit q v) s (s.setQueue q (some { c with tail := v.toNat }))) ∧
    (∀ q, s.queue q = none ∨ (∃ c, s.queue q = some c ∧ c.size ≤ v.toNat) →
      exec (.submit q v) s = .next { s with control := { s.control with submitIgnored := true } }) ∧
    (∀ k c, s.cq k = some c → v.toNat < c.size → (v.toNat + c.size - c.head) % c.size ≤ c.outstanding →
      ∃ t, exec (.consume k v) s = .next t ∧ WritesIssued (s.setCq k (some { c with
        head := v.toNat, outstanding := c.outstanding - (v.toNat + c.size - c.head) % c.size })) t) ∧
    (∀ k, s.cq k = none ∨ (∃ c, s.cq k = some c ∧
        (c.size ≤ v.toNat ∨ c.outstanding < (v.toNat + c.size - c.head) % c.size)) →
      exec (.consume k v) s = .next { s with control := { s.control with consumeIgnored := true } })

/-- RESUME (R56): a HALTED queue becomes WAITING when its WAIT has not ended, and OPEN otherwise; head, tail, occupied and every slot
stay, and the fetch that is then possible starts in the same step (R47). That the unended WAIT is the queue's most recently admitted operation is the law of R54 (log 27). -/
def Obligations.ResumeReopensQueue : Prop :=
  ∀ (s : State) (q : QueueId) (c : Queue), s.link.up = true → s.control.deviceState = .running → s.queue q = some c →
    c.state = .halted →
    ((∃ w ∈ s.waiting, w.queue = q) → GoesTo (.resume q) s (s.setQueue q (some { c with state := .waiting }))) ∧
    ((∀ w ∈ s.waiting, w.queue ≠ q) → GoesTo (.resume q) s (s.setQueue q (some { c with state := .opened })))

/-- A QCTL action that is refused sets QCTL_IGNORED and leaves everything else: any action outside RUNNING, RESUME to a queue that is
not HALTED, ABORT to an UNUSED or DRAINING queue, and an action code that is neither (R55, R184). -/
def Obligations.RefusedQueueActions : Prop :=
  ∀ (s : State) (q : QueueId), s.link.up = true →
    (s.control.deviceState ≠ .running ∨ (∀ c, s.queue q = some c → c.state ≠ .halted) →
      exec (.resume q) s = .next { s with control := { s.control with qctlIgnored := true } }) ∧
    (s.control.deviceState ≠ .running ∨ (∀ c, s.queue q = some c → c.state = .draining) →
      exec (.abort q) s = .next { s with control := { s.control with qctlIgnored := true } }) ∧
    (∀ v : BitVec 32, v.extractLsb' 8 2 ≠ 1#2 → v.extractLsb' 8 2 ≠ 2#2 →
      exec (.registerWrite 0x1C#12 4 v) s = .next { s with control := { s.control with qctlIgnored := true } })

/-- ABORT of a queue that holds no slot (R57 to R59): head takes the tail, and the acknowledgement, with the skipped count (tail − head)
mod size, takes a FREE slot at once and is posted, so that DRAINING ends in the same step; which FREE slot is open (log 24). When none
is FREE, the queue is DRAINING and its acknowledgement waits, behind those that wait already (that one waits behind others even where a
slot is FREE, which no run shows, is the model's reading of R58, log 24). Nothing else changes, but that the model's count of open
choices rises, of which the FREE slot takes one (log 10), that a completion write which is then due is issued (R141), and that a fetch of
another queue which is then possible starts in the same step (R47). A queue with a fetch in flight holds a slot. -/
def Obligations.AbortOfSlotlessQueue : Prop :=
  ∀ (s : State) (q : QueueId) (c : Queue), s.link.up = true → s.control.deviceState = .running → s.queue q = some c →
    c.state ≠ .draining → c.occupied = 0 → (∀ i, (s.slot i).queue ≠ some q) → (∀ f, s.fetch = some f → f.queue ≠ q) →
    (∀ k, s.ackOrder = [] → (∃ i, (s.slot i).state = .free) → s.cq c.cq = some k →
      ∃ t i, GoesTo (.abort q) s t ∧ (s.slot i).state = .free ∧
        WritesIssued { ((s.setSlot i (ackSlot q ((c.tail + c.size - c.head) % c.size))).setQueue q (some { c with
          state := .opened, head := c.tail, occupied := 1, abort := .absent })).setCq c.cq
            (some { k with posting := k.posting ++ [i] }) with choices := s.choices + 1 } t) ∧
    (s.ackOrder ≠ [] ∨ (∀ i, (s.slot i).state ≠ .free) →
      exec (.abort q) s = .next { s.setQueue q (some { c with
          state := .draining, head := c.tail, abort := .owed ((c.tail + c.size - c.head) % c.size) .anyFree }) with
        ackOrder := s.ackOrder ++ [q] })

/-- ABORT of any queue that may be aborted (R57): head takes the tail; every slot of the queue in BLOCKED or READY, and a PRESENT or
PANEL of it that is held, ends ABORTED with detail 0 and is posted; an engine that carries out an operation of the queue is asked to
stop; the fetch in flight for the queue is marked for discard; frame memory, the palettes and the presentation state are not changed. A
queue that holds slots is DRAINING, and owes the first of them to become FREE an acknowledgement with the skipped count (tail − head)
mod size, or 1 where that is 0 and a fetch is in flight (R58). Where the endings release nothing, an aborted RETIRE has returned its
surface and an aborted PRESENT has left present_refs (R11, R14), and no other surface is changed.
A fetch that is then possible starts in the same step (R47). -/
def Obligations.AbortEndsUnfinishedWork : Prop :=
  ∀ (s : State) (q : QueueId) (c : Queue), s.link.up = true → s.control.deviceState = .running → s.queue q = some c →
    c.state ≠ .draining →
    ∃ t, GoesTo (.abort q) s t ∧
      (∃ d, t.queue q = some d ∧ d.head = c.tail ∧ d.tail = c.tail ∧ d.quota = c.quota ∧
        (d.state = .draining ∨ d.state = .opened)) ∧
      (∀ i, (s.slot i).queue = some q →
        ((s.slot i).state = .blocked ∨ (s.slot i).state = .ready ∨
          ((s.slot i).state = .running ∧ ∃ op, (s.slot i).op = some op ∧ op.isPresentation = true)) →
        Answered t i (s.slot i) .aborted 0#32 ∧ Posted s t q i) ∧
      (∀ e, t.engine e = match (s.engine e).slot with
        | some i => if (s.slot i).queue = some q then stopAsked (s.engine e) else s.engine e
        | none => s.engine e) ∧
      (t.fetch = s.fetch.map fun (f : Fetch) => if f.queue = q then { f with discard := true } else f) ∧
      t.frame = s.frame ∧ t.palettes = s.palettes ∧ t.presentation = { s.presentation with held := t.presentation.held } ∧
      t.control = s.control ∧
      (1 ≤ c.occupied → (∀ w ∈ s.waiting, (s.slot w.slot).state = .blocked) → ∃ d n, t.queue q = some d ∧ d.state = .draining ∧
        d.occupied = c.occupied ∧ d.abort = .owed n .firstFreed ∧
        n = (if (c.tail + c.size - c.head) % c.size = 0 ∧ ∃ f, s.fetch = some f ∧ f.queue = q ∧ f.discard = false then 1
          else (c.tail + c.size - c.head) % c.size)) ∧
      (ReleasesNone s (fun i => decide ((s.slot i).queue = some q) && (s.slot i).endsAtOnce) → ∀ i, t.surface i =
        { unclaimed s (fun i => decide ((s.slot i).queue = some q) && (s.slot i).endsAtOnce) i with
          shown := (s.surface i).shown })

/-- The table of R169, but for the passages of R175 and R177: ENABLE in OFF enters LOADING with the cause NONE and issues one read of the
setup record at the address of SETUP_HI and SETUP_LO (R172), when that is a multiple of 64, the record ends within the address space and
bus mastering is on (for the other loads see FaultsStopDevice); ENABLE with the field 1 and DISABLE with the field 0 change nothing; ENABLE with the field 0 in STOPPING or FAULT sets
ENABLE_IGNORED; DISABLE in LOADING abandons the read and enters OFF, with no message and the cause as it is (R173). -/
def Obligations.EnableFollowsTable : Prop :=
  ∀ s : State, s.link.up = true →
    (s.control.enable = false → s.control.deviceState = .off →
      (s.control.setupHi ++ s.control.setupLo).toNat % 64 = 0 →
      (s.control.setupHi ++ s.control.setupLo).toNat + 255 < 2 ^ 64 → s.link.busMastering = true →
      exec .enable s = .next { s with control := { s.control with
        deviceState := .loading, enable := true, cause := .none,
        setupRead := some { address := s.control.setupHi ++ s.control.setupLo } } }) ∧
    (s.control.enable = true → exec .enable s = .next s) ∧
    (s.control.enable = false → exec .disable s = .next s) ∧
    (s.control.enable = false → s.control.deviceState = .stopping ∨ s.control.deviceState = .fault →
      exec .enable s = .next { s with control := { s.control with enableIgnored := true } }) ∧
    (s.control.enable = true → s.control.deviceState = .loading →
      exec .disable s = .next { s with control := { s.control with deviceState := .off, enable := false, setupRead := none } })

/-- DISABLE in RUNNING (R175, R81, R102, R163): ENABLE is cleared; slots in BLOCKED or READY, and a held PRESENT or PANEL, end ABORTED
with detail 0 and are posted, with what that does to the surfaces they name; engines that hold a slot are asked to stop; the fetch in
flight is marked for discard; the panel goes blank with display OFF, nothing shown, nothing held and the frame timer stopped (R153). The
entries of BLOCKED WAITs leave the waiting list, and their WAITING queues become OPEN (R134, R54). While some slot is not FREE the
device is STOPPING. With every slot FREE it is OFF in the same step, as the model reads it (log 26, DEDUCED), with every queue,
completion queue and the panel unconfigured: each completion queue with a count of at least 1 has sent its interrupt, and the device
vector's message is the last (R148). -/
def Obligations.DisableStopsDevice : Prop :=
  (∀ (s : State) (j : SlotId), s.link.up = true → s.control.enable = true → s.control.deviceState = .running →
    (s.slot j).state ≠ .free → (∀ i, (s.slot i).queue = none → (s.slot i).unended = false) →
    ∃ t, exec .disable s = .next t ∧ t.control = { s.control with deviceState := .stopping, enable := false } ∧
      (∀ i q, (s.slot i).queue = some q →
        ((s.slot i).state = .blocked ∨ (s.slot i).state = .ready ∨
          ((s.slot i).state = .running ∧ ∃ op, (s.slot i).op = some op ∧ op.isPresentation = true)) →
        Answered t i (s.slot i) .aborted 0#32 ∧ Posted s t q i) ∧
      (∀ i, t.surface i = unclaimed s (fun j => (s.slot j).endsAtOnce) i) ∧
      (∀ e, t.engine e = if (s.engine e).slot.isSome then stopAsked (s.engine e) else s.engine e) ∧
      (t.fetch = s.fetch.map fun (f : Fetch) => { f with discard := true }) ∧
      t.presentation = { s.presentation with
        display := false, shown := none, latchedOrigin := none, frameDeadline := none, scan := none, output := .blank,
        held := t.presentation.held } ∧
      ((∀ i, s.presentation.held = some i → (s.slot i).queue ≠ none ∧ (s.slot i).state = .running ∧
          ∃ op, (s.slot i).op = some op ∧ op.isPresentation = true) → t.presentation.held = none) ∧
      (∀ w ∈ t.waiting, w ∈ s.waiting ∧ ((s.slot w.slot).state ≠ .blocked ∨ (s.slot w.slot).queue = none)) ∧
      (∀ i q m v n d, (s.slot i).state = .blocked → (s.slot i).op = some (.wait m v n) → (s.slot i).queue = some q →
        s.queue q = some d → d.state = .waiting → ∃ d', t.queue q = some d' ∧ d'.state = .opened) ∧
      t.frame = s.frame ∧ t.palettes = s.palettes ∧ t.marks = s.marks ∧ t.ackOrder = []) ∧
  ∀ s : State, s.link.up = true → s.control.enable = true → s.control.deviceState = .running →
    (∀ i, (s.slot i).state = .free) →
    ∃ t l, exec .disable s = .next t ∧ t.control = { s.control with deviceState := .off, enable := false } ∧
      (∀ q, t.queue q = none) ∧ (∀ k, t.cq k = none) ∧ t.slots = s.slots ∧ t.ackOrder = [] ∧
      (∀ i, t.surface i = { s.surface i with
        shown := if s.presentation.shown = some i then false else (s.surface i).shown }) ∧
      (∀ e, t.engine e = if (s.engine e).slot.isSome then stopAsked (s.engine e) else s.engine e) ∧
      t.presentation = { s.presentation with
        panel := none, display := false, shown := none, latchedOrigin := none, frameDeadline := none, scan := none,
        output := .blank } ∧
      t.frame = s.frame ∧ t.palettes = s.palettes ∧ t.marks = s.marks ∧ t.link.written = s.link.written ++ l ∧
      (∀ k (b : CompletionQueue), s.cq k = some b → 1 ≤ b.count →
        if s.link.messageInterrupts = true ∧ s.link.busMastering = true ∧ s.link.masked[b.vector] = false
        then .message b.vector ∈ l else t.link.pendingFlags[b.vector] = true) ∧
      (if s.link.messageInterrupts = true ∧ s.link.busMastering = true ∧ s.link.masked[s.control.deviceVector] = false
        then l.getLast? = some (.message s.control.deviceVector)
        else t.link.pendingFlags[s.control.deviceVector] = true)

/-- DISABLE in FAULT (R177, R83, R165): OFF, with no message and the cause kept; every slot is FREE without a completion, a discarded
PRESENT leaves present_refs and a discarded RETIRE returns its surface; every queue and completion queue is unconfigured, the waiting
list empty, an engine that holds a slot DETACHED and any other untouched, the panel parameters dropped and nothing shown; the rows, the
border and the frame counter, marks, palettes and frame memory are kept. -/
def Obligations.DisableInFaultDiscardsWork : Prop :=
  ∀ s : State, s.link.up = true → s.control.enable = true → s.control.deviceState = .fault →
    ∃ t, exec .disable s = .next t ∧ t.control = { s.control with deviceState := .off, enable := false } ∧ t.link = s.link ∧
      (∀ i, t.slot i = Slot.freed) ∧ (∀ q, t.queue q = none) ∧ (∀ k, t.cq k = none) ∧ t.waiting = [] ∧ t.fetch = none ∧
      t.ackOrder = [] ∧ t.order = [] ∧ (∀ i, t.surface i = unclaimed s (fun _ => true) i) ∧
      (∀ e, t.engine e =
        if (s.engine e).slot.isSome then { s.engine e with state := .detached, slot := none } else s.engine e) ∧
      t.presentation = { s.presentation with
        panel := none, display := false, shown := none, latchedOrigin := none, held := none, frameDeadline := none,
        scan := none, output := .blank } ∧
      t.marks = s.marks ∧ t.palettes = s.palettes ∧ t.frame = s.frame ∧ t.sequence = s.sequence

/-- FUNCTION_RESET, LINK_RESET and COLD_RESET (R178, R179): each block is at its reset values; a function reset keeps the setup
address, the PCIe configuration, the palettes and the device timer; a link reset clears the setup address and the configuration as
well; a cold reset clears the palettes and the device timer too. With no engine in a line, frame memory is kept; of a drawing line in
hand the pixels visited have been written, how many is open (log 9), and a transfer's line holds what its answers have written (R106, R124).
The model's choices are that a cold reset keeps the frame bytes too, which R2 leaves open (log 6), that the line of an IDLE engine is 0
(log 29), that the record of the part's writes stays, with the ones in flight given up (log 12), and its deduction that the link is down
after a link or cold reset until LINK_UP (log 22). -/
def Obligations.ResetsClearBlocks : Prop :=
  ∀ s : State,
    (s.link.up = true → ∃ t, exec .functionReset s = .next t ∧ BlocksReset s t ∧ t.control.setupLo = s.control.setupLo ∧
      t.control.setupHi = s.control.setupHi ∧ t.control.timer = s.control.timer ∧ t.palettes = s.palettes ∧
      t.link.up = true ∧ t.link.busMastering = s.link.busMastering ∧
      t.link.messageInterrupts = s.link.messageInterrupts ∧ t.link.masked = s.link.masked ∧
      ((∀ e, (s.engine e).state = .idle) → t.frame = s.frame) ∧
      (∃ m, CutLine s .re0 s.frame m ∧ CutLine s .re1 m t.frame)) ∧
    (∃ t, exec .linkReset s = .next t ∧ BlocksReset s t ∧ t.control.setupLo = 0#32 ∧ t.control.setupHi = 0#32 ∧
      t.control.timer = s.control.timer ∧ t.palettes = s.palettes ∧ t.link.up = false ∧ t.link.busMastering = false ∧
      t.link.messageInterrupts = false ∧ ((∀ e, (s.engine e).state = .idle) → t.frame = s.frame) ∧
      (∃ m, CutLine s .re0 s.frame m ∧ CutLine s .re1 m t.frame)) ∧
    (∃ t, exec .coldReset s = .next t ∧ BlocksReset s t ∧ t.control.setupLo = 0#32 ∧ t.control.setupHi = 0#32 ∧
      t.control.timer = 0#64 ∧ (∀ p e, Palette.read t.palettes p e = 0#24) ∧ t.link.up = false ∧
      t.link.busMastering = false ∧ t.link.messageInterrupts = false ∧
      ((∀ e, (s.engine e).state = .idle) → t.frame = s.frame) ∧
      (∃ m, CutLine s .re0 s.frame m ∧ CutLine s .re1 m t.frame))

/-- STATUS_CLEAR (R170): each sticky flag written as 1 is cleared, each written as 0 is left. SETUP_ADDRESS_WRITE (R168): that half of
the setup address is replaced in every device state, and a read returns the value last written. Nothing else changes. -/
def Obligations.StatusAndSetupWrites : Prop :=
  ∀ (s : State) (v : BitVec 32), s.link.up = true →
    exec (.statusClear v) s = .next { s with control := { s.control with
      submitIgnored := if v.getLsbD 8 then false else s.control.submitIgnored
      consumeIgnored := if v.getLsbD 9 then false else s.control.consumeIgnored
      qctlIgnored := if v.getLsbD 10 then false else s.control.qctlIgnored
      enableIgnored := if v.getLsbD 11 then false else s.control.enableIgnored } } ∧
    exec (.setupAddressWrite .lo v) s = .next { s with control := { s.control with setupLo := v } } ∧
    exec (.setupAddressWrite .hi v) s = .next { s with control := { s.control with setupHi := v } } ∧
    (∀ t, exec (.setupAddressWrite .lo v) s = .next t → t.readRegister 0x04#12 = v ∧ t.readRegister 0x08#12 = s.control.setupHi) ∧
    (∀ t, exec (.setupAddressWrite .hi v) s = .next t → t.readRegister 0x08#12 = v ∧ t.readRegister 0x04#12 = s.control.setupLo)

/-- A REGISTER_WRITE completes, whatever its offset, size and value. A full 32-bit one is taken by the register at its offset, from the
bits that the register names (R167, R169, R184): SETUP_LO, SETUP_HI and STATUS take theirs as R168 and R170 say. -/
def Obligations.RegisterWriteTakesFields : Prop :=
  ∀ (s : State) (v : BitVec 32),
    (∀ offset size, ∃ t, exec (.registerWrite offset size v) s = .next t) ∧
    (s.link.up = true →
      exec (.registerWrite 0x04#12 4 v) s = .next { s with control := { s.control with setupLo := v } } ∧
      exec (.registerWrite 0x08#12 4 v) s = .next { s with control := { s.control with setupHi := v } } ∧
      exec (.registerWrite 0x10#12 4 v) s = .next { s with control := { s.control with
        submitIgnored := if v.getLsbD 8 then false else s.control.submitIgnored
        consumeIgnored := if v.getLsbD 9 then false else s.control.consumeIgnored
        qctlIgnored := if v.getLsbD 10 then false else s.control.qctlIgnored
        enableIgnored := if v.getLsbD 11 then false else s.control.enableIgnored } }) ∧
    exec (.registerWrite 0x04#12 4 v) s = exec (.setupAddressWrite .lo v) s ∧
    exec (.registerWrite 0x08#12 4 v) s = exec (.setupAddressWrite .hi v) s ∧
    (v.getLsbD 1 = true → exec (.registerWrite 0x0C#12 4 v) s = exec .functionReset s) ∧
    (v.getLsbD 1 = false → v.getLsbD 0 = true → exec (.registerWrite 0x0C#12 4 v) s = exec .enable s) ∧
    (v.getLsbD 1 = false → v.getLsbD 0 = false → exec (.registerWrite 0x0C#12 4 v) s = exec .disable s) ∧
    exec (.registerWrite 0x10#12 4 v) s = exec (.statusClear v) s ∧
    exec (.registerWrite 0x14#12 4 v) s = exec (.submit (v.extractLsb' 16 3).toFin (v.extractLsb' 0 12)) s ∧
    exec (.registerWrite 0x18#12 4 v) s = exec (.consume (v.extractLsb' 16 2).toFin (v.extractLsb' 0 12)) s ∧
    (v.extractLsb' 8 2 = 1#2 → exec (.registerWrite 0x1C#12 4 v) s = exec (.resume (v.extractLsb' 0 3).toFin) s) ∧
    (v.extractLsb' 8 2 = 2#2 → exec (.registerWrite 0x1C#12 4 v) s = exec (.abort (v.extractLsb' 0 3).toFin) s)

/-- A REGISTER_WRITE of fewer than 32 bits, to IDENT, or at 20h or above is ignored and sets no flag (R167). While the link is down the
register window cannot be reached (R179); that a register write which is commanded then has no effect is the model's choice (log 22). -/
def Obligations.RegisterWritesIgnored : Prop :=
  (∀ (s : State) (offset : BitVec 12) (size : Nat) (v : BitVec 32),
    (size < 4 ∨ offset = 0#12 ∨ 0x20 ≤ offset.toNat) → exec (.registerWrite offset size v) s = .next s) ∧
  ∀ (c : Instr) (s : State), s.link.up = false →
    (match c with
      | .submit _ _ | .consume _ _ | .resume _ | .abort _ | .enable | .disable | .functionReset | .statusClear _
      | .setupAddressWrite _ _ | .registerWrite _ _ _ => true
      | _ => false) = true →
    exec c s = .next s

/-- What the registers read (R167, R184, section 12.1): the identity, the setup address, ENABLE alone in CONTROL, the state, cause and
flags in STATUS, three bits for each queue in QCTL, each with the codes of section 12.1, 0 from SUBMIT and CONSUME and from 20h on; every
other bit reads 0. A read of fewer than 32 bits returns the addressed bytes of that value: byte k of the register at a word's offset is
bits 8k + 7 to 8k of it. -/
def Obligations.RegisterReads : Prop :=
  ∀ s : State,
    s.readRegister 0x00#12 = 0x04205C03#32 ∧ s.readRegister 0x04#12 = s.control.setupLo ∧
    s.readRegister 0x08#12 = s.control.setupHi ∧
    s.readRegister 0x0C#12 = (if s.control.enable then 1#32 else 0#32) ∧
    (s.readRegister 0x10#12).extractLsb' 0 3 = (match s.control.deviceState with
      | .off => 0#3 | .loading => 1#3 | .running => 2#3 | .stopping => 3#3 | .fault => 4#3) ∧
    (s.readRegister 0x10#12).extractLsb' 4 2 = (match s.control.cause with
      | .none => 0#2 | .setupRead => 1#2 | .setupInvalid => 2#2 | .completionWrite => 3#2) ∧
    (s.readRegister 0x10#12).getLsbD 8 = s.control.submitIgnored ∧
    (s.readRegister 0x10#12).getLsbD 9 = s.control.consumeIgnored ∧
    (s.readRegister 0x10#12).getLsbD 10 = s.control.qctlIgnored ∧
    (s.readRegister 0x10#12).getLsbD 11 = s.control.enableIgnored ∧
    s.readRegister 0x10#12 &&& 0xFFFFF0C8#32 = 0#32 ∧
    s.readRegister 0x14#12 = 0#32 ∧ s.readRegister 0x18#12 = 0#32 ∧
    (∀ q : QueueId, (s.readRegister 0x1C#12).extractLsb' (3 * q.val) 3 = match (s.queue q).map Queue.state with
      | none => 0#3 | some .opened => 1#3 | some .waiting => 2#3 | some .halted => 3#3 | some .draining => 4#3) ∧
    (s.readRegister 0x1C#12).extractLsb' 24 8 = 0#8 ∧
    (∀ offset : BitVec 12, 0x20 ≤ offset.toNat → s.readRegister offset = 0#32 ∧ s.readRegisterByte offset = 0#8) ∧
    ∀ (word : BitVec 12) (k i : Nat), word.toNat % 4 = 0 → k < 4 → i < 8 →
      (s.readRegisterByte (word + BitVec.ofNat 12 k)).getLsbD i = (s.readRegister word).getLsbD (8 * k + i)

/-! ## The host link -/

/-- LINK_UP (R179): the window becomes reachable. PCIE_CONFIGURATION_TURN_OFF (R147): the enables named are off and the vectors named
masked. MESSAGE_WRITE_FAULT (R147): the message is dropped, no flag becomes pending and the device state stays; that a message is named
by its place in the record of the part's writes and is taken out of that record is the model's choice (log 21, log 12). Nothing else
changes. -/
def Obligations.LinkCommands : Prop :=
  (∀ s : State, exec .linkUp s = .next { s with link := { s.link with up := true } }) ∧
  (∀ (s : State) (bm mi : Bool) (mask : List VectorId), s.link.up = true →
    ∃ t, exec (.pcieConfigurationTurnOff bm mi mask) s = .next t ∧
      t = { s with link := { s.link with
        busMastering := t.link.busMastering, messageInterrupts := t.link.messageInterrupts, masked := t.link.masked } } ∧
      t.link.busMastering = (if bm then false else s.link.busMastering) ∧
      t.link.messageInterrupts = (if mi then false else s.link.messageInterrupts) ∧
      ∀ v : VectorId, t.link.masked[v] = if v ∈ mask then true else s.link.masked[v]) ∧
  ∀ (s : State) (n : Nat) (v : VectorId), s.link.written[n]? = some (.message v) →
    exec (.messageWriteFault n) s = .next { s with link := { s.link with written := s.link.written.eraseIdx n } }

/-- PENDING_MESSAGE_SEND (R147): once the enables and vectors named are on, every pending vector that may send sends one message, in
some order, and its flag is cleared; every other flag stays pending. That the command itself turns the enables on and unmasks the
vectors, before the messages go, is the model's choice (log 5), and the order of the messages is open (log 8). -/
def Obligations.PendingMessagesGoOnce : Prop :=
  ∀ (s : State) (bm mi : Bool) (unmask : List VectorId), s.link.up = true →
    ∃ (t : State) (l : List VectorId), exec (.pendingMessageSend bm mi unmask) s = .next t ∧
      t.link.busMastering = (s.link.busMastering || bm) ∧ t.link.messageInterrupts = (s.link.messageInterrupts || mi) ∧
      (∀ v : VectorId, t.link.masked[v] = if v ∈ unmask then false else s.link.masked[v]) ∧
      t.link.written = s.link.written ++ l.map LinkWrite.message ∧ l.Nodup ∧
      (∀ v : VectorId, v ∈ l ↔ s.link.pendingFlags[v] = true ∧ t.link.messageInterrupts = true ∧ t.link.busMastering = true ∧
        t.link.masked[v] = false) ∧
      (∀ v : VectorId, t.link.pendingFlags[v] = if v ∈ l then false else s.link.pendingFlags[v]) ∧
      t = { s with link := { t.link with up := s.link.up }, choices := t.choices }

/-! ## Loading -/

/-- SETUP_READ_ARRIVAL of a valid record (R171, R173, R174, R186, R42, R137, R152 to R154): RUNNING; the queues and completion queues below
the counts take their descriptors, field by field from the bytes of section 12.4, each OPEN at head and tail 0, the others stay
unconfigured; both classes start behind queue 7; the sequence number is 0; the frame timer runs from now; the device vector is
signalled. Surfaces, palettes, marks and slots are kept. -/
def Obligations.ValidSetupRecordStartsRunning : Prop :=
  ∀ (s : State) (r : SetupRecord) (a : BitVec 64), s.control.deviceState = .loading →
    s.control.setupRead = some { address := a } → ¬SetupRefused r →
    ∃ t v, exec (.setupReadArrival r) s = .next t ∧ v.val = field r 2 1 ∧
      t.control = { s.control with deviceState := .running, setupRead := none, deviceVector := v } ∧ Signalled s.link t.link v ∧
      (∀ q : QueueId, field r 0 1 ≤ q.val → t.queue q = none) ∧
      (∀ q : QueueId, q.val < field r 0 1 → ∃ c, t.queue q = some c ∧ SqGives r q.val c ∧ t.cq c.cq ≠ none) ∧
      (∀ k : CqId, field r 1 1 ≤ k.val → t.cq k = none) ∧
      (∀ k : CqId, k.val < field r 1 1 → ∃ c, t.cq k = some c ∧ CqGives r k.val c) ∧
      t.lastUrgent = 7 ∧ t.lastNormal = 7 ∧ t.sequence = 0#32 ∧
      t.presentation = { s.presentation with
        panel := some { width := field r 0xD0 2, height := field r 0xD2 2, period := field r 0xD4 4 }, display := false,
        shown := none, firstRow := 0, lastRow := some (field r 0xD2 2 - 1), latchedOrigin := none, held := none,
        frameDeadline := some (s.control.timer + BitVec.ofNat 64 (field r 0xD4 4)), scan := none } ∧
      t.surfaces = s.surfaces ∧ t.palettes = s.palettes ∧ t.frame = s.frame ∧ t.marks = s.marks ∧ t.slots = s.slots ∧
      t.engines = s.engines

/-- The entries to FAULT (R176): ENABLE in OFF with a load address that is not a multiple of 64, or whose record passes the top of the
address space, with SETUP_INVALID and no read (R172); ENABLE in OFF with a good load address and bus mastering off, at once, with
SETUP_READ (R110, R179); a setup record with a field that R171 and R186 refuse in the bytes of section 12.4, with SETUP_INVALID, on its own device vector
when that lies in 0..31 (R173, R186); a fault of the setup read, with SETUP_READ, on the vector held before; a fault of the
completion write in flight, with COMPLETION_WRITE, where tail, lap, outstanding, count and the posting list stay and the entry was not
sent (R149, R150). The record of the part's writes is the model's (log 12). -/
def Obligations.FaultsStopDevice : Prop :=
  (∀ s : State, s.link.up = true → s.control.enable = false → s.control.deviceState = .off →
    ((s.control.setupHi ++ s.control.setupLo).toNat % 64 ≠ 0 ∨
      2 ^ 64 ≤ (s.control.setupHi ++ s.control.setupLo).toNat + 255) →
    ∃ t, exec .enable s = .next t ∧
      FaultEntry { s with control := { s.control with deviceState := .loading, enable := true, cause := .none } } t
        .setupInvalid) ∧
  (∀ s : State, s.link.up = true → s.control.enable = false → s.control.deviceState = .off →
    (s.control.setupHi ++ s.control.setupLo).toNat % 64 = 0 →
    (s.control.setupHi ++ s.control.setupLo).toNat + 255 < 2 ^ 64 → s.link.busMastering = false →
    ∃ t, exec .enable s = .next t ∧
      FaultEntry { s with control := { s.control with deviceState := .loading, enable := true, cause := .none } } t
        .setupRead) ∧
  (∀ (s : State) (r : SetupRecord) (a : BitVec 64), s.control.deviceState = .loading →
    s.control.setupRead = some { address := a } → SetupRefused r →
    ∃ t, exec (.setupReadArrival r) s = .next t ∧
      FaultEntry { s with control := { s.control with
        deviceVector := if h : field r 2 1 < 32 then ⟨field r 2 1, h⟩ else s.control.deviceVector } }
        t .setupInvalid) ∧
  (∀ (s : State) (rd : SetupRead), s.control.deviceState = .loading → s.control.setupRead = some rd →
    ∃ t, exec .setupReadFault s = .next t ∧ FaultEntry s t .setupRead) ∧
  ∀ (s : State) (k : CqId) (c : CompletionQueue) (w : CompletionWrite), s.cq k = some c → c.inFlight = some w →
    ∃ t, exec (.completionWriteFault k) s = .next t ∧
      FaultEntry { s.setCq k (some { c with inFlight := none }) with
        link := { s.link with written := s.link.written.filter fun x => !x.isIssuedBy k } } t .completionWrite

/-- The answers to an abandoned setup read and an abandoned fetch have no effect (R51, R173). Of the engine accesses of before a reset, read
data are discarded and a host fault has no effect (R124); of an EXPORT write issued before a reset and answered after it R124 says nothing,
and that it changes nothing either, the record of writes included, is the model's choice (log 33, DESIGN CHOICE). The answer to an
abandoned completion write has no effect on the part, but its entry may have reached host memory (R150, R151). That the oldest is answered
first, and that an operand says whether its entry reached host memory, in its place among the part's writes, is the model's choice (log 28),
and so is that such an answer changes nothing when no abandoned write is outstanding (log 1). -/
def Obligations.AbandonedAnswersChangeNothing : Prop :=
  ∀ s : State, exec .abandonedReadAnswer s = .next s ∧ exec .abandonedFetchAnswer s = .next s ∧
    exec .abandonedEngineAccessAnswer s = .next s ∧
    (∀ before a data rest, s.link.written = before ++ .abandoned a data :: rest →
      (∀ x ∈ before, ∀ b d, x ≠ .abandoned b d) →
      exec (.abandonedWriteAnswer false) s = .next { s with link := { s.link with written := before ++ rest } } ∧
      exec (.abandonedWriteAnswer true) s = .next { s with link := { s.link with
        written := before ++ .bytes a data :: rest } }) ∧
    ∀ r, (∀ x ∈ s.link.written, ∀ b d, x ≠ .abandoned b d) → exec (.abandonedWriteAnswer r) s = .next s

/-! ## The fetch unit -/

/-- The fetch arbiter (R46, R47): a queue is eligible when the device is RUNNING, it is OPEN with records pending and below its quota, a
slot is FREE and no acknowledgement waits for one (R58), and no fetch is in flight; the choice falls on an eligible URGENT queue
before any NORMAL one, and within the class on the first that follows the queue last served, upward and from 7 round to 0. The fetch starts in the step in which it
becomes possible: where none is possible, no step leaves one possible that it has not started. -/
def Obligations.ArbiterServesByClassAndTurn : Prop :=
  (∀ s t : State, ¬FetchPossible s → step s = .next t → ¬FetchPossible t) ∧
  (∀ (c : Instr) (s t : State), ¬FetchPossible s → exec c s = .next t → ¬FetchPossible t) ∧
  ∀ (s : State) (q : QueueId),
    (s.eligible q = true ↔ s.control.deviceState = .running ∧ s.fetch = none ∧
      s.ackOrder = [] ∧ (∃ i, (s.slot i).state = .free) ∧
      ∃ c, s.queue q = some c ∧ c.state = .opened ∧ c.head ≠ c.tail ∧ c.occupied < c.quota) ∧
    (s.chosenQueue = some q ↔ s.eligible q = true ∧ ∃ c, s.queue q = some c ∧
      (c.service = .normal → ∀ p d, s.queue p = some d → d.service = .urgent → s.eligible p = false) ∧
      ∀ p d, s.queue p = some d → d.service = c.service → s.eligible p = true →
        (q - ((if c.service = .urgent then s.lastUrgent else s.lastNormal) + 1)).val ≤
          (p - ((if c.service = .urgent then s.lastUrgent else s.lastNormal) + 1)).val)

/-- FETCH_START (R48, R47, R110): the FREE slot becomes FETCHING for the chosen queue, whose occupied rises by one; the record at base + head
× 64 is read; the queue is the one last served in its class. Nothing else changes. With bus mastering off the read is refused at once: the
slot ends FETCH_FAULT with the head as detail and is posted, the queue is HALTED (R50), and the arbiter chooses again. -/
def Obligations.FetchTakesSlot : Prop :=
  ∀ (s : State) (q : QueueId) (c : Queue) (i : SlotId), s.chosenQueue = some q → s.queue q = some c →
    (s.slot i).state = .free →
    (s.link.busMastering = true →
      exec (.fetchStart i) s = .next { (s.setSlot i { Slot.freed with state := .fetching, queue := some q }).setQueue q
          (some { c with occupied := c.occupied + 1 }) with
        lastUrgent := if c.service = .urgent then q else s.lastUrgent
        lastNormal := if c.service = .normal then q else s.lastNormal
        fetch := some { queue := q, slot := i, address := c.base.toNat + c.head * 64, sent := true, discard := false } }) ∧
    (s.link.busMastering = false → ∃ t, GoesTo (.fetchStart i) s t ∧ FetchRefused s t q c i)

/-- FETCH_FAULT (R50) of a queue that is not DRAINING: the fetch path is freed, the slot ends FETCH_FAULT with the head as detail and is
posted, the head stays and the queue is HALTED under either policy. The fetch of another queue that is then possible starts in the same
step (R47). -/
def Obligations.FetchFaultHaltsQueue : Prop :=
  ∀ (s : State) (f : Fetch) (c : Queue), s.fetch = some f → f.discard = false → s.queue f.queue = some c →
    (s.slot f.slot).queue = some f.queue → c.state ≠ .draining →
    ∃ t d, GoesTo .fetchFault s t ∧ t.fetch = none ∧
      Answered t f.slot (s.slot f.slot) .fetchFault (BitVec.ofNat 32 c.head) ∧ Posted s t f.queue f.slot ∧
      t.queue f.queue = some d ∧ d.state = .halted ∧ d.head = c.head ∧ d.tail = c.tail ∧ t.sequence = s.sequence ∧
      t.control = s.control ∧ t.engines = s.engines ∧ t.frame = s.frame ∧ t.palettes = s.palettes

/-- OVERTAKEN_FETCH_END (R51, R52, R58 to R60, R80): the fetch path is freed and the slot becomes FREE, so that occupied falls by one; an
acknowledgement that the queue owes takes it, or DRAINING may end and one that waits takes it, but in FAULT neither, whatever the abort
record: that DRAINING then does not end, where R59 speaks against R60 and R176, is the model's choice (log 24). The head stays. A completion write that is then due is issued (R141), and a fetch that is then possible
starts (R47). In STOPPING, where no acknowledgement waits (R60), the last
slot takes the device to OFF with every queue, completion queue and the panel unconfigured, and the device vector is signalled last
(R148, R175). That the command changes nothing when no fetch is overtaken is the model's choice (log 1). -/
def Obligations.OvertakenFetchFreesSlot : Prop :=
  (∀ s : State, (∀ f, s.fetch = some f → f.discard = false) → exec .overtakenFetchEnd s = .next s) ∧
  ∀ (s : State) (f : Fetch) (c : Queue), s.fetch = some f → f.discard = true → s.queue f.queue = some c →
    (s.slot f.slot).queue = some f.queue →
    (s.control.deviceState ≠ .stopping ∨ (∃ j, j ≠ f.slot ∧ (s.slot j).state ≠ .free) →
      ∃ u t, GoesTo .overtakenFetchEnd s t ∧ SlotFreed { s with fetch := none } u f.slot f.queue c ∧ WritesIssued u t) ∧
    (s.control.deviceState = .stopping → s.ackOrder = [] → (∀ n, c.abort ≠ .owed n .firstFreed) →
      (∀ j, j ≠ f.slot → (s.slot j).state = .free) →
      ∃ t, exec .overtakenFetchEnd s = .next t ∧ t.control = { s.control with deviceState := .off } ∧ t.fetch = none ∧
        (∀ p, t.queue p = none) ∧ (∀ p, t.cq p = none) ∧ (∀ j, (t.slot j).state = .free) ∧
        t.presentation = { s.presentation with panel := none } ∧ t.surfaces = s.surfaces ∧ t.palettes = s.palettes ∧
        t.marks = s.marks ∧ t.frame = s.frame ∧
        if s.link.messageInterrupts = true ∧ s.link.busMastering = true ∧ s.link.masked[s.control.deviceVector] = false
        then t.link.written.getLast? = some (.message s.control.deviceVector)
        else t.link.pendingFlags[s.control.deviceVector] = true)

/-- ABORT_ACK_PLACE (R58, R59): the first acknowledgement that waits for any FREE slot takes this one, ENDED with QUEUE_ABORTED and the
skipped count; it is posted, occupied rises by one, and the queue, which holds no other slot, ends DRAINING. Not in FAULT, where the
acknowledgement stays owed. A completion write that is then due is issued (R141), and a fetch that is then possible starts (R47).
Nothing else changes. The part places such an
acknowledgement itself as a slot becomes FREE; the command is the table's row for that step (log 4). -/
def Obligations.WaitingAckTakesSlot : Prop :=
  ∀ (s : State) (q : QueueId) (c : Queue) (k : CompletionQueue) (i : SlotId) (n : Nat), s.queue q = some c →
    c.abort = .owed n .anyFree → c.state = .draining → s.cq c.cq = some k → s.ackOrder.head? = some q →
    (s.slot i).state = .free → (∀ j, (s.slot j).queue ≠ some q) →
    (s.control.deviceState ≠ .fault → ∃ t, GoesTo (.abortAckPlace q i) s t ∧ WritesIssued
      { ((s.setSlot i { Slot.freed with
            state := .ended, queue := some q, status := some .queueAborted, detail := BitVec.ofNat 32 n }).setQueue q
          (some { c with occupied := c.occupied + 1, state := .opened, abort := .absent })).setCq c.cq
          (some { k with posting := k.posting ++ [i] }) with
        ackOrder := s.ackOrder.filter (· ≠ q) } t) ∧
    (s.control.deviceState = .fault → exec (.abortAckPlace q i) s = .next s)

/-! ## Admission -/

/-- The admission checks (R40, R22, R185, R7 to R9, R13, R24, R26, R30 to R39): an unknown kind byte is BAD_KIND whatever the rest holds;
then an undefined flag bit, a flag that R22 does not give the kind, or a field that the kind reads outside the range of its rule is
BAD_FIELD, and nothing else is refused by these two steps; a record that passes them is the operation that its bytes say, field by field
(section 12.2); and it gets the first failure of its kind's later checks, in their order: SURFACE_STATE, BAD_FIELD for a key on an M1 source, FORMAT, RANGE; OVERLAP for a DEFINE; DISPLAY_BUSY for a RETIRE; BAD_FIELD for
a SCROLL whose origin is not below the band's rows; FORMAT and GEOMETRY for a PRESENT; and admission where none fails. -/
def Obligations.ChecksStopAtFirstFailure : Prop :=
  ∀ (s : State) (r : OpRecord),
    ((r.extractLsb' 0 8).toNat = 0 ∨ 0x10 ≤ (r.extractLsb' 0 8).toNat → s.checkRecord r = .error .badKind) ∧
    (1 ≤ (r.extractLsb' 0 8).toNat → (r.extractLsb' 0 8).toNat ≤ 0x0F →
      (FlagsRefused r ∨ FieldRefused ((s.presentation.panel.map PanelParams.height).getD 0) r →
        s.checkRecord r = .error .badField) ∧
      (¬FlagsRefused r → ¬FieldRefused ((s.presentation.panel.map PanelParams.height).getD 0) r →
        ∃ op, decodeRecord ((s.presentation.panel.map PanelParams.height).getD 0) r = .ok op)) ∧
    ∀ op, decodeRecord ((s.presentation.panel.map PanelParams.height).getD 0) r = .ok op → Says r op ∧
      (∀ id, op.src = some id ∨ op.dst = some id → (s.surface id).state ≠ .defined → s.checkRecord r = .error .surfaceState) ∧
      (∀ dst rect colour rop clip b, op = .fill dst rect colour rop clip → (s.surface dst).state = .defined →
        (s.surface dst).fields = some b → s.checkRecord r = if Leaves rect b then .error .badRange else .ok op) ∧
      (∀ src x y dst rect rop key clip a b, op = .copy src x y dst rect rop key clip → (s.surface src).state = .defined →
        (s.surface dst).state = .defined → (s.surface src).fields = some a → (s.surface dst).fields = some b →
        s.checkRecord r =
          if key ≠ none ∧ a.format = .m1 then .error .badField
          else if ¬Convertible a.format b.format then .error .badFormat
          else if Leaves { x := x, y := y, w := rect.w, h := rect.h } a ∨ Leaves rect b then .error .badRange else .ok op) ∧
      (∀ src x y px py dst rect rop key clip a b, op = .pattern src x y px py dst rect rop key clip →
        (s.surface src).state = .defined → (s.surface dst).state = .defined → (s.surface src).fields = some a →
        (s.surface dst).fields = some b →
        s.checkRecord r =
          if key ≠ none ∧ a.format = .m1 then .error .badField
          else if a.format ≠ b.format then .error .badFormat
          else if Leaves { x := x, y := y, w := 8, h := 8 } a ∨ Leaves rect b then .error .badRange else .ok op) ∧
      (∀ src x y dst rect fore back rop clip a b, op = .expand src x y dst rect fore back rop clip →
        (s.surface src).state = .defined → (s.surface dst).state = .defined → (s.surface src).fields = some a →
        (s.surface dst).fields = some b →
        s.checkRecord r =
          if a.format ≠ .m1 then .error .badFormat
          else if Leaves { x := x, y := y, w := rect.w, h := rect.h } a ∨ Leaves rect b then .error .badRange else .ok op) ∧
      (∀ host palette dst rect key clip b, op = .importPixels host palette dst rect key clip →
        (s.surface dst).state = .defined → (s.surface dst).fields = some b →
        s.checkRecord r =
          if ¬Convertible host.format b.format then .error .badFormat
          else if Leaves rect b then .error .badRange else .ok op) ∧
      (∀ src rect host a, op = .exportPixels src rect host → (s.surface src).state = .defined → (s.surface src).fields = some a →
        s.checkRecord r =
          if ¬Convertible a.format host.format then .error .badFormat
          else if Leaves rect a then .error .badRange else .ok op) ∧
      (∀ id d, op = .define id d →
        ((s.surface id).state ≠ .free → s.checkRecord r = .error .surfaceState) ∧
        ((s.surface id).state = .free → ExtentTaken s d → s.checkRecord r = .error .overlap) ∧
        ((s.surface id).state = .free → ¬ExtentTaken s d → s.checkRecord r = .ok op)) ∧
      (∀ id, op = .retire id → s.checkRecord r =
        if (s.surface id).state ≠ .defined then .error .surfaceState
        else if (s.surface id).shown = true ∨ 0 < (s.surface id).presentRefs then .error .displayBusy else .ok op) ∧
      (∀ id o, op = .scroll id o →
        ((s.surface id).state ≠ .defined ∨ (s.surface id).fields.bind SurfaceFields.band = none →
          s.checkRecord r = .error .surfaceState) ∧
        ∀ b, (s.surface id).state = .defined → (s.surface id).fields.bind SurfaceFields.band = some b →
          s.checkRecord r = if o < b.rows then .ok op else .error .badField) ∧
      (∀ id, op = .present id →
        ((s.surface id).state ≠ .defined → s.checkRecord r = .error .surfaceState) ∧
        ∀ d, (s.surface id).state = .defined → (s.surface id).fields = some d → s.checkRecord r =
          if d.format = .m1 then .error .badFormat
          else if s.presentation.panel.map (fun p => (p.width, p.height)) = some (d.width, d.height) then .ok op
          else .error .geometry) ∧
      ((match op with
        | .loadPalette _ _ _ _ | .signal _ _ | .wait _ _ _ | .setPanel _ _ _ _ | .note => true
        | _ => false) = true → s.checkRecord r = .ok op)

/-- RECORD_ARRIVAL of a record that fails its checks (R41, R49, R53): the slot ends with the refusal's status and detail 0 and is posted
whatever QUIET says; the head advances; a queue under HALT policy that is OPEN or WAITING is HALTED. Frame memory, palettes and
engines are not touched, nor any of the presentation state but the held operation. Where the slot's end releases nothing, nothing else
changes: not the surface table, the marks, the presentation state, the waiting list or another queue, and of another slot only what
the end of this one takes from its dependency set and its ordered pending. The fetch that is then possible starts in the same step
(R47). -/
def Obligations.RefusedRecordEnds : Prop :=
  ∀ (s : State) (f : Fetch) (c : Queue) (r : OpRecord) (st : Status), Arriving s f c → s.checkRecord r = .error st →
    ∃ t, GoesTo (.recordArrival r) s t ∧ Advanced s t f.queue c ∧ st ≠ .ok ∧
      Answered t f.slot (arrived s f r) st 0#32 ∧ Posted s t f.queue f.slot ∧
      (c.policy = .halt → c.state = .opened ∨ c.state = .waiting → ∃ d, t.queue f.queue = some d ∧ d.state = .halted) ∧
      t.frame = s.frame ∧ t.palettes = s.palettes ∧ t.engines = s.engines ∧
      t.presentation = { s.presentation with held := t.presentation.held } ∧
      (ReleasesNothing s f.slot → t.surfaces = s.surfaces ∧ t.marks = s.marks ∧
        (s.presentation.held ≠ some f.slot → t.presentation = s.presentation) ∧
        ((∀ w ∈ s.waiting, w.slot ≠ f.slot) → t.waiting = s.waiting) ∧ (∀ q, q ≠ f.queue → t.queue q = s.queue q) ∧
        EndsAlone { (s.setSlot f.slot (arrived s f r)).setQueue f.queue (some { c with head := (c.head + 1) % c.size }) with
            fetch := none, sequence := s.sequence + 1#32, order := s.order ++ [f.slot] }
          t f.slot f.queue { c with head := (c.head + 1) % c.size } st 0#32)

/-- RECORD_ARRIVAL of an operation that ends OK at its admission (R64, R75, R127): DEFINE makes its surface DEFINED with its fields; a
WAIT whose mark has reached its value ends with the mark's value; and, free to run, NOTE does nothing, RETIRE frees its surface,
SCROLL replaces its band origin, and an engine kind whose clip leaves nothing to write is not carried out. That such a kind ends while an
earlier SCROLL of a surface that it names has not, where R13 says otherwise, is the model's choice (log 34). Marks, frame memory and
palettes stay, and so does every other surface. The fetch that is then possible starts in the same step (R47). -/
def Obligations.OperationsEndedAtArrival : Prop :=
  ∀ (s : State) (f : Fetch) (c : Queue) (r : OpRecord) (op : Op), Arriving s f c → s.checkRecord r = .ok op →
    s.control.deviceState = .running → FreeToRun s f.slot f.queue op (r.extractLsb' 8 8) → ReleasesNothing s f.slot →
    (match op with
      | .define _ _ | .note | .retire _ | .scroll _ _ => true
      | .wait m v _ => decide (v.toNat ≤ (s.mark m).toNat)
      | op => clippedAway op) = true →
    ∃ t, GoesTo (.recordArrival r) s t ∧ Advanced s t f.queue c ∧
      Answered t f.slot { arrived s f r with op := some op } .ok
        (match op with | .wait m _ _ => s.mark m | _ => 0#32) ∧
      ((r.extractLsb' 8 8).getLsbD 0 = false → Posted s t f.queue f.slot) ∧
      (∀ i, t.surface i = match op with
        | .define id d =>
          if i = id then { state := .defined, fields := some d, shown := false, presentRefs := 0 } else s.surface i
        | .retire id =>
          if i = id then { state := .free, fields := none, shown := false, presentRefs := 0 } else s.surface i
        | .scroll id o =>
          if i = id then { s.surface i with fields := (s.surface i).fields.map fun d =>
            { d with band := d.band.map fun b => { b with origin := o } } } else s.surface i
        | _ => s.surface i) ∧
      t.marks = s.marks ∧ t.frame = s.frame ∧ t.palettes = s.palettes ∧ t.engines = s.engines

/-- RECORD_ARRIVAL of a WAIT above its mark (R54, R127, R128): the slot is BLOCKED with no region and no dependency; the entry joins the
end of the waiting list, with its deadline timeout × 1000 µs from now, or none for 0; an OPEN queue becomes WAITING. Nothing else
changes, but that the fetch of another queue which is then possible starts in the same step (R47). -/
def Obligations.UnsatisfiedWaitIsEntered : Prop :=
  ∀ (s : State) (f : Fetch) (c : Queue) (r : OpRecord) (m : MarkId) (v : BitVec 32) (n : Nat), Arriving s f c →
    s.checkRecord r = .ok (.wait m v n) → (s.mark m).toNat < v.toNat →
    GoesTo (.recordArrival r) s { (s.setSlot f.slot { arrived s f r with
          state := .blocked, op := some (.wait m v n) }).setQueue f.queue (some { c with
        head := (c.head + 1) % c.size, state := if c.state = .opened then .waiting else c.state }) with
      fetch := none, sequence := s.sequence + 1#32, order := s.order ++ [f.slot],
      waiting := s.waiting ++ [
        { slot := f.slot, queue := f.queue, mark := m, value := v,
          deadline := if n = 0 then none else some (s.control.timer + BitVec.ofNat 64 (n * 1000)) }] }

/-- RECORD_ARRIVAL of an operation that conflicts with an unended one or must wait for its queue (R64 to R70): the slot is BLOCKED with the
regions that the table of R66 gives its kind, none where the clip leaves nothing to write (R67), a dependency set that holds exactly the
conflicting slots, and ordered pending; a RETIRE makes its surface RETIRING and a PRESENT is counted on it (R9, R14). A RETIRE or SCROLL
conflicts with every unended operation that names its surface (R9, R13); that this holds of one without regions too, which R68 by itself
leaves out, and that such an operation does not wait for an earlier SCROLL, are the model's choice (log 34). Nothing else changes, but
that the fetch which is then possible starts in the same step (R47). -/
def Obligations.ConflictingOperationWaits : Prop :=
  ∀ (s : State) (f : Fetch) (c : Queue) (r : OpRecord) (op : Op), Arriving s f c → s.checkRecord r = .ok op →
    (∀ id d, op ≠ .define id d) → (∀ m v n, op ≠ .wait m v n) →
    ((∃ j, j ≠ f.slot ∧ Conflicts s op j) ∨ MustWait s f.slot f.queue op (r.extractLsb' 8 8)) →
    ∃ t reads writes l b, GoesTo (.recordArrival r) s t ∧
      t = { (s.setSlot f.slot { arrived s f r with
            state := .blocked, op := some op, reads := reads, writes := writes, deps := l,
            orderedPending := b }).setQueue f.queue (some { c with head := (c.head + 1) % c.size }) with
          fetch := none, sequence := s.sequence + 1#32, order := s.order ++ [f.slot], surfaces := t.surfaces } ∧
      (∀ a, a ∈ reads ↔ ReadRegion s op a) ∧ (∀ a, a ∈ writes ↔ WriteRegion op a) ∧
      l.Nodup ∧ (∀ j, j ∈ l ↔ j ≠ f.slot ∧ Conflicts s op j) ∧
      (b = true ↔ MustWait s f.slot f.queue op (r.extractLsb' 8 8)) ∧
      ∀ i, t.surface i = match op with
        | .retire id => if i = id then { s.surface i with state := .retiring } else s.surface i
        | .present id =>
          if i = id then { s.surface i with presentRefs := (s.surface i).presentRefs + 1 } else s.surface i
        | _ => s.surface i

/-- RECORD_ARRIVAL of an engine operation that writes something, a PRESENT or a PANEL, free to run (R64, R77, R157): the engine operation is
READY; a PRESENT or PANEL is RUNNING and is the held operation, and a PRESENT is counted on its surface (R14). The slot holds the
regions that the table of R66 gives its kind. Nothing else changes, but that the fetch which is then possible starts in the same step
(R47). -/
def Obligations.FreeOperationIsHandedOver : Prop :=
  ∀ (s : State) (f : Fetch) (c : Queue) (r : OpRecord) (op : Op), Arriving s f c → s.checkRecord r = .ok op →
    s.control.deviceState = .running → FreeToRun s f.slot f.queue op (r.extractLsb' 8 8) → clippedAway op = false →
    op.isEngine = true ∨ op.isPresentation = true →
    ∃ t reads writes, GoesTo (.recordArrival r) s t ∧
      t = { (s.setSlot f.slot { arrived s f r with
            state := if op.isEngine then .ready else .running, op := some op, reads := reads, writes := writes }).setQueue f.queue (some { c with head := (c.head + 1) % c.size }) with
          fetch := none, sequence := s.sequence + 1#32, order := s.order ++ [f.slot], surfaces := t.surfaces,
          presentation := { s.presentation with held := if op.isEngine then s.presentation.held else some f.slot },
          choices := t.choices } ∧
      (∀ a, a ∈ reads ↔ ReadRegion s op a) ∧ (∀ a, a ∈ writes ↔ WriteRegion op a) ∧
      ∀ i, t.surface i = match op with
        | .present id =>
          if i = id then { s.surface i with presentRefs := (s.surface i).presentRefs + 1 } else s.surface i
        | _ => s.surface i

/-- RECORD_ARRIVAL of a SIGNAL that need not wait (R129, R130, R54): at or above its mark it raises the mark to its value and ends OK with that
value, and every WAIT on the mark whose value is reached ends OK with it and leaves the waiting list; below its mark it ends MARK_REGRESS with
the mark's value, and an OPEN or WAITING queue under HALT policy is HALTED (R53). The slots that end are posted, but those that end OK with
QUIET (R79). Where the slots that end release nothing, every other BLOCKED slot waiting on a mark, on another slot or on an
earlier unended slot of its queue, nothing more happens to marks, waiting list and surfaces: the mark is the SIGNAL's value, or as it
was below it, every other entry stays, and the WAITING queue of each WAIT that ended becomes OPEN. Where they release more, a mark may be
raised further. The fetch that is then possible starts in the same step (R47). -/
def Obligations.SignalRaisesMark : Prop :=
  ∀ (s : State) (f : Fetch) (c : Queue) (r : OpRecord) (m : MarkId) (v : BitVec 32), Arriving s f c →
    s.checkRecord r = .ok (.signal m v) → s.control.deviceState = .running → (s.slot f.slot).state = .fetching →
    ¬MustWait s f.slot f.queue (.signal m v) (r.extractLsb' 8 8) →
    (∀ w ∈ s.waiting, (s.slot w.slot).isWaiting = true ∧ (s.slot w.slot).queue = some w.queue) →
    (s.waiting.map WaitEntry.slot).Nodup →
    ∃ t, GoesTo (.recordArrival r) s t ∧ Advanced s t f.queue c ∧ (∀ n, (s.mark n).toNat ≤ (t.mark n).toNat) ∧
      t.frame = s.frame ∧ t.palettes = s.palettes ∧ t.engines = s.engines ∧
      ((s.mark m).toNat ≤ v.toNat → v.toNat ≤ (t.mark m).toNat ∧
        Answered t f.slot { arrived s f r with op := some (.signal m v) } .ok v ∧
        ((r.extractLsb' 8 8).getLsbD 0 = false → Posted s t f.queue f.slot) ∧
        ∀ w ∈ s.waiting, w.mark = m → w.value.toNat ≤ v.toNat → Answered t w.slot (s.slot w.slot) .ok v ∧
          ((s.slot w.slot).flags.getLsbD 0 = false → Posted s t w.queue w.slot) ∧ ∀ x ∈ t.waiting, x.slot ≠ w.slot) ∧
      (v.toNat < (s.mark m).toNat →
        Answered t f.slot { arrived s f r with op := some (.signal m v) } .markRegress (s.mark m) ∧ Posted s t f.queue f.slot ∧
        (c.policy = .halt → c.state = .opened ∨ c.state = .waiting → ∃ d, t.queue f.queue = some d ∧ d.state = .halted)) ∧
      (ReleasesNone s (fun j => decide (j = f.slot) ||
          s.waiting.any fun w => decide (w.slot = j ∧ w.mark = m ∧ w.value.toNat ≤ v.toNat)) →
        (∀ n, t.mark n = if n = m ∧ (s.mark m).toNat ≤ v.toNat then v else s.mark n) ∧ t.surfaces = s.surfaces ∧
        t.waiting = (if (s.mark m).toNat ≤ v.toNat then
          s.waiting.filter fun w => !(w.mark = m && w.value.toNat ≤ v.toNat) else s.waiting) ∧
        ((s.mark m).toNat ≤ v.toNat → ∀ w ∈ s.waiting, w.mark = m → w.value.toNat ≤ v.toNat →
          ∀ d, s.queue w.queue = some d → d.state = .waiting → ∃ d', t.queue w.queue = some d' ∧ d'.state = .opened))

/-! ## The raster engines and the host transfers -/

/-- DISPATCH (R73, R86, R95): in RUNNING, with both engines IDLE, the earliest READY engine operation goes to RE0 and the next earliest, if
there is one, to RE1; with one IDLE, the earliest goes to that one; and none goes to either while one is DETACHED (R107). The slot is
RUNNING on the engine with lines done 0; the engine is ACTIVE at line 0 with the surface records as they stand, the plan, for a PATTERN
the 64 values of its pattern region, and for an IMPORT or a LOADPAL the read of its first line outstanding (R110, R112, R118). Nothing
else changes. With bus mastering off that read is refused at once: the operation ends HOST_FAULT with detail 0 and is posted, an OPEN or
WAITING queue under HALT policy is HALTED (R53), and the engine is IDLE again (R110, R119, R121). A PATTERN's region has bytes that exist; where it has
none, the command stops (OnlyMissingBytesFault). Outside RUNNING, with no engine IDLE, and with no READY engine operation nothing is given. -/
def Obligations.DispatchTakesEarliest : Prop :=
  (∀ s : State, s.control.deviceState ≠ .running ∨ (∃ e, (s.engine e).state = .detached) ∨
      (∀ e, (s.engine e).state ≠ .idle) ∨ (∀ j ∈ s.order, ¬ReadyForEngine (s.slot j)) →
    exec .dispatch s = .next s) ∧
  ∀ (s : State) (before after : List SlotId) (i : SlotId) (op : Op), s.control.deviceState = .running →
    s.order = before ++ i :: after → (∀ j ∈ before, ¬ReadyForEngine (s.slot j)) → (s.slot i).state = .ready →
    (s.slot i).op = some op → op.isEngine = true → (s.jobFor op).latchExists = true →
    (∀ e, (s.engine e).state = .idle → (∀ g, (s.engine g).state ≠ .detached) →
      e = .re0 ∧ (∀ j ∈ after, j ≠ i → ¬ReadyForEngine (s.slot j)) ∨ (∀ g, g ≠ e → (s.engine g).state ≠ .idle) →
      (s.link.busMastering = true ∨ readsHost op = false →
        ∃ job, exec .dispatch s = .next (given s e i job) ∧ JobTaken s op job) ∧
      (s.link.busMastering = false → readsHost op = true → ∀ q d, (s.slot i).queue = some q → s.queue q = some d →
        ∃ t, GoesTo .dispatch s t ∧ FirstReadRefused s t e i q d ∧ ∀ g, g ≠ e → t.engine g = s.engine g)) ∧
    ∀ between beyond k next, (∀ g, (s.engine g).state = .idle) → after = between ++ k :: beyond → k ≠ i →
      (∀ j ∈ between, j ≠ i → ¬ReadyForEngine (s.slot j)) → (s.slot k).state = .ready → (s.slot k).op = some next →
      next.isEngine = true → (s.jobFor next).latchExists = true →
      (s.link.busMastering = true ∨ (readsHost op = false ∧ readsHost next = false) →
        ∃ first second, exec .dispatch s = .next (given (given s .re0 i first) .re1 k second) ∧ JobTaken s op first ∧
          JobTaken s next second) ∧
      (s.link.busMastering = false → readsHost op = true ∨ readsHost next = true →
        ∃ t, GoesTo .dispatch s t ∧
          (if readsHost op = true then ∀ q d, (s.slot i).queue = some q → s.queue q = some d → FirstReadRefused s t .re0 i q d
            else ∃ job, JobTaken s op job ∧ t.engine .re0 = { state := .active, slot := some i, line := 0, job := some job }) ∧
          (if readsHost next = true then ∀ q d, (s.slot k).queue = some q → s.queue q = some d → FirstReadRefused s t .re1 k q d
            else ∃ job, JobTaken s next job ∧ t.engine .re1 = { state := .active, slot := some k, line := 0, job := some job }))

/-- LINE_COMPLETE (R87, R101, R103, R104, R107, R111): the line in hand is written. An ACTIVE engine goes on to the next line, whose read
is issued, and with bus mastering off is refused at once, so that the operation ends HOST_FAULT with the lines done (R110, R119, R121); or
after the last line it ends OK with the lines done; a STOP_REQUESTED one ends ABORTED with the lines done in RUNNING
and STOPPING, and in FAULT leaves its slot RUNNING; a DETACHED one reports nothing. Each of those that end is then IDLE. In RUNNING an
ending releases every slot that waited for this one alone, in the same step, and that slot goes where its kind goes (R69, R70, R75 to
R77), and the fetch that an ending makes possible starts in it too (R47). A transfer's line is complete within the step of its last answer,
which goes on as this statement says (ReadDataIsWritten, ExportedPixelsGoToHost). That what is left of a drawing line
is written in this step (log 15) and that the line of an IDLE engine is 0 (log 29) are the model's choice. -/
def Obligations.LineCompleteOutcomes : Prop :=
  ∀ (s : State) (e : EngineId) (j : Job) (m : FrameMemory), (s.engine e).job = some j → LineAnswered j →
    (j.op.isDrawing = true → j.lineExists (s.engine e).line = true) →
    m = (if j.op.isDrawing then j.drawRest s.palettes s.frame (s.engine e).line else s.frame) →
    (∀ i, (s.engine e).state = .active → (s.engine e).slot = some i → (s.engine e).line + 1 ≠ linesOf j.op →
      s.link.busMastering = true ∨ readsHost j.op = false →
      exec (.lineComplete e) s = .next ((({ s with frame := m } : State).setSlot i { s.slot i with
          linesDone := (s.engine e).line + 1 }).setEngine e { s.engine e with
        line := (s.engine e).line + 1
        job := some { j with
          arrived := [], accepted := 0, drawn := 0, begun := s.choices
          read := lineReadOf j.op ((s.engine e).line + 1) s.link.busMastering } })) ∧
    (∀ i q, (s.engine e).slot = some i → (s.slot i).queue = some q →
      ((s.engine e).state = .active → (s.engine e).line + 1 ≠ linesOf j.op → s.link.busMastering = false → readsHost j.op = true →
        s.control.deviceState = .running ∨ s.control.deviceState = .stopping →
        ∃ t, GoesTo (.lineComplete e) s t ∧ t.engine e = Engine.idled ∧ (∀ d, d ≠ e → t.engine d = s.engine d) ∧
          Answered t i { s.slot i with linesDone := (s.engine e).line + 1 } .hostFault (BitVec.ofNat 32 ((s.engine e).line + 1)) ∧
          Posted s t q i ∧ t.frame = m ∧ t.palettes = s.palettes ∧
          ∀ d, s.queue q = some d → d.policy = .halt → d.state = .opened ∨ d.state = .waiting →
            ∃ d', t.queue q = some d' ∧ d'.state = .halted) ∧
      ((s.engine e).state = .active → (s.engine e).line + 1 = linesOf j.op →
        ∃ t, GoesTo (.lineComplete e) s t ∧ t.engine e = Engine.idled ∧ (∀ d, d ≠ e → t.engine d = s.engine d) ∧
          Answered t i { s.slot i with linesDone := (s.engine e).line + 1 } .ok (BitVec.ofNat 32 ((s.engine e).line + 1)) ∧
          ((s.slot i).flags.getLsbD 0 = false → Posted s t q i) ∧ t.frame = m ∧ t.palettes = s.palettes ∧
          (s.control.deviceState = .running → WindowOrderly s → ∀ k, WaitsOnlyFor s i k → Released s t k)) ∧
      ((s.engine e).state = .stopRequested → s.control.deviceState = .running ∨ s.control.deviceState = .stopping →
        ∃ t, GoesTo (.lineComplete e) s t ∧ t.engine e = Engine.idled ∧ (∀ d, d ≠ e → t.engine d = s.engine d) ∧
          Answered t i { s.slot i with linesDone := (s.engine e).line + 1 } .aborted
            (BitVec.ofNat 32 ((s.engine e).line + 1)) ∧
          Posted s t q i ∧ t.frame = m ∧ t.palettes = s.palettes ∧
          (s.control.deviceState = .running → WindowOrderly s → ∀ k, WaitsOnlyFor s i k → Released s t k))) ∧
    (∀ i, (s.engine e).state = .stopRequested → (s.engine e).slot = some i → s.control.deviceState = .fault →
      exec (.lineComplete e) s = .next ((({ s with frame := m } : State).setSlot i { s.slot i with
        linesDone := (s.engine e).line + 1, engine := none }).setEngine e Engine.idled)) ∧
    ((s.engine e).state = .detached → (s.engine e).slot = none →
      exec (.lineComplete e) s = .next (({ s with frame := m } : State).setEngine e Engine.idled))

/-- The completion of a line leaves every byte of frame memory that holds no pixel of the line's destination row which is inside the
rectangle and the clip and not visited before; a transfer's line leaves all of it. A pixel of the scan, by which the engines have visited
more of their drawing lines in hand, leaves every byte that holds no such pixel of a line in hand of either engine, and where neither
engine is in a drawing line it leaves all of frame memory (R1, R89, R90, R108). -/
def Obligations.LineWritesOnlyItsPixels : Prop :=
  (∀ (s t : State) (e : EngineId) (j : Job), (s.engine e).job = some j → exec (.lineComplete e) s = .next t →
    (j.op.isDrawing = false → t.frame = s.frame) ∧
    ∀ r d, j.op.rect = some r → j.dst = some d → ∀ a,
      (∀ x, r.x ≤ x → x < r.x + r.w → HoldsPixel d x (j.plan.row r (s.engine e).line) a →
        outside j.op.clip x (j.plan.row r (s.engine e).line) = true ∨ visitPlace j.plan r x < j.drawn) →
      Memory.read t.frame a = Memory.read s.frame a) ∧
  ∀ (s t : State) (col row : Nat), exec (.scanPixel col row) s = .next t →
    ((∀ e j, (s.engine e).job = some j → (s.engine e).state ≠ .idle → j.op.isDrawing = false) → t.frame = s.frame) ∧
    ∀ a, (∀ e j r d x, (s.engine e).job = some j → (s.engine e).state ≠ .idle → j.op.isDrawing = true → j.op.rect = some r →
        j.dst = some d → r.x ≤ x → x < r.x + r.w → HoldsPixel d x (j.plan.row r (s.engine e).line) a →
        outside j.op.clip x (j.plan.row r (s.engine e).line) = true ∨ visitPlace j.plan r x < j.drawn) →
      Memory.read t.frame a = Memory.read s.frame a

/-- A FILL's line (R92, R90, R91, R23, R108): in every pixel of the line inside the rectangle and the clip that was not visited before, each
bit of the pixel's width is bit S + 2·D of the code, where S is that bit of the colour and D that of the pixel; SOURCE therefore writes the
colour, XOR inverts the bits set in it, ZERO and ONE ignore it; every other pixel of the surface is as it was. So at the completion of the
line; and within the line, when the engine visits some more pixels, so for those and for no other. The stores are canonical and the
surface is sound, as in every state of a run by StoresStayCanonical and SurfacesStaySound. That the pixels visited are written at the
next pixel of the scan, at LINE_COMPLETE or at a reset is how the model keeps them (log 15). -/
def Obligations.FillLineWritesEveryPixel : Prop :=
  ∀ (s : State) (e : EngineId) (j : Job) (id : SurfaceId) (rect : Rect) (colour : BitVec 32) (rop : BitVec 4)
    (clip : Option Rect) (d : SurfaceFields), StoresCanonical s → (s.engine e).state ≠ .idle → (s.engine e).job = some j →
    j.op = .fill id rect colour rop clip → j.dst = some d → SoundFields d → rect.inside d = true →
    (s.engine e).line < rect.h →
    (∃ t, exec (.lineComplete e) s = .next t ∧ ∀ x y, x < d.width → y < d.height →
      if y = j.plan.row rect (s.engine e).line ∧ rect.x ≤ x ∧ x < rect.x + rect.w ∧ outside clip x y = false ∧
        j.drawn ≤ visitPlace j.plan rect x
      then Filled d.format rop colour (readPixel s.frame d x y) (readPixel t.frame d x y)
      else readPixel t.frame d x y = readPixel s.frame d x y) ∧
    ∀ t, Visits s t e → ∃ n, (t.engine e).job = some { j with drawn := j.drawn + n } ∧ ∀ x y, x < d.width → y < d.height →
      if y = j.plan.row rect (s.engine e).line ∧ rect.x ≤ x ∧ x < rect.x + rect.w ∧ outside clip x y = false ∧
        j.drawn ≤ visitPlace j.plan rect x ∧ visitPlace j.plan rect x < j.drawn + n
      then Filled d.format rop colour (readPixel s.frame d x y) (readPixel t.frame d x y)
      else readPixel t.frame d x y = readPixel s.frame d x y

/-- After all the lines of a COPY, an EXPAND or a PATTERN, each pixel of the rectangle holds what the rules make of the source as it stood
before the first line, on one surface or on two, whether or not the rectangles overlap (R31, R93, R95, R96, R99); and a line that is
written in two parts, the second at its completion, leaves what it leaves when written whole (R90). A clipped pixel, a
keyed one, and under an EXPAND without BACK one whose source bit is 0, holds what it held; any other holds the raster operation of its
source value with what it held. That value is for a COPY the converted source pixel; for a PATTERN entry 8·((phase y + y) mod 8) +
(phase x + x) mod 8 of its latch, with x and y counted from the rectangle's corner; for an EXPAND the foreground where the source bit
is 1, else the background. -/
def Obligations.CopyReadsSourceBeforeWriting : Prop :=
  ∀ (palettes : List (Nat × BitVec 24)) (m : FrameMemory) (j : Job) (src dst : SurfaceId) (rect : Rect) (rop : BitVec 4)
    (clip : Option Rect) (a d : SurfaceFields), Memory.wf m → SoundFields a → SoundFields d → j.plan = j.op.plan →
    j.src = some a → j.dst = some d → rect.inside d = true → (src = dst ∧ a = d ∨ src ≠ dst ∧ Apart a d) →
    (∀ m k n, ({ j with drawn := n } : Job).drawRest palettes (j.drawSome palettes m k 0 n) k = j.drawLine palettes m k) ∧
    ∀ x y, rect.x ≤ x → x < rect.x + rect.w → rect.y ≤ y → y < rect.y + rect.h →
    (∀ sx sy key v, j.op = .copy src sx sy dst rect rop key clip → sx + rect.w ≤ a.width → sy + rect.h ≤ a.height →
      v = readPixel m a (sx + (x - rect.x)) (sy + (y - rect.y)) →
      readPixel ((List.range rect.h).foldl (fun m k => j.drawLine palettes m k) m) d x y =
        if outside clip x y = true ∨ equalsKey key a.format v = true then readPixel m d x y
        else ropCombine rop d.format (convertPixel (Palette.read palettes a.palette) a.format d.format v)
          (readPixel m d x y)) ∧
    (∀ sx sy fore back v, j.op = .expand src sx sy dst rect fore back rop clip → sx + rect.w ≤ a.width →
      sy + rect.h ≤ a.height → v = readPixel m a (sx + (x - rect.x)) (sy + (y - rect.y)) →
      readPixel ((List.range rect.h).foldl (fun m k => j.drawLine palettes m k) m) d x y =
        if outside clip x y = true then readPixel m d x y
        else if v = 1#32 then ropCombine rop d.format fore (readPixel m d x y)
        else match back with
          | some b => ropCombine rop d.format b (readPixel m d x y)
          | none => readPixel m d x y) ∧
    (∀ px py phaseX phaseY key v, j.op = .pattern src px py phaseX phaseY dst rect rop key clip →
      j.latch[8 * ((phaseY + (y - rect.y)) % 8) + (phaseX + (x - rect.x)) % 8]? = some v →
      readPixel ((List.range rect.h).foldl (fun m k => j.drawLine palettes m k) m) d x y =
        if outside clip x y = true ∨ equalsKey key a.format v = true then readPixel m d x y
        else ropCombine rop d.format v (readPixel m d x y))

/-- HOST_READ_DATA (R112, R113, R118). IMPORT, with the bytes of host memory from pixel j of the line on, at host address + line × pitch + j ×
the bytes of a pixel: the pixels that have come are noted; each of them, one after another, is converted and written at the place
that the orientation gives it, unless clipped or keyed; no byte that holds no pixel of the data is changed. LOADPAL, with the bytes at host address + 4 × line: entry first + line of the palette takes blue, green
and red from the first three bytes, whole, and every other entry of every palette stays. Nothing else changes while data of the line are
still to come. With the last of them, and for a LOADPAL with the one entry, the line is complete in the same step (R111, R118), which goes
on as LINE_COMPLETE does. That the data come as whole pixels is the model's choice (log 18). -/
def Obligations.ReadDataIsWritten : Prop :=
  ∀ (s : State) (e : EngineId) (j : Job) (at_ : BitVec 64) (data : List Byte), (s.engine e).state ≠ .idle →
    (s.engine e).job = some j →
    (∀ host p id rect key clip d pixel n, j.op = .importPixels host p id rect key clip → j.dst = some d →
      j.read = lineReadOf j.op (s.engine e).line true →
      at_.toNat = host.address.toNat + (s.engine e).line * host.pitch + pixel * host.format.bytes →
      host.format ≠ .m1 → 1 ≤ n → data.length = n * host.format.bytes → pixel + n ≤ pixelsPerLine host.orientation rect →
      (∀ k, k < n → pixel + k ∉ j.arrived) → j.pixelsExist (s.engine e).line pixel n = true →
      ∃ t, t = ({ s with frame := t.frame } : State).setEngine e { s.engine e with
          job := some { j with arrived := j.arrived ++ (List.range n).map fun k => pixel + k } } ∧
        (if ∀ k, k < pixelsPerLine host.orientation rect → k ∈ j.arrived ∨ (pixel ≤ k ∧ k < pixel + n)
          then ∃ u, exec (.hostReadData e at_ data) s = .next u ∧ exec (.lineComplete e) t = .next u
          else exec (.hostReadData e at_ data) s = .next t) ∧
        (∀ a, (∀ k, k < n → ¬HoldsPixel d (placeOf host.orientation rect (s.engine e).line (pixel + k)).1
            (placeOf host.orientation rect (s.engine e).line (pixel + k)).2 a) →
          Memory.read t.frame a = Memory.read s.frame a) ∧
        t.frame = (List.range n).foldl (fun m k =>
          match placeOf host.orientation rect (s.engine e).line (pixel + k),
              valueOf host.format ((data.drop (k * host.format.bytes)).take host.format.bytes) with
          | (x, y), v =>
            if outside clip x y = true ∨ equalsKey key host.format v = true then m
            else writePixel m d x y (convertPixel (Palette.read s.palettes p) host.format d.format v)) s.frame) ∧
    (∀ p first count address, j.op = .loadPalette p first count address →
      j.read = lineReadOf j.op (s.engine e).line true →
      at_.toNat = address.toNat + 4 * (s.engine e).line → data.length = 4 → 0 ∉ j.arrived →
      first + (s.engine e).line < 256 → Store.Wf 0#24 s.palettes →
      ∃ t u, exec (.hostReadData e at_ data) s = .next u ∧ exec (.lineComplete e) t = .next u ∧
        t = ({ s with palettes := t.palettes } : State).setEngine e { s.engine e with
          job := some { j with arrived := j.arrived ++ [0] } } ∧
        ∀ q x, Palette.read t.palettes q x =
          if q = p ∧ x.toNat = first + (s.engine e).line then data.getD 2 0#8 ++ data.getD 1 0#8 ++ data.getD 0 0#8
          else Palette.read s.palettes q x)

/-- EXPORT_WRITE_ACCEPTED (R110, R112, R115, R116, R141): with bus mastering on, the next n pixels of the line, each read through the surface
and converted to the host format, go to the host bytes of their places in the line, behind every write accepted before and ahead of
every completion write in flight; nothing else changes while writes of the line are to be accepted, and with the last of them the line is
complete in the same step (R111, R115), which goes on as LINE_COMPLETE does. The link takes the part's writes in the order of issue, so that none
of the line is accepted while a completion write is in flight that was issued before the line was begun: the command then changes nothing
(log 1). The record of the part's writes and the count by which what was issued before is known are the model's (log 12), and that no write
is accepted with bus mastering off is its deduction (log 25). -/
def Obligations.ExportedPixelsGoToHost : Prop :=
  ∀ (s : State) (e : EngineId) (j : Job) (id : SurfaceId) (rect : Rect) (host : HostBuffer) (a : SurfaceFields) (n : Nat),
    (s.engine e).state ≠ .idle → (s.engine e).job = some j → j.op = .exportPixels id rect host → j.src = some a →
    1 ≤ n → j.accepted + n ≤ pixelsPerLine host.orientation rect → j.pixelsExist (s.engine e).line j.accepted n = true →
    (s.link.busMastering = false ∨ WriteAhead s j → exec (.exportWriteAccepted e n) s = .next s) ∧
    (s.link.busMastering = true → ¬WriteAhead s j → ∃ l t,
      LinkAccepts s.link.written l (host.address.toNat + (s.engine e).line * host.pitch + j.accepted * host.format.bytes)
        ((List.range n).flatMap fun k => bytesOf host.format (convertPixel (Palette.read s.palettes a.palette) a.format
          host.format (readPixel s.frame a (placeOf host.orientation rect (s.engine e).line (j.accepted + k)).1
            (placeOf host.orientation rect (s.engine e).line (j.accepted + k)).2))) ∧
      t = ({ s with link := { s.link with written := l } } : State).setEngine e
        { s.engine e with job := some { j with accepted := j.accepted + n } } ∧
      if j.accepted + n = pixelsPerLine host.orientation rect
        then ∃ u, exec (.exportWriteAccepted e n) s = .next u ∧ exec (.lineComplete e) t = .next u
        else exec (.exportWriteAccepted e n) s = .next t)

/-- A host fault on the line in hand of an IMPORT, an EXPORT or a LOADPAL (R119 to R122, R53): in RUNNING and STOPPING, whether or not a stop
was asked, the slot ends HOST_FAULT with the complete lines and is posted, and a queue under HALT policy that is OPEN or WAITING is
HALTED; the fetch that is then possible starts in the same step (R47);
in FAULT the slot stays RUNNING with no engine; a DETACHED engine reports nothing. The engine is IDLE, its line 0 by the model's
choice (log 29), and frame memory and the palettes stay as they are. -/
def Obligations.HostFaultEndsTransfer : Prop :=
  ∀ (s : State) (e : EngineId) (j : Job) (c : Instr), (s.engine e).state ≠ .idle → (s.engine e).job = some j →
    ¬LineAnswered j →
    (match j.op with
      | .importPixels _ _ _ _ _ _ => some (Instr.importReadFault e)
      | .exportPixels _ _ _ => some (Instr.exportWriteFault e)
      | .loadPalette _ _ _ _ => some (Instr.loadpalReadFault e)
      | _ => none) = some c →
    (∀ i q d, s.control.deviceState = .running ∨ s.control.deviceState = .stopping → (s.engine e).state ≠ .detached →
      (s.engine e).slot = some i → (s.slot i).queue = some q → s.queue q = some d →
      ∃ t, GoesTo c s t ∧ t.engine e = Engine.idled ∧ (∀ g, g ≠ e → t.engine g = s.engine g) ∧
        Answered t i (s.slot i) .hostFault (BitVec.ofNat 32 (s.engine e).line) ∧ Posted s t q i ∧
        (d.policy = .halt → d.state = .opened ∨ d.state = .waiting → ∃ d', t.queue q = some d' ∧ d'.state = .halted) ∧
        t.frame = s.frame ∧ t.palettes = s.palettes) ∧
    (∀ i, s.control.deviceState = .fault → (s.engine e).slot = some i →
      exec c s = .next ((s.setSlot i { s.slot i with engine := none }).setEngine e Engine.idled)) ∧
    ((s.engine e).state = .detached → (s.engine e).slot = none → exec c s = .next (s.setEngine e Engine.idled))

/-! ## The completion unit -/

/-- COMPLETION_WRITE_ISSUE (R138, R141, R186): in RUNNING and STOPPING, with no write in flight and outstanding below size − 1, the
completion record of the oldest member of the posting list is written at base + tail × 16, its lap and its sq_head as they stand; its
16 bytes lie as section 12.3 gives them, with the status codes of its table. With bus mastering on the write goes out behind every earlier
one (R110, R141); the record of the part's writes and the count of open choices, of which the issue takes one, are the model's (log 12,
log 10). Nothing else changes. -/
def Obligations.OldestMemberIsWritten : Prop :=
  ∀ (s : State) (k : CqId) (c : CompletionQueue) (i : SlotId) (rest : List SlotId) (q : QueueId) (d : Queue) (st : Status),
    s.cq k = some c → c.posting = i :: rest → s.control.deviceState = .running ∨ s.control.deviceState = .stopping →
    c.inFlight = none → c.outstanding + 1 < c.size → (s.slot i).queue = some q → s.queue q = some d →
    (s.slot i).status = some st →
    ∃ w code, exec (.completionWriteIssue k) s = .next { s.setCq k (some { c with inFlight := some w }) with
        link := { s.link with written :=
          if s.link.busMastering then s.link.written ++ [.issued k w.address w.entry.bytes] else s.link.written }
        choices := s.choices + 1 } ∧ w.slot = i ∧
      code = (match st with
        | .ok => 0x00#8 | .aborted => 0x01#8 | .badKind => 0x02#8 | .badField => 0x03#8 | .surfaceState => 0x04#8
        | .badFormat => 0x05#8 | .badRange => 0x06#8 | .overlap => 0x07#8 | .displayBusy => 0x08#8 | .geometry => 0x09#8
        | .hostFault => 0x0A#8 | .markRegress => 0x0B#8 | .waitTimeout => 0x0C#8 | .fetchFault => 0x0D#8
        | .queueAborted => 0x0E#8) ∧
      w.address = c.base.toNat + c.tail * 16 ∧ w.sent = s.link.busMastering ∧
      w.entry.bytes =
        [BitVec.ofNat 8 q.val, (s.slot i).kind, (s.slot i).tag.extractLsb' 0 8, (s.slot i).tag.extractLsb' 8 8, code, c.lap,
         (BitVec.ofNat 16 d.head).extractLsb' 0 8, (BitVec.ofNat 16 d.head).extractLsb' 8 8,
         (s.slot i).detail.extractLsb' 0 8, (s.slot i).detail.extractLsb' 8 8, (s.slot i).detail.extractLsb' 16 8,
         (s.slot i).detail.extractLsb' 24 8, 0#8, 0#8, 0#8, 0#8]

/-- COMPLETION_WRITE_ACCEPTED in RUNNING, and in STOPPING while another slot is held (R142, R145, R146, R80, R151), of the write that the link
takes next: it reaches host memory behind every write accepted before (R116; the record of the part's writes is the model's, log 12);
tail advances, and lap with it at the wrap; outstanding rises by one; the slot leaves the list and becomes FREE, where the acknowledgement
that its queue owes takes it, or DRAINING may end and one that waits takes it (R58, R59); the count rises, and at the threshold the vector
is signalled and the count and timer start over, while a count that leaves 0 starts the timer; then the next write is issued when its
conditions hold (R141), and the fetch that is then possible starts (R47). Nothing else changes. The link takes the part's writes in the order
of issue (R141), so that no acceptance comes while a write issued before is in flight: the command then changes nothing (log 1). -/
def Obligations.AcceptedWriteFreesSlot : Prop :=
  (∀ (s : State) (k : CqId), ¬TakenNext s k → exec (.completionWriteAccepted k) s = .next s) ∧
  ∀ (s : State) (k : CqId) (c : CompletionQueue) (w : CompletionWrite) (q : QueueId) (d : Queue),
    s.control.deviceState = .running ∨
      s.control.deviceState = .stopping ∧ (∃ j, j ≠ w.slot ∧ (s.slot j).state ≠ .free) →
    s.cq k = some c → c.inFlight = some w → w.sent = true → TakenNext s k →
    (s.slot w.slot).queue = some q → s.queue q = some d →
    ∃ u l t taken, GoesTo (.completionWriteAccepted k) s t ∧
      LinkAccepts s.link.written taken w.address w.entry.bytes ∧
      SlotFreed { s.setCq k (some { c with
          tail := (c.tail + 1) % c.size
          lap := if c.tail + 1 = c.size then if c.lap = 255#8 then 1#8 else c.lap + 1#8 else c.lap
          outstanding := c.outstanding + 1
          posting := c.posting.filter (· ≠ w.slot)
          inFlight := none
          count := if c.threshold ≤ c.count + 1 then 0 else c.count + 1
          deadline :=
            if c.threshold ≤ c.count + 1 then none
            else if c.count = 0 ∧ c.timer ≠ 0 then some (s.control.timer + BitVec.ofNat 64 (c.timer * 10))
            else c.deadline }) with
        link := { s.link with written := taken.filter fun x => !x.isIssuedBy k } } u w.slot q d ∧
      (if c.threshold ≤ c.count + 1 then Signalled u.link l c.vector else l = u.link) ∧ WritesIssued { u with link := l } t

/-- COMPLETION_WRITE_ACCEPTED of the last slot that is held in STOPPING, its queue owing no acknowledgement and its write the one that the link
takes next (R141, R148, R175): the device reaches OFF with every queue, completion queue and the panel unconfigured; each completion queue with a count of at least 1 has sent its interrupt, and the device vector's
message is the last; surfaces, palettes and marks are kept. The record of the part's writes is the model's (log 12). -/
def Obligations.LastSlotEndsStop : Prop :=
  ∀ (s : State) (k : CqId) (c : CompletionQueue) (w : CompletionWrite) (q : QueueId) (d : Queue),
    s.control.deviceState = .stopping → s.cq k = some c → c.inFlight = some w → w.sent = true → TakenNext s k →
    (s.slot w.slot).queue = some q → s.queue q = some d → (∀ n, d.abort ≠ .owed n .firstFreed) →
    s.ackOrder = [] →
    (∀ j, j ≠ w.slot → (s.slot j).state = .free) →
    ∃ t l taken, exec (.completionWriteAccepted k) s = .next t ∧ t.control = { s.control with deviceState := .off } ∧
      (∀ p, t.queue p = none) ∧ (∀ p, t.cq p = none) ∧ (∀ j, (t.slot j).state = .free) ∧
      t.presentation = { s.presentation with panel := none } ∧ t.surfaces = s.surfaces ∧ t.palettes = s.palettes ∧
      t.marks = s.marks ∧ t.frame = s.frame ∧
      LinkAccepts s.link.written taken w.address w.entry.bytes ∧
      t.link.written = (taken.filter fun x => !x.isIssuedBy k) ++ l ∧
      (∀ p (b : CompletionQueue), s.cq p = some b → p = k ∨ 1 ≤ b.count →
        if s.link.messageInterrupts = true ∧ s.link.busMastering = true ∧ s.link.masked[b.vector] = false
        then .message b.vector ∈ l else t.link.pendingFlags[b.vector] = true) ∧
      (if s.link.messageInterrupts = true ∧ s.link.busMastering = true ∧ s.link.masked[s.control.deviceVector] = false
        then l.getLast? = some (.message s.control.deviceVector)
        else t.link.pendingFlags[s.control.deviceVector] = true)

/-- COALESCING_TIMER_EXPIRY (R146): count becomes 0 and the timer idle, and the vector is signalled when the count was at least 1.
WAIT_EXPIRY (R131, R54): in RUNNING the WAIT and every other whose deadline is the same expire together: each ends WAIT_TIMEOUT with its mark's
value, is posted and leaves the waiting list, and its WAITING queue becomes HALTED under HALT and OPEN under GO_ON; the fetch that is
then possible starts in the same step (R47), after all of them. Where they release nothing, marks and surfaces stay, and so does every entry of
another deadline. That the command carries the device timer to the later of its reading and the deadline is the model's choice (log 3), and
that it has no effect while a timer with an earlier deadline runs is too (log 2). -/
def Obligations.ExpiriesAreTaken : Prop :=
  (∀ (s : State) (k : CqId) (c : CompletionQueue) (d : Time), s.cq k = some c → c.deadline = some d →
    NoEarlierDeadline s d →
    ∃ t, exec (.coalescingTimerExpiry k) s = .next t ∧
      t = { s.setCq k (some { c with count := 0, deadline := none }) with
        control := { s.control with timer := if s.control.timer.toNat < d.toNat then d else s.control.timer }, link := t.link } ∧
      (1 ≤ c.count → Signalled s.link t.link c.vector) ∧ (c.count = 0 → t.link = s.link)) ∧
  ∀ (s : State) (i : SlotId) (w : WaitEntry) (d : Time), s.control.deviceState = .running →
    s.waiting.find? (fun w => w.slot = i) = some w → w.deadline = some d → NoEarlierDeadline s d →
    (∀ x ∈ s.waiting, (s.slot x.slot).isWaiting = true ∧ (s.slot x.slot).queue = some x.queue) →
    (s.waiting.map WaitEntry.slot).Nodup →
    ∃ t, GoesTo (.waitExpiry i) s t ∧
      t.control = { s.control with timer := if s.control.timer.toNat < d.toNat then d else s.control.timer } ∧
      (∀ x ∈ s.waiting, x.deadline = some d →
        Answered t x.slot (s.slot x.slot) .waitTimeout (s.mark x.mark) ∧ Posted s t x.queue x.slot ∧
        (∀ y ∈ t.waiting, y.slot ≠ x.slot) ∧
        ∀ c, s.queue x.queue = some c → c.state = .waiting →
          ∃ c', t.queue x.queue = some c' ∧ c'.state = if c.policy = .halt then .halted else .opened) ∧
      t.frame = s.frame ∧ t.palettes = s.palettes ∧ t.engines = s.engines ∧
      (ReleasesNone s (fun j => s.waiting.any fun x => decide (x.slot = j ∧ x.deadline = some d)) →
        t.marks = s.marks ∧ t.surfaces = s.surfaces ∧ t.waiting = s.waiting.filter fun x => x.deadline ≠ some d)

/-! ## The presentation unit -/

/-- FRAME_START (R154 to R158, R14): in RUNNING the frame counter steps, from FFFF_FFFFh to 1; a held PRESENT makes its surface the one
shown, and a held PANEL replaces display, rows and border, each ending OK with the counter as detail; the band origin of the shown
surface is latched; the next deadline is one frame period on; the scan begins, with the panel blank when the display is OFF (R160, R162).
All of this holds whatever the ending releases. Where it releases nothing, nothing else changes but what that one ending brings: its slot
is freed or posted, and leaves the dependency sets (R79). Every slot that waited for the ended one alone is released in the same step, a
PRESENT or PANEL becoming the held operation (R69, R159, R181), and the fetch that is then possible starts (R47); the shown flag and
present_refs of a surface with no RETIRE waiting are those that the held operation leaves. That the command carries the device timer to
the later of its reading and the deadline (log 3), that the output keeps its colour while the display is ON (log 32), that it has no
effect while an earlier deadline stands (log 2) or the last frame's scan has not ended, and the place of the scan (log 23), are the
model's choice. -/
def Obligations.FrameStartAppliesHeld : Prop :=
  ∀ (s : State) (p : PanelParams) (d : Time) (n : BitVec 32) (now : Time), s.control.deviceState = .running →
    s.presentation.panel = some p → s.presentation.frameDeadline = some d →
    n = (if s.presentation.frameCounter = 0xFFFFFFFF#32 then 1#32 else s.presentation.frameCounter + 1#32) →
    now = (if s.control.timer.toNat < d.toNat then d else s.control.timer) → NoEarlierDeadline s d →
    (∀ k, s.presentation.scan = some k → p.width * p.height ≤ k) →
    (s.presentation.held = none → exec .frameStart s = .next { s with
      control := { s.control with timer := now }
      presentation := { s.presentation with
        frameCounter := n, frameDeadline := some (d + BitVec.ofNat 64 p.period), scan := some 0
        output := if s.presentation.display then s.presentation.output else .blank
        latchedOrigin := match s.presentation.shown with
          | some id => ((s.surface id).fields.bind SurfaceFields.band).map Band.origin
          | none => none } }) ∧
    (∀ i id q c, s.presentation.held = some i → (s.slot i).op = some (.present id) → (s.slot i).state = .running →
      (s.slot i).queue = some q → s.queue q = some c → ReleasesNothing s i →
      ∃ t, GoesTo .frameStart s t ∧ Answered t i (s.slot i) .ok n ∧
        ((s.slot i).flags.getLsbD 0 = false → Posted s t q i) ∧
        EndsAlone { s with
            control := { s.control with timer := now }
            presentation := { t.presentation with held := some i }
            surfaces := t.surfaces } t i q c .ok n ∧
        t.control = { s.control with timer := now } ∧
        t.presentation = { s.presentation with
          frameCounter := n, shown := some id, held := none, frameDeadline := some (d + BitVec.ofNat 64 p.period)
          scan := some 0
          output := if s.presentation.display then s.presentation.output else .blank
          latchedOrigin := ((s.surface id).fields.bind SurfaceFields.band).map Band.origin } ∧
        t.surface id = { s.surface id with shown := true, presentRefs := (s.surface id).presentRefs - 1 } ∧
        (∀ x, x ≠ id → t.surface x =
          if s.presentation.shown = some x then { s.surface x with shown := false } else s.surface x) ∧
        t.marks = s.marks ∧ t.frame = s.frame ∧ t.palettes = s.palettes ∧ t.engines = s.engines) ∧
    (∀ i q c display first last border, s.presentation.held = some i →
      (s.slot i).op = some (.setPanel display first last border) → (s.slot i).state = .running →
      (s.slot i).queue = some q → s.queue q = some c → ReleasesNothing s i →
      ∃ t, GoesTo .frameStart s t ∧ Answered t i (s.slot i) .ok n ∧
        ((s.slot i).flags.getLsbD 0 = false → Posted s t q i) ∧
        EndsAlone { s with
            control := { s.control with timer := now }
            presentation := { t.presentation with held := some i } } t i q c .ok n ∧
        t.control = { s.control with timer := now } ∧
        t.presentation = { s.presentation with
          frameCounter := n, display := display, firstRow := first, lastRow := some last, border := border, held := none
          frameDeadline := some (d + BitVec.ofNat 64 p.period), scan := some 0
          output := if display then s.presentation.output else .blank
          latchedOrigin := match s.presentation.shown with
            | some id => ((s.surface id).fields.bind SurfaceFields.band).map Band.origin
            | none => none } ∧
        t.surfaces = s.surfaces ∧ t.marks = s.marks ∧ t.frame = s.frame ∧ t.palettes = s.palettes ∧ t.engines = s.engines) ∧
    ∀ i q op, s.presentation.held = some i → (s.slot i).op = some op → op.isPresentation = true → (s.slot i).state = .running →
      (s.slot i).queue = some q →
      ∃ t, GoesTo .frameStart s t ∧ Answered t i (s.slot i) .ok n ∧ ((s.slot i).flags.getLsbD 0 = false → Posted s t q i) ∧
        t.control = { s.control with timer := now } ∧
        t.presentation = { (match op with
            | .present id => { s.presentation with shown := some id }
            | .setPanel display first last border =>
              { s.presentation with display := display, firstRow := first, lastRow := some last, border := border }
            | _ => s.presentation) with
          frameCounter := n, held := t.presentation.held, frameDeadline := some (d + BitVec.ofNat 64 p.period), scan := some 0
          output := if (match op with | .setPanel display _ _ _ => display | _ => s.presentation.display)
            then s.presentation.output else .blank
          latchedOrigin := match (match op with | .present id => some id | _ => s.presentation.shown) with
            | some id => ((s.surface id).fields.bind SurfaceFields.band).map Band.origin
            | none => none } ∧
        t.frame = s.frame ∧ t.palettes = s.palettes ∧ t.engines = s.engines ∧
        (WindowOrderly s →
          (∀ k, WaitsOnlyFor s i k → Released s t k) ∧
          ∀ x, (∀ k, (s.slot k).state = .blocked → (s.slot k).op ≠ some (.retire x)) →
            (t.surface x).shown = (if op = .present x then true
              else if (∃ id, op = .present id) ∧ s.presentation.shown = some x then false else (s.surface x).shown) ∧
            (t.surface x).presentRefs = (s.surface x).presentRefs - if op = .present x then 1 else 0)

/-- SCAN_PIXEL (R160 to R162, R108, R78): the engines have visited some more pixels of their drawing lines in hand, how many is open, and what
they have written is what the scan reads. The output is blank while the display is OFF; the border while nothing is shown or outside the
active rows; else the colour of the shown surface's pixel, its row mapped through the band with the latched origin, by the surface's
format: 24 colour bits, widened, or looked up (no M1 surface is shown: a PRESENT of one is refused). Beside those pixels only the panel
output and the scan's place change. That the scan takes each pixel at a command of its own, from the place that the model keeps, is the
model's choice (log 23), and so are that the pixels visited since the last pixel of the scan are written in this step (log 15) and that the
output then holds until the next (log 32). -/
def Obligations.ScanShowsSurface : Prop :=
  ∀ (s : State) (p : PanelParams) (x r : Nat), s.control.deviceState = .running → s.presentation.panel = some p →
    x < p.width → r < p.height → s.presentation.scan = some (r * p.width + x) →
    ∃ t, LinesVisited s t ∧
    (s.presentation.display = false → exec (.scanPixel x r) s = .next { t with presentation := { s.presentation with
      output := .blank, scan := some (r * p.width + x + 1) } }) ∧
    (s.presentation.display = true →
      s.presentation.shown = none ∨ r < s.presentation.firstRow ∨ (∃ l, s.presentation.lastRow = some l ∧ l < r) →
      exec (.scanPixel x r) s = .next { t with presentation := { s.presentation with
        output := .colour s.presentation.border, scan := some (r * p.width + x + 1) } }) ∧
    ∀ id d l row, s.presentation.display = true → s.presentation.shown = some id → (s.surface id).fields = some d →
      s.presentation.firstRow ≤ r → s.presentation.lastRow = some l → r ≤ l →
      row = (match d.band, s.presentation.latchedOrigin with
        | some b, some o => if b.top ≤ r ∧ r < b.top + b.rows then b.top + (r - b.top + o) % b.rows else r
        | _, _ => r) →
      d.pixelExists x row = true → d.format ≠ .m1 →
      exec (.scanPixel x r) s = .next { t with presentation := { s.presentation with
        output := .colour (match d.format with
          | .p32 => (readPhysical t.frame d x row).setWidth 24
          | .p16 => (widen (readPhysical t.frame d x row)).setWidth 24
          | .i8 | .m1 => Palette.read s.palettes d.palette ((readPhysical t.frame d x row).setWidth 8))
        scan := some (r * p.width + x + 1) } }

/-! ## Pixels -/

/-- The conversions (R94, R24): widening, narrowing, lookup, and lookup with narrowing take the values of the table; identity pairings copy
the value; the source bit of an M1 to M1 COPY is its operand; and a clipped or keyed pixel has no operand, so it is never converted. -/
def Obligations.ConversionValues : Prop :=
  (∀ (colour : BitVec 8 → BitVec 24) (r g b : Nat), r < 32 → g < 64 → b < 32 →
    convertPixel colour .p16 .p32 (BitVec.ofNat 32 (r * 2048 + g * 32 + b)) =
      BitVec.ofNat 32 ((8 * r + r / 4) * 65536 + (4 * g + g / 16) * 256 + (8 * b + b / 4))) ∧
  (∀ (colour : BitVec 8 → BitVec 24) (r g b : Nat), r < 256 → g < 256 → b < 256 →
    convertPixel colour .p32 .p16 (BitVec.ofNat 32 (r * 65536 + g * 256 + b)) =
      BitVec.ofNat 32 (r / 8 * 2048 + g / 4 * 32 + b / 8)) ∧
  (∀ (colour : BitVec 8 → BitVec 24) (v : BitVec 8) (r g b : Nat), r < 256 → g < 256 → b < 256 →
    colour v = BitVec.ofNat 24 (r * 65536 + g * 256 + b) →
    convertPixel colour .i8 .p32 (v.setWidth 32) = BitVec.ofNat 32 (r * 65536 + g * 256 + b) ∧
    convertPixel colour .i8 .p16 (v.setWidth 32) = BitVec.ofNat 32 (r / 8 * 2048 + g / 4 * 32 + b / 8)) ∧
  (∀ (colour : BitVec 8 → BitVec 24) (f : Format) (v : BitVec 32), v.toNat < 2 ^ valueBits f → convertPixel colour f f v = v) ∧
  ∀ (j : Job) (palettes : List (Nat × BitVec 24)) (m : FrameMemory) (a b : SurfaceFields) (src dst : SurfaceId) (sx sy x y : Nat)
    (rect : Rect) (rop : BitVec 4) (key : Option (BitVec 32)) (clip : Option Rect),
    j.op = .copy src sx sy dst rect rop key clip → j.src = some a →
    j.operand palettes m b x y =
      if outside clip x y = true ∨ equalsKey key a.format (readPixel m a (sx + (x - rect.x)) (sy + (y - rect.y))) = true then none
      else some (convertPixel (Palette.read palettes a.palette) a.format b.format
        (readPixel m a (sx + (x - rect.x)) (sy + (y - rect.y))))

/-- The band mapping (R12): whatever the origin, it carries the rows of the band one to one onto themselves, and it leaves every other
row. And where a pixel lies (R1, R5, R89, R91): a logical row is mapped by its surface's own band and origin; the value of pixel x is in
the bytes from base + row × stride + x × the bytes of a pixel on, least significant first, a P32 pad not used, or for M1 in bit 7 − (x
mod 8) of byte x / 8 of the row; a write inside frame memory leaves these bytes, a P32 pad 00h, or that one bit, and changes no other bit of
frame memory. -/
def Obligations.BandMapsRowsOneToOne : Prop :=
  (∀ (b : Band) (origin r : Nat), 0 < b.rows →
    (b.top ≤ r → r < b.top + b.rows → b.physicalRow origin r = b.top + (r - b.top + origin) % b.rows ∧
      b.top ≤ b.physicalRow origin r ∧ b.physicalRow origin r < b.top + b.rows) ∧
    (r < b.top ∨ b.top + b.rows ≤ r → b.physicalRow origin r = r) ∧
    (∀ r', b.physicalRow origin r = b.physicalRow origin r' → r = r') ∧ ∃ r', b.physicalRow origin r' = r) ∧
  ∀ (d : SurfaceFields) (m : FrameMemory) (x y row : Nat), row = d.base + d.physicalRow y * d.stride →
    d.physicalRow y = (match d.band with | some b => b.physicalRow b.origin y | none => y) ∧
    (d.format ≠ .m1 → readPixel m d x y =
      valueOf d.format ((List.range d.format.bytes).map fun k => Memory.read m (row + x * d.format.bytes + k))) ∧
    (d.format = .m1 → readPixel m d x y = if (Memory.read m (row + x / 8)).getLsbD (7 - x % 8) = true then 1#32 else 0#32) ∧
    ∀ v, Memory.wf m →
      (d.format ≠ .m1 → row + (x + 1) * d.format.bytes ≤ Config.frameBytes → ∀ a, Memory.read (writePixel m d x y v) a =
        if row + x * d.format.bytes ≤ a ∧ a < row + (x + 1) * d.format.bytes
        then (bytesOf d.format v).getD (a - (row + x * d.format.bytes)) 0#8 else Memory.read m a) ∧
      (d.format = .m1 → row + x / 8 < Config.frameBytes → ∀ a b, (Memory.read (writePixel m d x y v) a).getLsbD b =
        if a = row + x / 8 ∧ b = 7 - x % 8 then v.getLsbD 0 else (Memory.read m a).getLsbD b)
end

