-- ==== Sys2Proof/Laws/State.lean ====
section
/-! SUPPORT. What each plain update of State leaves as it is: one lemma for each field and each accessor, and reading back what was
written. -/

namespace Sys2Proof.Machine

variable (s : State)


/-! ## setQueue -/

@[simp] theorem State.setQueue_pending (q : QueueId) (c : Option Queue) : (s.setQueue q c).pending = s.pending := rfl
@[simp] theorem State.setQueue_control (q : QueueId) (c : Option Queue) : (s.setQueue q c).control = s.control := rfl
@[simp] theorem State.setQueue_link (q : QueueId) (c : Option Queue) : (s.setQueue q c).link = s.link := rfl
@[simp] theorem State.setQueue_lastUrgent (q : QueueId) (c : Option Queue) : (s.setQueue q c).lastUrgent = s.lastUrgent := rfl
@[simp] theorem State.setQueue_lastNormal (q : QueueId) (c : Option Queue) : (s.setQueue q c).lastNormal = s.lastNormal := rfl
@[simp] theorem State.setQueue_fetch (q : QueueId) (c : Option Queue) : (s.setQueue q c).fetch = s.fetch := rfl
@[simp] theorem State.setQueue_ackOrder (q : QueueId) (c : Option Queue) : (s.setQueue q c).ackOrder = s.ackOrder := rfl
@[simp] theorem State.setQueue_slots (q : QueueId) (c : Option Queue) : (s.setQueue q c).slots = s.slots := rfl
@[simp] theorem State.setQueue_order (q : QueueId) (c : Option Queue) : (s.setQueue q c).order = s.order := rfl
@[simp] theorem State.setQueue_sequence (q : QueueId) (c : Option Queue) : (s.setQueue q c).sequence = s.sequence := rfl
@[simp] theorem State.setQueue_surfaces (q : QueueId) (c : Option Queue) : (s.setQueue q c).surfaces = s.surfaces := rfl
@[simp] theorem State.setQueue_palettes (q : QueueId) (c : Option Queue) : (s.setQueue q c).palettes = s.palettes := rfl
@[simp] theorem State.setQueue_frame (q : QueueId) (c : Option Queue) : (s.setQueue q c).frame = s.frame := rfl
@[simp] theorem State.setQueue_engines (q : QueueId) (c : Option Queue) : (s.setQueue q c).engines = s.engines := rfl
@[simp] theorem State.setQueue_marks (q : QueueId) (c : Option Queue) : (s.setQueue q c).marks = s.marks := rfl
@[simp] theorem State.setQueue_waiting (q : QueueId) (c : Option Queue) : (s.setQueue q c).waiting = s.waiting := rfl
@[simp] theorem State.setQueue_presentation (q : QueueId) (c : Option Queue) : (s.setQueue q c).presentation = s.presentation := rfl
@[simp] theorem State.setQueue_cqs (q : QueueId) (c : Option Queue) : (s.setQueue q c).cqs = s.cqs := rfl
@[simp] theorem State.setQueue_choices (q : QueueId) (c : Option Queue) : (s.setQueue q c).choices = s.choices := rfl
@[simp] theorem State.setQueue_slot (q : QueueId) (c : Option Queue) (i' : SlotId) : (s.setQueue q c).slot i' = s.slot i' := rfl
@[simp] theorem State.setQueue_surface (q : QueueId) (c : Option Queue) (id' : SurfaceId) : (s.setQueue q c).surface id' = s.surface id' := rfl
@[simp] theorem State.setQueue_engine (q : QueueId) (c : Option Queue) (e' : EngineId) : (s.setQueue q c).engine e' = s.engine e' := rfl
@[simp] theorem State.setQueue_mark (q : QueueId) (c : Option Queue) (m' : MarkId) : (s.setQueue q c).mark m' = s.mark m' := rfl
@[simp] theorem State.setQueue_cq (q : QueueId) (c : Option Queue) (k' : CqId) : (s.setQueue q c).cq k' = s.cq k' := rfl

/-! ## modifyQueue -/

@[simp] theorem State.modifyQueue_pending (q : QueueId) (f : Queue → Queue) : (s.modifyQueue q f).pending = s.pending := rfl
@[simp] theorem State.modifyQueue_control (q : QueueId) (f : Queue → Queue) : (s.modifyQueue q f).control = s.control := rfl
@[simp] theorem State.modifyQueue_link (q : QueueId) (f : Queue → Queue) : (s.modifyQueue q f).link = s.link := rfl
@[simp] theorem State.modifyQueue_lastUrgent (q : QueueId) (f : Queue → Queue) : (s.modifyQueue q f).lastUrgent = s.lastUrgent := rfl
@[simp] theorem State.modifyQueue_lastNormal (q : QueueId) (f : Queue → Queue) : (s.modifyQueue q f).lastNormal = s.lastNormal := rfl
@[simp] theorem State.modifyQueue_fetch (q : QueueId) (f : Queue → Queue) : (s.modifyQueue q f).fetch = s.fetch := rfl
@[simp] theorem State.modifyQueue_ackOrder (q : QueueId) (f : Queue → Queue) : (s.modifyQueue q f).ackOrder = s.ackOrder := rfl
@[simp] theorem State.modifyQueue_slots (q : QueueId) (f : Queue → Queue) : (s.modifyQueue q f).slots = s.slots := rfl
@[simp] theorem State.modifyQueue_order (q : QueueId) (f : Queue → Queue) : (s.modifyQueue q f).order = s.order := rfl
@[simp] theorem State.modifyQueue_sequence (q : QueueId) (f : Queue → Queue) : (s.modifyQueue q f).sequence = s.sequence := rfl
@[simp] theorem State.modifyQueue_surfaces (q : QueueId) (f : Queue → Queue) : (s.modifyQueue q f).surfaces = s.surfaces := rfl
@[simp] theorem State.modifyQueue_palettes (q : QueueId) (f : Queue → Queue) : (s.modifyQueue q f).palettes = s.palettes := rfl
@[simp] theorem State.modifyQueue_frame (q : QueueId) (f : Queue → Queue) : (s.modifyQueue q f).frame = s.frame := rfl
@[simp] theorem State.modifyQueue_engines (q : QueueId) (f : Queue → Queue) : (s.modifyQueue q f).engines = s.engines := rfl
@[simp] theorem State.modifyQueue_marks (q : QueueId) (f : Queue → Queue) : (s.modifyQueue q f).marks = s.marks := rfl
@[simp] theorem State.modifyQueue_waiting (q : QueueId) (f : Queue → Queue) : (s.modifyQueue q f).waiting = s.waiting := rfl
@[simp] theorem State.modifyQueue_presentation (q : QueueId) (f : Queue → Queue) : (s.modifyQueue q f).presentation = s.presentation := rfl
@[simp] theorem State.modifyQueue_cqs (q : QueueId) (f : Queue → Queue) : (s.modifyQueue q f).cqs = s.cqs := rfl
@[simp] theorem State.modifyQueue_choices (q : QueueId) (f : Queue → Queue) : (s.modifyQueue q f).choices = s.choices := rfl
@[simp] theorem State.modifyQueue_slot (q : QueueId) (f : Queue → Queue) (i' : SlotId) : (s.modifyQueue q f).slot i' = s.slot i' := rfl
@[simp] theorem State.modifyQueue_surface (q : QueueId) (f : Queue → Queue) (id' : SurfaceId) : (s.modifyQueue q f).surface id' = s.surface id' := rfl
@[simp] theorem State.modifyQueue_engine (q : QueueId) (f : Queue → Queue) (e' : EngineId) : (s.modifyQueue q f).engine e' = s.engine e' := rfl
@[simp] theorem State.modifyQueue_mark (q : QueueId) (f : Queue → Queue) (m' : MarkId) : (s.modifyQueue q f).mark m' = s.mark m' := rfl
@[simp] theorem State.modifyQueue_cq (q : QueueId) (f : Queue → Queue) (k' : CqId) : (s.modifyQueue q f).cq k' = s.cq k' := rfl

/-! ## setSlot -/

@[simp] theorem State.setSlot_pending (i : SlotId) (sl : Slot) : (s.setSlot i sl).pending = s.pending := rfl
@[simp] theorem State.setSlot_control (i : SlotId) (sl : Slot) : (s.setSlot i sl).control = s.control := rfl
@[simp] theorem State.setSlot_link (i : SlotId) (sl : Slot) : (s.setSlot i sl).link = s.link := rfl
@[simp] theorem State.setSlot_queues (i : SlotId) (sl : Slot) : (s.setSlot i sl).queues = s.queues := rfl
@[simp] theorem State.setSlot_lastUrgent (i : SlotId) (sl : Slot) : (s.setSlot i sl).lastUrgent = s.lastUrgent := rfl
@[simp] theorem State.setSlot_lastNormal (i : SlotId) (sl : Slot) : (s.setSlot i sl).lastNormal = s.lastNormal := rfl
@[simp] theorem State.setSlot_fetch (i : SlotId) (sl : Slot) : (s.setSlot i sl).fetch = s.fetch := rfl
@[simp] theorem State.setSlot_ackOrder (i : SlotId) (sl : Slot) : (s.setSlot i sl).ackOrder = s.ackOrder := rfl
@[simp] theorem State.setSlot_order (i : SlotId) (sl : Slot) : (s.setSlot i sl).order = s.order := rfl
@[simp] theorem State.setSlot_sequence (i : SlotId) (sl : Slot) : (s.setSlot i sl).sequence = s.sequence := rfl
@[simp] theorem State.setSlot_surfaces (i : SlotId) (sl : Slot) : (s.setSlot i sl).surfaces = s.surfaces := rfl
@[simp] theorem State.setSlot_palettes (i : SlotId) (sl : Slot) : (s.setSlot i sl).palettes = s.palettes := rfl
@[simp] theorem State.setSlot_frame (i : SlotId) (sl : Slot) : (s.setSlot i sl).frame = s.frame := rfl
@[simp] theorem State.setSlot_engines (i : SlotId) (sl : Slot) : (s.setSlot i sl).engines = s.engines := rfl
@[simp] theorem State.setSlot_marks (i : SlotId) (sl : Slot) : (s.setSlot i sl).marks = s.marks := rfl
@[simp] theorem State.setSlot_waiting (i : SlotId) (sl : Slot) : (s.setSlot i sl).waiting = s.waiting := rfl
@[simp] theorem State.setSlot_presentation (i : SlotId) (sl : Slot) : (s.setSlot i sl).presentation = s.presentation := rfl
@[simp] theorem State.setSlot_cqs (i : SlotId) (sl : Slot) : (s.setSlot i sl).cqs = s.cqs := rfl
@[simp] theorem State.setSlot_choices (i : SlotId) (sl : Slot) : (s.setSlot i sl).choices = s.choices := rfl
@[simp] theorem State.setSlot_queue (i : SlotId) (sl : Slot) (q' : QueueId) : (s.setSlot i sl).queue q' = s.queue q' := rfl
@[simp] theorem State.setSlot_surface (i : SlotId) (sl : Slot) (id' : SurfaceId) : (s.setSlot i sl).surface id' = s.surface id' := rfl
@[simp] theorem State.setSlot_engine (i : SlotId) (sl : Slot) (e' : EngineId) : (s.setSlot i sl).engine e' = s.engine e' := rfl
@[simp] theorem State.setSlot_mark (i : SlotId) (sl : Slot) (m' : MarkId) : (s.setSlot i sl).mark m' = s.mark m' := rfl
@[simp] theorem State.setSlot_cq (i : SlotId) (sl : Slot) (k' : CqId) : (s.setSlot i sl).cq k' = s.cq k' := rfl

/-! ## setSurface -/

@[simp] theorem State.setSurface_pending (id : SurfaceId) (r : Surface) : (s.setSurface id r).pending = s.pending := rfl
@[simp] theorem State.setSurface_control (id : SurfaceId) (r : Surface) : (s.setSurface id r).control = s.control := rfl
@[simp] theorem State.setSurface_link (id : SurfaceId) (r : Surface) : (s.setSurface id r).link = s.link := rfl
@[simp] theorem State.setSurface_queues (id : SurfaceId) (r : Surface) : (s.setSurface id r).queues = s.queues := rfl
@[simp] theorem State.setSurface_lastUrgent (id : SurfaceId) (r : Surface) : (s.setSurface id r).lastUrgent = s.lastUrgent := rfl
@[simp] theorem State.setSurface_lastNormal (id : SurfaceId) (r : Surface) : (s.setSurface id r).lastNormal = s.lastNormal := rfl
@[simp] theorem State.setSurface_fetch (id : SurfaceId) (r : Surface) : (s.setSurface id r).fetch = s.fetch := rfl
@[simp] theorem State.setSurface_ackOrder (id : SurfaceId) (r : Surface) : (s.setSurface id r).ackOrder = s.ackOrder := rfl
@[simp] theorem State.setSurface_slots (id : SurfaceId) (r : Surface) : (s.setSurface id r).slots = s.slots := rfl
@[simp] theorem State.setSurface_order (id : SurfaceId) (r : Surface) : (s.setSurface id r).order = s.order := rfl
@[simp] theorem State.setSurface_sequence (id : SurfaceId) (r : Surface) : (s.setSurface id r).sequence = s.sequence := rfl
@[simp] theorem State.setSurface_palettes (id : SurfaceId) (r : Surface) : (s.setSurface id r).palettes = s.palettes := rfl
@[simp] theorem State.setSurface_frame (id : SurfaceId) (r : Surface) : (s.setSurface id r).frame = s.frame := rfl
@[simp] theorem State.setSurface_engines (id : SurfaceId) (r : Surface) : (s.setSurface id r).engines = s.engines := rfl
@[simp] theorem State.setSurface_marks (id : SurfaceId) (r : Surface) : (s.setSurface id r).marks = s.marks := rfl
@[simp] theorem State.setSurface_waiting (id : SurfaceId) (r : Surface) : (s.setSurface id r).waiting = s.waiting := rfl
@[simp] theorem State.setSurface_presentation (id : SurfaceId) (r : Surface) : (s.setSurface id r).presentation = s.presentation := rfl
@[simp] theorem State.setSurface_cqs (id : SurfaceId) (r : Surface) : (s.setSurface id r).cqs = s.cqs := rfl
@[simp] theorem State.setSurface_choices (id : SurfaceId) (r : Surface) : (s.setSurface id r).choices = s.choices := rfl
@[simp] theorem State.setSurface_queue (id : SurfaceId) (r : Surface) (q' : QueueId) : (s.setSurface id r).queue q' = s.queue q' := rfl
@[simp] theorem State.setSurface_slot (id : SurfaceId) (r : Surface) (i' : SlotId) : (s.setSurface id r).slot i' = s.slot i' := rfl
@[simp] theorem State.setSurface_engine (id : SurfaceId) (r : Surface) (e' : EngineId) : (s.setSurface id r).engine e' = s.engine e' := rfl
@[simp] theorem State.setSurface_mark (id : SurfaceId) (r : Surface) (m' : MarkId) : (s.setSurface id r).mark m' = s.mark m' := rfl
@[simp] theorem State.setSurface_cq (id : SurfaceId) (r : Surface) (k' : CqId) : (s.setSurface id r).cq k' = s.cq k' := rfl

/-! ## modifySurface -/

@[simp] theorem State.modifySurface_pending (id : SurfaceId) (f : Surface → Surface) : (s.modifySurface id f).pending = s.pending := rfl
@[simp] theorem State.modifySurface_control (id : SurfaceId) (f : Surface → Surface) : (s.modifySurface id f).control = s.control := rfl
@[simp] theorem State.modifySurface_link (id : SurfaceId) (f : Surface → Surface) : (s.modifySurface id f).link = s.link := rfl
@[simp] theorem State.modifySurface_queues (id : SurfaceId) (f : Surface → Surface) : (s.modifySurface id f).queues = s.queues := rfl
@[simp] theorem State.modifySurface_lastUrgent (id : SurfaceId) (f : Surface → Surface) : (s.modifySurface id f).lastUrgent = s.lastUrgent := rfl
@[simp] theorem State.modifySurface_lastNormal (id : SurfaceId) (f : Surface → Surface) : (s.modifySurface id f).lastNormal = s.lastNormal := rfl
@[simp] theorem State.modifySurface_fetch (id : SurfaceId) (f : Surface → Surface) : (s.modifySurface id f).fetch = s.fetch := rfl
@[simp] theorem State.modifySurface_ackOrder (id : SurfaceId) (f : Surface → Surface) : (s.modifySurface id f).ackOrder = s.ackOrder := rfl
@[simp] theorem State.modifySurface_slots (id : SurfaceId) (f : Surface → Surface) : (s.modifySurface id f).slots = s.slots := rfl
@[simp] theorem State.modifySurface_order (id : SurfaceId) (f : Surface → Surface) : (s.modifySurface id f).order = s.order := rfl
@[simp] theorem State.modifySurface_sequence (id : SurfaceId) (f : Surface → Surface) : (s.modifySurface id f).sequence = s.sequence := rfl
@[simp] theorem State.modifySurface_palettes (id : SurfaceId) (f : Surface → Surface) : (s.modifySurface id f).palettes = s.palettes := rfl
@[simp] theorem State.modifySurface_frame (id : SurfaceId) (f : Surface → Surface) : (s.modifySurface id f).frame = s.frame := rfl
@[simp] theorem State.modifySurface_engines (id : SurfaceId) (f : Surface → Surface) : (s.modifySurface id f).engines = s.engines := rfl
@[simp] theorem State.modifySurface_marks (id : SurfaceId) (f : Surface → Surface) : (s.modifySurface id f).marks = s.marks := rfl
@[simp] theorem State.modifySurface_waiting (id : SurfaceId) (f : Surface → Surface) : (s.modifySurface id f).waiting = s.waiting := rfl
@[simp] theorem State.modifySurface_presentation (id : SurfaceId) (f : Surface → Surface) : (s.modifySurface id f).presentation = s.presentation := rfl
@[simp] theorem State.modifySurface_cqs (id : SurfaceId) (f : Surface → Surface) : (s.modifySurface id f).cqs = s.cqs := rfl
@[simp] theorem State.modifySurface_choices (id : SurfaceId) (f : Surface → Surface) : (s.modifySurface id f).choices = s.choices := rfl
@[simp] theorem State.modifySurface_queue (id : SurfaceId) (f : Surface → Surface) (q' : QueueId) : (s.modifySurface id f).queue q' = s.queue q' := rfl
@[simp] theorem State.modifySurface_slot (id : SurfaceId) (f : Surface → Surface) (i' : SlotId) : (s.modifySurface id f).slot i' = s.slot i' := rfl
@[simp] theorem State.modifySurface_engine (id : SurfaceId) (f : Surface → Surface) (e' : EngineId) : (s.modifySurface id f).engine e' = s.engine e' := rfl
@[simp] theorem State.modifySurface_mark (id : SurfaceId) (f : Surface → Surface) (m' : MarkId) : (s.modifySurface id f).mark m' = s.mark m' := rfl
@[simp] theorem State.modifySurface_cq (id : SurfaceId) (f : Surface → Surface) (k' : CqId) : (s.modifySurface id f).cq k' = s.cq k' := rfl

/-! ## setEngine -/

@[simp] theorem State.setEngine_pending (e : EngineId) (g : Engine) : (s.setEngine e g).pending = s.pending := rfl
@[simp] theorem State.setEngine_control (e : EngineId) (g : Engine) : (s.setEngine e g).control = s.control := rfl
@[simp] theorem State.setEngine_link (e : EngineId) (g : Engine) : (s.setEngine e g).link = s.link := rfl
@[simp] theorem State.setEngine_queues (e : EngineId) (g : Engine) : (s.setEngine e g).queues = s.queues := rfl
@[simp] theorem State.setEngine_lastUrgent (e : EngineId) (g : Engine) : (s.setEngine e g).lastUrgent = s.lastUrgent := rfl
@[simp] theorem State.setEngine_lastNormal (e : EngineId) (g : Engine) : (s.setEngine e g).lastNormal = s.lastNormal := rfl
@[simp] theorem State.setEngine_fetch (e : EngineId) (g : Engine) : (s.setEngine e g).fetch = s.fetch := rfl
@[simp] theorem State.setEngine_ackOrder (e : EngineId) (g : Engine) : (s.setEngine e g).ackOrder = s.ackOrder := rfl
@[simp] theorem State.setEngine_slots (e : EngineId) (g : Engine) : (s.setEngine e g).slots = s.slots := rfl
@[simp] theorem State.setEngine_order (e : EngineId) (g : Engine) : (s.setEngine e g).order = s.order := rfl
@[simp] theorem State.setEngine_sequence (e : EngineId) (g : Engine) : (s.setEngine e g).sequence = s.sequence := rfl
@[simp] theorem State.setEngine_surfaces (e : EngineId) (g : Engine) : (s.setEngine e g).surfaces = s.surfaces := rfl
@[simp] theorem State.setEngine_palettes (e : EngineId) (g : Engine) : (s.setEngine e g).palettes = s.palettes := rfl
@[simp] theorem State.setEngine_frame (e : EngineId) (g : Engine) : (s.setEngine e g).frame = s.frame := rfl
@[simp] theorem State.setEngine_marks (e : EngineId) (g : Engine) : (s.setEngine e g).marks = s.marks := rfl
@[simp] theorem State.setEngine_waiting (e : EngineId) (g : Engine) : (s.setEngine e g).waiting = s.waiting := rfl
@[simp] theorem State.setEngine_presentation (e : EngineId) (g : Engine) : (s.setEngine e g).presentation = s.presentation := rfl
@[simp] theorem State.setEngine_cqs (e : EngineId) (g : Engine) : (s.setEngine e g).cqs = s.cqs := rfl
@[simp] theorem State.setEngine_choices (e : EngineId) (g : Engine) : (s.setEngine e g).choices = s.choices := rfl
@[simp] theorem State.setEngine_queue (e : EngineId) (g : Engine) (q' : QueueId) : (s.setEngine e g).queue q' = s.queue q' := rfl
@[simp] theorem State.setEngine_slot (e : EngineId) (g : Engine) (i' : SlotId) : (s.setEngine e g).slot i' = s.slot i' := rfl
@[simp] theorem State.setEngine_surface (e : EngineId) (g : Engine) (id' : SurfaceId) : (s.setEngine e g).surface id' = s.surface id' := rfl
@[simp] theorem State.setEngine_mark (e : EngineId) (g : Engine) (m' : MarkId) : (s.setEngine e g).mark m' = s.mark m' := rfl
@[simp] theorem State.setEngine_cq (e : EngineId) (g : Engine) (k' : CqId) : (s.setEngine e g).cq k' = s.cq k' := rfl

/-! ## setMark -/

@[simp] theorem State.setMark_pending (m : MarkId) (v : BitVec 32) : (s.setMark m v).pending = s.pending := rfl
@[simp] theorem State.setMark_control (m : MarkId) (v : BitVec 32) : (s.setMark m v).control = s.control := rfl
@[simp] theorem State.setMark_link (m : MarkId) (v : BitVec 32) : (s.setMark m v).link = s.link := rfl
@[simp] theorem State.setMark_queues (m : MarkId) (v : BitVec 32) : (s.setMark m v).queues = s.queues := rfl
@[simp] theorem State.setMark_lastUrgent (m : MarkId) (v : BitVec 32) : (s.setMark m v).lastUrgent = s.lastUrgent := rfl
@[simp] theorem State.setMark_lastNormal (m : MarkId) (v : BitVec 32) : (s.setMark m v).lastNormal = s.lastNormal := rfl
@[simp] theorem State.setMark_fetch (m : MarkId) (v : BitVec 32) : (s.setMark m v).fetch = s.fetch := rfl
@[simp] theorem State.setMark_ackOrder (m : MarkId) (v : BitVec 32) : (s.setMark m v).ackOrder = s.ackOrder := rfl
@[simp] theorem State.setMark_slots (m : MarkId) (v : BitVec 32) : (s.setMark m v).slots = s.slots := rfl
@[simp] theorem State.setMark_order (m : MarkId) (v : BitVec 32) : (s.setMark m v).order = s.order := rfl
@[simp] theorem State.setMark_sequence (m : MarkId) (v : BitVec 32) : (s.setMark m v).sequence = s.sequence := rfl
@[simp] theorem State.setMark_surfaces (m : MarkId) (v : BitVec 32) : (s.setMark m v).surfaces = s.surfaces := rfl
@[simp] theorem State.setMark_palettes (m : MarkId) (v : BitVec 32) : (s.setMark m v).palettes = s.palettes := rfl
@[simp] theorem State.setMark_frame (m : MarkId) (v : BitVec 32) : (s.setMark m v).frame = s.frame := rfl
@[simp] theorem State.setMark_engines (m : MarkId) (v : BitVec 32) : (s.setMark m v).engines = s.engines := rfl
@[simp] theorem State.setMark_waiting (m : MarkId) (v : BitVec 32) : (s.setMark m v).waiting = s.waiting := rfl
@[simp] theorem State.setMark_presentation (m : MarkId) (v : BitVec 32) : (s.setMark m v).presentation = s.presentation := rfl
@[simp] theorem State.setMark_cqs (m : MarkId) (v : BitVec 32) : (s.setMark m v).cqs = s.cqs := rfl
@[simp] theorem State.setMark_choices (m : MarkId) (v : BitVec 32) : (s.setMark m v).choices = s.choices := rfl
@[simp] theorem State.setMark_queue (m : MarkId) (v : BitVec 32) (q' : QueueId) : (s.setMark m v).queue q' = s.queue q' := rfl
@[simp] theorem State.setMark_slot (m : MarkId) (v : BitVec 32) (i' : SlotId) : (s.setMark m v).slot i' = s.slot i' := rfl
@[simp] theorem State.setMark_surface (m : MarkId) (v : BitVec 32) (id' : SurfaceId) : (s.setMark m v).surface id' = s.surface id' := rfl
@[simp] theorem State.setMark_engine (m : MarkId) (v : BitVec 32) (e' : EngineId) : (s.setMark m v).engine e' = s.engine e' := rfl
@[simp] theorem State.setMark_cq (m : MarkId) (v : BitVec 32) (k' : CqId) : (s.setMark m v).cq k' = s.cq k' := rfl

/-! ## setCq -/

@[simp] theorem State.setCq_pending (k : CqId) (c : Option CompletionQueue) : (s.setCq k c).pending = s.pending := rfl
@[simp] theorem State.setCq_control (k : CqId) (c : Option CompletionQueue) : (s.setCq k c).control = s.control := rfl
@[simp] theorem State.setCq_link (k : CqId) (c : Option CompletionQueue) : (s.setCq k c).link = s.link := rfl
@[simp] theorem State.setCq_queues (k : CqId) (c : Option CompletionQueue) : (s.setCq k c).queues = s.queues := rfl
@[simp] theorem State.setCq_lastUrgent (k : CqId) (c : Option CompletionQueue) : (s.setCq k c).lastUrgent = s.lastUrgent := rfl
@[simp] theorem State.setCq_lastNormal (k : CqId) (c : Option CompletionQueue) : (s.setCq k c).lastNormal = s.lastNormal := rfl
@[simp] theorem State.setCq_fetch (k : CqId) (c : Option CompletionQueue) : (s.setCq k c).fetch = s.fetch := rfl
@[simp] theorem State.setCq_ackOrder (k : CqId) (c : Option CompletionQueue) : (s.setCq k c).ackOrder = s.ackOrder := rfl
@[simp] theorem State.setCq_slots (k : CqId) (c : Option CompletionQueue) : (s.setCq k c).slots = s.slots := rfl
@[simp] theorem State.setCq_order (k : CqId) (c : Option CompletionQueue) : (s.setCq k c).order = s.order := rfl
@[simp] theorem State.setCq_sequence (k : CqId) (c : Option CompletionQueue) : (s.setCq k c).sequence = s.sequence := rfl
@[simp] theorem State.setCq_surfaces (k : CqId) (c : Option CompletionQueue) : (s.setCq k c).surfaces = s.surfaces := rfl
@[simp] theorem State.setCq_palettes (k : CqId) (c : Option CompletionQueue) : (s.setCq k c).palettes = s.palettes := rfl
@[simp] theorem State.setCq_frame (k : CqId) (c : Option CompletionQueue) : (s.setCq k c).frame = s.frame := rfl
@[simp] theorem State.setCq_engines (k : CqId) (c : Option CompletionQueue) : (s.setCq k c).engines = s.engines := rfl
@[simp] theorem State.setCq_marks (k : CqId) (c : Option CompletionQueue) : (s.setCq k c).marks = s.marks := rfl
@[simp] theorem State.setCq_waiting (k : CqId) (c : Option CompletionQueue) : (s.setCq k c).waiting = s.waiting := rfl
@[simp] theorem State.setCq_presentation (k : CqId) (c : Option CompletionQueue) : (s.setCq k c).presentation = s.presentation := rfl
@[simp] theorem State.setCq_choices (k : CqId) (c : Option CompletionQueue) : (s.setCq k c).choices = s.choices := rfl
@[simp] theorem State.setCq_queue (k : CqId) (c : Option CompletionQueue) (q' : QueueId) : (s.setCq k c).queue q' = s.queue q' := rfl
@[simp] theorem State.setCq_slot (k : CqId) (c : Option CompletionQueue) (i' : SlotId) : (s.setCq k c).slot i' = s.slot i' := rfl
@[simp] theorem State.setCq_surface (k : CqId) (c : Option CompletionQueue) (id' : SurfaceId) : (s.setCq k c).surface id' = s.surface id' := rfl
@[simp] theorem State.setCq_engine (k : CqId) (c : Option CompletionQueue) (e' : EngineId) : (s.setCq k c).engine e' = s.engine e' := rfl
@[simp] theorem State.setCq_mark (k : CqId) (c : Option CompletionQueue) (m' : MarkId) : (s.setCq k c).mark m' = s.mark m' := rfl

/-! ## modifyCq -/

@[simp] theorem State.modifyCq_pending (k : CqId) (f : CompletionQueue → CompletionQueue) : (s.modifyCq k f).pending = s.pending := rfl
@[simp] theorem State.modifyCq_control (k : CqId) (f : CompletionQueue → CompletionQueue) : (s.modifyCq k f).control = s.control := rfl
@[simp] theorem State.modifyCq_link (k : CqId) (f : CompletionQueue → CompletionQueue) : (s.modifyCq k f).link = s.link := rfl
@[simp] theorem State.modifyCq_queues (k : CqId) (f : CompletionQueue → CompletionQueue) : (s.modifyCq k f).queues = s.queues := rfl
@[simp] theorem State.modifyCq_lastUrgent (k : CqId) (f : CompletionQueue → CompletionQueue) : (s.modifyCq k f).lastUrgent = s.lastUrgent := rfl
@[simp] theorem State.modifyCq_lastNormal (k : CqId) (f : CompletionQueue → CompletionQueue) : (s.modifyCq k f).lastNormal = s.lastNormal := rfl
@[simp] theorem State.modifyCq_fetch (k : CqId) (f : CompletionQueue → CompletionQueue) : (s.modifyCq k f).fetch = s.fetch := rfl
@[simp] theorem State.modifyCq_ackOrder (k : CqId) (f : CompletionQueue → CompletionQueue) : (s.modifyCq k f).ackOrder = s.ackOrder := rfl
@[simp] theorem State.modifyCq_slots (k : CqId) (f : CompletionQueue → CompletionQueue) : (s.modifyCq k f).slots = s.slots := rfl
@[simp] theorem State.modifyCq_order (k : CqId) (f : CompletionQueue → CompletionQueue) : (s.modifyCq k f).order = s.order := rfl
@[simp] theorem State.modifyCq_sequence (k : CqId) (f : CompletionQueue → CompletionQueue) : (s.modifyCq k f).sequence = s.sequence := rfl
@[simp] theorem State.modifyCq_surfaces (k : CqId) (f : CompletionQueue → CompletionQueue) : (s.modifyCq k f).surfaces = s.surfaces := rfl
@[simp] theorem State.modifyCq_palettes (k : CqId) (f : CompletionQueue → CompletionQueue) : (s.modifyCq k f).palettes = s.palettes := rfl
@[simp] theorem State.modifyCq_frame (k : CqId) (f : CompletionQueue → CompletionQueue) : (s.modifyCq k f).frame = s.frame := rfl
@[simp] theorem State.modifyCq_engines (k : CqId) (f : CompletionQueue → CompletionQueue) : (s.modifyCq k f).engines = s.engines := rfl
@[simp] theorem State.modifyCq_marks (k : CqId) (f : CompletionQueue → CompletionQueue) : (s.modifyCq k f).marks = s.marks := rfl
@[simp] theorem State.modifyCq_waiting (k : CqId) (f : CompletionQueue → CompletionQueue) : (s.modifyCq k f).waiting = s.waiting := rfl
@[simp] theorem State.modifyCq_presentation (k : CqId) (f : CompletionQueue → CompletionQueue) : (s.modifyCq k f).presentation = s.presentation := rfl
@[simp] theorem State.modifyCq_choices (k : CqId) (f : CompletionQueue → CompletionQueue) : (s.modifyCq k f).choices = s.choices := rfl
@[simp] theorem State.modifyCq_queue (k : CqId) (f : CompletionQueue → CompletionQueue) (q' : QueueId) : (s.modifyCq k f).queue q' = s.queue q' := rfl
@[simp] theorem State.modifyCq_slot (k : CqId) (f : CompletionQueue → CompletionQueue) (i' : SlotId) : (s.modifyCq k f).slot i' = s.slot i' := rfl
@[simp] theorem State.modifyCq_surface (k : CqId) (f : CompletionQueue → CompletionQueue) (id' : SurfaceId) : (s.modifyCq k f).surface id' = s.surface id' := rfl
@[simp] theorem State.modifyCq_engine (k : CqId) (f : CompletionQueue → CompletionQueue) (e' : EngineId) : (s.modifyCq k f).engine e' = s.engine e' := rfl
@[simp] theorem State.modifyCq_mark (k : CqId) (f : CompletionQueue → CompletionQueue) (m' : MarkId) : (s.modifyCq k f).mark m' = s.mark m' := rfl

/-! ## choose -/

@[simp] theorem State.choose_pending : (s.choose).pending = s.pending := rfl
@[simp] theorem State.choose_control : (s.choose).control = s.control := rfl
@[simp] theorem State.choose_link : (s.choose).link = s.link := rfl
@[simp] theorem State.choose_queues : (s.choose).queues = s.queues := rfl
@[simp] theorem State.choose_lastUrgent : (s.choose).lastUrgent = s.lastUrgent := rfl
@[simp] theorem State.choose_lastNormal : (s.choose).lastNormal = s.lastNormal := rfl
@[simp] theorem State.choose_fetch : (s.choose).fetch = s.fetch := rfl
@[simp] theorem State.choose_ackOrder : (s.choose).ackOrder = s.ackOrder := rfl
@[simp] theorem State.choose_slots : (s.choose).slots = s.slots := rfl
@[simp] theorem State.choose_order : (s.choose).order = s.order := rfl
@[simp] theorem State.choose_sequence : (s.choose).sequence = s.sequence := rfl
@[simp] theorem State.choose_surfaces : (s.choose).surfaces = s.surfaces := rfl
@[simp] theorem State.choose_palettes : (s.choose).palettes = s.palettes := rfl
@[simp] theorem State.choose_frame : (s.choose).frame = s.frame := rfl
@[simp] theorem State.choose_engines : (s.choose).engines = s.engines := rfl
@[simp] theorem State.choose_marks : (s.choose).marks = s.marks := rfl
@[simp] theorem State.choose_waiting : (s.choose).waiting = s.waiting := rfl
@[simp] theorem State.choose_presentation : (s.choose).presentation = s.presentation := rfl
@[simp] theorem State.choose_cqs : (s.choose).cqs = s.cqs := rfl
@[simp] theorem State.choose_queue (q' : QueueId) : (s.choose).queue q' = s.queue q' := rfl
@[simp] theorem State.choose_slot (i' : SlotId) : (s.choose).slot i' = s.slot i' := rfl
@[simp] theorem State.choose_surface (id' : SurfaceId) : (s.choose).surface id' = s.surface id' := rfl
@[simp] theorem State.choose_engine (e' : EngineId) : (s.choose).engine e' = s.engine e' := rfl
@[simp] theorem State.choose_mark (m' : MarkId) : (s.choose).mark m' = s.mark m' := rfl
@[simp] theorem State.choose_cq (k' : CqId) : (s.choose).cq k' = s.cq k' := rfl

/-! ## reach -/

@[simp] theorem State.reach_pending (d : Time) : (s.reach d).pending = s.pending := rfl
@[simp] theorem State.reach_link (d : Time) : (s.reach d).link = s.link := rfl
@[simp] theorem State.reach_queues (d : Time) : (s.reach d).queues = s.queues := rfl
@[simp] theorem State.reach_lastUrgent (d : Time) : (s.reach d).lastUrgent = s.lastUrgent := rfl
@[simp] theorem State.reach_lastNormal (d : Time) : (s.reach d).lastNormal = s.lastNormal := rfl
@[simp] theorem State.reach_fetch (d : Time) : (s.reach d).fetch = s.fetch := rfl
@[simp] theorem State.reach_ackOrder (d : Time) : (s.reach d).ackOrder = s.ackOrder := rfl
@[simp] theorem State.reach_slots (d : Time) : (s.reach d).slots = s.slots := rfl
@[simp] theorem State.reach_order (d : Time) : (s.reach d).order = s.order := rfl
@[simp] theorem State.reach_sequence (d : Time) : (s.reach d).sequence = s.sequence := rfl
@[simp] theorem State.reach_surfaces (d : Time) : (s.reach d).surfaces = s.surfaces := rfl
@[simp] theorem State.reach_palettes (d : Time) : (s.reach d).palettes = s.palettes := rfl
@[simp] theorem State.reach_frame (d : Time) : (s.reach d).frame = s.frame := rfl
@[simp] theorem State.reach_engines (d : Time) : (s.reach d).engines = s.engines := rfl
@[simp] theorem State.reach_marks (d : Time) : (s.reach d).marks = s.marks := rfl
@[simp] theorem State.reach_waiting (d : Time) : (s.reach d).waiting = s.waiting := rfl
@[simp] theorem State.reach_presentation (d : Time) : (s.reach d).presentation = s.presentation := rfl
@[simp] theorem State.reach_cqs (d : Time) : (s.reach d).cqs = s.cqs := rfl
@[simp] theorem State.reach_choices (d : Time) : (s.reach d).choices = s.choices := rfl
@[simp] theorem State.reach_queue (d : Time) (q' : QueueId) : (s.reach d).queue q' = s.queue q' := rfl
@[simp] theorem State.reach_slot (d : Time) (i' : SlotId) : (s.reach d).slot i' = s.slot i' := rfl
@[simp] theorem State.reach_surface (d : Time) (id' : SurfaceId) : (s.reach d).surface id' = s.surface id' := rfl
@[simp] theorem State.reach_engine (d : Time) (e' : EngineId) : (s.reach d).engine e' = s.engine e' := rfl
@[simp] theorem State.reach_mark (d : Time) (m' : MarkId) : (s.reach d).mark m' = s.mark m' := rfl
@[simp] theorem State.reach_cq (d : Time) (k' : CqId) : (s.reach d).cq k' = s.cq k' := rfl

/-! ## emit -/

@[simp] theorem State.emit_pending (w : LinkWrite) : (s.emit w).pending = s.pending := rfl
@[simp] theorem State.emit_control (w : LinkWrite) : (s.emit w).control = s.control := rfl
@[simp] theorem State.emit_queues (w : LinkWrite) : (s.emit w).queues = s.queues := rfl
@[simp] theorem State.emit_lastUrgent (w : LinkWrite) : (s.emit w).lastUrgent = s.lastUrgent := rfl
@[simp] theorem State.emit_lastNormal (w : LinkWrite) : (s.emit w).lastNormal = s.lastNormal := rfl
@[simp] theorem State.emit_fetch (w : LinkWrite) : (s.emit w).fetch = s.fetch := rfl
@[simp] theorem State.emit_ackOrder (w : LinkWrite) : (s.emit w).ackOrder = s.ackOrder := rfl
@[simp] theorem State.emit_slots (w : LinkWrite) : (s.emit w).slots = s.slots := rfl
@[simp] theorem State.emit_order (w : LinkWrite) : (s.emit w).order = s.order := rfl
@[simp] theorem State.emit_sequence (w : LinkWrite) : (s.emit w).sequence = s.sequence := rfl
@[simp] theorem State.emit_surfaces (w : LinkWrite) : (s.emit w).surfaces = s.surfaces := rfl
@[simp] theorem State.emit_palettes (w : LinkWrite) : (s.emit w).palettes = s.palettes := rfl
@[simp] theorem State.emit_frame (w : LinkWrite) : (s.emit w).frame = s.frame := rfl
@[simp] theorem State.emit_engines (w : LinkWrite) : (s.emit w).engines = s.engines := rfl
@[simp] theorem State.emit_marks (w : LinkWrite) : (s.emit w).marks = s.marks := rfl
@[simp] theorem State.emit_waiting (w : LinkWrite) : (s.emit w).waiting = s.waiting := rfl
@[simp] theorem State.emit_presentation (w : LinkWrite) : (s.emit w).presentation = s.presentation := rfl
@[simp] theorem State.emit_cqs (w : LinkWrite) : (s.emit w).cqs = s.cqs := rfl
@[simp] theorem State.emit_choices (w : LinkWrite) : (s.emit w).choices = s.choices := rfl
@[simp] theorem State.emit_queue (w : LinkWrite) (q' : QueueId) : (s.emit w).queue q' = s.queue q' := rfl
@[simp] theorem State.emit_slot (w : LinkWrite) (i' : SlotId) : (s.emit w).slot i' = s.slot i' := rfl
@[simp] theorem State.emit_surface (w : LinkWrite) (id' : SurfaceId) : (s.emit w).surface id' = s.surface id' := rfl
@[simp] theorem State.emit_engine (w : LinkWrite) (e' : EngineId) : (s.emit w).engine e' = s.engine e' := rfl
@[simp] theorem State.emit_mark (w : LinkWrite) (m' : MarkId) : (s.emit w).mark m' = s.mark m' := rfl
@[simp] theorem State.emit_cq (w : LinkWrite) (k' : CqId) : (s.emit w).cq k' = s.cq k' := rfl

/-! ## accept -/

@[simp] theorem State.accept_pending (a : Nat) (d : List Byte) : (s.accept a d).pending = s.pending := rfl
@[simp] theorem State.accept_control (a : Nat) (d : List Byte) : (s.accept a d).control = s.control := rfl
@[simp] theorem State.accept_queues (a : Nat) (d : List Byte) : (s.accept a d).queues = s.queues := rfl
@[simp] theorem State.accept_lastUrgent (a : Nat) (d : List Byte) : (s.accept a d).lastUrgent = s.lastUrgent := rfl
@[simp] theorem State.accept_lastNormal (a : Nat) (d : List Byte) : (s.accept a d).lastNormal = s.lastNormal := rfl
@[simp] theorem State.accept_fetch (a : Nat) (d : List Byte) : (s.accept a d).fetch = s.fetch := rfl
@[simp] theorem State.accept_ackOrder (a : Nat) (d : List Byte) : (s.accept a d).ackOrder = s.ackOrder := rfl
@[simp] theorem State.accept_slots (a : Nat) (d : List Byte) : (s.accept a d).slots = s.slots := rfl
@[simp] theorem State.accept_order (a : Nat) (d : List Byte) : (s.accept a d).order = s.order := rfl
@[simp] theorem State.accept_sequence (a : Nat) (d : List Byte) : (s.accept a d).sequence = s.sequence := rfl
@[simp] theorem State.accept_surfaces (a : Nat) (d : List Byte) : (s.accept a d).surfaces = s.surfaces := rfl
@[simp] theorem State.accept_palettes (a : Nat) (d : List Byte) : (s.accept a d).palettes = s.palettes := rfl
@[simp] theorem State.accept_frame (a : Nat) (d : List Byte) : (s.accept a d).frame = s.frame := rfl
@[simp] theorem State.accept_engines (a : Nat) (d : List Byte) : (s.accept a d).engines = s.engines := rfl
@[simp] theorem State.accept_marks (a : Nat) (d : List Byte) : (s.accept a d).marks = s.marks := rfl
@[simp] theorem State.accept_waiting (a : Nat) (d : List Byte) : (s.accept a d).waiting = s.waiting := rfl
@[simp] theorem State.accept_presentation (a : Nat) (d : List Byte) : (s.accept a d).presentation = s.presentation := rfl
@[simp] theorem State.accept_cqs (a : Nat) (d : List Byte) : (s.accept a d).cqs = s.cqs := rfl
@[simp] theorem State.accept_choices (a : Nat) (d : List Byte) : (s.accept a d).choices = s.choices := rfl
@[simp] theorem State.accept_queue (a : Nat) (d : List Byte) (q' : QueueId) : (s.accept a d).queue q' = s.queue q' := rfl
@[simp] theorem State.accept_slot (a : Nat) (d : List Byte) (i' : SlotId) : (s.accept a d).slot i' = s.slot i' := rfl
@[simp] theorem State.accept_surface (a : Nat) (d : List Byte) (id' : SurfaceId) : (s.accept a d).surface id' = s.surface id' := rfl
@[simp] theorem State.accept_engine (a : Nat) (d : List Byte) (e' : EngineId) : (s.accept a d).engine e' = s.engine e' := rfl
@[simp] theorem State.accept_mark (a : Nat) (d : List Byte) (m' : MarkId) : (s.accept a d).mark m' = s.mark m' := rfl
@[simp] theorem State.accept_cq (a : Nat) (d : List Byte) (k' : CqId) : (s.accept a d).cq k' = s.cq k' := rfl

/-! ## dropIssued -/

@[simp] theorem State.dropIssued_pending (k : CqId) : (s.dropIssued k).pending = s.pending := rfl
@[simp] theorem State.dropIssued_control (k : CqId) : (s.dropIssued k).control = s.control := rfl
@[simp] theorem State.dropIssued_queues (k : CqId) : (s.dropIssued k).queues = s.queues := rfl
@[simp] theorem State.dropIssued_lastUrgent (k : CqId) : (s.dropIssued k).lastUrgent = s.lastUrgent := rfl
@[simp] theorem State.dropIssued_lastNormal (k : CqId) : (s.dropIssued k).lastNormal = s.lastNormal := rfl
@[simp] theorem State.dropIssued_fetch (k : CqId) : (s.dropIssued k).fetch = s.fetch := rfl
@[simp] theorem State.dropIssued_ackOrder (k : CqId) : (s.dropIssued k).ackOrder = s.ackOrder := rfl
@[simp] theorem State.dropIssued_slots (k : CqId) : (s.dropIssued k).slots = s.slots := rfl
@[simp] theorem State.dropIssued_order (k : CqId) : (s.dropIssued k).order = s.order := rfl
@[simp] theorem State.dropIssued_sequence (k : CqId) : (s.dropIssued k).sequence = s.sequence := rfl
@[simp] theorem State.dropIssued_surfaces (k : CqId) : (s.dropIssued k).surfaces = s.surfaces := rfl
@[simp] theorem State.dropIssued_palettes (k : CqId) : (s.dropIssued k).palettes = s.palettes := rfl
@[simp] theorem State.dropIssued_frame (k : CqId) : (s.dropIssued k).frame = s.frame := rfl
@[simp] theorem State.dropIssued_engines (k : CqId) : (s.dropIssued k).engines = s.engines := rfl
@[simp] theorem State.dropIssued_marks (k : CqId) : (s.dropIssued k).marks = s.marks := rfl
@[simp] theorem State.dropIssued_waiting (k : CqId) : (s.dropIssued k).waiting = s.waiting := rfl
@[simp] theorem State.dropIssued_presentation (k : CqId) : (s.dropIssued k).presentation = s.presentation := rfl
@[simp] theorem State.dropIssued_cqs (k : CqId) : (s.dropIssued k).cqs = s.cqs := rfl
@[simp] theorem State.dropIssued_choices (k : CqId) : (s.dropIssued k).choices = s.choices := rfl
@[simp] theorem State.dropIssued_queue (k : CqId) (q' : QueueId) : (s.dropIssued k).queue q' = s.queue q' := rfl
@[simp] theorem State.dropIssued_slot (k : CqId) (i' : SlotId) : (s.dropIssued k).slot i' = s.slot i' := rfl
@[simp] theorem State.dropIssued_surface (k : CqId) (id' : SurfaceId) : (s.dropIssued k).surface id' = s.surface id' := rfl
@[simp] theorem State.dropIssued_engine (k : CqId) (e' : EngineId) : (s.dropIssued k).engine e' = s.engine e' := rfl
@[simp] theorem State.dropIssued_mark (k : CqId) (m' : MarkId) : (s.dropIssued k).mark m' = s.mark m' := rfl
@[simp] theorem State.dropIssued_cq (k : CqId) (k' : CqId) : (s.dropIssued k).cq k' = s.cq k' := rfl

@[simp] theorem State.choose_choices : s.choose.choices = s.choices + 1 := rfl

@[simp] theorem State.emit_written (w : LinkWrite) : (s.emit w).link.written = s.link.written ++ [w] := rfl

@[simp] theorem State.accept_written (a : Nat) (d : List Byte) :
    (s.accept a d).link.written = acceptBytes a d s.link.written := rfl

@[simp] theorem State.accept_busMastering (a : Nat) (d : List Byte) : (s.accept a d).link.busMastering = s.link.busMastering := rfl

@[simp] theorem State.dropIssued_written (k : CqId) :
    (s.dropIssued k).link.written = s.link.written.filter fun w => !w.isIssuedBy k := rfl

@[simp] theorem State.emit_pendingFlags (w : LinkWrite) : (s.emit w).link.pendingFlags = s.link.pendingFlags := rfl

@[simp] theorem State.reach_deviceState (d : Time) : (s.reach d).control.deviceState = s.control.deviceState := rfl

@[simp] theorem State.reach_timer (d : Time) : (s.reach d).control.timer = laterTime s.control.timer d := rfl

/-! ## Reading back -/

theorem State.queue_setQueue (q p : QueueId) (c : Option Queue) :
    (s.setQueue q c).queue p = if q = p then c else s.queue p := by
  simp [State.queue, State.setQueue, Vector.getElem_set, Fin.ext_iff]

theorem State.slot_setSlot (i j : SlotId) (sl : Slot) : (s.setSlot i sl).slot j = if i = j then sl else s.slot j := by
  simp [State.slot, State.setSlot, Vector.getElem_set, Fin.ext_iff]

theorem State.surface_setSurface (i j : SurfaceId) (r : Surface) :
    (s.setSurface i r).surface j = if i = j then r else s.surface j := by
  simp [State.surface, State.setSurface, Vector.getElem_set, Fin.ext_iff]

theorem State.mark_setMark (i j : MarkId) (v : BitVec 32) : (s.setMark i v).mark j = if i = j then v else s.mark j := by
  simp [State.mark, State.setMark, Vector.getElem_set, Fin.ext_iff]

theorem State.cq_setCq (i j : CqId) (c : Option CompletionQueue) : (s.setCq i c).cq j = if i = j then c else s.cq j := by
  simp [State.cq, State.setCq, Vector.getElem_set, Fin.ext_iff]

theorem EngineId.index_inj {d e : EngineId} : d.index = e.index ↔ d = e := by cases d <;> cases e <;> decide

theorem State.engine_setEngine (d e : EngineId) (g : Engine) :
    (s.setEngine d g).engine e = if d = e then g else s.engine e := by
  cases d <;> cases e <;> simp [State.engine, State.setEngine, EngineId.index]

@[simp] theorem State.queue_setQueue_self (q : QueueId) (c : Option Queue) : (s.setQueue q c).queue q = c := by
  simp [State.queue_setQueue]

@[simp] theorem State.slot_setSlot_self (i : SlotId) (sl : Slot) : (s.setSlot i sl).slot i = sl := by
  simp [State.slot_setSlot]

@[simp] theorem State.surface_setSurface_self (i : SurfaceId) (r : Surface) : (s.setSurface i r).surface i = r := by
  simp [State.surface_setSurface]

@[simp] theorem State.mark_setMark_self (m : MarkId) (v : BitVec 32) : (s.setMark m v).mark m = v := by
  simp [State.mark_setMark]

@[simp] theorem State.cq_setCq_self (k : CqId) (c : Option CompletionQueue) : (s.setCq k c).cq k = c := by
  simp [State.cq_setCq]

@[simp] theorem State.engine_setEngine_self (e : EngineId) (g : Engine) : (s.setEngine e g).engine e = g := by
  simp [State.engine_setEngine]

theorem State.queue_modifyQueue (q p : QueueId) (f : Queue → Queue) :
    (s.modifyQueue q f).queue p = if q = p then (s.queue q).map f else s.queue p := by
  simp [State.modifyQueue, State.queue_setQueue]

theorem State.cq_modifyCq (i j : CqId) (f : CompletionQueue → CompletionQueue) :
    (s.modifyCq i f).cq j = if i = j then (s.cq i).map f else s.cq j := by
  simp [State.modifyCq, State.cq_setCq]

theorem State.surface_modifySurface (i j : SurfaceId) (f : Surface → Surface) :
    (s.modifySurface i f).surface j = if i = j then f (s.surface i) else s.surface j := by
  simp [State.modifySurface, State.surface_setSurface]

end Sys2Proof.Machine
end

