-- ==== Sys2Proof/Laws/Free.lean ====
section
/-! SUPPORT. Everything that freeing a slot can do (R58 to R60, R80): an acknowledgement that takes the slot, the end of DRAINING, and an
acknowledgement that waited. -/

namespace Sys2Proof.Machine

open Sys2Proof.Safety

/-- A queue's context set to what it is changes nothing. -/
theorem State.setQueue_same {s : State} {q : QueueId} {d : Queue} (h : s.queue q = some d) : s.setQueue q (some d) = s := by
  have hv : s.queues.set q (some d) = s.queues := by
    apply Vector.ext
    intro k hk
    rw [Vector.getElem_set]
    split
    · next he => subst he; exact h.symm
    · rfl
  unfold State.setQueue
  rw [hv]

/-- The end of DRAINING, as a replacement of the queue's context (R59). -/
theorem State.endDraining_eq {s : State} {q : QueueId} {d : Queue} (h : s.queue q = some d) :
    s.endDraining q = s.setQueue q (some (drainEnded s q d)) := by
  have hd : s.drained q d = true ↔ d.state = .draining ∧ ∃ j, d.abort = .placed j ∧ ∀ i, i ≠ j → (s.slot i).queue ≠ some q := by
    unfold State.drained
    rw [Bool.and_eq_true, decide_eq_true_iff]
    refine and_congr_right fun _ => ?_
    cases d.abort with
    | placed j =>
      simp only [List.all_eq_true, List.mem_finRange, true_implies, Bool.or_eq_true, decide_eq_true_eq, AbortRecord.placed.injEq,
        exists_eq_left']
      exact forall_congr' fun i => or_iff_not_imp_left
    | _ => simp
  unfold State.endDraining drainEnded
  simp only [h, hd]
  split
  · rfl
  · exact (State.setQueue_same h).symm

/-- The placing of an acknowledgement (R58, R59). -/
theorem State.placeAck_spec (s : State) (p : QueueId) (b : Queue) (n : Nat) (i : SlotId) :
    AckPlaced s (s.placeAck p b n i) p b n i := by
  unfold State.placeAck
  dsimp only
  generalize hb : ({ b with occupied := b.occupied + 1, abort := .placed i } : Queue) = b'
  have hcq : b'.cq = b.cq := by rw [← hb]
  generalize ht : ({ (s.setSlot i (acknowledgementSlot p n)).setQueue p (some b') with
    ackOrder := s.ackOrder.filter (· ≠ p) } : State) = t
  have hq : t.queue p = some b' := by rw [← ht]; exact (State.queue_setQueue _ _ _ _).trans (if_pos rfl)
  have hpost : t.post i p = t.modifyCq b'.cq fun k => { k with posting := k.posting ++ [i] } := by unfold State.post; rw [hq]
  rw [hpost, State.endDraining_eq (d := b') (by exact hq)]
  have hdr : drainEnded (t.modifyCq b'.cq fun k => { k with posting := k.posting ++ [i] }) p b' =
      drainEnded (s.setSlot i (acknowledgementSlot p n)) p b' := by rw [← ht]; rfl
  rw [hdr]
  constructor
  · rw [← hb, ← ht]
    simp only [State.setQueue, State.modifyCq, State.setCq, State.setSlot, Vector.set_set]
    rfl
  · intro k
    have : s.cq = t.cq := by rw [← ht]; rfl
    rw [← hcq, this]
    show (t.setCq b'.cq _).cq k = _
    rw [State.cq_setCq]
    split
    · next h => rw [h]
    · rfl

/-- The freeing of a slot (R80). -/
theorem State.freeSlot_spec {s : State} {i : SlotId} {q : QueueId} {d : Queue} (h : (s.slot i).queue = some q)
    (hq : s.queue q = some d) : SlotFreed s (s.freeSlot i) i q d := by
  generalize hs0 : ({ (s.setSlot i Slot.freed).setQueue q (some { d with occupied := d.occupied - 1 }) with
    order := s.order.filter (· ≠ i) } : State) = s0
  have hf : s.freeSlot i = s0.claimFreed q i := by
    unfold State.freeSlot
    rw [h]
    dsimp only
    congr 1
    rw [← hs0]
    unfold State.modifyQueue
    rw [show ({ s.setSlot i Slot.freed with order := s.order.filter (· ≠ i) } : State).queue q = some d from hq]
    rfl
  have hq0 : s0.queue q = some { d with occupied := d.occupied - 1 } := by
    rw [← hs0]; exact (State.queue_setQueue _ _ _ _).trans (if_pos rfl)
  have hc0 : s0.control = s.control := by rw [← hs0]; rfl
  have ha0 : s0.ackOrder = s.ackOrder := by rw [← hs0]; rfl
  refine ⟨s0, hs0.symm, fun hfault => ?_, fun hfault => ⟨fun n ho => ?_, fun ho => ⟨_, rfl, fun hw => ?_, fun p rest b n hw hb hany => ?_⟩⟩⟩
  · rw [hf]; unfold State.claimFreed; rw [if_pos (by rw [hc0]; exact hfault)]
  · have : s0.claimFreed q i = s0.placeAck q { d with occupied := d.occupied - 1 } n i := by
      unfold State.claimFreed
      rw [if_neg (by rw [hc0]; exact hfault), hq0]
      simp only [ho]
    rw [hf, this]
    exact s0.placeAck_spec _ _ _ _
  all_goals
    have hc : s0.claimFreed q i =
        (s0.setQueue q (some (drainEnded s0 q { d with occupied := d.occupied - 1 }))).serveWaiting i := by
      rw [← State.endDraining_eq hq0]
      unfold State.claimFreed
      rw [if_neg (by rw [hc0]; exact hfault), hq0]
      dsimp only
      split
      · next n hn => exact absurd hn (ho n)
      · rfl
    rw [hf, hc]
    unfold State.serveWaiting
    rw [show (s0.setQueue q (some (drainEnded s0 q { d with occupied := d.occupied - 1 }))).ackOrder = s.ackOrder from ha0, hw]
  · dsimp only
    rw [hb]
    simp only [hany]
    exact State.placeAck_spec _ _ _ _ _

end Sys2Proof.Machine
end

