-- ==== Sys2Proof/Laws/Issue.lean ====
section
/-! SUPPORT. Where accepted bytes stand among the part's writes (R116), and the issue of completion writes (R141): what one queue's issue does, and that issuing all that are due takes a state to one
that `WritesIssued` describes. -/

namespace Sys2Proof.Machine

open Sys2Proof.Safety (nextWrite nextIssued WritesIssued Awaited LinkAccepts TakenNext WriteAhead)

/-! ## Where accepted bytes stand (R110, R116) -/

theorem LinkWrite.isIssued_iff (w : LinkWrite) : w.isIssued = true ↔ Awaited w := by
  cases w <;> simp [LinkWrite.isIssued, Awaited]

/-- All that the acceptance of bytes does to the part's writes. -/
theorem acceptBytes_spec (a : Nat) (d : List Byte) (l : List LinkWrite) : LinkAccepts l (acceptBytes a d l) a d := by
  refine ⟨_, _, (List.takeWhile_append_dropWhile (p := fun w => !w.isIssued)).symm, fun x hx => ?_, fun x hx => ?_, rfl⟩
  · have := List.mem_takeWhile_imp hx
    simpa [← LinkWrite.isIssued_iff] using this
  · have := List.head?_dropWhile_not (fun w => !w.isIssued) l
    rw [hx] at this
    simpa [← LinkWrite.isIssued_iff] using this

/-- The place of accepted bytes is determined. -/
theorem linkAccepts_unique {l m m' : List LinkWrite} {a : Nat} {d : List Byte} (h : LinkAccepts l m a d) (h' : LinkAccepts l m' a d) :
    m = m' := by
  have key : ∀ (b r : List LinkWrite), (∀ x ∈ b, ¬Awaited x) → (∀ x, r.head? = some x → Awaited x) →
      (b ++ r).takeWhile (fun w => !w.isIssued) = b ∧ (b ++ r).dropWhile (fun w => !w.isIssued) = r := by
    intro b r hb hr
    have answered : ∀ x ∈ b, (!x.isIssued) = true := fun x hx => by
      rw [Bool.not_eq_true', ← Bool.not_eq_true, LinkWrite.isIssued_iff]
      exact hb x hx
    rw [List.takeWhile_append_of_pos answered, List.dropWhile_append_of_pos answered]
    cases r with
    | nil => simp
    | cons x rest => simp [(LinkWrite.isIssued_iff x).2 (hr x rfl)]
  obtain ⟨b, r, rfl, hb, hr, rfl⟩ := h
  obtain ⟨b', r', e, hb', hr', rfl⟩ := h'
  obtain ⟨h1, h2⟩ := key b r hb hr
  obtain ⟨h3, h4⟩ := key b' r' hb' hr'
  rw [← e] at h3 h4
  obtain rfl : b = b' := h1.symm.trans h3
  obtain rfl : r = r' := h2.symm.trans h4
  rfl

/-- A completion write is the next that the link takes exactly when no other in flight stands ahead of it. -/
theorem State.takesNext_iff (s : State) (k : CqId) : s.link.takesNext k = true ↔ TakenNext s k := by
  have key : ∀ l : List LinkWrite, (l.takeWhile fun w => !w.isIssuedBy k).all (fun w => !w.isIssued) = true ↔
      ∀ before p a d rest, l = before ++ .issued p a d :: rest → (∀ x ∈ before, ¬Awaited x) → p = k := by
    intro l
    induction l with
    | nil => simp
    | cons w l ih =>
      cases w with
      | issued p a d =>
        by_cases hp : p = k
        · simp only [LinkWrite.isIssuedBy, hp, decide_true, Bool.not_true, Bool.false_eq_true, not_false_eq_true,
            List.takeWhile_cons_of_neg, List.all_nil, true_iff]
          intro before q b c rest e hb
          cases before with
          | nil => cases e; rfl
          | cons y before => cases e; exact (hb _ (List.mem_cons_self ..) trivial).elim
        · refine ⟨fun h => ?_, fun h => absurd (h [] p a d l rfl (by simp)) hp⟩
          simp [LinkWrite.isIssuedBy, LinkWrite.isIssued, hp] at h
      | _ =>
        rw [List.takeWhile_cons_of_pos (by rfl), List.all_cons]
        refine Iff.trans (by rw [Bool.and_eq_true]; exact and_iff_right rfl) (ih.trans ?_)
        refine ⟨fun h before q b c rest e hb => ?_, fun h before q b c rest e hb => ?_⟩
        · cases before with
          | nil => cases e
          | cons y before => cases e; exact h before q b c rest rfl fun x hx => hb x (by simp [hx])
        · refine h (_ :: before) q b c rest (by rw [e]; rfl) fun x hx => ?_
          rcases List.mem_cons.1 hx with rfl | hx
          · exact id
          · exact hb x hx
  exact key s.link.written

/-- The link can take a write of a line exactly when no completion write in flight was issued before the line was begun. -/
theorem State.takesLine_iff (s : State) (j : Job) : s.takesLine j = true ↔ ¬WriteAhead s j := by
  unfold State.takesLine WriteAhead
  rw [List.all_eq_true]
  constructor
  · rintro h ⟨k, c, w, hc, hw, hs, hn⟩
    have := h k (List.mem_finRange k)
    simp [hc, hw, hs, Nat.not_lt.2 hn] at this
  · intro h k _
    cases hc : s.cq k with
    | none => rfl
    | some c =>
      cases hw : c.inFlight with
      | none => simp [hw]
      | some w =>
        simp only [Option.bind_some, hw, Bool.or_eq_true, Bool.not_eq_true', decide_eq_true_eq]
        by_cases hs : w.sent = true
        · exact .inr (Nat.lt_of_not_le fun hn => h ⟨k, c, w, hc, hw, hs, hn⟩)
        · exact .inl (by simpa using hs)

/-! ## A free order is an order -/

theorem insertAt_perm {α : Type} (n : Nat) (x : α) (l : List α) : (insertAt n x l).Perm (x :: l) := by
  unfold insertAt
  exact List.perm_middle.trans (by rw [List.take_append_drop])

theorem shuffle_perm {α : Type} (k : Nat) (l : List α) : (shuffle k l).Perm l := by
  induction l generalizing k with
  | nil => exact .refl _
  | cons x rest ih =>
    cases rest with
    | nil => exact .refl _
    | cons y rest => exact (insertAt_perm _ _ _).trans ((ih _).cons x)

theorem State.together_perm {α : Type} (s : State) (l : List α) : (s.together l).Perm l := shuffle_perm _ l

@[simp] theorem State.together_nil {α : Type} (s : State) : s.together ([] : List α) = [] := rfl

@[simp] theorem State.together_one {α : Type} (s : State) (x : α) : s.together [x] = [x] := rfl

/-! ## One queue -/

/-- The write that is due is the one that `issue` issues, once the choice of its order is taken. -/
theorem State.issue_eq {s t : State} (n : Nat) (hs : s.choices = n + 1) (ht : t = { s with choices := n }) (k : CqId) : s.issue k =
    match s.cq k, nextWrite t k with
    | some c, some w => s.putInFlight k c w
    | _, _ => s := by
  subst ht
  unfold State.issue nextWrite
  rw [show ({ s with choices := n } : State).cq k = s.cq k from rfl]
  cases h : s.cq k with
  | none => rfl
  | some c =>
    dsimp only
    cases hp : c.posting with
    | nil => simp
    | cons i rest =>
      by_cases hm : s.mayIssue c = true
      · have hc : (s.control.deviceState = .running ∨ s.control.deviceState = .stopping) ∧ c.inFlight = none ∧
            c.outstanding + 1 < c.size := by
          simpa [State.mayIssue, and_assoc] using hm
        simp only [hm, if_pos hc, if_true]
        unfold State.completionWrite
        rw [hs]
        rfl
      · have hc : ¬((s.control.deviceState = .running ∨ s.control.deviceState = .stopping) ∧ c.inFlight = none ∧
            c.outstanding + 1 < c.size) := by
          simpa [State.mayIssue, and_assoc] using hm
        simp only [if_neg hc, hm, if_false, Bool.false_eq_true]

theorem State.mem_writesDue (s : State) (k : CqId) : k ∈ s.writesDue ↔ (nextWrite s k).isSome = true := by
  unfold State.writesDue nextWrite
  rw [List.mem_filter]
  cases s.cq k with
  | none => simp
  | some c =>
    dsimp only
    by_cases hm : (s.control.deviceState = .running ∨ s.control.deviceState = .stopping) ∧ c.inFlight = none ∧
        c.outstanding + 1 < c.size
    · have hd : s.mayIssue c = true := by simpa [State.mayIssue, and_assoc] using hm
      rw [if_pos hm, hd]
      cases c.posting <;> simp
    · have hd : s.mayIssue c = false := by
        have : ¬s.mayIssue c = true := fun h => hm (by simpa [State.mayIssue, and_assoc] using h)
        simpa using this
      rw [if_neg hm, hd]
      simp

theorem State.writesDue_nodup (s : State) : s.writesDue.Nodup := (List.nodup_finRange 4).filter _

/-! ## All that are due -/

/-- The queues of a list have issued their writes. -/
structure IssuedBy (s t : State) (l : List CqId) : Prop where
  same : t = { s with
    cqs := t.cqs, link := { s.link with written := s.link.written ++ l.filterMap (nextIssued s) }, choices := t.choices }
  cqs : ∀ k, t.cq k = if k ∈ l then (s.cq k).map fun c => { c with inFlight := nextWrite s k } else s.cq k
  choices : t.choices = s.choices + 1

/-- What is due for a queue that has not issued is due still when others have. -/
theorem IssuedBy.nextWrite_eq {s t : State} {l : List CqId} (h : IssuedBy s t l) {k : CqId} (hk : k ∉ l) :
    nextWrite { t with choices := s.choices } k = nextWrite s k := by
  have hc : t.cq k = s.cq k := by rw [h.cqs k, if_neg hk]
  unfold nextWrite
  rw [show ({ t with choices := s.choices } : State).cq k = s.cq k from hc]
  cases s.cq k with
  | none => rfl
  | some c =>
    have h1 : t.control = s.control := by rw [h.same]
    have h2 : t.link.busMastering = s.link.busMastering := by rw [h.same]
    have h3 : ∀ i, ({ t with choices := s.choices } : State).completionEntry c i = s.completionEntry c i := by
      intro i
      rw [h.same]
      rfl
    simp only [h3]
    simp only [h1, h2]

theorem IssuedBy.step {s t : State} {l : List CqId} (h : IssuedBy s t l) {k : CqId} (hk : k ∉ l)
    (hd : (nextWrite s k).isSome = true) : IssuedBy s (t.issue k) (l ++ [k]) := by
  obtain ⟨w, hw⟩ := Option.isSome_iff_exists.1 hd
  have hc : ∃ c, s.cq k = some c := by
    cases hc : s.cq k with
    | none => simp [nextWrite, hc] at hw
    | some c => exact ⟨c, rfl⟩
  obtain ⟨c, hc⟩ := hc
  have ht : t.cq k = some c := by rw [h.cqs k, if_neg hk, hc]
  have hi : t.issue k = t.putInFlight k c w := by rw [State.issue_eq _ h.choices rfl, ht, h.nextWrite_eq hk, hw]
  have hcq : (t.putInFlight k c w).cqs = (t.setCq k (some { c with inFlight := some w })).cqs := by
    unfold State.putInFlight; split <;> rfl
  have hb : (l ++ [k]).filterMap (nextIssued s) =
      l.filterMap (nextIssued s) ++ if w.sent then [.issued k w.address w.entry.bytes] else [] := by
    rw [List.filterMap_append]
    simp only [List.filterMap_cons, List.filterMap_nil, nextIssued, hw]
    cases w.sent <;> rfl
  constructor
  · rw [hi, hb]
    have hl : t.link = { s.link with written := s.link.written ++ l.filterMap (nextIssued s) } := by rw [h.same]
    unfold State.putInFlight
    split
    · next hs =>
      unfold State.emit
      dsimp only
      rw [State.setCq_link, hl, ← List.append_assoc]
      conv => lhs; rw [h.same]
      rfl
    · next hs =>
      rw [List.append_nil]
      conv => lhs; rw [h.same]
      rfl
  · intro p
    have : (t.issue k).cq p = (t.setCq k (some { c with inFlight := some w })).cq p := by
      rw [hi]; unfold State.cq; rw [hcq]
    rw [this, State.cq_setCq]
    by_cases hp : k = p
    · subst hp
      rw [if_pos rfl, if_pos (by simp), hc, hw]
      rfl
    · rw [if_neg hp, h.cqs p]
      simp only [List.mem_append, List.mem_singleton, Ne.symm hp, or_false]
  · rw [hi, ← h.choices]
    unfold State.putInFlight
    split <;> rfl

theorem IssuedBy.foldl {s t : State} {l m : List CqId} (h : IssuedBy s t l) (hm : (l ++ m).Nodup)
    (hd : ∀ k ∈ m, (nextWrite s k).isSome = true) : IssuedBy s (m.foldl State.issue t) (l ++ m) := by
  induction m generalizing t l with
  | nil => simpa using h
  | cons k rest ih =>
    have hk : k ∉ l := fun hl => by
      have := List.disjoint_of_nodup_append hm hl
      simp at this
    have := ih (h.step hk (hd k (by simp))) (by simpa using hm) (fun p hp => hd p (by simp [hp]))
    simpa using this

theorem IssuedBy.nil (s : State) : IssuedBy s s.choose [] := ⟨by simp [State.choose], fun k => by simp, rfl⟩

/-- Issuing what is due issues exactly the writes whose conditions hold (R141). -/
theorem State.issueWrites_spec (s : State) : WritesIssued s s.issueWrites := by
  have hn : (s.together s.writesDue).Nodup := (s.together_perm _).nodup_iff.2 s.writesDue_nodup
  have hmem : ∀ k, k ∈ s.together s.writesDue ↔ (nextWrite s k).isSome = true := fun k =>
    (s.together_perm _).mem_iff.trans (s.mem_writesDue k)
  have h := IssuedBy.foldl (IssuedBy.nil s) (m := s.together s.writesDue) (by simpa using hn) (fun k hk => (hmem k).1 hk)
  refine ⟨s.together s.writesDue, hn, hmem, h.same, fun k => ?_⟩
  have hk := h.cqs k
  rw [List.nil_append] at hk
  rw [show s.issueWrites = (s.together s.writesDue).foldl State.issue s.choose from rfl, hk]
  by_cases hd : (nextWrite s k).isSome = true
  · rw [if_pos ((hmem k).2 hd)]
    obtain ⟨w, hw⟩ := Option.isSome_iff_exists.1 hd
    rw [hw]
  · rw [if_neg (fun x => hd ((hmem k).1 x))]
    rw [Option.not_isSome_iff_eq_none.1 hd]
    cases s.cq k <;> rfl

/-- Issuing leaves everything but the writes in flight and the part's record of its writes. -/
theorem State.issueWrites_same (s : State) : s.issueWrites = { s with
    cqs := s.issueWrites.cqs
    link := { s.link with written := s.issueWrites.link.written }
    choices := s.issueWrites.choices } := by
  obtain ⟨l, _, _, h, _⟩ := s.issueWrites_spec
  rw [h]

/-- A completion queue after the issue: only the write in flight may be new, and then there was none and the ring had room (R141). -/
theorem State.issueWrites_cq (s : State) (k : CqId) : s.issueWrites.cq k = (s.cq k).map fun c =>
    { c with inFlight := match nextWrite s k with | some w => some w | none => c.inFlight } := by
  obtain ⟨l, _, _, _, h⟩ := s.issueWrites_spec
  exact h k

/-- What a write that is due says of its queue. -/
theorem nextWrite_some {s : State} {k : CqId} {c : CompletionQueue} {w : CompletionWrite} (hc : s.cq k = some c)
    (h : nextWrite s k = some w) : (s.control.deviceState = .running ∨ s.control.deviceState = .stopping) ∧ c.inFlight = none ∧
      c.outstanding + 1 < c.size ∧ c.posting.head? = some w.slot ∧ w.address = c.base.toNat + c.tail * 16 ∧
      w.entry = s.completionEntry c w.slot ∧ w.sent = s.link.busMastering := by
  unfold nextWrite at h
  rw [hc] at h
  dsimp only at h
  split at h
  · next hm =>
    cases hp : c.posting with
    | nil => simp [hp] at h
    | cons i rest =>
      rw [hp] at h
      cases h
      exact ⟨hm.1, hm.2.1, hm.2.2, by simp, rfl, rfl, rfl⟩
  · cases h

end Sys2Proof.Machine
end

