-- ==== Sys2Proof/Laws/Settle.lean ====
section
/-! SUPPORT. Everything that the ending of slots, with all that it releases in its step, can do to the parts of the state other than
the window, the queues, the waiting list, the posting lists and the completion writes: the relation Settled, and one lemma for each
shared operation. -/

namespace Sys2Proof.Machine

open Sys2Proof.Safety (extent)

/-- What endings and their consequences leave as it is, and how far they go where they change something. -/
structure Settled (s t : State) : Prop where
  pending : t.pending = s.pending
  frame : t.frame = s.frame
  palettes : t.palettes = s.palettes
  engines : t.engines = s.engines
  fetch : t.fetch = s.fetch
  sequence : t.sequence = s.sequence
  served : t.lastUrgent = s.lastUrgent ∧ t.lastNormal = s.lastNormal
  control : t.control = { s.control with deviceState := t.control.deviceState }
  configuration : t.link.up = s.link.up ∧ t.link.busMastering = s.link.busMastering ∧
    t.link.messageInterrupts = s.link.messageInterrupts ∧ t.link.masked = s.link.masked
  presentation : t.presentation = { s.presentation with held := t.presentation.held, panel := t.presentation.panel }
  marks : ∀ m, (s.mark m).toNat ≤ (t.mark m).toNat
  surfaces : ∀ i, (t.surface i).state = .free ∨
    ((s.surface i).state ≠ .free ∧ extent (t.surface i) = extent (s.surface i))
  cqs : ∀ k, t.cq k = none ∨ ∃ c l w, s.cq k = some c ∧ t.cq k = some { c with posting := l, inFlight := w } ∧
    (w = c.inFlight ∨ (c.inFlight = none ∧ c.outstanding + 1 < c.size))

namespace Settled

/-- A state that agrees with another on the fields of the relation is settled from it. -/
theorem of_same {s t : State} (pending : t.pending = s.pending) (frame : t.frame = s.frame) (palettes : t.palettes = s.palettes)
    (engines : t.engines = s.engines) (fetch : t.fetch = s.fetch) (sequence : t.sequence = s.sequence)
    (served : t.lastUrgent = s.lastUrgent ∧ t.lastNormal = s.lastNormal) (control : t.control = s.control)
    (link : t.link = s.link) (presentation : t.presentation = { s.presentation with held := t.presentation.held })
    (marks : t.marks = s.marks) (surfaces : t.surfaces = s.surfaces) (cqs : t.cqs = s.cqs) : Settled s t where
  pending := pending
  frame := frame
  palettes := palettes
  engines := engines
  fetch := fetch
  sequence := sequence
  served := served
  control := by rw [control]
  configuration := by rw [link]; simp
  presentation := by rw [presentation]
  marks := fun m => by simp [State.mark, marks]
  surfaces := fun i => by
    have h : t.surface i = s.surface i := by simp [State.surface, surfaces]
    rw [h]
    by_cases hf : (s.surface i).state = .free
    · exact .inl hf
    · exact .inr ⟨hf, rfl⟩
  cqs := fun k => by
    have h : t.cq k = s.cq k := by simp [State.cq, cqs]
    rw [h]
    cases s.cq k with
    | none => exact .inl rfl
    | some c => exact .inr ⟨c, c.posting, c.inFlight, rfl, rfl, .inl rfl⟩

theorem refl (s : State) : Settled s s := of_same rfl rfl rfl rfl rfl rfl ⟨rfl, rfl⟩ rfl rfl rfl rfl rfl rfl

theorem trans {s t u : State} (h : Settled s t) (g : Settled t u) : Settled s u where
  pending := g.pending.trans h.pending
  frame := g.frame.trans h.frame
  palettes := g.palettes.trans h.palettes
  engines := g.engines.trans h.engines
  fetch := g.fetch.trans h.fetch
  sequence := g.sequence.trans h.sequence
  served := ⟨g.served.1.trans h.served.1, g.served.2.trans h.served.2⟩
  control := by rw [g.control, h.control]
  configuration := by
    obtain ⟨h1, h2, h3, h4⟩ := h.configuration
    obtain ⟨g1, g2, g3, g4⟩ := g.configuration
    exact ⟨g1.trans h1, g2.trans h2, g3.trans h3, g4.trans h4⟩
  presentation := by rw [g.presentation, h.presentation]
  marks := fun m => (h.marks m).trans (g.marks m)
  surfaces := fun i => by
    rcases g.surfaces i with hf | ⟨gs, ge⟩
    · exact .inl hf
    · rcases h.surfaces i with hf | ⟨hs, he⟩
      · exact absurd hf gs
      · exact .inr ⟨hs, ge.trans he⟩
  cqs := fun k => by
    rcases g.cqs k with hn | ⟨c, l, v, gc, gu, gv⟩
    · exact .inl hn
    · rcases h.cqs k with hn | ⟨d, m, w, hd, ht, hw⟩
      · simp [hn] at gc
      · rw [ht] at gc
        cases gc
        refine .inr ⟨d, l, v, hd, gu, ?_⟩
        rcases gv with rfl | ⟨g1, g2⟩
        · exact hw
        · rcases hw with rfl | hw
          · exact .inr ⟨g1, g2⟩
          · exact .inr hw

/-- A fold of settled steps is settled. -/
theorem foldl {β : Type} {f : State → β → State} (hf : ∀ s x, Settled s (f s x)) (l : List β) (s : State) :
    Settled s (l.foldl f s) := by
  induction l generalizing s with
  | nil => exact refl s
  | cons x rest ih => exact (hf s x).trans (ih (f s x))

end Settled

/-! ## The plain updates -/

theorem State.setQueue_settled (s : State) (q : QueueId) (c : Option Queue) : Settled s (s.setQueue q c) :=
  .of_same rfl rfl rfl rfl rfl rfl ⟨rfl, rfl⟩ rfl rfl rfl rfl rfl rfl

theorem State.modifyQueue_settled (s : State) (q : QueueId) (f : Queue → Queue) : Settled s (s.modifyQueue q f) :=
  s.setQueue_settled q _

theorem State.setSlot_settled (s : State) (i : SlotId) (sl : Slot) : Settled s (s.setSlot i sl) :=
  .of_same rfl rfl rfl rfl rfl rfl ⟨rfl, rfl⟩ rfl rfl rfl rfl rfl rfl

theorem State.choose_settled (s : State) : Settled s s.choose :=
  .of_same rfl rfl rfl rfl rfl rfl ⟨rfl, rfl⟩ rfl rfl rfl rfl rfl rfl

theorem State.modifySurface_settled (s : State) (id : SurfaceId) (f : Surface → Surface)
    (hf : (f (s.surface id)).state = .free ∨
      ((s.surface id).state ≠ .free ∧ extent (f (s.surface id)) = extent (s.surface id))) :
    Settled s (s.modifySurface id f) where
  pending := rfl
  frame := rfl
  palettes := rfl
  engines := rfl
  fetch := rfl
  sequence := rfl
  served := ⟨rfl, rfl⟩
  control := rfl
  configuration := ⟨rfl, rfl, rfl, rfl⟩
  presentation := rfl
  marks := fun _ => Nat.le_refl _
  surfaces := fun i => by
    rw [State.surface_modifySurface]
    split
    · next h => subst h; exact hf
    · by_cases h : (s.surface i).state = .free
      · exact .inl h
      · exact .inr ⟨h, rfl⟩
  cqs := ((Settled.refl s).cqs)

theorem State.modifyCq_posting_settled (s : State) (k : CqId) (f : List SlotId → List SlotId) :
    Settled s (s.modifyCq k fun c => { c with posting := f c.posting }) where
  pending := rfl
  frame := rfl
  palettes := rfl
  engines := rfl
  fetch := rfl
  sequence := rfl
  served := ⟨rfl, rfl⟩
  control := rfl
  configuration := ⟨rfl, rfl, rfl, rfl⟩
  presentation := rfl
  marks := fun _ => Nat.le_refl _
  surfaces := (Settled.refl s).surfaces
  cqs := fun j => by
    rw [State.cq_modifyCq]
    split
    · next h =>
      subst h
      cases s.cq k with
      | none => exact .inl rfl
      | some c => exact .inr ⟨c, f c.posting, c.inFlight, rfl, rfl, .inl rfl⟩
    · exact (Settled.refl s).cqs j

/-! ## Freeing and ending -/

theorem State.post_settled (s : State) (i : SlotId) (q : QueueId) : Settled s (s.post i q) := by
  unfold State.post
  split
  · exact .refl s
  · exact s.modifyCq_posting_settled _ (· ++ [i])

theorem State.endDraining_settled (s : State) (q : QueueId) : Settled s (s.endDraining q) := by
  unfold State.endDraining
  split
  · exact .refl s
  · split
    · exact s.setQueue_settled _ _
    · exact .refl s

theorem State.placeAck_settled (s : State) (q : QueueId) (c : Queue) (n : Nat) (i : SlotId) :
    Settled s (s.placeAck q c n i) := by
  unfold State.placeAck
  refine .trans (t := { (s.setSlot i (acknowledgementSlot q n)).setQueue q
    (some { c with occupied := c.occupied + 1, abort := .placed i }) with ackOrder := s.ackOrder.filter (· ≠ q) }) ?_ ?_
  · exact .of_same rfl rfl rfl rfl rfl rfl ⟨rfl, rfl⟩ rfl rfl rfl rfl rfl rfl
  · exact (State.post_settled _ i q).trans (State.endDraining_settled _ q)

theorem State.serveWaiting_settled (s : State) (i : SlotId) : Settled s (s.serveWaiting i) := by
  unfold State.serveWaiting
  repeat' split
  all_goals first | exact .refl s | exact s.placeAck_settled _ _ _ i

theorem State.claimFreed_settled (s : State) (q : QueueId) (i : SlotId) : Settled s (s.claimFreed q i) := by
  unfold State.claimFreed
  repeat' split
  · exact .refl s
  · exact .refl s
  · exact s.placeAck_settled q _ _ i
  · exact (s.endDraining_settled q).trans (State.serveWaiting_settled _ i)

theorem State.freeSlot_settled (s : State) (i : SlotId) : Settled s (s.freeSlot i) := by
  unfold State.freeSlot
  split
  · exact .refl s
  · next q _ =>
    refine .trans (t := { s.setSlot i Slot.freed with order := s.order.filter (· ≠ i) }) ?_ ?_
    · exact .of_same rfl rfl rfl rfl rfl rfl ⟨rfl, rfl⟩ rfl rfl rfl rfl rfl rfl
    · exact (State.modifyQueue_settled _ q _).trans (State.claimFreed_settled _ q i)

theorem State.dropPresent_settled (s : State) (id : SurfaceId) : Settled s (s.dropPresent id) := by
  refine s.modifySurface_settled id _ ?_
  by_cases h : (s.surface id).state = .free
  · exact .inl h
  · exact .inr ⟨h, rfl⟩

theorem State.returnRetiring_settled (s : State) (id : SurfaceId) : Settled s (s.returnRetiring id) := by
  refine s.modifySurface_settled id _ ?_
  split
  · next h => exact .inr ⟨by simp [h], rfl⟩
  · by_cases h : (s.surface id).state = .free
    · exact .inl h
    · exact .inr ⟨h, rfl⟩

theorem State.releaseClaim_settled (s : State) (sl : Slot) (st : Status) : Settled s (s.releaseClaim sl st) := by
  unfold State.releaseClaim
  split
  · split
    · exact s.dropPresent_settled _
    · split
      · exact .refl s
      · exact s.returnRetiring_settled _
    · exact .refl s
  · exact .refl s

theorem State.endSlot_settled (s : State) (e : Ending) : Settled s (s.endSlot e) := by
  unfold State.endSlot
  dsimp only
  split
  · exact .refl s
  · next q _ =>
    generalize hs1 : s.releaseClaim (s.slot e.slot) e.status = s1
    have h1 : Settled s s1 := by rw [← hs1]; exact s.releaseClaim_settled _ _
    generalize hs2 : ({ s1.setSlot e.slot ((s.slot e.slot).endedWith e.status e.detail) with
      waiting := (s1.setSlot e.slot ((s.slot e.slot).endedWith e.status e.detail)).waiting.filter (fun w => w.slot ≠ e.slot)
      presentation := { (s1.setSlot e.slot ((s.slot e.slot).endedWith e.status e.detail)).presentation with
        held := if (s1.setSlot e.slot ((s.slot e.slot).endedWith e.status e.detail)).presentation.held = some e.slot then none
          else (s1.setSlot e.slot ((s.slot e.slot).endedWith e.status e.detail)).presentation.held } } : State) = s2
    have h2 : Settled s1 s2 := by
      rw [← hs2]
      exact .of_same rfl rfl rfl rfl rfl rfl ⟨rfl, rfl⟩ rfl rfl rfl rfl rfl rfl
    have h3 := State.modifyQueue_settled s2 q fun c => c.afterEnding (s.slot e.slot).isWaiting e.status
    have h := (h1.trans h2).trans h3
    split
    · exact h.trans (State.freeSlot_settled _ _)
    · exact h.trans (State.post_settled _ _ _)

theorem State.removeDependencies_settled (s : State) (gone : List SlotId) : Settled s (s.removeDependencies gone) := by
  unfold State.removeDependencies
  exact .of_same rfl rfl rfl rfl rfl rfl ⟨rfl, rfl⟩ rfl rfl rfl rfl rfl rfl

theorem State.endTogether_settled (s : State) (es : List Ending) : Settled s (s.endTogether es) :=
  (s.choose_settled.trans (Settled.foldl State.endSlot_settled _ _)).trans (State.removeDependencies_settled _ _)

/-! ## Release -/

theorem State.retestOrdered_settled (s : State) : Settled s s.retestOrdered := by
  unfold State.retestOrdered
  exact .of_same rfl rfl rfl rfl rfl rfl ⟨rfl, rfl⟩ rfl rfl rfl rfl rfl rfl

theorem State.markReady_settled (s : State) (ready : List SlotId) : Settled s (s.markReady ready) := by
  unfold State.markReady
  exact .of_same rfl rfl rfl rfl rfl rfl ⟨rfl, rfl⟩ rfl rfl rfl rfl rfl rfl

/-- Raising a mark, with the waiting list changed, is settled. -/
theorem State.raiseMark_settled (s : State) (m : MarkId) (v : BitVec 32) (l : List WaitEntry)
    (h : (s.mark m).toNat ≤ v.toNat) : Settled s { s.setMark m v with waiting := l } where
  pending := rfl
  frame := rfl
  palettes := rfl
  engines := rfl
  fetch := rfl
  sequence := rfl
  served := ⟨rfl, rfl⟩
  control := rfl
  configuration := ⟨rfl, rfl, rfl, rfl⟩
  presentation := rfl
  marks := fun n => by
    show (s.mark n).toNat ≤ ((s.setMark m v).mark n).toNat
    rw [State.mark_setMark]
    split
    · next hm => subst hm; exact h
    · exact Nat.le_refl _
  surfaces := (Settled.refl s).surfaces
  cqs := (Settled.refl s).cqs

theorem State.executeSignal_settled (s : State) (i : SlotId) (m : MarkId) (v : BitVec 32) :
    Settled s (s.executeSignal i m v).1 := by
  unfold State.executeSignal
  split
  · exact .refl s
  · exact s.raiseMark_settled m v _ (by omega)

theorem State.setSurface_freed_settled (s : State) (id : SurfaceId) : Settled s (s.setSurface id Surface.freed) :=
  s.modifySurface_settled id (fun _ => Surface.freed) (.inl rfl)

theorem extent_withOrigin (r : Surface) (o : Nat) : extent (r.withOrigin o) = extent r := by
  unfold extent Surface.withOrigin
  cases r.fields <;> rfl

/-- Issuing what is due is settled. -/
theorem State.issueWrites_settled (s : State) : Settled s s.issueWrites := by
  have h := s.issueWrites_same
  exact
    { pending := by rw [h], frame := by rw [h], palettes := by rw [h], engines := by rw [h], fetch := by rw [h]
      sequence := by rw [h], served := by rw [h]; exact ⟨rfl, rfl⟩, control := by rw [h]
      configuration := by rw [h]; exact ⟨rfl, rfl, rfl, rfl⟩, presentation := by rw [h]
      marks := fun m => by rw [h]; exact Nat.le_refl _
      surfaces := by rw [h]; exact (Settled.refl s).surfaces
      cqs := fun k => by
        rw [s.issueWrites_cq k]
        cases hc : s.cq k with
        | none => exact .inl rfl
        | some c =>
          refine .inr ⟨c, c.posting, _, rfl, rfl, ?_⟩
          cases hw : Safety.nextWrite s k with
          | none => exact .inl rfl
          | some w => exact .inr ⟨(nextWrite_some hc hw).2.1, (nextWrite_some hc hw).2.2.1⟩ }

theorem State.execute_settled (s : State) (i : SlotId) : Settled s (s.execute i).1 := by
  unfold State.execute
  split
  · exact s.setSurface_freed_settled _
  · next id origin _ =>
    refine s.modifySurface_settled id (fun r => r.withOrigin origin) ?_
    by_cases h : (s.surface id).state = .free
    · exact .inl h
    · exact .inr ⟨h, extent_withOrigin _ _⟩
  · exact .refl s
  · exact s.executeSignal_settled i _ _
  · exact .of_same rfl rfl rfl rfl rfl rfl ⟨rfl, rfl⟩ rfl rfl rfl rfl rfl rfl
  · exact .of_same rfl rfl rfl rfl rfl rfl ⟨rfl, rfl⟩ rfl rfl rfl rfl rfl rfl
  · split <;> exact .refl s
  · exact .refl s

theorem State.executeAll_settled (s : State) (ready : List SlotId) : Settled s (s.executeAll ready).1 := by
  unfold State.executeAll
  suffices h : ∀ (l : List SlotId) (p : State × List Ending), Settled s p.1 →
      Settled s (l.foldl (fun (p : State × List Ending) i =>
        let r := p.1.execute i
        (r.1, p.2 ++ r.2)) p).1 from h _ _ s.choose_settled
  intro l
  induction l with
  | nil => exact fun _ h => h
  | cons i rest ih => exact fun p h => ih _ (h.trans (p.1.execute_settled i))

theorem State.settle_settled (n : Nat) (s : State) (es : List Ending) : Settled s (s.settle n es) := by
  induction n generalizing s es with
  | zero => cases es <;> exact .refl s
  | succ n ih =>
    cases es with
    | nil => exact .refl s
    | cons e es =>
      exact (((s.endTogether_settled (e :: es)).trans (State.retestOrdered_settled _)).trans
        ((State.markReady_settled _ _).trans (State.executeAll_settled _ _))).trans (ih _ _)

/-! ## Interrupts and the end of a stop -/

theorem State.interrupt_settled (s : State) (v : VectorId) : Settled s (s.interrupt v) := by
  unfold State.interrupt
  split <;>
  exact { pending := rfl, frame := rfl, palettes := rfl, engines := rfl, fetch := rfl, sequence := rfl, served := ⟨rfl, rfl⟩,
          control := rfl, configuration := ⟨rfl, rfl, rfl, rfl⟩, presentation := rfl, marks := fun _ => Nat.le_refl _,
          surfaces := (Settled.refl s).surfaces, cqs := (Settled.refl s).cqs }

theorem State.stopInterrupts_settled (s : State) : Settled s s.stopInterrupts :=
  s.choose_settled.trans (Settled.foldl State.interrupt_settled _ _)

theorem State.unconfigure_settled (s : State) : Settled s s.unconfigure where
  pending := rfl
  frame := rfl
  palettes := rfl
  engines := rfl
  fetch := rfl
  sequence := rfl
  served := ⟨rfl, rfl⟩
  control := rfl
  configuration := ⟨rfl, rfl, rfl, rfl⟩
  presentation := rfl
  marks := fun _ => Nat.le_refl _
  surfaces := (Settled.refl s).surfaces
  cqs := fun k => .inl (by simp [State.cq, State.unconfigure])

theorem State.enterState_settled (s : State) (d : DeviceState) :
    Settled s { s with control := { s.control with deviceState := d } } where
  pending := rfl
  frame := rfl
  palettes := rfl
  engines := rfl
  fetch := rfl
  sequence := rfl
  served := ⟨rfl, rfl⟩
  control := rfl
  configuration := ⟨rfl, rfl, rfl, rfl⟩
  presentation := rfl
  marks := fun _ => Nat.le_refl _
  surfaces := (Settled.refl s).surfaces
  cqs := (Settled.refl s).cqs

theorem State.finishStop_settled (s : State) : Settled s s.finishStop := by
  unfold State.finishStop
  split
  · exact ((s.stopInterrupts_settled.trans (State.unconfigure_settled _)).trans (State.enterState_settled _ _)).trans
      (State.interrupt_settled _ _)
  · exact .refl s

theorem State.conclude_settled (s : State) : Settled s s.conclude :=
  s.issueWrites_settled.trans (State.finishStop_settled _)

theorem State.endSlots_settled (s : State) (es : List Ending) : Settled s (s.endSlots es) := by
  unfold State.endSlots
  split
  · exact s.finishStop_settled
  · exact (s.settle_settled settleRounds es).trans (State.conclude_settled _)

/-- In RUNNING nothing ends a stop. -/
theorem State.finishStop_running {s : State} (h : s.control.deviceState = .running) : s.finishStop = s := by
  simp [State.finishStop, h]

/-- Endings of none change nothing while the device is not STOPPING. -/
theorem State.endSlots_nil_running {s : State} (h : s.control.deviceState = .running) : s.endSlots [] = s := by
  show State.finishStop s = s
  exact State.finishStop_running h

end Sys2Proof.Machine
end

