-- ==== Sys2Proof/Laws/Window.lean ====
section
/-! SUPPORT. What endings do to the window, the queues and the posting lists: the relation Goes, an ended slot answered (Answered), and
that what has ended stays as it is while the consequences settle. -/

namespace Sys2Proof.Machine

open Sys2Proof.Safety (Answered Posted nextWrite)

/-! ## Where queues, posting lists and the waiting list go -/

/-- What endings leave of a queue: what the setup record gave it, its head and its tail; HALTED stays, and OPEN
where the policy is not HALT. -/
structure QueueKept (c d : Queue) : Prop where
  base : d.base = c.base
  size : d.size = c.size
  service : d.service = c.service
  cq : d.cq = c.cq
  policy : d.policy = c.policy
  quota : d.quota = c.quota
  head : d.head = c.head
  tail : d.tail = c.tail
  halted : c.state = .halted → d.state = .halted
  opened : c.state = .opened → c.policy ≠ .halt → d.state = .opened

theorem QueueKept.refl (c : Queue) : QueueKept c c := ⟨rfl, rfl, rfl, rfl, rfl, rfl, rfl, rfl, id, fun h _ => h⟩

theorem QueueKept.trans {c d e : Queue} (h : QueueKept c d) (g : QueueKept d e) : QueueKept c e :=
  ⟨g.base.trans h.base, g.size.trans h.size, g.service.trans h.service, g.cq.trans h.cq, g.policy.trans h.policy,
   g.quota.trans h.quota, g.head.trans h.head, g.tail.trans h.tail, fun x => g.halted (h.halted x),
   fun x y => g.opened (h.opened x y) (h.policy ▸ y)⟩

/-- Queues keep their settings, posting lists only grow at their end, the waiting list only shrinks, device control and the link's
configuration stay, and no completion write is issued. -/
structure Goes (s t : State) : Prop where
  unused : ∀ q, s.queue q = none → t.queue q = none
  queues : ∀ q c, s.queue q = some c → ∃ d, t.queue q = some d ∧ QueueKept c d
  cqs : ∀ k c, s.cq k = some c → ∃ l, t.cq k = some { c with posting := c.posting ++ l }
  waiting : ∀ w ∈ t.waiting, w ∈ s.waiting
  control : t.control = s.control

namespace Goes

theorem of_same {s t : State} (queues : t.queues = s.queues) (cqs : t.cqs = s.cqs) (waiting : ∀ w ∈ t.waiting, w ∈ s.waiting)
    (control : t.control = s.control) : Goes s t where
  unused := fun q h => by simpa [State.queue, queues] using h
  queues := fun q c h => ⟨c, by simpa [State.queue, queues] using h, .refl c⟩
  cqs := fun k c h => ⟨[], by simpa [State.cq, cqs] using h⟩
  waiting := waiting
  control := control

theorem refl (s : State) : Goes s s := of_same rfl rfl (fun _ h => h) rfl

theorem trans {s t u : State} (h : Goes s t) (g : Goes t u) : Goes s u where
  unused := fun q x => g.unused q (h.unused q x)
  queues := fun q c x => by
    obtain ⟨d, hd, k⟩ := h.queues q c x
    obtain ⟨e, he, l⟩ := g.queues q d hd
    exact ⟨e, he, k.trans l⟩
  cqs := fun k c x => by
    obtain ⟨l, hl⟩ := h.cqs k c x
    obtain ⟨l', hl'⟩ := g.cqs k _ hl
    exact ⟨l ++ l', by simp [hl']⟩
  waiting := fun w x => h.waiting w (g.waiting w x)
  control := g.control.trans h.control

/-- A fold of steps that go. -/
theorem foldl {β : Type} {f : State → β → State} (hf : ∀ s x, Goes s (f s x)) (l : List β) (s : State) :
    Goes s (l.foldl f s) := by
  induction l generalizing s with
  | nil => exact refl s
  | cons x rest ih => exact (hf s x).trans (ih (f s x))

end Goes

theorem State.setQueue_goes {s : State} {q : QueueId} {c d : Queue} (h : s.queue q = some c) (k : QueueKept c d) :
    Goes s (s.setQueue q (some d)) where
  unused := fun p hp => by
    rw [State.queue_setQueue]
    split
    · next e => subst e; rw [h] at hp; cases hp
    · exact hp
  queues := fun p b hb => by
    rw [State.queue_setQueue]
    split
    · next e => subst e; rw [h] at hb; cases hb; exact ⟨d, rfl, k⟩
    · exact ⟨b, hb, .refl b⟩
  cqs := (Goes.refl s).cqs
  waiting := fun _ h => h
  control := rfl

theorem State.modifyQueue_goes (s : State) (q : QueueId) (f : Queue → Queue) (hf : ∀ c, QueueKept c (f c)) :
    Goes s (s.modifyQueue q f) where
  unused := fun p hp => by
    rw [State.queue_modifyQueue]
    split
    · next e => subst e; simp [hp]
    · exact hp
  queues := fun p b hb => by
    rw [State.queue_modifyQueue]
    split
    · next e => subst e; exact ⟨f b, by simp [hb], hf b⟩
    · exact ⟨b, hb, .refl b⟩
  cqs := (Goes.refl s).cqs
  waiting := fun _ h => h
  control := rfl

theorem State.post_goes (s : State) (i : SlotId) (q : QueueId) : Goes s (s.post i q) := by
  unfold State.post
  split
  · exact .refl s
  · exact
      { unused := (Goes.refl s).unused, queues := (Goes.refl s).queues, waiting := fun _ h => h, control := rfl
        cqs := fun k b hb => by
          rw [State.cq_modifyCq]
          split
          · next e => subst e; exact ⟨[i], by simp [hb]⟩
          · exact ⟨[], by simp [hb]⟩ }

theorem State.setSlot_goes (s : State) (i : SlotId) (sl : Slot) : Goes s (s.setSlot i sl) :=
  .of_same rfl rfl (fun _ h => h) rfl

theorem State.endDraining_goes (s : State) (q : QueueId) : Goes s (s.endDraining q) := by
  unfold State.endDraining
  split
  · exact .refl s
  · next c hc =>
    split
    · next hd =>
      refine State.setQueue_goes hc ⟨rfl, rfl, rfl, rfl, rfl, rfl, rfl, rfl, fun h => ?_, fun _ _ => rfl⟩
      simp [State.drained, h] at hd
    · exact .refl s

theorem State.placeAck_goes {s : State} {q : QueueId} {c : Queue} (hc : s.queue q = some c) (n : Nat) (i : SlotId) :
    Goes s (s.placeAck q c n i) := by
  unfold State.placeAck
  dsimp only
  have h1 := (s.setSlot_goes i (acknowledgementSlot q n)).trans
    (State.setQueue_goes (s := s.setSlot i (acknowledgementSlot q n)) (d := { c with occupied := c.occupied + 1, abort := .placed i }) hc ⟨rfl, rfl, rfl, rfl, rfl, rfl, rfl, rfl, id, fun h _ => h⟩)
  refine h1.trans (.trans (t := { (s.setSlot i (acknowledgementSlot q n)).setQueue q
    (some { c with occupied := c.occupied + 1, abort := .placed i }) with ackOrder := s.ackOrder.filter (· ≠ q) })
    (.of_same rfl rfl (fun _ h => h) rfl) ((State.post_goes _ i q).trans (State.endDraining_goes _ q)))

theorem State.serveWaiting_goes (s : State) (i : SlotId) : Goes s (s.serveWaiting i) := by
  unfold State.serveWaiting
  split
  · exact .refl s
  · split
    · exact .refl s
    · next hc =>
      split
      · exact State.placeAck_goes hc _ i
      · exact .refl s

theorem State.claimFreed_goes (s : State) (q : QueueId) (i : SlotId) : Goes s (s.claimFreed q i) := by
  unfold State.claimFreed
  split
  · exact .refl s
  · split
    · exact .refl s
    · next c hc =>
      split
      · exact State.placeAck_goes hc _ i
      · exact (s.endDraining_goes q).trans (State.serveWaiting_goes _ i)

theorem State.freeSlot_goes (s : State) (i : SlotId) : Goes s (s.freeSlot i) := by
  unfold State.freeSlot
  split
  · exact .refl s
  · next q _ =>
    refine .trans (t := { s.setSlot i Slot.freed with order := s.order.filter (· ≠ i) })
      (.of_same rfl rfl (fun _ h => h) rfl) ?_
    exact (State.modifyQueue_goes _ q (fun (c : Queue) => { c with occupied := c.occupied - 1 }) fun c =>
      ⟨rfl, rfl, rfl, rfl, rfl, rfl, rfl, rfl, id, fun h _ => h⟩).trans (State.claimFreed_goes _ q i)

theorem State.releaseClaim_goes (s : State) (sl : Slot) (st : Status) : Goes s (s.releaseClaim sl st) := by
  unfold State.releaseClaim State.dropPresent State.returnRetiring State.modifySurface
  repeat' split
  all_goals exact .of_same rfl rfl (fun _ h => h) rfl

theorem Queue.afterEnding_kept (c : Queue) (b : Bool) (st : Status) : QueueKept c (c.afterEnding b st) := by
  unfold Queue.afterEnding
  repeat' split
  · next h => exact ⟨rfl, rfl, rfl, rfl, rfl, rfl, rfl, rfl, fun _ => rfl, fun _ p => by simp [p] at h⟩
  · next h => exact ⟨rfl, rfl, rfl, rfl, rfl, rfl, rfl, rfl, fun e => by simp [e] at h, fun _ _ => rfl⟩
  · exact .refl c

theorem State.endSlot_goes (s : State) (e : Ending) : Goes s (s.endSlot e) := by
  unfold State.endSlot
  dsimp only
  split
  · exact .refl s
  · next q _ =>
    have h1 := (s.releaseClaim_goes (s.slot e.slot) e.status).trans
      (State.setSlot_goes _ e.slot ((s.slot e.slot).endedWith e.status e.detail))
    generalize (s.releaseClaim (s.slot e.slot) e.status).setSlot e.slot ((s.slot e.slot).endedWith e.status e.detail) = s1 at *
    have h2 : Goes s1 { s1 with
        waiting := s1.waiting.filter (fun w => w.slot ≠ e.slot)
        presentation := { s1.presentation with
          held := if s1.presentation.held = some e.slot then none else s1.presentation.held } } :=
      .of_same rfl rfl (fun w h => (List.mem_filter.1 h).1) rfl
    have h3 := (h1.trans h2).trans (State.modifyQueue_goes _ q _ fun c => c.afterEnding_kept (s.slot e.slot).isWaiting e.status)
    split
    · exact h3.trans (State.freeSlot_goes _ _)
    · exact h3.trans (State.post_goes _ _ _)

theorem State.removeDependencies_goes (s : State) (gone : List SlotId) : Goes s (s.removeDependencies gone) := by
  unfold State.removeDependencies
  exact .of_same rfl rfl (fun _ h => h) rfl

theorem State.retestOrdered_goes (s : State) : Goes s s.retestOrdered := by
  unfold State.retestOrdered
  exact .of_same rfl rfl (fun _ h => h) rfl

theorem State.markReady_goes (s : State) (l : List SlotId) : Goes s (s.markReady l) := by
  unfold State.markReady
  exact .of_same rfl rfl (fun _ h => h) rfl

theorem State.choose_goes (s : State) : Goes s s.choose := .of_same rfl rfl (fun _ h => h) rfl

theorem State.endTogether_goes (s : State) (es : List Ending) : Goes s (s.endTogether es) :=
  (s.choose_goes.trans (Goes.foldl State.endSlot_goes _ _)).trans (State.removeDependencies_goes _ _)

theorem State.execute_goes (s : State) (i : SlotId) : Goes s (s.execute i).1 := by
  unfold State.execute State.executeSignal
  repeat' split
  all_goals first
    | exact .of_same rfl rfl (fun _ h => h) rfl
    | exact .of_same rfl rfl (fun w h => (List.mem_filter.1 h).1) rfl

theorem State.executeAll_goes (s : State) (ready : List SlotId) : Goes s (s.executeAll ready).1 := by
  unfold State.executeAll
  suffices h : ∀ (l : List SlotId) (p : State × List Ending), Goes s p.1 →
      Goes s (l.foldl (fun (p : State × List Ending) i =>
        let r := p.1.execute i
        (r.1, p.2 ++ r.2)) p).1 from h _ _ s.choose_goes
  intro l
  induction l with
  | nil => exact fun _ h => h
  | cons i rest ih => exact fun p h => ih _ (h.trans (p.1.execute_goes i))

theorem State.settle_goes (n : Nat) (s : State) (es : List Ending) : Goes s (s.settle n es) := by
  induction n generalizing s es with
  | zero => cases es <;> exact .refl s
  | succ n ih =>
    cases es with
    | nil => exact .refl s
    | cons e es =>
      exact (((s.endTogether_goes (e :: es)).trans (State.retestOrdered_goes _)).trans
        ((State.markReady_goes _ _).trans (State.executeAll_goes _ _))).trans (ih _ _)

/-! ## The slots -/

@[simp] theorem State.post_slot (s : State) (i j : SlotId) (q : QueueId) : (s.post i q).slot j = s.slot j := by
  unfold State.post
  split <;> rfl

@[simp] theorem State.endDraining_slot (s : State) (q : QueueId) (j : SlotId) : (s.endDraining q).slot j = s.slot j := by
  unfold State.endDraining
  repeat' split
  all_goals rfl

theorem State.placeAck_slot (s : State) (q : QueueId) (c : Queue) (n : Nat) (i j : SlotId) :
    (s.placeAck q c n i).slot j = if i = j then acknowledgementSlot q n else s.slot j := by
  unfold State.placeAck
  dsimp only
  rw [State.endDraining_slot, State.post_slot]
  exact State.slot_setSlot s i j _

/-- A slot that is served to a waiting acknowledgement holds it or stays as it is; the others stay. -/
theorem State.serveWaiting_slot (s : State) (i : SlotId) : (∀ j, i ≠ j → (s.serveWaiting i).slot j = s.slot j) ∧
    ((s.serveWaiting i).slot i = s.slot i ∨ ∃ p n, (s.serveWaiting i).slot i = acknowledgementSlot p n) := by
  unfold State.serveWaiting
  repeat' split
  all_goals first
    | exact ⟨fun _ _ => rfl, .inl rfl⟩
    | exact ⟨fun j h => by simp [State.placeAck_slot, h], .inr ⟨_, _, by rw [State.placeAck_slot, if_pos rfl]⟩⟩

theorem State.claimFreed_slot_ne {s : State} {q : QueueId} {i j : SlotId} (h : i ≠ j) :
    (s.claimFreed q i).slot j = s.slot j := by
  unfold State.claimFreed
  repeat' split
  · rfl
  · rfl
  · simp [State.placeAck_slot, h]
  · rw [(State.serveWaiting_slot _ i).1 j h, State.endDraining_slot]

theorem State.freeSlot_slot_ne {s : State} {i j : SlotId} (h : i ≠ j) : (s.freeSlot i).slot j = s.slot j := by
  unfold State.freeSlot
  split
  · rfl
  · dsimp only
    rw [State.claimFreed_slot_ne h]
    show (s.setSlot i Slot.freed).slot j = s.slot j
    simp [State.slot_setSlot, h]

/-- A freed slot is FREE or holds an acknowledgement that was owed (R58, R80). -/
theorem State.freeSlot_slot {s : State} {i : SlotId} {q : QueueId} (h : (s.slot i).queue = some q) :
    (s.freeSlot i).slot i = Slot.freed ∨ ∃ p n, (s.freeSlot i).slot i = acknowledgementSlot p n := by
  unfold State.freeSlot
  simp only [h]
  have hf : ∀ l f, ((({ s.setSlot i Slot.freed with order := l } : State).modifyQueue q f).slot i) = Slot.freed := fun l f =>
    State.slot_setSlot_self s i Slot.freed
  unfold State.claimFreed
  repeat' split
  · left; exact hf _ _
  · left; exact hf _ _
  · next n _ => right; exact ⟨q, n, by rw [State.placeAck_slot, if_pos rfl]⟩
  · rcases (State.serveWaiting_slot (State.endDraining _ q) i).2 with hs | hs
    · left; rw [hs, State.endDraining_slot]; exact hf _ _
    · right; exact hs

@[simp] theorem State.releaseClaim_slot (s : State) (sl : Slot) (st : Status) (j : SlotId) :
    (s.releaseClaim sl st).slot j = s.slot j := by
  unfold State.releaseClaim State.dropPresent State.returnRetiring
  repeat' split
  all_goals rfl

theorem State.endSlot_slot_ne {s : State} {e : Ending} {j : SlotId} (h : e.slot ≠ j) : (s.endSlot e).slot j = s.slot j := by
  unfold State.endSlot
  dsimp only
  split
  · rfl
  · split
    · rw [State.freeSlot_slot_ne h]
      show ((s.releaseClaim _ _).setSlot e.slot _).slot j = s.slot j
      simp [State.slot_setSlot, h]
    · rw [State.post_slot]
      show ((s.releaseClaim _ _).setSlot e.slot _).slot j = s.slot j
      simp [State.slot_setSlot, h]

/-- The ended slot is answered (R79). -/
theorem State.endSlot_answered {s : State} {e : Ending} {q : QueueId} (h : (s.slot e.slot).queue = some q) :
    Answered (s.endSlot e) e.slot (s.slot e.slot) e.status e.detail := by
  unfold State.endSlot Answered
  simp only [h]
  have hq : ∀ (u : State), (((u.releaseClaim (s.slot e.slot) e.status).setSlot e.slot
      ((s.slot e.slot).endedWith e.status e.detail)).slot e.slot) = (s.slot e.slot).endedWith e.status e.detail := by
    intro u; simp
  by_cases hc : e.status = .ok ∧ (s.slot e.slot).flags.getLsbD 0 = true
  · rw [if_pos (by exact hc), if_pos (by exact hc)]
    refine State.freeSlot_slot (q := q) ?_
    show (((s.releaseClaim _ _).setSlot e.slot _).slot e.slot).queue = some q
    rw [hq]
    exact h
  · rw [if_neg (by exact hc), if_neg (by exact hc), State.post_slot]
    show ((s.releaseClaim _ _).setSlot e.slot _).slot e.slot = _
    exact hq _

/-- The waiting list after an ending holds no entry of the slot. -/
theorem State.endSlot_waiting {s : State} {e : Ending} {q : QueueId} (h : (s.slot e.slot).queue = some q) :
    (s.endSlot e).waiting = s.waiting.filter fun w => w.slot ≠ e.slot := by
  unfold State.endSlot
  simp only [h]
  have hw : ∀ u : State, ∀ st, (u.releaseClaim (s.slot e.slot) st).waiting = u.waiting := by
    intro u st
    unfold State.releaseClaim State.dropPresent State.returnRetiring
    repeat' split
    all_goals rfl
  have hp : ∀ (u : State) i p, (u.post i p).waiting = u.waiting := by
    intro u i p; unfold State.post; split <;> rfl
  have hd : ∀ (u : State) p, (u.endDraining p).waiting = u.waiting := by
    intro u p; unfold State.endDraining; repeat' split
    all_goals rfl
  have hl : ∀ (u : State) p c n i, (u.placeAck p c n i).waiting = u.waiting := by
    intro u p c n i; unfold State.placeAck; dsimp only; rw [hd, hp]; rfl
  have hv : ∀ (u : State) i, (u.serveWaiting i).waiting = u.waiting := by
    intro u i; unfold State.serveWaiting; repeat' split
    all_goals first | rfl | exact hl _ _ _ _ _
  have hc : ∀ (u : State) p i, (u.claimFreed p i).waiting = u.waiting := by
    intro u p i; unfold State.claimFreed; repeat' split
    all_goals first | rfl | exact hl _ _ _ _ _ | exact (hv _ _).trans (hd _ _)
  have hf : ∀ (u : State) i, (u.freeSlot i).waiting = u.waiting := by
    intro u i
    unfold State.freeSlot
    split
    · rfl
    · exact hc _ _ _
  split
  · rw [hf]; simp only [State.modifyQueue_waiting, State.setSlot_waiting, hw]
  · rw [hp]; simp only [State.modifyQueue_waiting, State.setSlot_waiting, hw]

/-- An ended slot that is not freed has joined the posting list of its queue's completion queue (R79). -/
theorem State.endSlot_posted {s : State} {e : Ending} {q : QueueId} {c : Queue} {k : CompletionQueue}
    (h : (s.slot e.slot).queue = some q) (hq : s.queue q = some c) (hk : s.cq c.cq = some k)
    (ho : ¬(e.status = .ok ∧ (s.slot e.slot).flags.getLsbD 0 = true)) :
    (s.endSlot e).cq c.cq = some { k with posting := k.posting ++ [e.slot] } := by
  unfold State.endSlot
  simp only [h]
  rw [if_neg (by exact ho)]
  have h1 : ∀ st, (s.releaseClaim (s.slot e.slot) st).queue q = some c ∧ (s.releaseClaim (s.slot e.slot) st).cq c.cq = some k := by
    intro st
    unfold State.releaseClaim State.dropPresent State.returnRetiring
    repeat' split
    all_goals exact ⟨hq, hk⟩
  unfold State.post
  rw [State.queue_modifyQueue, if_pos rfl]
  split
  · next hn => rw [Option.map_eq_none_iff] at hn; exact absurd hn (by show (s.releaseClaim _ _).queue q ≠ none; simp [h1])
  · next d hd =>
    rw [Option.map_eq_some_iff] at hd
    obtain ⟨c', hc', rfl⟩ := hd
    have : c' = c := by
      have := (h1 e.status).1
      rw [show (s.releaseClaim (s.slot e.slot) e.status).queue q = some c' from hc'] at this
      exact Option.some.inj this
    subst this
    rw [(Queue.afterEnding_kept _ _ _).cq, State.cq_modifyCq, if_pos rfl]
    show ((s.releaseClaim _ _).cq c'.cq).map _ = _
    rw [(h1 e.status).2]
    rfl

/-! ## What has ended stays -/

/-- The slot has ended, or is FREE, and no entry of the waiting list names it. -/
structure Closed (s : State) (i : SlotId) : Prop where
  state : (s.slot i).state = .ended ∨ (s.slot i).state = .free
  deps : (s.slot i).deps = []
  orderedPending : (s.slot i).orderedPending = false
  waiting : ∀ w ∈ s.waiting, w.slot ≠ i

theorem Closed.of_same {s t : State} {i : SlotId} (h : Closed s i) (slot : t.slot i = s.slot i)
    (waiting : ∀ w ∈ t.waiting, w ∈ s.waiting) : Closed t i :=
  ⟨slot ▸ h.state, slot ▸ h.deps, slot ▸ h.orderedPending, fun w hw => h.waiting w (waiting w hw)⟩

/-- A slot that has been answered is closed when no entry of the waiting list names it. -/
theorem Closed.of_answered {t : State} {i : SlotId} {sl : Slot} {st : Status} {d : BitVec 32} (h : Answered t i sl st d)
    (waiting : ∀ w ∈ t.waiting, w.slot ≠ i) : Closed t i := by
  unfold Answered at h
  split at h
  · rcases h with h | ⟨q, n, h⟩ <;>
    exact ⟨by simp [h, Slot.freed], by simp [h, Slot.freed], by simp [h, Slot.freed], waiting⟩
  · exact ⟨by simp [h, Safety.slotEnded], by simp [h, Safety.slotEnded], by simp [h, Safety.slotEnded], waiting⟩

theorem State.foldl_endSlot_slot {s : State} {es : List Ending} {i : SlotId} (h : ∀ e ∈ es, e.slot ≠ i) :
    (es.foldl State.endSlot s).slot i = s.slot i := by
  induction es generalizing s with
  | nil => rfl
  | cons e rest ih =>
    rw [List.foldl_cons, ih fun e he => h e (List.mem_cons_of_mem _ he)]
    exact State.endSlot_slot_ne (h e List.mem_cons_self)

theorem State.removeDependencies_slot (s : State) (gone : List SlotId) (i : SlotId) :
    (s.removeDependencies gone).slot i = { s.slot i with deps := (s.slot i).deps.filter fun d => !gone.contains d } := by
  simp [State.removeDependencies, State.slot]

theorem State.retestOrdered_slot (s : State) (i : SlotId) :
    s.retestOrdered.slot i = { s.slot i with orderedPending := (s.slot i).orderedPending && s.earlierUnended i } := by
  simp [State.retestOrdered, State.slot]

theorem State.markReady_slot (s : State) (l : List SlotId) (i : SlotId) :
    (s.markReady l).slot i = if l.contains i then { s.slot i with state := .ready } else s.slot i := by
  simp [State.markReady, State.slot]

theorem Closed.removeDependencies {s : State} {i : SlotId} (h : Closed s i) (gone : List SlotId) :
    (s.removeDependencies gone).slot i = s.slot i := by
  rw [State.removeDependencies_slot, h.deps, List.filter_nil, ← h.deps]

theorem Closed.retestOrdered {s : State} {i : SlotId} (h : Closed s i) : s.retestOrdered.slot i = s.slot i := by
  rw [State.retestOrdered_slot, h.orderedPending, Bool.false_and, ← h.orderedPending]

theorem Closed.not_releasable {s : State} {i : SlotId} (h : Closed s i) : i ∉ s.releasableSlots := by
  unfold State.releasableSlots
  split
  · rw [List.mem_filter]
    rintro ⟨_, hr⟩
    rcases h.state with hs | hs <;> simp [Slot.releasable, hs] at hr
  · exact List.not_mem_nil

/-- What executing a READY slot can change of another slot: nothing. -/
theorem State.execute_slot_ne {s : State} {i j : SlotId} (h : i ≠ j) : (s.execute i).1.slot j = s.slot j := by
  unfold State.execute State.executeSignal
  repeat' split
  all_goals first | rfl | skip
  all_goals
    show (State.setSlot _ i _).slot j = s.slot j
    rw [State.slot_setSlot, if_neg h]
    rfl

/-- The endings that executing a READY slot brings are its own and those of entries of the waiting list. -/
theorem State.execute_endings {s : State} {i : SlotId} {e : Ending} (h : e ∈ (s.execute i).2) :
    e.slot = i ∨ ∃ w ∈ s.waiting, w.slot = e.slot := by
  unfold State.execute at h
  split at h
  · simp only [List.mem_singleton] at h; subst h; exact .inl rfl
  · simp only [List.mem_singleton] at h; subst h; exact .inl rfl
  · simp only [List.mem_singleton] at h; subst h; exact .inl rfl
  · unfold State.executeSignal at h
    split at h
    · simp only [List.mem_singleton] at h; subst h; exact .inl rfl
    · simp only [List.mem_cons, List.mem_map, List.mem_filter] at h
      rcases h with rfl | ⟨w, ⟨hw, _⟩, rfl⟩
      · exact .inl rfl
      · exact .inr ⟨w, hw, rfl⟩
  · simp at h
  · simp at h
  · split at h
    · simp only [List.mem_singleton] at h; subst h; exact .inl rfl
    · simp at h
  · simp at h

theorem State.executeAll_closed {s : State} {ready : List SlotId} {i : SlotId} (h : Closed s i) (hr : i ∉ ready) :
    (s.executeAll ready).1.slot i = s.slot i ∧ ∀ e ∈ (s.executeAll ready).2, e.slot ≠ i := by
  unfold State.executeAll
  have hr' : i ∉ s.together ready := fun hm => hr ((s.together_perm ready).mem_iff.1 hm)
  revert hr'
  generalize s.together ready = l
  have key : ∀ (l : List SlotId) (p : State × List Ending), Closed p.1 i → p.1.slot i = s.slot i → (∀ e ∈ p.2, e.slot ≠ i) → i ∉ l →
      (l.foldl (fun (p : State × List Ending) i =>
        let r := p.1.execute i
        (r.1, p.2 ++ r.2)) p).1.slot i = s.slot i ∧
      ∀ e ∈ (l.foldl (fun (p : State × List Ending) i =>
        let r := p.1.execute i
        (r.1, p.2 ++ r.2)) p).2, e.slot ≠ i := by
    intro l
    induction l with
    | nil => exact fun p _ h1 h2 _ => ⟨h1, h2⟩
    | cons x rest ih =>
      intro p hp h1 h2 hm
      have hx : x ≠ i := fun e => hm (e ▸ List.mem_cons_self)
      have hs := State.execute_slot_ne (s := p.1) hx
      refine ih _ (hp.of_same hs (p.1.execute_goes x).waiting) (hs.trans h1) ?_ fun e => hm (List.mem_cons_of_mem _ e)
      intro e he
      rcases List.mem_append.1 he with he | he
      · exact h2 e he
      · rcases State.execute_endings he with h | ⟨w, hw, h⟩
        · exact fun e => hx (h ▸ e)
        · exact h ▸ hp.waiting w hw
  exact fun hl => key l (s.choose, []) (h.of_same rfl fun _ h => h) rfl (by simp) hl

/-- A closed slot stays as it is while endings of other slots settle. -/
theorem State.settle_closed {n : Nat} {s : State} {es : List Ending} {i : SlotId} (h : Closed s i) (he : ∀ e ∈ es, e.slot ≠ i) :
    (s.settle n es).slot i = s.slot i := by
  induction n generalizing s es with
  | zero => cases es <;> rfl
  | succ n ih =>
    cases es with
    | nil => rfl
    | cons e es =>
      have hp : ∀ x ∈ s.together (e :: es), x.slot ≠ i := fun x hx => he x ((s.together_perm _).mem_iff.1 hx)
      have h1 : ((s.together (e :: es)).foldl State.endSlot s.choose).slot i = s.slot i := State.foldl_endSlot_slot hp
      have c1 := h.of_same h1 (s.choose_goes.trans (Goes.foldl State.endSlot_goes _ _)).waiting
      have h2 := (c1.removeDependencies ((e :: es).map Ending.slot)).trans h1
      have c2 : Closed (s.endTogether (e :: es)) i := h.of_same h2 (s.endTogether_goes _).waiting
      have h3 := c2.retestOrdered.trans h2
      have c3 := h.of_same h3 ((s.endTogether_goes _).trans (State.retestOrdered_goes _)).waiting
      have hn := c3.not_releasable
      have h4 : ((s.endTogether (e :: es)).retestOrdered.markReady (s.endTogether (e :: es)).retestOrdered.releasableSlots).slot i =
          s.slot i := by
        rw [State.markReady_slot, if_neg (by simpa using hn), h3]
      have c4 := c3.of_same (h4.trans h3.symm) (State.markReady_goes _ _).waiting
      obtain ⟨h5, h6⟩ := State.executeAll_closed c4 hn
      exact (ih (c4.of_same h5 (State.executeAll_goes _ _).waiting) h6).trans (h5.trans h4)

theorem Answered.of_slot {s t : State} {i : SlotId} {sl : Slot} {st : Status} {d : BitVec 32} (h : Answered s i sl st d)
    (e : t.slot i = s.slot i) : Answered t i sl st d := by
  unfold Answered at h ⊢
  rw [e]
  exact h

/-- A slot of a list of endings without repeats is answered by the fold, and closed. -/
theorem State.foldl_endSlot_answered {s : State} {es : List Ending} {e : Ending} {q : QueueId}
    (nodup : (es.map Ending.slot).Nodup) (mem : e ∈ es) (h : (s.slot e.slot).queue = some q) :
    Answered (es.foldl State.endSlot s) e.slot (s.slot e.slot) e.status e.detail ∧ Closed (es.foldl State.endSlot s) e.slot := by
  induction es generalizing s with
  | nil => simp at mem
  | cons x rest ih =>
    rw [List.map_cons, List.nodup_cons] at nodup
    rw [List.foldl_cons]
    rcases List.mem_cons.1 mem with rfl | hm
    · have ha := State.endSlot_answered h
      have hc := Closed.of_answered ha (by rw [State.endSlot_waiting h]; intro w hw; simpa using (List.mem_filter.1 hw).2)
      have hr : ∀ y ∈ rest, y.slot ≠ e.slot := fun y hy he => nodup.1 (he ▸ List.mem_map_of_mem hy)
      have hs := State.foldl_endSlot_slot (s := s.endSlot e) hr
      exact ⟨Answered.of_slot ha hs, hc.of_same hs (Goes.foldl State.endSlot_goes rest _).waiting⟩
    · have hx : x.slot ≠ e.slot := fun he => nodup.1 (he ▸ List.mem_map_of_mem hm)
      have hs := State.endSlot_slot_ne (s := s) hx
      have := ih (s := s.endSlot x) nodup.2 hm (by rw [hs]; exact h)
      rw [hs] at this
      exact this

/-- Slot i has joined the posting list of the completion queue bound to submission queue q, behind every member that was there, and nothing
else of that completion queue has changed (R79, R140). -/
def Joined (s t : State) (q : QueueId) (i : SlotId) : Prop :=
  ∀ c k, s.queue q = some c → s.cq c.cq = some k → ∃ l, t.cq c.cq = some { k with posting := k.posting ++ l } ∧ i ∈ l

/-- A slot that has joined its list is posted once the writes that are due are issued (R141). -/
theorem Posted.of_joined {s u : State} {q : QueueId} {i : SlotId} (h : Joined s u q i) (control : u.control = s.control) :
    Posted s u.issueWrites q i := by
  intro c k hc hk
  obtain ⟨l, hl, hm⟩ := h c k hc hk
  have hq := u.issueWrites_cq c.cq
  rw [hl] at hq
  refine ⟨l, _, hq, hm, fun hs => ?_, fun hn => ⟨?_, fun x hx => ?_⟩⟩
  · cases hw : nextWrite u c.cq with
    | none => rfl
    | some w => rw [(nextWrite_some hl hw).2.1] at hs; cases hs
  · have hne : k.posting ++ l ≠ [] := fun he => by rw [List.append_eq_nil_iff] at he; simp [he.2] at hm
    have hd : nextWrite u c.cq = if (s.control.deviceState = .running ∨ s.control.deviceState = .stopping) ∧
        k.outstanding + 1 < k.size then (k.posting ++ l).head?.map fun j =>
          { slot := j, address := k.base.toNat + k.tail * 16, entry := u.completionEntry { k with posting := k.posting ++ l } j,
            sent := u.link.busMastering, choice := u.choices + 1 } else none := by
      unfold nextWrite
      rw [hl, control]
      simp only [hn, true_and]
    obtain ⟨j, hj⟩ := Option.isSome_iff_exists.1 (by rw [List.isSome_head?]; simpa using hne : (k.posting ++ l).head?.isSome = true)
    by_cases ht : (s.control.deviceState = .running ∨ s.control.deviceState = .stopping) ∧ k.outstanding + 1 < k.size
    · rw [hd, if_pos ht, hj]; simp [ht]
    · rw [hd, if_neg ht]; simp [hn, ht]
  · cases hw : nextWrite u c.cq with
    | none => rw [hw] at hx; rw [show k.inFlight = some x from hx] at hn; cases hn
    | some w =>
      rw [hw] at hx
      cases hx
      obtain ⟨_, _, _, h4, h5, h6, _⟩ := nextWrite_some hl hw
      exact ⟨h4, h5, by rw [h6]; rfl⟩

/-- A slot of a list of endings that is not freed has joined its posting list. -/
theorem State.foldl_endSlot_posted {s : State} {es : List Ending} {e : Ending} {q : QueueId}
    (nodup : (es.map Ending.slot).Nodup) (mem : e ∈ es) (h : (s.slot e.slot).queue = some q)
    (ho : ¬(e.status = .ok ∧ (s.slot e.slot).flags.getLsbD 0 = true)) :
    Joined s (es.foldl State.endSlot s) q e.slot := by
  intro c k hc hk
  induction es generalizing s c k with
  | nil => simp at mem
  | cons x rest ih =>
    rw [List.map_cons, List.nodup_cons] at nodup
    rw [List.foldl_cons]
    rcases List.mem_cons.1 mem with rfl | hm
    · have hp := State.endSlot_posted h hc hk ho
      obtain ⟨l, hl⟩ := (Goes.foldl State.endSlot_goes rest (s.endSlot e)).cqs _ _ hp
      exact ⟨e.slot :: l, by simp [hl], List.mem_cons_self⟩
    · have hx : x.slot ≠ e.slot := fun he => nodup.1 (he ▸ List.mem_map_of_mem hm)
      have hs := State.endSlot_slot_ne (s := s) hx
      obtain ⟨d, hd, kept⟩ := (s.endSlot_goes x).queues q c hc
      obtain ⟨l, hl⟩ := (s.endSlot_goes x).cqs _ _ hk
      obtain ⟨l', hl', hm'⟩ := ih (s := s.endSlot x) nodup.2 hm (by rw [hs]; exact h) (by rw [hs]; exact ho) d _ hd
        (by rw [kept.cq]; exact hl)
      rw [kept.cq] at hl'
      exact ⟨l ++ l', by simp [hl'], List.mem_append_right _ hm'⟩

theorem State.settle_answered {n : Nat} {s : State} {es : List Ending} {e : Ending} {q : QueueId}
    (nodup : (es.map Ending.slot).Nodup) (mem : e ∈ es) (h : (s.slot e.slot).queue = some q) :
    Answered (s.settle (n + 1) es) e.slot (s.slot e.slot) e.status e.detail ∧
      (∀ w ∈ (s.settle (n + 1) es).waiting, w.slot ≠ e.slot) ∧
      (¬(e.status = .ok ∧ (s.slot e.slot).flags.getLsbD 0 = true) → Joined s (s.settle (n + 1) es) q e.slot) := by
  cases es with
  | nil => simp at mem
  | cons x rest =>
    have hp := s.together_perm (x :: rest)
    have nd : ((s.together (x :: rest)).map Ending.slot).Nodup := ((hp.map Ending.slot).nodup_iff).2 nodup
    obtain ⟨ha, hc⟩ := State.foldl_endSlot_answered (s := s.choose) nd (hp.mem_iff.2 mem) h
    have hpost := fun ho => State.foldl_endSlot_posted (s := s.choose) nd (hp.mem_iff.2 mem) h ho
    simp only [State.choose_slot] at ha hpost
    generalize hu : (s.together (x :: rest)).foldl State.endSlot s.choose = u at ha hc hpost
    have e1 : s.settle (n + 1) (x :: rest) = State.settle n
        (((u.removeDependencies ((x :: rest).map Ending.slot)).retestOrdered.markReady
          (u.removeDependencies ((x :: rest).map Ending.slot)).retestOrdered.releasableSlots).executeAll
          (u.removeDependencies ((x :: rest).map Ending.slot)).retestOrdered.releasableSlots).1
        (((u.removeDependencies ((x :: rest).map Ending.slot)).retestOrdered.markReady
          (u.removeDependencies ((x :: rest).map Ending.slot)).retestOrdered.releasableSlots).executeAll
          (u.removeDependencies ((x :: rest).map Ending.slot)).retestOrdered.releasableSlots).2 := by
      rw [← hu]; rfl
    rw [e1]
    have g1 := u.removeDependencies_goes ((x :: rest).map Ending.slot)
    have h2 := hc.removeDependencies ((x :: rest).map Ending.slot)
    have c2 := hc.of_same h2 g1.waiting
    generalize u.removeDependencies ((x :: rest).map Ending.slot) = v at *
    have g2 := v.retestOrdered_goes
    have h3 := c2.retestOrdered
    have c3 := c2.of_same h3 g2.waiting
    generalize v.retestOrdered = v' at *
    have hn := c3.not_releasable
    have h4 : (v'.markReady v'.releasableSlots).slot e.slot = v'.slot e.slot := by
      rw [State.markReady_slot, if_neg (by simpa using hn)]
    have c4 := c3.of_same h4 (State.markReady_goes _ _).waiting
    obtain ⟨h5, h6⟩ := State.executeAll_closed c4 hn
    have g5 := ((State.markReady_goes v' v'.releasableSlots).trans (State.executeAll_goes _ v'.releasableSlots))
    have c5 := c4.of_same h5 (State.executeAll_goes _ _).waiting
    have h7 := State.settle_closed (n := n) c5 h6
    have g := ((g1.trans g2).trans g5).trans (State.settle_goes n _
      ((v'.markReady v'.releasableSlots).executeAll v'.releasableSlots).2)
    have hslot := ((((h7.trans h5).trans h4).trans h3).trans h2)
    refine ⟨Answered.of_slot ha hslot, fun w hw => hc.waiting w (g.waiting w hw), fun ho c k hq hk => ?_⟩
    obtain ⟨l, hl, hm⟩ := hpost ho c k hq hk
    obtain ⟨l', hl'⟩ := g.cqs _ _ hl
    exact ⟨l ++ l', by simp [hl'], List.mem_append_left _ hm⟩

/-! ## The end of a stop -/

theorem State.interrupt_slots (s : State) (v : VectorId) : (s.interrupt v).slots = s.slots := by
  unfold State.interrupt
  split <;> rfl

theorem State.foldl_interrupt_slots (l : List VectorId) (s : State) : (l.foldl State.interrupt s).slots = s.slots := by
  induction l generalizing s with
  | nil => rfl
  | cons v rest ih => rw [List.foldl_cons, ih, State.interrupt_slots]

@[simp] theorem State.finishStop_slot (s : State) (i : SlotId) : s.finishStop.slot i = s.slot i := by
  unfold State.finishStop
  split
  · have h : ∀ u : State, ∀ l : List VectorId, (l.foldl State.interrupt u).slots = u.slots := fun u l =>
      State.foldl_interrupt_slots l u
    have e : ∀ u : State, u.stopInterrupts.slots = u.slots := fun u => h _ _
    simp only [State.slot, State.signalDevice, State.interrupt_slots]
    show (State.stopInterrupts s).slots[i] = _
    rw [show (State.stopInterrupts s).slots = s.slots from e s]
  · rfl

/-- A slot that is not FREE holds a stop back. -/
theorem State.finishStop_held {s : State} {i : SlotId} (h : (s.slot i).state ≠ .free) : s.finishStop = s := by
  unfold State.finishStop
  rw [if_neg]
  rintro ⟨_, hw⟩
  unfold State.windowFree at hw
  exact h (by simpa using List.all_eq_true.1 hw i (List.mem_finRange i))

@[simp] theorem State.issueWrites_slot (s : State) (i : SlotId) : s.issueWrites.slot i = s.slot i := by rw [s.issueWrites_same]; rfl

@[simp] theorem State.issueWrites_queue (s : State) (q : QueueId) : s.issueWrites.queue q = s.queue q := by
  rw [s.issueWrites_same]; rfl

@[simp] theorem State.conclude_slot (s : State) (i : SlotId) : s.conclude.slot i = s.slot i :=
  (State.finishStop_slot _ i).trans (s.issueWrites_slot i)

/-- Endings that are not none settle, and the step concludes. -/
theorem State.endSlots_eq {s : State} {es : List Ending} {e : Ending} (mem : e ∈ es) :
    s.endSlots es = (s.settle settleRounds es).conclude := by
  cases es with
  | nil => simp at mem
  | cons x rest => rfl

/-- Where the device is not STOPPING a step concludes with the issue of what is due (R141). -/
theorem State.conclude_running {s : State} (h : s.control.deviceState ≠ .stopping) : s.conclude = s.issueWrites := by
  unfold State.conclude State.finishStop
  rw [if_neg]
  rintro ⟨hs, _⟩
  exact h (by rw [s.issueWrites_same] at hs; exact hs)

/-- A slot that is not FREE holds a stop back. -/
theorem State.conclude_held {s : State} {i : SlotId} (h : (s.slot i).state ≠ .free) : s.conclude = s.issueWrites :=
  State.finishStop_held (i := i) (by rw [State.issueWrites_slot]; exact h)

/-- The ending of one slot, with all that follows: the slot is answered. -/
theorem State.endSlots_answered {s : State} {es : List Ending} {e : Ending} {q : QueueId}
    (nodup : (es.map Ending.slot).Nodup) (mem : e ∈ es) (h : (s.slot e.slot).queue = some q) :
    Answered (s.endSlots es) e.slot (s.slot e.slot) e.status e.detail := by
  rw [State.endSlots_eq mem]
  exact Answered.of_slot (State.settle_answered (n := 32) nodup mem h).1 (State.conclude_slot _ _)

/-- A slot that ends and is not freed holds a stop back and is posted: what its step does before the writes that are due are issued. -/
theorem State.endSlots_posted {s : State} {es : List Ending} {e : Ending} {q : QueueId}
    (nodup : (es.map Ending.slot).Nodup) (mem : e ∈ es) (h : (s.slot e.slot).queue = some q)
    (ho : ¬(e.status = .ok ∧ (s.slot e.slot).flags.getLsbD 0 = true)) :
    Posted s (s.endSlots es) q e.slot ∧ (∃ u, Goes s u ∧ s.endSlots es = u.issueWrites) ∧
      ∀ w ∈ (s.endSlots es).waiting, w.slot ≠ e.slot := by
  obtain ⟨ha, hw, hp⟩ := State.settle_answered (n := 32) nodup mem h
  have hf : s.endSlots es = (s.settle 33 es).issueWrites := by
    rw [State.endSlots_eq mem]
    refine State.conclude_held (i := e.slot) ?_
    unfold Answered at ha
    rw [if_neg ho] at ha
    show ((s.settle 33 es).slot e.slot).state ≠ _
    rw [ha]
    exact nofun
  rw [hf]
  refine ⟨Sys2Proof.Machine.Posted.of_joined (hp ho) (s.settle_goes 33 es).control, ⟨_, s.settle_goes 33 es, rfl⟩, ?_⟩
  rw [State.issueWrites_same]
  exact hw

/-- Where the device is not STOPPING endings go, and then the writes that are due are issued. -/
theorem State.endSlots_goes {s : State} {es : List Ending} {e : Ending} (mem : e ∈ es) (h : s.control.deviceState ≠ .stopping) :
    ∃ u, Goes s u ∧ s.endSlots es = u.issueWrites := by
  have g := s.settle_goes settleRounds es
  exact ⟨_, g, by rw [State.endSlots_eq mem]; exact State.conclude_running (g.control ▸ h)⟩

end Sys2Proof.Machine
end

