-- ==== Sys2Proof/Laws/Release.lean ====
section
/-! SUPPORT. Endings that release nothing: the step ends there, and the surfaces and marks are as the endings alone leave them. -/

namespace Sys2Proof.Machine

open Sys2Proof.Safety (HeldBack ReleasesNothing ReleasesNone)

@[simp] theorem State.executeAll_nil (s : State) : s.executeAll [] = (s.choose, []) := rfl

theorem State.markReady_nil (s : State) : s.markReady [] = s := by
  simp [State.markReady]

theorem State.settle_nil (n : Nat) (s : State) : s.settle n [] = s := by cases n <;> rfl

/-- When the first round releases nothing it is the last. -/
theorem State.settle_once {n : Nat} {s : State} {e : Ending} {es : List Ending}
    (h : (s.endTogether (e :: es)).retestOrdered.releasableSlots = []) :
    s.settle (n + 1) (e :: es) = (s.endTogether (e :: es)).retestOrdered.choose := by
  show State.settle n _ _ = _
  rw [h, State.executeAll_nil, State.markReady_nil, State.settle_nil]

/-- Slots that are not releasable are not released. -/
theorem State.releasableSlots_nil {s : State} (h : ∀ j, (s.slot j).releasable = false) : s.releasableSlots = [] := by
  unfold State.releasableSlots
  split
  · rw [List.filter_eq_nil_iff]
    intro j _
    simp [h j]
  · rfl

/-! ## The admission order -/

theorem State.post_order (s : State) (i : SlotId) (q : QueueId) : (s.post i q).order = s.order := by
  unfold State.post; split <;> rfl

theorem State.endDraining_order (s : State) (q : QueueId) : (s.endDraining q).order = s.order := by
  unfold State.endDraining
  repeat' split
  all_goals rfl

theorem State.placeAck_order (s : State) (q : QueueId) (c : Queue) (n : Nat) (i : SlotId) :
    (s.placeAck q c n i).order = s.order := by
  unfold State.placeAck
  dsimp only
  rw [State.endDraining_order, State.post_order]
  rfl

theorem State.serveWaiting_order (s : State) (i : SlotId) : (s.serveWaiting i).order = s.order := by
  unfold State.serveWaiting
  repeat' split
  all_goals first | rfl | exact State.placeAck_order _ _ _ _ _

theorem State.claimFreed_order (s : State) (q : QueueId) (i : SlotId) : (s.claimFreed q i).order = s.order := by
  unfold State.claimFreed
  repeat' split
  · rfl
  · rfl
  · exact State.placeAck_order _ _ _ _ _
  · rw [State.serveWaiting_order, State.endDraining_order]

theorem State.releaseClaim_order (s : State) (sl : Slot) (st : Status) : (s.releaseClaim sl st).order = s.order := by
  unfold State.releaseClaim State.dropPresent State.returnRetiring
  repeat' split
  all_goals rfl

/-- An ending leaves the admission order, or takes the freed slot out of it. -/
theorem State.endSlot_order (s : State) (e : Ending) :
    (s.endSlot e).order = s.order ∨ (s.endSlot e).order = s.order.filter (· ≠ e.slot) := by
  unfold State.endSlot
  dsimp only
  split
  · exact .inl rfl
  · split
    · unfold State.freeSlot
      split
      · left; exact State.releaseClaim_order _ _ _
      · right
        rw [State.claimFreed_order]
        show List.filter _ (State.releaseClaim _ _ _).order = _
        rw [State.releaseClaim_order]
    · left
      rw [State.post_order]
      exact State.releaseClaim_order _ _ _

/-- A slot other than i that stands before j stands before j still when i is taken out. -/
theorem mem_takeWhile_filter {i j k : SlotId} (l : List SlotId) (hk : k ≠ i) (h : k ∈ l.takeWhile (· ≠ j)) :
    k ∈ (l.filter (· ≠ i)).takeWhile (· ≠ j) := by
  induction l with
  | nil => simp at h
  | cons x rest ih =>
    rw [List.takeWhile_cons] at h
    split at h
    · next hx =>
      rcases List.mem_cons.1 h with rfl | hm
      · rw [List.filter_cons_of_pos (by simpa using hk), List.takeWhile_cons, if_pos hx]
        exact List.mem_cons_self
      · by_cases hxi : x = i
        · rw [List.filter_cons_of_neg (by simp [hxi])]
          exact ih hm
        · rw [List.filter_cons_of_pos (by simpa using hxi), List.takeWhile_cons, if_pos hx]
          exact List.mem_cons_of_mem _ (ih hm)
    · simp at h

/-! ## One ending -/

/-- When a slot is releasable after dependencies were taken away and ordered pending tested again. -/
theorem State.retested_releasable (u : State) (gone : List SlotId) (j : SlotId) :
    ((u.removeDependencies gone).retestOrdered.slot j).releasable
      = (decide ((u.slot j).state = .blocked) && ((u.slot j).deps.filter fun d => !gone.contains d).isEmpty
          && !((u.slot j).orderedPending && (u.removeDependencies gone).earlierUnended j) && !(u.slot j).isWaiting) := by
  have key : ∀ (sl tl : Slot) (b : Bool), tl = { sl with deps := sl.deps.filter fun d => !gone.contains d } →
      ({ tl with orderedPending := tl.orderedPending && b } : Slot).releasable
        = (decide (sl.state = .blocked) && (sl.deps.filter fun d => !gone.contains d).isEmpty
            && !(sl.orderedPending && b) && !sl.isWaiting) := by
    rintro sl _ b rfl
    rfl
  exact (congrArg Slot.releasable (State.retestOrdered_slot _ _)).trans (key (u.slot j)
    ((u.removeDependencies gone).slot j) ((u.removeDependencies gone).earlierUnended j) (State.removeDependencies_slot u gone j))

theorem State.removeDependencies_order (u : State) (gone : List SlotId) : (u.removeDependencies gone).order = u.order := by
  unfold State.removeDependencies
  rfl

/-- An earlier operation of the slot's queue that stays unended keeps ordered pending. -/
theorem State.earlierUnended_of {u : State} {gone : List SlotId} {j k : SlotId} (hk : k ∈ u.order.takeWhile (· ≠ j))
    (hq : (u.slot k).queue = (u.slot j).queue) (hu : (u.slot k).unended = true) :
    (u.removeDependencies gone).earlierUnended j = true := by
  have hs : ∀ i, ((u.removeDependencies gone).slot i).queue = (u.slot i).queue ∧
      ((u.removeDependencies gone).slot i).unended = (u.slot i).unended := by
    intro i
    rw [State.removeDependencies_slot]
    generalize u.slot i = sl
    exact ⟨rfl, rfl⟩
  unfold State.earlierUnended
  rw [List.any_eq_true, State.removeDependencies_order]
  refine ⟨k, hk, ?_⟩
  rw [(hs k).1, (hs j).1, (hs k).2]
  simp [hu, hq]

/-- A slot that is not among those that end stands before j still. -/
theorem State.foldl_endSlot_before {j k : SlotId} (es : List Ending) : ∀ {s : State}, (∀ e ∈ es, e.slot ≠ k) →
    k ∈ s.order.takeWhile (· ≠ j) → k ∈ (es.foldl State.endSlot s).order.takeWhile (· ≠ j) := by
  induction es with
  | nil => exact fun _ h => h
  | cons e rest ih =>
    intro s hk h
    refine ih (s := s.endSlot e) (fun x hx => hk x (List.mem_cons_of_mem _ hx)) ?_
    rcases s.endSlot_order e with ho | ho <;> rw [ho]
    · exact h
    · exact mem_takeWhile_filter _ (Ne.symm (hk e List.mem_cons_self)) h

/-- The end of slots whose end releases nothing releases nothing. -/
theorem State.endTogether_releasesNone {s : State} {es : List Ending} {gone : SlotId → Bool} (nodup : (es.map Ending.slot).Nodup)
    (hq : ∀ e ∈ es, (s.slot e.slot).queue.isSome = true) (hg : ∀ j, gone j = true ↔ j ∈ es.map Ending.slot)
    (hr : ReleasesNone s gone) : (s.endTogether es).retestOrdered.releasableSlots = [] := by
  apply State.releasableSlots_nil
  intro j
  have hp := s.together_perm es
  have nd : ((s.together es).map Ending.slot).Nodup := ((hp.map Ending.slot).nodup_iff).2 nodup
  have out : ∀ k, gone k = false → ∀ e ∈ s.together es, e.slot ≠ k := fun k hk e he hek => by
    rw [(hg k).2 (hek ▸ List.mem_map_of_mem (hp.mem_iff.1 he))] at hk
    cases hk
  have hc : ∀ e ∈ es, Closed ((s.together es).foldl State.endSlot s.choose) e.slot := fun e he => by
    obtain ⟨q, h⟩ := Option.isSome_iff_exists.1 (hq e he)
    exact (State.foldl_endSlot_answered (s := s.choose) nd (hp.mem_iff.2 he) h).2
  have hne : ∀ k, gone k = false → ((s.together es).foldl State.endSlot s.choose).slot k = s.slot k :=
    fun k hk => State.foldl_endSlot_slot (s := s.choose) (out k hk)
  have ho : ∀ k, gone k = false → k ∈ s.order.takeWhile (· ≠ j) →
      k ∈ ((s.together es).foldl State.endSlot s.choose).order.takeWhile (· ≠ j) :=
    fun k hk h => State.foldl_endSlot_before _ (s := s.choose) (out k hk) h
  rw [show s.endTogether es = ((s.together es).foldl State.endSlot s.choose).removeDependencies (es.map Ending.slot) from rfl]
  generalize (s.together es).foldl State.endSlot s.choose = u at hc hne ho ⊢
  rw [State.retested_releasable]
  cases hj : gone j with
  | true =>
    obtain ⟨e, he, rfl⟩ := List.mem_map.1 ((hg j).1 hj)
    rcases (hc e he).state with hs | hs <;> rw [hs] <;> rfl
  | false =>
    have kept : ∀ k, gone k = false → (!((es.map Ending.slot).contains k)) = true := fun k hk => by
      simpa [← hg k] using hk
    rw [hne j hj]
    by_cases hbl : (s.slot j).state = .blocked
    · rcases hr j hj hbl with hw | ⟨k, hk, hke⟩ | ⟨hpend, k, hk, hke, hkq, hku⟩
      · rw [hw]; simp
      · have : ((s.slot j).deps.filter fun d => !((es.map Ending.slot).contains d)).isEmpty = false := by
          rw [List.isEmpty_eq_false_iff_exists_mem]
          exact ⟨k, List.mem_filter.2 ⟨hk, kept k hke⟩⟩
        rw [this, Bool.and_false, Bool.false_and, Bool.false_and]
      · have he : (u.removeDependencies (es.map Ending.slot)).earlierUnended j = true :=
          State.earlierUnended_of (ho k hke hk) (by rw [hne k hke, hne j hj]; exact hkq) (by rw [hne k hke]; exact hku)
        rw [he, hpend]; simp
    · rw [decide_eq_false hbl, Bool.false_and, Bool.false_and, Bool.false_and]

/-- Endings that release nothing: what they leave. -/
theorem State.endSlots_releasesNone {s : State} {e : Ending} {es : List Ending} {gone : SlotId → Bool}
    (nodup : ((e :: es).map Ending.slot).Nodup) (hq : ∀ x ∈ e :: es, (s.slot x.slot).queue.isSome = true)
    (hg : ∀ j, gone j = true ↔ j ∈ (e :: es).map Ending.slot) (hr : ReleasesNone s gone) :
    s.endSlots (e :: es) = ((s.endTogether (e :: es)).retestOrdered.choose).conclude := by
  have := State.settle_once (n := 32) (State.endTogether_releasesNone nodup hq hg hr)
  unfold State.endSlots
  rw [show settleRounds = 32 + 1 from rfl, this]
  rfl

/-- One ending that releases nothing, where no stop ends: what it leaves. -/
theorem State.endSlots_releasesNothing {s : State} {e : Ending} {q : QueueId} (h : (s.slot e.slot).queue = some q)
    (hr : ReleasesNothing s e.slot) :
    s.endSlots [e] = (((s.choose.endSlot e).removeDependencies [e.slot]).retestOrdered.choose).conclude :=
  State.endSlots_releasesNone (gone := fun j => decide (j = e.slot)) (by simp) (by simp [h]) (by simp) fun j hj hb => by
    have hj : j ≠ e.slot := by simpa using hj
    simpa only [HeldBack, decide_eq_false_iff_not, ne_eq] using hr j hj hb

/-! ## Surfaces and marks of an ending -/

theorem State.post_surfaces (s : State) (i : SlotId) (q : QueueId) : (s.post i q).surfaces = s.surfaces ∧
    (s.post i q).marks = s.marks ∧ (s.post i q).presentation = s.presentation := by
  unfold State.post; split <;> exact ⟨rfl, rfl, rfl⟩

theorem State.endDraining_surfaces (s : State) (q : QueueId) : (s.endDraining q).surfaces = s.surfaces ∧
    (s.endDraining q).marks = s.marks ∧ (s.endDraining q).presentation = s.presentation := by
  unfold State.endDraining
  repeat' split
  all_goals exact ⟨rfl, rfl, rfl⟩

theorem State.freeSlot_surfaces (s : State) (i : SlotId) : (s.freeSlot i).surfaces = s.surfaces ∧
    (s.freeSlot i).marks = s.marks ∧ (s.freeSlot i).presentation = s.presentation := by
  have hl : ∀ (u : State) p c n i, (u.placeAck p c n i).surfaces = u.surfaces ∧ (u.placeAck p c n i).marks = u.marks ∧
      (u.placeAck p c n i).presentation = u.presentation := by
    intro u p c n i
    unfold State.placeAck
    dsimp only
    obtain ⟨h1, h2, h3⟩ := State.endDraining_surfaces (State.post { (u.setSlot i (acknowledgementSlot p n)).setQueue p
      (some { c with occupied := c.occupied + 1, abort := .placed i }) with ackOrder := u.ackOrder.filter (· ≠ p) } i p) p
    obtain ⟨g1, g2, g3⟩ := State.post_surfaces { (u.setSlot i (acknowledgementSlot p n)).setQueue p
      (some { c with occupied := c.occupied + 1, abort := .placed i }) with ackOrder := u.ackOrder.filter (· ≠ p) } i p
    exact ⟨h1.trans g1, h2.trans g2, h3.trans g3⟩
  have hw : ∀ (u : State) i, (u.serveWaiting i).surfaces = u.surfaces ∧ (u.serveWaiting i).marks = u.marks ∧
      (u.serveWaiting i).presentation = u.presentation := by
    intro u i
    unfold State.serveWaiting
    repeat' split
    all_goals first | exact ⟨rfl, rfl, rfl⟩ | exact hl _ _ _ _ _
  have hc : ∀ (u : State) p i, (u.claimFreed p i).surfaces = u.surfaces ∧ (u.claimFreed p i).marks = u.marks ∧
      (u.claimFreed p i).presentation = u.presentation := by
    intro u p i
    unfold State.claimFreed
    repeat' split
    · exact ⟨rfl, rfl, rfl⟩
    · exact ⟨rfl, rfl, rfl⟩
    · exact hl _ _ _ _ _
    · obtain ⟨h1, h2, h3⟩ := hw (u.endDraining p) i
      obtain ⟨g1, g2, g3⟩ := State.endDraining_surfaces u p
      exact ⟨h1.trans g1, h2.trans g2, h3.trans g3⟩
  unfold State.freeSlot
  split
  · exact ⟨rfl, rfl, rfl⟩
  · exact hc _ _ _

/-- One ending touches the surface table only by the claims it releases, no mark, and of the presentation unit only what it holds. -/
theorem State.endSlot_surfaces {s : State} {e : Ending} {q : QueueId} (h : (s.slot e.slot).queue = some q) :
    (s.endSlot e).surfaces = (s.releaseClaim (s.slot e.slot) e.status).surfaces ∧ (s.endSlot e).marks = s.marks ∧
      (s.endSlot e).presentation = { s.presentation with
        held := if s.presentation.held = some e.slot then none else s.presentation.held } := by
  unfold State.endSlot
  simp only [h]
  have hm : ∀ st, (s.releaseClaim (s.slot e.slot) st).marks = s.marks ∧
      (s.releaseClaim (s.slot e.slot) st).presentation = s.presentation := by
    intro st
    unfold State.releaseClaim State.dropPresent State.returnRetiring
    repeat' split
    all_goals exact ⟨rfl, rfl⟩
  split
  · obtain ⟨h1, h2, h3⟩ := State.freeSlot_surfaces (State.modifyQueue
      { (s.releaseClaim (s.slot e.slot) e.status).setSlot e.slot ((s.slot e.slot).endedWith e.status e.detail) with
        waiting := ((s.releaseClaim (s.slot e.slot) e.status).setSlot e.slot ((s.slot e.slot).endedWith e.status e.detail)).waiting.filter (fun w => w.slot ≠ e.slot)
        presentation := { ((s.releaseClaim (s.slot e.slot) e.status).setSlot e.slot ((s.slot e.slot).endedWith e.status e.detail)).presentation with
          held := if ((s.releaseClaim (s.slot e.slot) e.status).setSlot e.slot ((s.slot e.slot).endedWith e.status e.detail)).presentation.held = some e.slot then none
            else ((s.releaseClaim (s.slot e.slot) e.status).setSlot e.slot ((s.slot e.slot).endedWith e.status e.detail)).presentation.held } } q
      fun c => c.afterEnding (s.slot e.slot).isWaiting e.status) e.slot
    refine ⟨h1, h2.trans (hm _).1, h3.trans ?_⟩
    simp [(hm _).2]
  · obtain ⟨h1, h2, h3⟩ := State.post_surfaces (State.modifyQueue
      { (s.releaseClaim (s.slot e.slot) e.status).setSlot e.slot ((s.slot e.slot).endedWith e.status e.detail) with
        waiting := ((s.releaseClaim (s.slot e.slot) e.status).setSlot e.slot ((s.slot e.slot).endedWith e.status e.detail)).waiting.filter (fun w => w.slot ≠ e.slot)
        presentation := { ((s.releaseClaim (s.slot e.slot) e.status).setSlot e.slot ((s.slot e.slot).endedWith e.status e.detail)).presentation with
          held := if ((s.releaseClaim (s.slot e.slot) e.status).setSlot e.slot ((s.slot e.slot).endedWith e.status e.detail)).presentation.held = some e.slot then none
            else ((s.releaseClaim (s.slot e.slot) e.status).setSlot e.slot ((s.slot e.slot).endedWith e.status e.detail)).presentation.held } } q
      fun c => c.afterEnding (s.slot e.slot).isWaiting e.status) e.slot q
    refine ⟨h1, h2.trans (hm _).1, h3.trans ?_⟩
    simp [(hm _).2]

theorem State.finishStop_marks (s : State) : s.finishStop.surfaces = s.surfaces ∧ s.finishStop.marks = s.marks := by
  have hi : ∀ (u : State) v, (u.interrupt v).surfaces = u.surfaces ∧ (u.interrupt v).marks = u.marks := by
    intro u v; unfold State.interrupt; split <;> exact ⟨rfl, rfl⟩
  have hf : ∀ (l : List VectorId) (u : State), (l.foldl State.interrupt u).surfaces = u.surfaces ∧
      (l.foldl State.interrupt u).marks = u.marks := by
    intro l
    induction l with
    | nil => exact fun _ => ⟨rfl, rfl⟩
    | cons v rest ih => exact fun u => ⟨(ih _).1.trans (hi u v).1, (ih _).2.trans (hi u v).2⟩
  unfold State.finishStop
  split
  · dsimp only
    unfold State.signalDevice
    exact ⟨(hi _ _).1.trans (hf _ _).1, (hi _ _).2.trans (hf _ _).2⟩
  · exact ⟨rfl, rfl⟩

theorem State.conclude_marks (s : State) : s.conclude.surfaces = s.surfaces ∧ s.conclude.marks = s.marks := by
  obtain ⟨h1, h2⟩ := State.finishStop_marks s.issueWrites
  exact ⟨h1.trans (by rw [s.issueWrites_same]), h2.trans (by rw [s.issueWrites_same])⟩

theorem State.conclude_waiting (s : State) : s.conclude.waiting = s.waiting := by
  have hi : ∀ (u : State) v, (u.interrupt v).waiting = u.waiting := by
    intro u v; unfold State.interrupt; split <;> rfl
  have hf : ∀ (l : List VectorId) (u : State), (l.foldl State.interrupt u).waiting = u.waiting := by
    intro l
    induction l with
    | nil => exact fun _ => rfl
    | cons v rest ih => exact fun u => (ih _).trans (hi u v)
  refine Eq.trans ?_ (by rw [s.issueWrites_same] : s.issueWrites.waiting = s.waiting)
  unfold State.conclude State.finishStop
  split
  · exact (hi _ _).trans (hf _ _)
  · rfl

theorem State.retested_surfaces (u : State) (gone : List SlotId) :
    (u.removeDependencies gone).retestOrdered.choose.surfaces = u.surfaces ∧
      (u.removeDependencies gone).retestOrdered.choose.marks = u.marks := by
  unfold State.removeDependencies State.retestOrdered State.choose
  exact ⟨rfl, rfl⟩

theorem State.retested_waiting (u : State) (gone : List SlotId) :
    (u.removeDependencies gone).retestOrdered.choose.waiting = u.waiting := by
  unfold State.removeDependencies State.retestOrdered State.choose
  rfl

/-- A claim's release does not read the choices counter. -/
theorem State.choose_releaseClaim (s : State) (sl : Slot) (st : Status) :
    (s.choose.releaseClaim sl st).surfaces = (s.releaseClaim sl st).surfaces := by
  unfold State.releaseClaim State.dropPresent State.returnRetiring
  repeat' split
  all_goals rfl

/-- One ending that releases nothing: surfaces and marks. -/
theorem State.endSlots_surfaces {s : State} {e : Ending} {q : QueueId} (h : (s.slot e.slot).queue = some q)
    (hr : ReleasesNothing s e.slot) :
    (s.endSlots [e]).surfaces = (s.releaseClaim (s.slot e.slot) e.status).surfaces ∧ (s.endSlots [e]).marks = s.marks := by
  rw [State.endSlots_releasesNothing h hr]
  obtain ⟨h1, h2, _⟩ := State.endSlot_surfaces (s := s.choose) (e := e) ((congrArg Slot.queue (State.choose_slot s _)).trans h)
  rw [State.choose_slot, State.choose_releaseClaim] at h1
  rw [State.choose_marks] at h2
  have h3 := State.conclude_marks ((s.choose.endSlot e).removeDependencies [e.slot]).retestOrdered.choose
  refine ⟨h3.1.trans (Eq.trans ?_ h1), h3.2.trans (Eq.trans ?_ h2)⟩
  · exact (State.retested_surfaces _ _).1
  · exact (State.retested_surfaces _ _).2

/-! ## Several endings -/

/-- Endings raise no mark. -/
theorem State.foldl_endSlot_marks (es : List Ending) : ∀ s : State, (es.foldl State.endSlot s).marks = s.marks := by
  induction es with
  | nil => exact fun _ => rfl
  | cons e rest ih =>
    intro s
    refine (ih _).trans ?_
    cases h : (s.slot e.slot).queue with
    | none => unfold State.endSlot; simp only [h]
    | some q => exact (State.endSlot_surfaces h).2.1

/-- Endings take their slots' entries out of the waiting list, and no other. -/
theorem State.foldl_endSlot_waiting (es : List Ending) : ∀ {s : State}, (es.map Ending.slot).Nodup →
    (∀ e ∈ es, (s.slot e.slot).queue.isSome = true) →
    (es.foldl State.endSlot s).waiting = s.waiting.filter fun w => w.slot ∉ es.map Ending.slot := by
  induction es with
  | nil => intro s _ _; simp
  | cons e rest ih =>
    intro s nodup hq
    rw [List.map_cons, List.nodup_cons] at nodup
    have other : ∀ x ∈ rest, e.slot ≠ x.slot := fun x hx h => nodup.1 (h ▸ List.mem_map_of_mem hx)
    obtain ⟨q, h⟩ := Option.isSome_iff_exists.1 (hq e List.mem_cons_self)
    rw [List.foldl_cons, ih nodup.2 fun x hx => by
      rw [State.endSlot_slot_ne (other x hx)]; exact hq x (List.mem_cons_of_mem _ hx), State.endSlot_waiting h, List.filter_filter]
    congr 1
    funext w
    simp only [List.map_cons, List.mem_cons, not_or, Bool.decide_and, ne_eq, Bool.and_comm]

/-- The endings of WAITs release no claim on a surface. -/
theorem State.foldl_endSlot_waits (es : List Ending) : ∀ {s : State}, (es.map Ending.slot).Nodup →
    (∀ e ∈ es, (s.slot e.slot).queue.isSome = true ∧ (s.slot e.slot).isWaiting = true) →
    (es.foldl State.endSlot s).surfaces = s.surfaces := by
  induction es with
  | nil => exact fun _ _ => rfl
  | cons e rest ih =>
    intro s nodup hw
    rw [List.map_cons, List.nodup_cons] at nodup
    have other : ∀ x ∈ rest, e.slot ≠ x.slot := fun x hx h => nodup.1 (h ▸ List.mem_map_of_mem hx)
    obtain ⟨hq, he⟩ := hw e List.mem_cons_self
    obtain ⟨q, h⟩ := Option.isSome_iff_exists.1 hq
    refine (ih (s := s.endSlot e) nodup.2 fun x hx => ?_).trans ((State.endSlot_surfaces h).1.trans ?_)
    · rw [State.endSlot_slot_ne (other x hx)]
      exact hw x (List.mem_cons_of_mem _ hx)
    · unfold Slot.isWaiting at he
      unfold State.releaseClaim
      cases ho : (s.slot e.slot).op with
      | none => simp
      | some op => cases op <;> simp_all [Op.isWait]

/-- Endings that release nothing: the marks, and the waiting list. -/
theorem State.endSlots_releasesNone_kept {s : State} {e : Ending} {es : List Ending} {gone : SlotId → Bool}
    (nodup : ((e :: es).map Ending.slot).Nodup) (hq : ∀ x ∈ e :: es, (s.slot x.slot).queue.isSome = true)
    (hg : ∀ j, gone j = true ↔ j ∈ (e :: es).map Ending.slot) (hr : ReleasesNone s gone) :
    (s.endSlots (e :: es)).marks = s.marks ∧ (s.endSlots (e :: es)).waiting = (s.waiting.filter fun w => !gone w.slot) ∧
      ((∀ x ∈ e :: es, (s.slot x.slot).isWaiting = true) → (s.endSlots (e :: es)).surfaces = s.surfaces) := by
  have hp := s.together_perm (e :: es)
  have nd : ((s.together (e :: es)).map Ending.slot).Nodup := ((hp.map Ending.slot).nodup_iff).2 nodup
  have marks := State.foldl_endSlot_marks (s.together (e :: es)) s.choose
  have waiting := State.foldl_endSlot_waiting _ (s := s.choose) nd fun x hx => hq x (hp.mem_iff.1 hx)
  have waits := State.foldl_endSlot_waits (s.together (e :: es)) (s := s.choose) nd
  have gone' : ∀ j, gone j = true ↔ j ∈ (s.together (e :: es)).map Ending.slot := fun j =>
    (hg j).trans (hp.map Ending.slot).mem_iff.symm
  rw [State.endSlots_releasesNone nodup hq hg hr, show s.endTogether (e :: es) =
    ((s.together (e :: es)).foldl State.endSlot s.choose).removeDependencies ((e :: es).map Ending.slot) from rfl]
  generalize (s.together (e :: es)).foldl State.endSlot s.choose = u at marks waiting waits ⊢
  obtain ⟨h1, h2⟩ := State.conclude_marks (u.removeDependencies ((e :: es).map Ending.slot)).retestOrdered.choose
  obtain ⟨h3, h4⟩ := State.retested_surfaces u ((e :: es).map Ending.slot)
  refine ⟨h2.trans (h4.trans marks), ?_, fun hw => h1.trans (h3.trans (waits fun x hx =>
    ⟨hq x (hp.mem_iff.1 hx), hw x (hp.mem_iff.1 hx)⟩))⟩
  rw [State.conclude_waiting, State.retested_waiting, waiting]
  refine List.filter_congr fun w _ => ?_
  simp only [← gone']
  cases gone w.slot <;> rfl

end Sys2Proof.Machine
end

