-- ==== Sys2Proof/Laws/Alone.lean ====
section
/-! SUPPORT. Everything that one ending does which releases nothing (R79): `EndsAlone`. -/

namespace Sys2Proof.Machine

open Sys2Proof.Safety

/-! ### An open choice before an ending, or after it -/

theorem State.endDraining_choose (s : State) (q : QueueId) : s.choose.endDraining q = (s.endDraining q).choose := by
  show (match s.queue q with | none => s.choose | some c => _) = _
  unfold State.endDraining
  cases s.queue q with
  | none => rfl
  | some c =>
    show (if s.drained q c then (s.setQueue q (some { c with state := .opened, abort := .absent })).choose else s.choose) = State.choose _
    dsimp only
    split <;> rfl

theorem State.post_choose (s : State) (i : SlotId) (q : QueueId) : s.choose.post i q = (s.post i q).choose := by
  show (match s.queue q with | none => s.choose | some c => _) = _
  unfold State.post
  cases s.queue q <;> rfl

theorem State.placeAck_choose (s : State) (q : QueueId) (c : Queue) (n : Nat) (i : SlotId) :
    s.choose.placeAck q c n i = (s.placeAck q c n i).choose := by
  unfold State.placeAck
  rw [← State.endDraining_choose, ← State.post_choose]
  rfl

theorem State.serveWaiting_choose (s : State) (i : SlotId) : s.choose.serveWaiting i = (s.serveWaiting i).choose := by
  unfold State.serveWaiting
  show (match s.ackOrder with | [] => s.choose | p :: _ => _) = _
  cases s.ackOrder with
  | nil => rfl
  | cons p rest =>
    show (match s.queue p with | none => s.choose | some c => _) = (match s.queue p with | none => s | some c => _).choose
    cases s.queue p with
    | none => rfl
    | some c =>
      dsimp only
      split
      · exact State.placeAck_choose _ _ _ _ _
      · rfl

theorem State.claimFreed_choose (s : State) (q : QueueId) (i : SlotId) : s.choose.claimFreed q i = (s.claimFreed q i).choose := by
  unfold State.claimFreed
  show (if s.control.deviceState = .fault then s.choose else match s.queue q with | none => s.choose | some c => _) = _
  split
  · rfl
  · cases s.queue q with
    | none => rfl
    | some c =>
      dsimp only
      split
      · exact State.placeAck_choose _ _ _ _ _
      · rw [State.endDraining_choose, State.serveWaiting_choose]

theorem State.freeSlot_choose (s : State) (i : SlotId) : s.choose.freeSlot i = (s.freeSlot i).choose := by
  show (match (s.slot i).queue with | none => s.choose | some q => _) = _
  unfold State.freeSlot
  cases (s.slot i).queue with
  | none => rfl
  | some q =>
    exact State.claimFreed_choose (({ s.setSlot i Slot.freed with order := s.order.filter (· ≠ i) } : State).modifyQueue q
      fun c => { c with occupied := c.occupied - 1 }) q i

/-! ### The ending itself -/

/-- Slot i has ENDED and its queue has gone where R53 and R54 take it, but the slot is neither freed nor posted yet. -/
def State.slotGone (w : State) (i : SlotId) (q : QueueId) (c : Queue) (st : Status) (detail : BitVec 32) : State :=
  { (w.setSlot i (slotEnded (w.slot i) st detail)).setQueue q (some (queueAfter c (w.slot i).isWaiting st)) with
    waiting := w.waiting.filter fun x => x.slot ≠ i
    presentation := { w.presentation with held := if w.presentation.held = some i then none else w.presentation.held } }

/-- The slot is freed after OK with QUIET, and else posted (R79). -/
def State.freeOrPost (r : State) (i : SlotId) (q : QueueId) (st : Status) (quiet : Bool) : State :=
  if st = .ok ∧ quiet = true then r.freeSlot i else r.post i q

theorem State.freeOrPost_choose (r : State) (i : SlotId) (q : QueueId) (st : Status) (quiet : Bool) :
    r.choose.freeOrPost i q st quiet = (r.freeOrPost i q st quiet).choose := by
  unfold State.freeOrPost
  split
  · exact State.freeSlot_choose _ _
  · exact State.post_choose _ _ _

theorem Queue.afterEnding_eq (c : Queue) (waited : Bool) (st : Status) : c.afterEnding waited st = queueAfter c waited st := by
  unfold Queue.afterEnding queueAfter
  cases st <;> simp [Status.isError]

/-- What an ending does to a claim on a surface touches nothing but the surface table. -/
theorem State.releaseClaim_same (s : State) (sl : Slot) (st : Status) :
    s.releaseClaim sl st = { s with surfaces := (s.releaseClaim sl st).surfaces } := by
  unfold State.releaseClaim State.dropPresent State.returnRetiring State.modifySurface
  repeat' split
  all_goals rfl

theorem State.modifyQueue_some {s : State} {q : QueueId} {c : Queue} (h : s.queue q = some c) (f : Queue → Queue) :
    s.modifyQueue q f = s.setQueue q (some (f c)) := by
  unfold State.modifyQueue
  rw [h]
  rfl

/-- An ending is that of its slot and its queue, then the freeing or the posting of the slot. -/
theorem State.endSlot_eq {s : State} {e : Ending} {q : QueueId} {c : Queue} (h : (s.slot e.slot).queue = some q)
    (hc : s.queue q = some c) : s.endSlot e =
      ((s.releaseClaim (s.slot e.slot) e.status).slotGone e.slot q c e.status e.detail).freeOrPost e.slot q e.status
        ((s.slot e.slot).flags.getLsbD 0) := by
  have hw := s.releaseClaim_same (s.slot e.slot) e.status
  unfold State.endSlot
  simp only [h]
  have hs : (s.releaseClaim (s.slot e.slot) e.status).slot e.slot = s.slot e.slot := State.releaseClaim_slot _ _ _ _
  have hq : (s.releaseClaim (s.slot e.slot) e.status).queue q = some c := by rw [hw]; exact hc
  generalize s.releaseClaim (s.slot e.slot) e.status = w at hs hq ⊢
  unfold State.freeOrPost State.slotGone
  rw [State.modifyQueue_some (c := c) (by exact hq), Queue.afterEnding_eq, hs]
  rfl

/-- An open choice before an ending is one after it. -/
theorem State.endSlot_choose {s : State} {e : Ending} {q : QueueId} {c : Queue} (h : (s.slot e.slot).queue = some q)
    (hc : s.queue q = some c) : s.choose.endSlot e = (s.endSlot e).choose := by
  have claim : s.choose.releaseClaim (s.slot e.slot) e.status = (s.releaseClaim (s.slot e.slot) e.status).choose := by
    unfold State.releaseClaim State.dropPresent State.returnRetiring
    repeat' split
    all_goals rfl
  rw [State.endSlot_eq h hc, State.endSlot_eq (s := s.choose) h hc, ← State.freeOrPost_choose]
  rw [show s.choose.slot e.slot = s.slot e.slot from rfl, claim]
  rfl

theorem takeWhile_filter {i j : SlotId} (hj : j ≠ i) (l : List SlotId) :
    (l.filter (· ≠ i)).takeWhile (· ≠ j) = (l.takeWhile (· ≠ j)).filter (· ≠ i) := by
  induction l with
  | nil => rfl
  | cons x rest ih =>
    by_cases hx : x = i
    · subst hx
      rw [List.filter_cons_of_neg (by simp), List.takeWhile_cons_of_pos (by simpa using hj.symm), List.filter_cons_of_neg (by simp), ih]
    · rw [List.filter_cons_of_pos (by simpa using hx)]
      by_cases hxj : x = j
      · subst hxj
        rw [List.takeWhile_cons_of_neg (by simp), List.takeWhile_cons_of_neg (by simp), List.filter_nil]
      · rw [List.takeWhile_cons_of_pos (by simpa using hxj), List.takeWhile_cons_of_pos (by simpa using hxj),
          List.filter_cons_of_pos (by simpa using hx), ih]

theorem State.freeOrPost_spec {r : State} {i : SlotId} {q : QueueId} {d : Queue} (h : (r.slot i).queue = some q)
    (hq : r.queue q = some d) (st : Status) (quiet : Bool) :
    if st = .ok ∧ quiet = true then SlotFreed r (r.freeOrPost i q st quiet) i q d
    else r.freeOrPost i q st quiet = { r with cqs := (r.freeOrPost i q st quiet).cqs } ∧
      ∀ k, (r.freeOrPost i q st quiet).cq k =
        if d.cq = k then (r.cq k).map fun b => { b with posting := b.posting ++ [i] } else r.cq k := by
  unfold State.freeOrPost
  split
  · exact State.freeSlot_spec h hq
  · unfold State.post
    rw [hq]
    refine ⟨rfl, fun k => ?_⟩
    dsimp only
    rw [State.cq_modifyCq]
    split
    · next e => rw [e]
    · rfl

/-- What is left of a slot's dependency set and ordered pending when slot i has gone (R69, R70). -/
theorem State.retested_slot {s v : State} {i : SlotId} (closed : Closed v i) (other : ∀ j, j ≠ i → v.slot j = s.slot j)
    (order : v.order = s.order ∨ v.order = s.order.filter (· ≠ i)) (j : SlotId) :
    ∃ b, (v.removeDependencies [i]).retestOrdered.slot j =
        { v.slot j with deps := (v.slot j).deps.filter (· ≠ i), orderedPending := b } ∧
      (b = true ↔ (v.slot j).orderedPending = true ∧
        ∃ k ∈ s.order.takeWhile (· ≠ j), k ≠ i ∧ (s.slot k).queue = (s.slot j).queue ∧ (s.slot k).unended = true) := by
  have deps : (fun d => !([i].contains d)) = fun d : SlotId => decide (d ≠ i) := by
    funext d
    simp [eq_comm]
  refine ⟨(v.slot j).orderedPending && (v.removeDependencies [i]).earlierUnended j, ?_, ?_⟩
  · rw [State.retestOrdered_slot, State.removeDependencies_slot, deps]
  · by_cases hj : j = i
    · subst hj
      simp [closed.orderedPending]
    rw [Bool.and_eq_true]
    refine and_congr_right fun _ => ?_
    have hs : ∀ k, ((v.removeDependencies [i]).slot k).queue = (v.slot k).queue ∧
        ((v.removeDependencies [i]).slot k).unended = (v.slot k).unended := by
      intro k
      rw [State.removeDependencies_slot]
      exact ⟨rfl, rfl⟩
    have done : (v.slot i).unended = false := by
      rcases closed.state with e | e <;> simp [Slot.unended, e]
    have mem : ∀ k, k ≠ i → (k ∈ v.order.takeWhile (· ≠ j) ↔ k ∈ s.order.takeWhile (· ≠ j)) := by
      intro k hk
      rcases order with e | e <;> rw [e]
      rw [takeWhile_filter hj, List.mem_filter]
      simp [hk]
    unfold State.earlierUnended
    rw [List.any_eq_true, State.removeDependencies_order]
    refine exists_congr fun k => ?_
    rw [(hs k).1, (hs j).1, (hs k).2, Bool.and_eq_true, decide_eq_true_eq, other j hj]
    by_cases hk : k = i
    · subst hk
      simp [done]
    · rw [other k hk, mem k hk]
      simp [hk]

/-- Dependents are served by changes of slots alone. -/
theorem State.served_same (v : State) (i : SlotId) :
    (v.choose.removeDependencies [i]).retestOrdered.choose = { v with
      slots := (v.choose.removeDependencies [i]).retestOrdered.choose.slots
      choices := (v.choose.removeDependencies [i]).retestOrdered.choose.choices } := by
  unfold State.removeDependencies State.retestOrdered State.choose
  rfl

theorem State.slotGone_slot (w : State) (i : SlotId) (q : QueueId) (c : Queue) (st : Status) (detail : BitVec 32) :
    (w.slotGone i q c st detail).slot i = slotEnded (w.slot i) st detail := State.slot_setSlot_self w i _

theorem State.slotGone_queue (w : State) (i : SlotId) (q : QueueId) (c : Queue) (st : Status) (detail : BitVec 32) :
    (w.slotGone i q c st detail).queue q = some (queueAfter c (w.slot i).isWaiting st) :=
  State.queue_setQueue_self (w.setSlot i (slotEnded (w.slot i) st detail)) q _

/-- What a slot that ends and releases nothing leaves: `v` after its own steps of R79, and `t` after its dependents are served and the writes
that are due are issued. -/
theorem EndsAlone.of_parts {s w v t : State} {i : SlotId} {q : QueueId} {c : Queue} {st : Status} {detail : BitVec 32}
    (slot : ∀ j, w.slot j = s.slot j) (before : w.order = s.order) (h : (s.slot i).queue = some q)
    (gone : v = (w.slotGone i q c st detail).freeOrPost i q st ((s.slot i).flags.getLsbD 0))
    (closed : Closed v i) (other : ∀ j, j ≠ i → v.slot j = s.slot j)
    (order : v.order = s.order ∨ v.order = s.order.filter (· ≠ i))
    (issued : WritesIssued ((v.choose.removeDependencies [i]).retestOrdered.choose) t) : EndsAlone w t i q c st detail := by
  have left := State.retested_slot (v := v.choose) (s := s) (i := i) ⟨closed.1, closed.2, closed.3, closed.4⟩ other order
  refine ⟨w.slotGone i q c st detail, v, (v.choose.removeDependencies [i]).retestOrdered.choose, ?_, ?_, State.served_same v i,
    fun j => ?_, issued⟩
  · unfold State.slotGone
    rfl
  · have freed := State.freeOrPost_spec (r := w.slotGone i q c st detail) (i := i) (q := q)
      (by rw [State.slotGone_slot, slot]; exact h) (State.slotGone_queue w i q c st detail) st ((s.slot i).flags.getLsbD 0)
    rw [← gone] at freed
    have same : (queueAfter c (w.slot i).isWaiting st).cq = c.cq := by
      unfold queueAfter
      repeat' split
      all_goals rfl
    rw [same] at freed
    rw [slot i] at freed ⊢
    exact freed
  · rw [State.choose_slot, slot j, before]
    simp only [slot]
    simpa only [State.choose_slot] using left j

/-- One ending that releases nothing, where no stop ends with it. -/
theorem State.endSlots_alone {s : State} {e : Ending} {q : QueueId} {c : Queue} (h : (s.slot e.slot).queue = some q)
    (hc : s.queue q = some c) (hr : ReleasesNothing s e.slot)
    (goesOn : s.control.deviceState ≠ .stopping ∨ ¬(e.status = .ok ∧ (s.slot e.slot).flags.getLsbD 0 = true)) :
    EndsAlone (s.releaseClaim (s.slot e.slot) e.status) (s.endSlots [e]) e.slot q c e.status e.detail := by
  refine EndsAlone.of_parts (s := s) (v := s.endSlot e) (State.releaseClaim_slot _ _ _) (by rw [s.releaseClaim_same]) h
    (State.endSlot_eq h hc)
    (State.foldl_endSlot_answered (s := s) (es := [e]) (by simp) (List.mem_singleton.2 rfl) h).2
    (fun j hj => State.endSlot_slot_ne (Ne.symm hj)) (s.endSlot_order e) ?_
  have control := (s.endSlot_goes e).control
  have answered := State.endSlot_answered h
  rw [State.endSlots_releasesNothing h hr, State.endSlot_choose h hc]
  generalize s.endSlot e = v at control answered ⊢
  have ended : (v.choose.removeDependencies [e.slot]).retestOrdered.choose.conclude =
      (v.choose.removeDependencies [e.slot]).retestOrdered.choose.issueWrites := by
    rcases goesOn with g | g
    · refine State.conclude_running ?_
      rw [State.served_same, control]
      exact g
    · refine State.conclude_held (i := e.slot) ?_
      unfold Answered at answered
      rw [if_neg g] at answered
      rw [State.choose_slot, State.retestOrdered_slot, State.removeDependencies_slot, State.choose_slot, answered]
      exact nofun
  rw [ended]
  exact State.issueWrites_spec _

end Sys2Proof.Machine
end

