-- ==== Sys2Proof/Laws/Timers.lean ====
section
/-! SUPPORT. The timers that run (R180): the list that the model keeps of them is the relation Deadline, a reading may be reached when no
timer has an earlier deadline, and what falls due; and when a fetch or a dispatch is possible, which comes first on an empty queue. -/

namespace Sys2Proof.Machine

open Sys2Proof.Safety

/-- The list of running timers holds each running timer, and no other. -/
theorem State.mem_liveTimers {s : State} {c : Instr} {d : Time} : (c, d) ∈ s.liveTimers ↔ Deadline s c d := by
  unfold State.liveTimers Deadline
  rw [List.mem_append, List.mem_append, or_assoc]
  refine or_congr ?_ (or_congr ?_ ?_)
  · by_cases h : s.control.deviceState = .running
    · simp only [h, if_true, true_and, List.mem_filterMap, Option.map_eq_some_iff, Prod.mk.injEq]
      exact ⟨fun ⟨w, hw, x, hx, h1, h2⟩ => ⟨w, hw, h2 ▸ hx, h1.symm⟩, fun ⟨w, hw, hx, h1⟩ => ⟨w, hw, d, hx, h1.symm, rfl⟩⟩
    · simp [h]
  · rw [List.mem_filterMap]
    constructor
    · rintro ⟨k, _, hk⟩
      cases hc : s.cq k with
      | none => simp [hc] at hk
      | some b =>
        simp only [hc, Option.map_eq_some_iff, Prod.mk.injEq] at hk
        obtain ⟨x, hx, h1, h2⟩ := hk
        exact ⟨k, b, hc, h2 ▸ hx, h1.symm⟩
    · rintro ⟨k, b, hc, hd, rfl⟩
      exact ⟨k, List.mem_finRange k, by simp [hc, hd]⟩
  · cases s.presentation.panel <;> cases s.presentation.frameDeadline <;> simp
    exact fun _ => ⟨fun h => ⟨h.2.symm, h.1⟩, fun h => ⟨h.2, h.1.symm⟩⟩

/-- A reading may be reached when no timer that runs has an earlier deadline (R180). -/
theorem State.mayReach_iff {s : State} {d : Time} : s.mayReach d = true ↔ NoEarlierDeadline s d := by
  unfold State.mayReach NoEarlierDeadline
  rw [List.all_eq_true]
  exact ⟨fun h c x hx => by simpa using h _ (State.mem_liveTimers.2 hx), fun h x hx => by
    simpa using h _ _ (State.mem_liveTimers.1 hx)⟩

/-- A list that is not empty has an element of least weight. -/
theorem exists_least {α : Type} (f : α → Nat) {l : List α} {x : α} (hx : x ∈ l) : ∃ y ∈ l, f y ≤ f x ∧ ∀ z ∈ l, f y ≤ f z := by
  obtain ⟨y, hy, least⟩ := Set.exists_min_image {z | z ∈ l} f l.finite_toSet ⟨x, hx⟩
  exact ⟨y, hy, least x hx, least⟩

/-- The timers that expire now: those at or before the device timer's reading with none before them. -/
theorem State.mem_dueTimers {s : State} {c : Instr} {d : Time} :
    (c, d) ∈ s.dueTimers ↔ Deadline s c d ∧ d.toNat ≤ s.control.timer.toNat ∧ NoEarlierDeadline s d := by
  unfold State.dueTimers
  rw [List.mem_filter, State.mem_liveTimers]
  simp [State.mayReach_iff]

/-- Nothing falls due exactly when every timer that runs lies ahead. -/
theorem State.dueEvent_none {s : State} : s.dueEvent = none ↔ ∀ c d, Deadline s c d → s.control.timer.toNat < d.toNat := by
  have hnil : s.dueEvent = none ↔ s.dueTimers = [] := by
    unfold State.dueEvent
    rw [← List.length_eq_zero_iff (l := s.dueTimers), ← (s.together_perm s.dueTimers).length_eq, List.length_eq_zero_iff]
    cases s.together s.dueTimers with
    | nil => simp
    | cons x rest => simp only [reduceCtorEq, iff_false]; split <;> simp
  rw [hnil]
  constructor
  · intro h c d hd
    by_contra hle
    obtain ⟨y, hy, hyx, hl⟩ := exists_least (fun x : Instr × Time => x.2.toNat) (State.mem_liveTimers.2 hd)
    have : (y.1, y.2) ∈ s.dueTimers := State.mem_dueTimers.2
      ⟨State.mem_liveTimers.1 hy, by simp only at hyx; omega, fun c x hx => hl _ (State.mem_liveTimers.2 hx)⟩
    rw [h] at this
    simp at this
  · intro h
    rw [List.eq_nil_iff_forall_not_mem]
    rintro ⟨c, d⟩ hm
    obtain ⟨h1, h2, _⟩ := State.mem_dueTimers.1 hm
    have := h c d h1
    omega

/-- What falls due is the expiry of a timer that has reached its deadline with none before it, or, before a frame start, the next pixel
of a scan that has not ended. -/
theorem State.dueEvent_some {s : State} {c : Instr} (h : s.dueEvent = some c) :
    ∃ x d, Deadline s x d ∧ d.toNat ≤ s.control.timer.toNat ∧ NoEarlierDeadline s d ∧
      (c = x ∨ x = .frameStart ∧ s.presentation.nextPixel = some c) := by
  unfold State.dueEvent at h
  have hm : ∀ x, x ∈ s.together s.dueTimers → x ∈ s.dueTimers := fun x => (s.together_perm _).mem_iff.1
  cases ht : s.together s.dueTimers with
  | nil => simp [ht] at h
  | cons x rest =>
    rw [ht] at h
    obtain ⟨h1, h2, h3⟩ := State.mem_dueTimers.1 (hm (x.1, x.2) (by rw [ht]; exact List.mem_cons_self))
    refine ⟨x.1, x.2, h1, h2, h3, ?_⟩
    dsimp only at h
    split at h
    · next hf =>
      cases hn : s.presentation.nextPixel with
      | none => rw [hn] at h; cases h; exact .inl hf.symm
      | some y => rw [hn] at h; cases h; exact .inr ⟨hf, rfl⟩
    · cases h; exact .inl rfl

/-! ## What comes first on an empty queue -/

/-- Every queue stands in the search of its class (R47). -/
theorem mem_searchFrom (last q : QueueId) : q ∈ searchFrom last := by
  revert last q
  decide

/-- The arbiter chooses when some queue is eligible (R46, R47). -/
theorem State.chosenQueue_isSome {s : State} : s.chosenQueue.isSome = true ↔ ∃ q, s.eligible q = true := by
  have first (k : ServiceClass) (last : QueueId) :
      (s.firstEligible k last).isSome = true ↔ ∃ q, s.eligible q = true ∧ s.inClass k q = true := by
    unfold State.firstEligible
    rw [List.find?_isSome]
    simp only [mem_searchFrom, true_and, Bool.and_eq_true]
  have both : s.chosenQueue.isSome = true ↔
      (s.firstEligible .urgent s.lastUrgent).isSome = true ∨ (s.firstEligible .normal s.lastNormal).isSome = true := by
    unfold State.chosenQueue
    cases s.firstEligible .urgent s.lastUrgent <;> simp
  rw [both, first, first]
  constructor
  · rintro (⟨q, h, _⟩ | ⟨q, h, _⟩) <;> exact ⟨q, h⟩
  · rintro ⟨q, h⟩
    have hq : ∃ c, s.queue q = some c := by
      cases hc : s.queue q with
      | none => simp [State.eligible, hc] at h
      | some c => exact ⟨c, rfl⟩
    obtain ⟨c, hc⟩ := hq
    cases hk : c.service with
    | urgent => exact .inl ⟨q, h, by simp [State.inClass, hc, hk]⟩
    | normal => exact .inr ⟨q, h, by simp [State.inClass, hc, hk]⟩

/-- A fetch is possible when some queue is eligible. -/
theorem State.fetchPossible_iff {s : State} : FetchPossible s ↔ s.chosenQueue.isSome = true := by
  rw [State.chosenQueue_isSome]
  constructor
  · rintro ⟨h1, h2, h3, ⟨i, hi⟩, q, c, hc, h4, h5, h6⟩
    refine ⟨q, ?_⟩
    simp only [State.eligible, hc, h1, h2, h4, h5, h6, State.slotForFetch, h3, List.isEmpty_nil, Option.isNone_none, Bool.true_and,
      Bool.and_true, ne_eq, not_false_eq_true, decide_true]
    exact List.any_eq_true.2 ⟨i, List.mem_finRange i, by simp [State.isFree, hi]⟩
  · rintro ⟨q, h⟩
    cases hc : s.queue q with
    | none => simp [State.eligible, hc] at h
    | some c =>
      simp only [State.eligible, hc, State.slotForFetch, Bool.and_eq_true, decide_eq_true_eq, List.isEmpty_iff, Option.isNone_iff_eq_none,
        List.any_eq_true] at h
      obtain ⟨⟨⟨⟨⟨h1, h2⟩, h3⟩, h4⟩, h5, i, _, hi⟩, h6⟩ := h
      exact ⟨h1, h6, h5, ⟨i, by simpa [State.isFree] using hi⟩, q, c, hc, h2, h3, h4⟩

/-- The slot that a free value picks is FREE. -/
theorem State.anyFreeSlot_free {s : State} {i : SlotId} (h : s.anyFreeSlot = some i) : (s.slot i).state = .free := by
  have := List.mem_of_getElem? h
  simpa [State.freeSlots, State.isFree] using (List.mem_filter.1 this).2

/-- A slot is picked when one is FREE. -/
theorem State.anyFreeSlot_isSome {s : State} (h : ∃ i, (s.slot i).state = .free) : ∃ i, s.anyFreeSlot = some i := by
  obtain ⟨i, hi⟩ := h
  have : i ∈ s.freeSlots := List.mem_filter.2 ⟨List.mem_finRange i, by simp [State.isFree, hi]⟩
  exact ⟨_, List.getElem?_eq_getElem (Nat.mod_lt _ (List.length_pos_of_mem this))⟩

/-- A fetch that is possible takes some FREE slot. -/
theorem State.possibleFetch_some {s : State} (h : FetchPossible s) :
    ∃ i, (s.slot i).state = .free ∧ s.possibleFetch = some (.fetchStart i) := by
  obtain ⟨i, hi⟩ := State.anyFreeSlot_isSome h.2.2.2.1
  exact ⟨i, State.anyFreeSlot_free hi, by rw [State.possibleFetch, if_pos (State.fetchPossible_iff.1 h), hi]; rfl⟩

theorem State.possibleFetch_none {s : State} (h : ¬FetchPossible s) : s.possibleFetch = none :=
  if_neg fun e => h (State.fetchPossible_iff.2 e)

/-- The slot holds a READY engine operation. -/
theorem Slot.readyForEngine_iff {sl : Slot} : sl.readyForEngine = true ↔ ReadyForEngine sl := by
  unfold Slot.readyForEngine ReadyForEngine
  cases sl.op <;> simp

/-- The dispatch arbiter acts when a dispatch is possible. -/
theorem State.mayDispatch_iff {s : State} : s.mayDispatch = true ↔ DispatchPossible s := by
  have ready : s.earliestReady.isSome = true ↔ ∃ i ∈ s.order, ReadyForEngine (s.slot i) := by
    unfold State.earliestReady
    rw [List.find?_isSome]
    simp only [Slot.readyForEngine_iff]
  have idle : (!s.idleEngines.isEmpty) = true ↔
      (∃ e, (s.engine e).state = .idle) ∧ ∀ e, (s.engine e).state ≠ .detached := by
    have all (p : EngineId → Prop) : (∀ e, p e) ↔ p .re0 ∧ p .re1 := ⟨fun h => ⟨h _, h _⟩, fun h e => by cases e; exacts [h.1, h.2]⟩
    have some' (p : EngineId → Prop) : (∃ e, p e) ↔ p .re0 ∨ p .re1 :=
      ⟨fun ⟨e, h⟩ => by cases e; exacts [.inl h, .inr h], fun h => h.elim (⟨_, ·⟩) (⟨_, ·⟩)⟩
    unfold State.idleEngines
    rw [all, some']
    by_cases h0 : (s.engine .re0).state = .idle <;> by_cases h1 : (s.engine .re1).state = .idle <;>
      by_cases g : (s.engine .re0).state = .detached ∨ (s.engine .re1).state = .detached <;> simp_all
  unfold State.mayDispatch DispatchPossible
  rw [Bool.and_eq_true, Bool.and_eq_true, decide_eq_true_eq, idle, ready, and_assoc, and_assoc]

/-- The event of an empty queue: a fetch that is possible first, then a dispatch, then what falls due. -/
theorem State.ownEvent_dispatch {s : State} (h : ¬FetchPossible s) (hd : DispatchPossible s) : s.ownEvent = some .dispatch := by
  rw [State.ownEvent, State.possibleFetch_none h]
  exact if_pos (State.mayDispatch_iff.2 hd)

theorem State.ownEvent_due {s : State} (h : ¬FetchPossible s) (hd : ¬DispatchPossible s) : s.ownEvent = s.dueEvent := by
  rw [State.ownEvent, State.possibleFetch_none h]
  exact if_neg fun e => hd (State.mayDispatch_iff.1 e)

end Sys2Proof.Machine
end

