-- ==== Sys2Proof/Laws/Arbiter.lean ====
section
/-! SUPPORT. Everything that the end of a step can do at the fetch path (R47, R48, R110): `FetchServed`, after which no fetch is possible. -/

namespace Sys2Proof.Machine

open Sys2Proof.Safety

/-- The arbiter's choice is an eligible queue (R47), which has a context. -/
theorem State.chosenQueue_eligible {s : State} {q : QueueId} (h : s.chosenQueue = some q) : s.eligible q = true := by
  have first {k : ServiceClass} {last : QueueId} (h : s.firstEligible k last = some q) : s.eligible q = true := by
    have := List.find?_some h
    simp only [Bool.and_eq_true] at this
    exact this.1
  unfold State.chosenQueue at h
  split at h
  · next p hp => cases h; exact first hp
  · exact first h

theorem State.chosenQueue_queue {s : State} {q : QueueId} (h : s.chosenQueue = some q) :
    ∃ c, s.queue q = some c ∧ c.state = .opened := by
  have e := State.chosenQueue_eligible h
  unfold State.eligible at e
  split at e
  · cases e
  · next c hc =>
    simp only [Bool.and_eq_true, decide_eq_true_eq] at e
    exact ⟨c, hc, e.1.1.1.1.2⟩

/-- A step that leaves no fetch possible starts none. -/
theorem State.nextFetch_none {s : State} : s.nextFetch = none ↔ ¬FetchPossible s := by
  rw [State.fetchPossible_iff]
  unfold State.nextFetch
  cases hq : s.chosenQueue with
  | none => simp
  | some q =>
    have possible : FetchPossible s := State.fetchPossible_iff.2 (by rw [hq]; rfl)
    obtain ⟨i, hi⟩ := State.anyFreeSlot_isSome possible.2.2.2.1
    obtain ⟨c, hc, _⟩ := State.chosenQueue_queue hq
    simp [hc, hi]

/-- The fetch that starts next is the chosen queue's, in a FREE slot. -/
theorem State.nextFetch_some {s : State} {q : QueueId} {c : Queue} {i : SlotId} (h : s.nextFetch = some (q, c, i)) :
    s.chosenQueue = some q ∧ s.queue q = some c ∧ (s.slot i).state = .free := by
  unfold State.nextFetch at h
  split at h
  · cases h
  · next p hp =>
    split at h
    · next d j hd hj => cases h; exact ⟨hp, hd, State.anyFreeSlot_free hj⟩
    · cases h

/-- A refused fetch (R110, R50). -/
theorem State.refuseFetch_spec (s : State) (q : QueueId) (c : Queue) (i : SlotId) : FetchRefused s (s.refuseFetch q c i) q c i := by
  unfold State.refuseFetch
  dsimp only
  generalize ht : ({ s.startFetch q c i with fetch := none } : State) = t
  have slot : t.slot i = { Slot.freed with state := .fetching, queue := some q } := by
    rw [← ht]; exact (State.slot_setSlot s i i _).trans (if_pos rfl)
  have queue : t.queue q = some { c with occupied := c.occupied + 1 } := by
    rw [← ht]; exact (State.queue_setQueue _ q q _).trans (if_pos rfl)
  have cq : t.cq = s.cq := by rw [← ht]; rfl
  refine ⟨_, ?_, fun k => ?_, State.issueWrites_spec _⟩
  · rw [slot]
    unfold State.post State.modifyQueue
    rw [show (t.setSlot i _).queue q = t.queue q from rfl, queue]
    rw [← ht]
    simp only [Option.map_some, State.startFetch, State.setQueue, State.modifyCq, State.setCq, State.setSlot, State.queue,
      Vector.set_set]
    simp
  · unfold State.post State.modifyQueue
    rw [show (t.setSlot i _).queue q = t.queue q from rfl, queue]
    simp only [Option.map_some, State.queue_setQueue, if_true]
    show (State.setCq _ c.cq _).cq k = _
    rw [State.cq_setCq, ← cq]
    split
    · next h => rw [h]; rfl
    · rfl

/-- A fetch that is sent takes the fetch path, and no other fetch is possible. -/
theorem State.startFetch_impossible (s : State) (q : QueueId) (c : Queue) (i : SlotId) : ¬FetchPossible (s.startFetch q c i) :=
  fun h => nomatch h.2.1

/-- A refused fetch halts its queue and touches no other. -/
theorem fetchRefused_queue {s t : State} {q : QueueId} {c : Queue} {i : SlotId} (h : FetchRefused s t q c i) (p : QueueId) :
    t.queue p = if q = p then some { c with occupied := c.occupied + 1, state := .halted } else s.queue p := by
  obtain ⟨v, hv, _, l, _, _, ht, _⟩ := h
  have queues : t.queues = v.queues := by rw [ht]
  show t.queues[p] = _
  rw [queues, hv]
  exact State.queue_setQueue _ q p _

/-- The queues that are OPEN. -/
def State.openQueues (s : State) : List QueueId :=
  (List.finRange 8).filter fun q => (s.queue q).any fun c => decide (c.state = .opened)

theorem State.mem_openQueues {s : State} {q : QueueId} : q ∈ s.openQueues ↔ ∃ c, s.queue q = some c ∧ c.state = .opened := by
  unfold State.openQueues
  rw [List.mem_filter]
  cases s.queue q <;> simp

/-- A refused fetch leaves one OPEN queue fewer. -/
theorem fetchRefused_fewer {s t : State} {q : QueueId} {c : Queue} {i : SlotId} (h : FetchRefused s t q c i) (hq : q ∈ s.openQueues) :
    t.openQueues.length < s.openQueues.length := by
  have sub : t.openQueues.Sublist (s.openQueues.filter (· ≠ q)) := by
    unfold State.openQueues
    rw [List.filter_filter]
    refine List.monotone_filter_right _ fun p hp => ?_
    rw [fetchRefused_queue h] at hp
    split at hp
    · simp at hp
    · next hne => rw [Bool.and_eq_true, hp]; exact ⟨decide_eq_true fun e => hne e.symm, rfl⟩
  refine Nat.lt_of_le_of_lt sub.length_le ?_
  rw [← List.countP_eq_length_filter]
  exact List.countP_lt_length_iff.2 ⟨q, hq, by simp⟩

/-- Enough rounds serve all that can be served, and leave no fetch possible. -/
theorem State.serve_spec (n : Nat) (s : State) (h : s.openQueues.length ≤ n) :
    FetchServed s (s.serve n) ∧ ¬FetchPossible (s.serve n) := by
  induction n generalizing s with
  | zero =>
    have none : ¬FetchPossible s := by
      rintro ⟨_, _, _, _, q, c, hc, ho, _⟩
      have := State.mem_openQueues.2 ⟨c, hc, ho⟩
      rw [List.length_eq_zero_iff.1 (Nat.le_zero.1 h)] at this
      cases this
    exact ⟨.rest none, none⟩
  | succ n ih =>
    unfold State.serve
    split
    · next hn => exact ⟨.rest (State.nextFetch_none.1 hn), State.nextFetch_none.1 hn⟩
    · next q c i hn =>
      obtain ⟨hq, hc, hi⟩ := State.nextFetch_some hn
      have opened : q ∈ s.choose.openQueues := State.mem_openQueues.2 (State.chosenQueue_queue (s := s) hq)
      unfold State.beginFetch
      split
      · next hb =>
        have stop := State.startFetch_impossible s.choose q c i
        have same : (s.choose.startFetch q c i).serve n = s.choose.startFetch q c i := by
          cases n with
          | zero => rfl
          | succ n => unfold State.serve; rw [State.nextFetch_none.2 stop]
        rw [same]
        refine ⟨?_, stop⟩
        have eq : s.choose.startFetch q c i = fetchBegun { s with choices := s.choices + 1 } q c i := by
          unfold State.startFetch fetchBegun
          rw [show s.choose.link.busMastering = true from hb]
          rfl
        rw [eq]
        exact .begun hq hc hi hb
      · next hb =>
        have refused := State.refuseFetch_spec s.choose q c i
        have fewer := fetchRefused_fewer refused opened
        rw [show s.choose.openQueues = s.openQueues from rfl] at fewer
        have rest := ih (s.choose.refuseFetch q c i) (by omega)
        exact ⟨.refused hq hc hi (by simpa using hb) refused rest.1, rest.2⟩

/-- Everything that the end of a step can do at the fetch path (R47). -/
theorem State.serveFetch_served (s : State) : FetchServed s s.serveFetch :=
  (s.serve_spec 8 (List.length_filter_le _ _)).1

/-- After it, no fetch is possible. -/
theorem State.serveFetch_impossible (s : State) : ¬FetchPossible s.serveFetch := (s.serve_spec 8 (List.length_filter_le _ _)).2

/-- Where no fetch is possible, none starts. -/
theorem State.serveFetch_rest {s : State} (h : ¬FetchPossible s) : s.serveFetch = s := by
  unfold State.serveFetch State.serve
  rw [State.nextFetch_none.2 h]

/-- What the fetches that start leave as it is. -/
theorem fetchServed_same {s t : State} (h : FetchServed s t) : t = { s with
    slots := t.slots, queues := t.queues, fetch := t.fetch, lastUrgent := t.lastUrgent, lastNormal := t.lastNormal, cqs := t.cqs,
    link := { s.link with written := t.link.written }, choices := t.choices } := by
  induction h with
  | rest _ => rfl
  | begun _ _ _ _ => rfl
  | refused _ _ _ _ hr _ ih =>
    obtain ⟨w, hw, _, l, _, _, hv, _⟩ := hr
    rw [ih]
    rw [hv]
    rw [hw]
    rfl

/-- A command whose meaning ends with the serving of the fetch path goes to the state before it. -/
theorem goesTo_of_serve {c : Instr} {s u : State} (h : exec c s = .next u.serveFetch) : GoesTo c s u :=
  ⟨_, h, u.serveFetch_served⟩

end Sys2Proof.Machine
end

