-- ==== Sys2Proof/Laws/Memory.lean ====
section
/-! SUPPORT. The laws of the sparse stores: a read after a write to the same place gives the value written, a write leaves every
other place alone, and every write keeps the canonical form; and the same for frame memory up to whole lines. -/

namespace Sys2Proof.Machine

/-! ## Sparse stores -/

section Stores

variable {α : Type} [DecidableEq α] (dflt : α)

omit [DecidableEq α] in
theorem Store.read_of_lt {m : List (Nat × α)} {a : Nat} (h : ∀ p ∈ m, a < p.1) : Store.read dflt m a = dflt := by
  induction m with
  | nil => rfl
  | cons p rest ih =>
    have hp := h p (by simp)
    simp only [Store.read]
    rw [if_neg (by omega)]
    exact ih fun q hq => h q (by simp [hq])

theorem Store.mem_write {m : List (Nat × α)} {a : Nat} {v : α} {p : Nat × α} (h : p ∈ Store.write dflt m a v) :
    p ∈ m ∨ p = (a, v) := by
  induction m with
  | nil => simp only [Store.write] at h; split at h <;> simp_all
  | cons q rest ih =>
    simp only [Store.write] at h
    repeat' split at h
    all_goals simp_all
    all_goals tauto

theorem Store.write_keeps {m : List (Nat × α)} (hm : Store.Wf dflt m) (a : Nat) (v : α) :
    Store.Wf dflt (Store.write dflt m a v) := by
  induction m with
  | nil =>
    simp only [Store.write]
    split <;> simp_all [Store.Wf]
  | cons q rest ih =>
    obtain ⟨hs, hd⟩ := hm
    rw [List.pairwise_cons] at hs
    have hrest : Store.Wf dflt rest := ⟨hs.2, fun p hp => hd p (by simp [hp])⟩
    simp only [Store.write]
    split
    · split
      · exact ⟨List.pairwise_cons.2 hs, hd⟩
      · refine ⟨List.pairwise_cons.2 ⟨?_, List.pairwise_cons.2 hs⟩, ?_⟩
        · intro p hp
          rcases List.mem_cons.1 hp with rfl | hp
          · simpa
          · have := hs.1 p hp; omega
        · intro p hp
          rcases List.mem_cons.1 hp with rfl | hp
          · assumption
          · exact hd p hp
    · split
      · split
        · exact hrest
        · refine ⟨List.pairwise_cons.2 ⟨?_, hs.2⟩, ?_⟩
          · intro p hp; have := hs.1 p hp; omega
          · intro p hp
            rcases List.mem_cons.1 hp with rfl | hp
            · assumption
            · exact hd p (by simp [hp])
      · have h := ih hrest
        refine ⟨List.pairwise_cons.2 ⟨?_, h.1⟩, ?_⟩
        · intro p hp
          rcases Store.mem_write dflt hp with hp | rfl
          · exact hs.1 p hp
          · omega
        · intro p hp
          rcases List.mem_cons.1 hp with rfl | hp
          · exact hd _ (by simp)
          · exact h.2 p hp

theorem Store.read_write_self {m : List (Nat × α)} (hm : Store.Wf dflt m) (a : Nat) (v : α) :
    Store.read dflt (Store.write dflt m a v) a = v := by
  induction m with
  | nil => simp only [Store.write]; split <;> simp_all [Store.read]
  | cons q rest ih =>
    obtain ⟨hs, hd⟩ := hm
    rw [List.pairwise_cons] at hs
    have hrest : Store.Wf dflt rest := ⟨hs.2, fun p hp => hd p (by simp [hp])⟩
    simp only [Store.write]
    split
    · split
      · rename_i hlt hv
        subst hv
        refine Store.read_of_lt _ fun p hp => ?_
        rcases List.mem_cons.1 hp with rfl | hp
        · exact hlt
        · have := hs.1 p hp; omega
      · simp [Store.read]
    · split
      · split
        · rename_i heq hv
          subst hv
          refine Store.read_of_lt _ fun p hp => ?_
          have := hs.1 p hp; omega
        · simp [Store.read]
      · simp only [Store.read]
        rw [if_neg (by omega)]
        exact ih hrest

theorem Store.read_write_other (m : List (Nat × α)) {a b : Nat} (v : α) (h : b ≠ a) :
    Store.read dflt (Store.write dflt m a v) b = Store.read dflt m b := by
  induction m with
  | nil =>
    simp only [Store.write]
    split
    · rfl
    · simp only [Store.read]; rw [if_neg (by omega)]
  | cons q rest ih =>
    simp only [Store.write]
    split
    · split
      · rfl
      · simp only [Store.read]; rw [if_neg (by omega)]
    · split
      · rename_i heq
        split
        · simp only [Store.read]
          rw [if_neg (by omega)]
        · simp only [Store.read]
          rw [if_neg (by omega), if_neg (by omega)]
      · simp only [Store.read]
        split
        · rfl
        · exact ih

end Stores

/-! ## Frame memory, byte by byte -/

theorem Memory.wf_nil : Memory.wf [] := ⟨⟨List.Pairwise.nil, by simp⟩, by simp⟩

theorem Memory.write_keeps {m : FrameMemory} (h : Memory.wf m) (a : Nat) (v : Byte) : Memory.wf (Memory.write m a v) := by
  unfold Memory.write
  split
  · refine ⟨Store.write_keeps _ h.1 a v, fun p hp => ?_⟩
    rcases Store.mem_write _ hp with hp | rfl
    · exact h.2 p hp
    · assumption
  · exact h

theorem Memory.read_write_self {m : FrameMemory} (h : Memory.wf m) {a : Nat} (ha : a < Config.frameBytes) (v : Byte) :
    Memory.read (Memory.write m a v) a = v := by
  rw [Memory.write, if_pos ha]
  exact Store.read_write_self _ h.1 a v

theorem Memory.read_write_other (m : FrameMemory) {a b : Nat} (v : Byte) (hb : b ≠ a) :
    Memory.read (Memory.write m a v) b = Memory.read m b := by
  unfold Memory.write
  split
  · exact Store.read_write_other _ m v hb
  · rfl

theorem Memory.writeBytes_keeps {m : FrameMemory} (h : Memory.wf m) (a : Nat) (bs : List Byte) :
    Memory.wf (Memory.writeBytes m a bs) := by
  induction bs generalizing m a with
  | nil => exact h
  | cons b rest ih => exact ih (Memory.write_keeps h a b) (a + 1)

theorem Memory.read_writeBytes_other (m : FrameMemory) {a b : Nat} (bs : List Byte)
    (hb : b < a ∨ a + bs.length ≤ b) : Memory.read (Memory.writeBytes m a bs) b = Memory.read m b := by
  induction bs generalizing m a with
  | nil => rfl
  | cons c rest ih =>
    simp only [List.length_cons] at hb
    rw [Memory.writeBytes, ih _ (by omega), Memory.read_write_other m c (by omega)]

theorem Memory.read_writeBytes_at {m : FrameMemory} (h : Memory.wf m) {a : Nat} (bs : List Byte)
    (ha : a + bs.length ≤ Config.frameBytes) (k : Nat) (hk : k < bs.length) :
    Memory.read (Memory.writeBytes m a bs) (a + k) = bs.getD k 0#8 := by
  induction bs generalizing m a k with
  | nil => simp at hk
  | cons c rest ih =>
    simp only [List.length_cons] at ha hk
    rw [Memory.writeBytes]
    cases k with
    | zero =>
      rw [Memory.read_writeBytes_other _ rest (by omega), Nat.add_zero,
        Memory.read_write_self h (by omega)]
      rfl
    | succ k =>
      rw [show a + (k + 1) = a + 1 + k by omega, ih (Memory.write_keeps h a c) (by omega) k (by omega)]
      rfl

/-! ## Pixels and lines keep the canonical form -/

theorem writePixel_keeps {m : FrameMemory} (h : Memory.wf m) (d : SurfaceFields) (x y : Nat) (v : BitVec 32) :
    Memory.wf (writePixel m d x y v) := by
  unfold writePixel
  split
  · exact Memory.write_keeps h _ _
  · exact Memory.writeBytes_keeps h _ _

theorem Job.drawPixel_keeps (j : Job) (palettes : List (Nat × BitVec 24)) (d : SurfaceFields) (y : Nat) {m : FrameMemory}
    (h : Memory.wf m) (x : Nat) : Memory.wf (j.drawPixel palettes d y m x) := by
  unfold Job.drawPixel
  split
  · exact h
  · exact writePixel_keeps h _ _ _ _

theorem foldl_keeps {β : Type} {P : FrameMemory → Prop} {f : FrameMemory → β → FrameMemory}
    (hf : ∀ m x, P m → P (f m x)) (l : List β) {m : FrameMemory} (h : P m) : P (l.foldl f m) := by
  induction l generalizing m with
  | nil => exact h
  | cons x rest ih => exact ih (hf m x h)

theorem Job.drawSome_keeps (j : Job) (palettes : List (Nat × BitVec 24)) {m : FrameMemory} (h : Memory.wf m)
    (k start count : Nat) : Memory.wf (j.drawSome palettes m k start count) := by
  unfold Job.drawSome
  split
  · exact foldl_keeps (P := Memory.wf) (fun m x hm => j.drawPixel_keeps palettes _ _ hm x) _ h
  · exact h

theorem Job.drawLine_keeps (j : Job) (palettes : List (Nat × BitVec 24)) {m : FrameMemory} (h : Memory.wf m) (k : Nat) :
    Memory.wf (j.drawLine palettes m k) := j.drawSome_keeps palettes h k 0 _

theorem Job.drawRest_keeps (j : Job) (palettes : List (Nat × BitVec 24)) {m : FrameMemory} (h : Memory.wf m) (k : Nat) :
    Memory.wf (j.drawRest palettes m k) := j.drawSome_keeps palettes h k _ _

/-- Some pixels of a line, and then some more, are all of them at once (R90). -/
theorem Job.drawSome_add (j : Job) (palettes : List (Nat × BitVec 24)) (m : FrameMemory) (k start n count : Nat) :
    j.drawSome palettes (j.drawSome palettes m k start n) k (start + n) count = j.drawSome palettes m k start (n + count) := by
  unfold Job.drawSome
  cases j.op.rect <;> cases j.dst <;> first | rfl | (dsimp only; rw [← List.foldl_append, List.take_add, List.drop_drop])

theorem Job.importPixel_keeps (j : Job) (palettes : List (Nat × BitVec 24)) (line i : Nat) (v : BitVec 32) {m : FrameMemory}
    (h : Memory.wf m) : Memory.wf (j.importPixel palettes line i v m) := by
  unfold Job.importPixel
  split
  · dsimp only
    split
    · exact h
    · split
      · exact h
      · exact writePixel_keeps h _ _ _ _
  · exact h

theorem Job.importRun_keeps (j : Job) (palettes : List (Nat × BitVec 24)) (line i : Nat) (vs : List (BitVec 32))
    {m : FrameMemory} (h : Memory.wf m) : Memory.wf (j.importRun palettes line i vs m) := by
  induction vs generalizing i m with
  | nil => exact h
  | cons v rest ih => exact ih (i + 1) (j.importPixel_keeps palettes line i v h)

/-! ## A pixel write and the bytes around it -/

theorem Format.encode_length (f : Format) (v : BitVec 32) : (f.encode v).length = f.bytes := by cases f <;> rfl

/-- A pixel write leaves every byte alone but those that hold the pixel (R1). -/
theorem read_writePixel_other (m : FrameMemory) (d : SurfaceFields) (x y : Nat) (v : BitVec 32) {a : Nat}
    (ha : a < d.pixelByte x (d.physicalRow y) ∨ d.pixelByte x (d.physicalRow y) + d.format.touched ≤ a) :
    Memory.read (writePixel m d x y v) a = Memory.read m a := by
  unfold writePixel
  split
  · next hf =>
    rw [hf] at ha
    exact Memory.read_write_other m _ (by simp only [Format.touched] at ha; omega)
  · next hf =>
    refine Memory.read_writeBytes_other m _ ?_
    rw [Format.encode_length]
    generalize d.format = f at *
    cases f <;> simp_all [Format.touched, Format.bytes]

/-- The palette store keeps its canonical form (R16, R18). -/
theorem Palette.write_keeps {m : List (Nat × BitVec 24)} (h : Store.Wf 0#24 m) (p : PaletteId) (e : Nat) (c : BitVec 24) :
    Store.Wf 0#24 (Palette.write m p e c) := Store.write_keeps _ h _ _

theorem Palette.read_write_self {m : List (Nat × BitVec 24)} (h : Store.Wf 0#24 m) (p : PaletteId) (e : BitVec 8)
    (c : BitVec 24) : Palette.read (Palette.write m p e.toNat c) p e = c := Store.read_write_self _ h _ _

theorem Palette.read_write_other (m : List (Nat × BitVec 24)) (p q : PaletteId) (e d : BitVec 8)
    (c : BitVec 24) (hne : q ≠ p ∨ d ≠ e) : Palette.read (Palette.write m p e.toNat c) q d = Palette.read m q d := by
  refine Store.read_write_other _ m _ ?_
  have hd := d.isLt
  have he := e.isLt
  unfold Palette.number
  rcases hne with hne | hne
  · have : q.val ≠ p.val := fun hqp => hne (Fin.ext hqp)
    omega
  · have : d.toNat ≠ e.toNat := fun hde => hne (BitVec.eq_of_toNat_eq hde)
    omega

end Sys2Proof.Machine
end

