-- ==== Sys2Proof/Laws/Keep.lean ====
section
/-! SUPPORT. What the device-level operations and most commands keep: the relation Keeps, weaker than Settled, and one lemma for each
shared operation and for each command that stays inside it. -/

namespace Sys2Proof.Machine

open Sys2Proof.Safety (extent)

/-- What a completion queue holds against its ring: the entries written and not consumed, and the write in flight (R141). -/
def CompletionQueue.load (c : CompletionQueue) : Nat := c.outstanding + if c.inFlight.isSome then 1 else 0

/-- What most steps leave as it is, and how far they go in the marks, the surfaces and the completion rings. -/
structure Keeps (s t : State) : Prop where
  pending : t.pending = s.pending
  frame : t.frame = s.frame
  palettes : t.palettes = s.palettes
  flags : t.control.submitIgnored = s.control.submitIgnored ∧ t.control.consumeIgnored = s.control.consumeIgnored ∧
    t.control.qctlIgnored = s.control.qctlIgnored ∧ t.control.enableIgnored = s.control.enableIgnored
  marks : ∀ m, (s.mark m).toNat ≤ (t.mark m).toNat
  surfaces : ∀ i, (t.surface i).state = .free ∨
    ((s.surface i).state ≠ .free ∧ extent (t.surface i) = extent (s.surface i))
  cqs : ∀ k d, t.cq k = some d → ∃ c, s.cq k = some c ∧ d.size = c.size ∧ (d.load ≤ c.load ∨ d.load + 1 ≤ d.size)

namespace Keeps

/-- A state that agrees with another on the fields of the relation is kept from it. -/
theorem of_same {s t : State} (pending : t.pending = s.pending) (frame : t.frame = s.frame) (palettes : t.palettes = s.palettes)
    (flags : t.control.submitIgnored = s.control.submitIgnored ∧ t.control.consumeIgnored = s.control.consumeIgnored ∧
      t.control.qctlIgnored = s.control.qctlIgnored ∧ t.control.enableIgnored = s.control.enableIgnored)
    (marks : t.marks = s.marks) (surfaces : t.surfaces = s.surfaces) (cqs : t.cqs = s.cqs) : Keeps s t where
  pending := pending
  frame := frame
  palettes := palettes
  flags := flags
  marks := fun m => by simp [State.mark, marks]
  surfaces := fun i => by
    have h : t.surface i = s.surface i := by simp [State.surface, surfaces]
    rw [h]
    by_cases hf : (s.surface i).state = .free
    · exact .inl hf
    · exact .inr ⟨hf, rfl⟩
  cqs := fun k d hd => by
    have h : t.cq k = s.cq k := by simp [State.cq, cqs]
    exact ⟨d, h ▸ hd, rfl, .inl (Nat.le_refl _)⟩

theorem refl (s : State) : Keeps s s := of_same rfl rfl rfl ⟨rfl, rfl, rfl, rfl⟩ rfl rfl rfl

theorem trans {s t u : State} (h : Keeps s t) (g : Keeps t u) : Keeps s u where
  pending := g.pending.trans h.pending
  frame := g.frame.trans h.frame
  palettes := g.palettes.trans h.palettes
  flags := ⟨g.flags.1.trans h.flags.1, g.flags.2.1.trans h.flags.2.1, g.flags.2.2.1.trans h.flags.2.2.1,
    g.flags.2.2.2.trans h.flags.2.2.2⟩
  marks := fun m => (h.marks m).trans (g.marks m)
  surfaces := fun i => by
    rcases g.surfaces i with hf | ⟨gs, ge⟩
    · exact .inl hf
    · rcases h.surfaces i with hf | ⟨hs, he⟩
      · exact absurd hf gs
      · exact .inr ⟨hs, ge.trans he⟩
  cqs := fun k d hd => by
    obtain ⟨c, hc, h1, h2⟩ := g.cqs k d hd
    obtain ⟨b, hb, h3, h4⟩ := h.cqs k c hc
    exact ⟨b, hb, h1.trans h3, by omega⟩

theorem of_settled {s t : State} (h : Settled s t) : Keeps s t where
  pending := h.pending
  frame := h.frame
  palettes := h.palettes
  flags := by rw [h.control]; exact ⟨rfl, rfl, rfl, rfl⟩
  marks := h.marks
  surfaces := h.surfaces
  cqs := fun k d hd => by
    rcases h.cqs k with hn | ⟨c, l, w, hc, ht, hw⟩
    · simp [hn] at hd
    · rw [ht] at hd
      cases hd
      refine ⟨c, hc, rfl, ?_⟩
      rcases hw with rfl | ⟨_, hw⟩
      · exact .inl (Nat.le_refl _)
      · refine .inr ?_
        simp only [CompletionQueue.load]
        split <;> omega

end Keeps

/-! ## The fetches that start within a step -/

theorem State.startFetch_keeps (s : State) (q : QueueId) (c : Queue) (i : SlotId) : Keeps s (s.startFetch q c i) :=
  .of_same rfl rfl rfl ⟨rfl, rfl, rfl, rfl⟩ rfl rfl rfl

theorem State.refuseFetch_keeps (s : State) (q : QueueId) (c : Queue) (i : SlotId) : Keeps s (s.refuseFetch q c i) := by
  have freed : Keeps (s.startFetch q c i) { s.startFetch q c i with fetch := none } :=
    .of_same rfl rfl rfl ⟨rfl, rfl, rfl, rfl⟩ rfl rfl rfl
  refine ((s.startFetch_keeps q c i).trans freed).trans (.of_settled ?_)
  exact (((State.setSlot_settled _ i _).trans (State.modifyQueue_settled _ q _)).trans (State.post_settled _ i q)).trans
    (State.issueWrites_settled _)

theorem State.beginFetch_keeps (s : State) (q : QueueId) (c : Queue) (i : SlotId) : Keeps s (s.beginFetch q c i) := by
  unfold State.beginFetch
  split
  · exact s.startFetch_keeps q c i
  · exact s.refuseFetch_keeps q c i

theorem State.serve_keeps (n : Nat) (s : State) : Keeps s (s.serve n) := by
  induction n generalizing s with
  | zero => exact .refl s
  | succ n ih =>
    unfold State.serve
    split
    · exact .refl s
    · exact ((Keeps.of_settled s.choose_settled).trans (State.beginFetch_keeps _ _ _ _)).trans (ih _)

theorem State.serveFetch_keeps (s : State) : Keeps s s.serveFetch := s.serve_keeps 8

/-! ## Engines -/

theorem State.setEngine_keeps (s : State) (e : EngineId) (g : Engine) : Keeps s (s.setEngine e g) :=
  .of_same rfl rfl rfl ⟨rfl, rfl, rfl, rfl⟩ rfl rfl rfl

theorem State.askEngines_keeps (s : State) (asked : SlotId → Bool) : Keeps s (s.askEngines asked) := by
  unfold State.askEngines
  exact .of_same rfl rfl rfl ⟨rfl, rfl, rfl, rfl⟩ rfl rfl rfl

theorem State.reportEnd_keeps (s : State) (e : EngineId) (st : Status) (n : Nat) : Keeps s (s.reportEnd e st n) := by
  unfold State.reportEnd
  dsimp only
  split
  · exact ((s.setEngine_keeps e _).trans (.of_settled (State.endSlots_settled _ _))).trans (State.serveFetch_keeps _)
  · exact s.setEngine_keeps e _

theorem State.leaveSlot_keeps (s : State) (g : Engine) : Keeps s (s.leaveSlot g) := by
  unfold State.leaveSlot
  split
  · exact .of_settled (s.setSlot_settled _ _)
  · exact .refl s

theorem State.dropEngine_keeps (s : State) (e : EngineId) : Keeps s (s.dropEngine e) :=
  (s.leaveSlot_keeps _).trans (State.setEngine_keeps _ _ _)

theorem State.hostFault_keeps (s : State) (e : EngineId) : Keeps s (s.hostFault e) := by
  unfold State.hostFault
  split
  · exact s.reportEnd_keeps e _ _
  · exact s.dropEngine_keeps e

theorem State.countLine_keeps (s : State) (g : Engine) : Keeps s (s.countLine g) := by
  unfold State.countLine
  split
  · exact .of_settled (s.setSlot_settled _ _)
  · exact .refl s

theorem State.beginLine_keeps (s : State) (e : EngineId) : Keeps s (s.beginLine e) := by
  unfold State.beginLine
  dsimp only
  split
  · exact (s.setEngine_keeps e _).trans (State.hostFault_keeps _ e)
  · exact s.setEngine_keeps e _

theorem State.afterLine_keeps (s : State) (e : EngineId) (j : Job) : Keeps s (s.afterLine e j) := by
  unfold State.afterLine
  dsimp only
  refine (s.countLine_keeps (s.engine e)).trans ?_
  split
  · split
    · exact State.reportEnd_keeps _ e _ _
    · exact State.beginLine_keeps _ e
  · split
    · exact State.reportEnd_keeps _ e _ _
    · exact State.dropEngine_keeps _ e
  · exact State.dropEngine_keeps _ e
  · exact .refl _

/-! ## Pixels visited within a line -/

/-- All that the visit of some pixels can change (R90): frame memory, which keeps its canonical form, and the progress of the engine's job. -/
theorem State.drawOn_same (s : State) (e : EngineId) (n : Nat) :
    s.drawOn e n = { s with frame := (s.drawOn e n).frame, engines := (s.drawOn e n).engines } := by
  unfold State.drawOn
  dsimp only
  split
  · split <;> rfl
  · rfl

theorem State.drawOn_wf {s : State} (h : Memory.wf s.frame) (e : EngineId) (n : Nat) : Memory.wf (s.drawOn e n).frame := by
  unfold State.drawOn
  dsimp only
  split
  · split
    · exact Job.drawSome_keeps _ _ h _ _ _
    · exact h
  · exact h

theorem State.drawOn_engine (s : State) (e : EngineId) (n : Nat) (d : EngineId) :
    (s.drawOn e n).engine d = s.engine d ∨
    ∃ j k, (s.engine d).job = some j ∧ (s.drawOn e n).engine d = { s.engine d with job := some { j with drawn := k } } := by
  unfold State.drawOn
  dsimp only
  split
  · next j hj =>
    split
    · rw [State.engine_setEngine]
      split
      · next he => subst he; exact .inr ⟨j, _, hj, rfl⟩
      · exact .inl rfl
    · exact .inl rfl
  · exact .inl rfl

theorem State.visitPixels_same (s : State) :
    s.visitPixels = { s with frame := s.visitPixels.frame, engines := s.visitPixels.engines, choices := s.choices + 2 } := by
  unfold State.visitPixels
  rw [State.drawOn_same (s.drawOn _ _), State.drawOn_same s]

theorem State.visitPixels_wf {s : State} (h : Memory.wf s.frame) : Memory.wf s.visitPixels.frame :=
  State.drawOn_wf (State.drawOn_wf h _ _) _ _

/-! ## Device-level events -/

theorem State.reach_keeps (s : State) (d : Time) : Keeps s (s.reach d) :=
  .of_same rfl rfl rfl ⟨rfl, rfl, rfl, rfl⟩ rfl rfl rfl

theorem State.clearShown_keeps (s : State) : Keeps s s.clearShown := by
  unfold State.clearShown
  split
  · next id _ =>
    refine .of_settled (s.modifySurface_settled id _ ?_)
    by_cases h : (s.surface id).state = .free
    · exact .inl h
    · exact .inr ⟨h, rfl⟩
  · exact .refl s

theorem State.enterFault_keeps (s : State) (cause : FaultCause) : Keeps s (s.enterFault cause) := by
  unfold State.enterFault
  dsimp only
  refine .trans ?_ ((State.askEngines_keeps _ _).trans (.of_settled (State.interrupt_settled _ _)))
  exact
    { pending := rfl, frame := rfl, palettes := rfl, flags := ⟨rfl, rfl, rfl, rfl⟩, marks := fun _ => Nat.le_refl _,
      surfaces := (Keeps.refl s).surfaces
      cqs := fun k d hd => by
        simp only [State.cq, Fin.getElem_fin, Vector.getElem_ofFn, Option.map_eq_some_iff] at hd ⊢
        obtain ⟨c, hc, rfl⟩ := hd
        exact ⟨c, hc, rfl, .inl (by simp [CompletionQueue.load, CompletionQueue.frozen])⟩ }

theorem State.enterStopping_keeps (s : State) : Keeps s s.enterStopping := by
  unfold State.enterStopping
  dsimp only
  generalize hs1 : ({ s with
    control := { s.control with deviceState := .stopping, enable := false }
    fetch := s.fetch.map fun (f : Fetch) => { f with discard := true }
    queues := Vector.ofFn fun q => s.queues[q].map Queue.dropAcknowledgement
    ackOrder := [] } : State) = s1
  have h1 : Keeps s s1 := by
    rw [← hs1]
    exact .of_same rfl rfl rfl ⟨rfl, rfl, rfl, rfl⟩ rfl rfl rfl
  generalize hs2 : ({ s1.clearShown with presentation := s1.clearShown.presentation.turnedOff } : State) = s2
  have h2 : Keeps s1.clearShown s2 := by
    rw [← hs2]
    exact .of_same rfl rfl rfl ⟨rfl, rfl, rfl, rfl⟩ rfl rfl rfl
  exact ((h1.trans s1.clearShown_keeps).trans (h2.trans (s2.askEngines_keeps _))).trans
    (.of_settled (State.endSlots_settled _ _))

theorem State.discardSlots_keeps (s : State) : Keeps s s.discardSlots := by
  unfold State.discardSlots
  dsimp only
  refine .trans (.of_settled (Settled.foldl (fun t i => t.releaseClaim_settled (s.slot i) .aborted) (List.finRange 32) s)) ?_
  exact .of_same rfl rfl rfl ⟨rfl, rfl, rfl, rfl⟩ rfl rfl rfl

theorem State.faultToOff_keeps (s : State) : Keeps s s.faultToOff := by
  unfold State.faultToOff
  dsimp only
  refine ((s.discardSlots_keeps.trans (State.clearShown_keeps _)).trans (.of_settled (State.unconfigure_settled _))).trans ?_
  exact .of_same rfl rfl rfl ⟨rfl, rfl, rfl, rfl⟩ rfl rfl rfl

theorem State.beginLoad_keeps (s : State) : Keeps s s.beginLoad := by
  unfold State.beginLoad
  dsimp only
  split
  · refine .trans ?_ (State.enterFault_keeps _ _)
    exact .of_same rfl rfl rfl ⟨rfl, rfl, rfl, rfl⟩ rfl rfl rfl
  · split
    · exact .of_same rfl rfl rfl ⟨rfl, rfl, rfl, rfl⟩ rfl rfl rfl
    · refine .trans ?_ (State.enterFault_keeps _ _)
      exact .of_same rfl rfl rfl ⟨rfl, rfl, rfl, rfl⟩ rfl rfl rfl

theorem State.disableWrite_keeps (s : State) : Keeps s s.disableWrite := by
  unfold State.disableWrite
  split
  · split
    · exact .of_same rfl rfl rfl ⟨rfl, rfl, rfl, rfl⟩ rfl rfl rfl
    · exact s.enterStopping_keeps
    · exact s.faultToOff_keeps
    · exact .refl s
    · exact .refl s
  · exact .refl s

theorem State.placeAtOnce_settled (s : State) (q : QueueId) : Settled s (s.placeAtOnce q) := by
  unfold State.placeAtOnce
  split
  · split
    · split
      · exact (s.choose_settled.trans (State.placeAck_settled _ _ _ _ _)).trans (State.issueWrites_settled _)
      · exact .refl s
    · exact .refl s
  · exact .refl s

theorem State.abort_keeps (s : State) (q : QueueId) (c : Queue) :
    Keeps s ((((s.beginAbort q c).askEngines fun i => (s.slot i).queue = some q).endSlots
      (((s.beginAbort q c).askEngines fun i => (s.slot i).queue = some q).abortedEndings
        fun sl => sl.queue = some q && sl.endsAtOnce)).placeAtOnce q) := by
  refine .trans ?_ ((State.askEngines_keeps _ _).trans
    ((Keeps.of_settled (State.endSlots_settled _ _)).trans (.of_settled (State.placeAtOnce_settled _ q))))
  exact .of_same rfl rfl rfl ⟨rfl, rfl, rfl, rfl⟩ rfl rfl rfl

/-! ## The fetch path and the window -/

theorem State.fetchFaulted_keeps (s : State) (f : Fetch) (c : Queue) : Keeps s (s.fetchFaulted f c) := by
  unfold State.fetchFaulted
  dsimp only
  refine .trans (t := { s with fetch := none }) ?_ ((Keeps.of_settled (State.endSlots_settled _ _)).trans
    (.of_settled (State.modifyQueue_settled _ _ _)))
  exact .of_same rfl rfl rfl ⟨rfl, rfl, rfl, rfl⟩ rfl rfl rfl

theorem State.enterWait_keeps (s : State) (i : SlotId) (q : QueueId) (m : MarkId) (v : BitVec 32) (n : Nat) :
    Keeps s (s.enterWait i q m v n) := .of_same rfl rfl rfl ⟨rfl, rfl, rfl, rfl⟩ rfl rfl rfl

theorem State.release_keeps (s : State) (ready : List SlotId) : Keeps s (s.release ready) :=
  (Keeps.of_settled (s.executeAll_settled ready)).trans (.of_settled (State.endSlots_settled _ _))

theorem State.firstState_keeps (s : State) (i : SlotId) (q : QueueId) (op : Op) (sl : Slot) :
    Keeps s (s.firstState i q op sl) := by
  have set := fun x => Keeps.of_settled (s.setSlot_settled i x)
  unfold State.firstState
  split
  · exact (set _).trans (.of_settled (State.endSlots_settled _ _))
  · split
    · exact (set _).trans (.of_settled (State.endSlots_settled _ _))
    · exact (set _).trans (State.enterWait_keeps _ _ _ _ _ _)
  · split
    · exact (set _).trans (State.release_keeps _ _)
    · exact set _

/-! ## The presentation unit -/

theorem State.takeEffect_keeps (s : State) (op : Op) : Keeps s (s.takeEffect op) := by
  unfold State.takeEffect
  split
  · next id =>
    dsimp only
    generalize ht : (if s.presentation.shown = some id then s else s.clearShown) = t
    have h : Keeps s t := by
      rw [← ht]
      split
      · exact .refl s
      · exact s.clearShown_keeps
    refine (h.trans (.of_settled (t.modifySurface_settled id (fun r => { r with shown := true }) ?_))).trans ?_
    · by_cases hf : (t.surface id).state = .free
      · exact .inl hf
      · exact .inr ⟨hf, rfl⟩
    · exact .of_same rfl rfl rfl ⟨rfl, rfl, rfl, rfl⟩ rfl rfl rfl
  · exact .of_same rfl rfl rfl ⟨rfl, rfl, rfl, rfl⟩ rfl rfl rfl
  · exact .refl s

theorem State.countFrame_keeps (s : State) (d : Time) : Keeps s (s.countFrame d) :=
  .of_same rfl rfl rfl ⟨rfl, rfl, rfl, rfl⟩ rfl rfl rfl

theorem State.applyHeld_keeps (s : State) : Keeps s s.applyHeld := by
  unfold State.applyHeld
  split
  · exact s.takeEffect_keeps _
  · exact .refl s

theorem State.latchFrame_keeps (s : State) (p : PanelParams) (d : Time) : Keeps s (s.latchFrame p d) :=
  .of_same rfl rfl rfl ⟨rfl, rfl, rfl, rfl⟩ rfl rfl rfl

theorem State.endHeld_keeps (s : State) (held : Option SlotId) : Keeps s (s.endHeld held) := by
  unfold State.endHeld
  split
  · exact (Keeps.of_settled (State.endSlots_settled _ _)).trans (State.serveFetch_keeps _)
  · exact .refl s

theorem State.beginFrame_keeps (s : State) (p : PanelParams) (d : Time) : Keeps s (s.beginFrame p d) :=
  (((s.countFrame_keeps d).trans (State.applyHeld_keeps _)).trans (State.latchFrame_keeps _ p d)).trans
    (State.endHeld_keeps _ _)

end Sys2Proof.Machine
end

