-- ==== Sys2Proof/Laws/Exec.lean ====
section
/-! SUPPORT. The commands that stay inside Keeps: one lemma each, for any next state that the command answers. -/

namespace Sys2Proof.Machine

variable {s t : State}

/-- A completion queue whose load has not grown is kept. -/
theorem State.setCq_keeps {k : CqId} {c d : CompletionQueue} (hc : s.cq k = some c) (hsize : d.size = c.size)
    (hload : d.load ≤ c.load ∨ d.load + 1 ≤ d.size) : Keeps s (s.setCq k (some d)) where
  pending := rfl
  frame := rfl
  palettes := rfl
  flags := ⟨rfl, rfl, rfl, rfl⟩
  marks := fun _ => Nat.le_refl _
  surfaces := (Keeps.refl s).surfaces
  cqs := fun j e he => by
    rw [State.cq_setCq] at he
    split at he
    · next hj => subst hj; cases he; exact ⟨c, hc, hsize, hload⟩
    · exact ⟨e, he, rfl, .inl (Nat.le_refl _)⟩

theorem State.emit_keeps (s : State) (w : LinkWrite) : Keeps s (s.emit w) :=
  .of_same rfl rfl rfl ⟨rfl, rfl, rfl, rfl⟩ rfl rfl rfl

theorem State.accept_keeps (s : State) (a : Nat) (d : List Byte) : Keeps s (s.accept a d) :=
  .of_same rfl rfl rfl ⟨rfl, rfl, rfl, rfl⟩ rfl rfl rfl

theorem State.dropIssued_keeps (s : State) (k : CqId) : Keeps s (s.dropIssued k) :=
  .of_same rfl rfl rfl ⟨rfl, rfl, rfl, rfl⟩ rfl rfl rfl

theorem State.emitMessages_keeps (l : List VectorId) (s : State) :
    Keeps s (l.foldl (fun t v => t.emit (.message v)) s) := by
  induction l generalizing s with
  | nil => exact .refl s
  | cons v rest ih => exact (s.emit_keeps _).trans (ih _)

theorem State.giveTo_keeps (s : State) (e : EngineId) (i : SlotId) (j : Job) : Keeps s (s.giveTo e i j) :=
  (Keeps.of_settled (s.setSlot_settled i _)).trans (State.setEngine_keeps _ e _)

theorem State.dispatchTo_keeps {e : EngineId} (h : s.dispatchTo e = some t) : Keeps s t := by
  unfold State.dispatchTo at h
  split at h
  · cases h; exact .refl _
  · split at h
    · cases h; exact .refl _
    · split at h
      · cases h; exact State.giveTo_keeps _ _ _ _
      · cases h

theorem State.dispatchAll_keeps (l : List EngineId) (h : s.dispatchAll l = some t) : Keeps s t := by
  induction l generalizing s with
  | nil => cases h; exact .refl _
  | cons e rest ih =>
    unfold State.dispatchAll at h
    split at h
    · next u hu => exact (State.dispatchTo_keeps hu).trans (ih h)
    · cases h

theorem State.foldl_idle_keeps (l : List EngineId) (s : State) :
    Keeps s (l.foldl (fun t e => t.setEngine e Engine.idled) s) := by
  induction l generalizing s with
  | nil => exact .refl s
  | cons e rest ih => exact (s.setEngine_keeps e _).trans (ih _)

theorem State.refuseReads_keeps (s : State) (given : List EngineId) : Keeps s (s.refuseReads given) := by
  unfold State.refuseReads
  split
  · exact .refl s
  · exact ((State.foldl_idle_keeps _ s).trans (.of_settled (State.endSlots_settled _ _))).trans (State.serveFetch_keeps _)

theorem State.sendPending_keeps (s : State) : Keeps s s.sendPending := by
  unfold State.sendPending
  dsimp only
  refine .trans ?_ (State.emitMessages_keeps _ _)
  exact .of_same rfl rfl rfl ⟨rfl, rfl, rfl, rfl⟩ rfl rfl rfl

theorem execDisable_keeps (h : execDisable s = .next t) : Keeps s t := by
  simp only [execDisable, State.whileUp] at h
  obtain rfl := Host.Outcome.next.inj h
  split
  · exact s.disableWrite_keeps
  · exact .refl s

theorem execSetupAddressWrite_keeps {half : SetupHalf} {v : BitVec 32} (h : execSetupAddressWrite half v s = .next t) :
    Keeps s t := by
  simp only [execSetupAddressWrite, State.whileUp] at h
  obtain rfl := Host.Outcome.next.inj h
  split
  · unfold State.setupWrite
    split <;> exact .of_same rfl rfl rfl ⟨rfl, rfl, rfl, rfl⟩ rfl rfl rfl
  · exact .refl s

theorem execPendingMessageSend_keeps {a b : Bool} {l : List VectorId} (h : execPendingMessageSend a b l s = .next t) :
    Keeps s t := by
  simp only [execPendingMessageSend] at h
  split at h <;> obtain rfl := Host.Outcome.next.inj h
  · refine .trans ?_ (State.sendPending_keeps _)
    exact .of_same rfl rfl rfl ⟨rfl, rfl, rfl, rfl⟩ rfl rfl rfl
  · exact .refl s

theorem execPcieConfigurationTurnOff_keeps {a b : Bool} {l : List VectorId}
    (h : execPcieConfigurationTurnOff a b l s = .next t) : Keeps s t := by
  simp only [execPcieConfigurationTurnOff] at h
  split at h <;> obtain rfl := Host.Outcome.next.inj h
  · exact .of_same rfl rfl rfl ⟨rfl, rfl, rfl, rfl⟩ rfl rfl rfl
  · exact .refl s

theorem execMessageWriteFault_keeps {n : Nat} (h : execMessageWriteFault n s = .next t) : Keeps s t := by
  simp only [execMessageWriteFault] at h
  split at h
  · split at h <;> obtain rfl := Host.Outcome.next.inj h
    · exact .of_same rfl rfl rfl ⟨rfl, rfl, rfl, rfl⟩ rfl rfl rfl
    · exact .refl s
  · obtain rfl := Host.Outcome.next.inj h; exact .refl s

theorem execLinkUp_keeps (h : execLinkUp s = .next t) : Keeps s t := by
  obtain rfl := Host.Outcome.next.inj h
  exact .of_same rfl rfl rfl ⟨rfl, rfl, rfl, rfl⟩ rfl rfl rfl

theorem execSetupReadFault_keeps (h : execSetupReadFault s = .next t) : Keeps s t := by
  simp only [execSetupReadFault] at h
  split at h
  · split at h <;> obtain rfl := Host.Outcome.next.inj h
    · exact s.enterFault_keeps _
    · exact .refl s
  · obtain rfl := Host.Outcome.next.inj h; exact .refl s

theorem execFetchStart_keeps {i : SlotId} (h : execFetchStart i s = .next t) : Keeps s t := by
  simp only [execFetchStart] at h
  split at h
  · obtain rfl := Host.Outcome.next.inj h; exact .refl s
  · split at h
    · split at h <;> obtain rfl := Host.Outcome.next.inj h
      · exact (s.beginFetch_keeps _ _ _).trans (State.serveFetch_keeps _)
      · exact .refl s
    · obtain rfl := Host.Outcome.next.inj h; exact .refl s

theorem execFetchFault_keeps (h : execFetchFault s = .next t) : Keeps s t := by
  simp only [execFetchFault] at h
  split at h
  · obtain rfl := Host.Outcome.next.inj h; exact .refl s
  · split at h
    · obtain rfl := Host.Outcome.next.inj h; exact .refl s
    · split at h
      · rw [← Host.Outcome.next.inj h]; exact (s.fetchFaulted_keeps _ _).trans (State.serveFetch_keeps _)
      · obtain rfl := Host.Outcome.next.inj h; exact .refl s

theorem execOvertakenFetchEnd_keeps (h : execOvertakenFetchEnd s = .next t) : Keeps s t := by
  simp only [execOvertakenFetchEnd] at h
  split at h
  · obtain rfl := Host.Outcome.next.inj h; exact .refl s
  · split at h
    · next f _ _ =>
      rw [← Host.Outcome.next.inj h]
      have hs : Keeps s { s with fetch := none } := .of_same rfl rfl rfl ⟨rfl, rfl, rfl, rfl⟩ rfl rfl rfl
      exact (hs.trans (.of_settled ((State.freeSlot_settled _ f.slot).trans (State.conclude_settled _)))).trans
        (State.serveFetch_keeps _)
    · obtain rfl := Host.Outcome.next.inj h; exact .refl s

theorem execAbortAckPlace_keeps {q : QueueId} {i : SlotId} (h : execAbortAckPlace q i s = .next t) : Keeps s t := by
  simp only [execAbortAckPlace] at h
  split at h
  · obtain rfl := Host.Outcome.next.inj h; exact .refl s
  · split at h
    · split at h <;> obtain rfl := Host.Outcome.next.inj h
      · exact (Keeps.of_settled ((s.placeAck_settled _ _ _ _).trans (State.issueWrites_settled _))).trans (State.serveFetch_keeps _)
      · exact .refl s
    · obtain rfl := Host.Outcome.next.inj h; exact .refl s

theorem execDispatch_keeps (h : execDispatch s = .next t) : Keeps s t := by
  simp only [execDispatch] at h
  split at h
  · split at h
    · next u hu =>
      cases h
      exact (State.dispatchAll_keeps _ hu).trans (State.refuseReads_keeps _ _)
    · cases h
  · obtain rfl := Host.Outcome.next.inj h; exact .refl s

/-- The completion of a transfer's line leaves frame memory to what its answers wrote. -/
theorem State.completeLine_transfer (s : State) (e : EngineId) {j : Job} (h : j.op.isDrawing = false) :
    s.completeLine e j = s.afterLine e j := by
  simp [State.completeLine, State.lineMemory, h]

theorem State.answered_keeps (s : State) (e : EngineId) {j : Job} (h : j.op.isDrawing = false) : Keeps s (s.answered e j) := by
  unfold State.answered
  split
  · rw [State.completeLine_transfer _ e h]
    exact (s.setEngine_keeps e _).trans (State.afterLine_keeps _ e j)
  · exact s.setEngine_keeps e _

theorem State.exportAccepted_keeps (s : State) (e : EngineId) {j : Job} (h : j.op.isDrawing = false) (host : HostBuffer) (n : Nat) :
    Keeps s (s.exportAccepted e j host n) := (s.accept_keeps _ _).trans (State.answered_keeps _ e h)

theorem execExportWriteAccepted_keeps {e : EngineId} {n : Nat} (h : execExportWriteAccepted e n s = .next t) :
    Keeps s t := by
  simp only [execExportWriteAccepted] at h
  split at h
  · obtain rfl := Host.Outcome.next.inj h; exact .refl s
  · split at h
    · next hop =>
      split at h
      · split at h <;> cases h
        exact s.exportAccepted_keeps e (by rw [hop]; rfl) _ _
      · obtain rfl := Host.Outcome.next.inj h; exact .refl s
    · obtain rfl := Host.Outcome.next.inj h; exact .refl s

theorem execImportReadFault_keeps {e : EngineId} (h : execImportReadFault e s = .next t) : Keeps s t := by
  simp only [execImportReadFault] at h
  split at h
  · obtain rfl := Host.Outcome.next.inj h; exact .refl s
  · split at h
    · split at h <;> obtain rfl := Host.Outcome.next.inj h
      · exact .refl s
      · exact s.hostFault_keeps e
    · obtain rfl := Host.Outcome.next.inj h; exact .refl s

theorem execExportWriteFault_keeps {e : EngineId} (h : execExportWriteFault e s = .next t) : Keeps s t := by
  simp only [execExportWriteFault] at h
  split at h
  · obtain rfl := Host.Outcome.next.inj h; exact .refl s
  · split at h
    · split at h <;> obtain rfl := Host.Outcome.next.inj h
      · exact .refl s
      · exact s.hostFault_keeps e
    · obtain rfl := Host.Outcome.next.inj h; exact .refl s

theorem execLoadpalReadFault_keeps {e : EngineId} (h : execLoadpalReadFault e s = .next t) : Keeps s t := by
  simp only [execLoadpalReadFault] at h
  split at h
  · obtain rfl := Host.Outcome.next.inj h; exact .refl s
  · split at h
    · split at h <;> obtain rfl := Host.Outcome.next.inj h
      · exact .refl s
      · exact s.hostFault_keeps e
    · obtain rfl := Host.Outcome.next.inj h; exact .refl s

theorem execCompletionWriteFault_keeps {k : CqId} (h : execCompletionWriteFault k s = .next t) : Keeps s t := by
  simp only [execCompletionWriteFault] at h
  split at h
  · obtain rfl := Host.Outcome.next.inj h; exact .refl s
  · next c hc =>
    split at h <;> obtain rfl := Host.Outcome.next.inj h
    · exact .refl s
    · exact ((s.dropIssued_keeps k).trans (State.setCq_keeps (k := k) (c := c) (d := { c with inFlight := none }) hc rfl
        (.inl (by simp [CompletionQueue.load])))).trans (State.enterFault_keeps _ _)

theorem execAbandonedWriteAnswer_keeps {r : Bool} (h : execAbandonedWriteAnswer r s = .next t) : Keeps s t := by
  obtain rfl := Host.Outcome.next.inj h
  exact .of_same rfl rfl rfl ⟨rfl, rfl, rfl, rfl⟩ rfl rfl rfl

theorem execCoalescingTimerExpiry_keeps {k : CqId} (h : execCoalescingTimerExpiry k s = .next t) : Keeps s t := by
  simp only [execCoalescingTimerExpiry] at h
  split at h
  · obtain rfl := Host.Outcome.next.inj h; exact .refl s
  · next c hc =>
    split at h
    · obtain rfl := Host.Outcome.next.inj h; exact .refl s
    · next d hd =>
      split at h <;> obtain rfl := Host.Outcome.next.inj h
      · unfold State.coalesce
        dsimp only
        have h1 := (s.reach_keeps d).trans (State.setCq_keeps (s := s.reach d) (k := k) (c := c)
          (d := { c with count := 0, deadline := none }) hc rfl (.inl (Nat.le_refl _)))
        split
        · exact h1.trans (.of_settled (State.interrupt_settled _ _))
        · exact h1
      · exact .refl s

theorem execWaitExpiry_keeps {i : SlotId} (h : execWaitExpiry i s = .next t) : Keeps s t := by
  simp only [execWaitExpiry] at h
  split at h
  · obtain rfl := Host.Outcome.next.inj h; exact .refl s
  · split at h
    · obtain rfl := Host.Outcome.next.inj h; exact .refl s
    · split at h <;> obtain rfl := Host.Outcome.next.inj h
      · exact ((s.reach_keeps _).trans (.of_settled (State.endSlots_settled _ _))).trans (State.serveFetch_keeps _)
      · exact .refl s

theorem execFrameStart_keeps (h : execFrameStart s = .next t) : Keeps s t := by
  simp only [execFrameStart] at h
  split at h
  · split at h <;> obtain rfl := Host.Outcome.next.inj h
    · exact s.beginFrame_keeps _ _
    · exact .refl s
  · obtain rfl := Host.Outcome.next.inj h; exact .refl s

/-- A pixel of the scan keeps all but frame memory, which keeps its canonical form. -/
theorem execScanPixel_keeps {x r : Nat} (h : execScanPixel x r s = .next t) :
    Keeps { s with frame := t.frame } t ∧ (Memory.wf s.frame → Memory.wf t.frame) := by
  simp only [execScanPixel] at h
  split at h
  · obtain rfl := Host.Outcome.next.inj h; exact ⟨.refl s, id⟩
  · split at h
    · split at h <;> cases h
      refine ⟨?_, State.visitPixels_wf⟩
      rw [State.visitPixels_same]
      exact .of_same rfl rfl rfl ⟨rfl, rfl, rfl, rfl⟩ rfl rfl rfl
    · obtain rfl := Host.Outcome.next.inj h; exact ⟨.refl s, id⟩

end Sys2Proof.Machine
end

