-- ==== Sys2Proof/Laws/Pixels.lean ====
section
/-! SUPPORT. Pixels of a sound surface: where they lie (R5, R6, R12), and that a pixel reads what was written to it while every other
pixel of the surface stays (R1, R89, R91). -/

namespace Sys2Proof.Machine

open Sys2Proof.Safety

/-! ## Rows -/

/-- A band maps its rows onto themselves and leaves every other row (R12). -/
theorem Band.physicalRow_cases (b : Band) (o r : Nat) (hb : 0 < b.rows) :
    (b.top ≤ r ∧ r < b.top + b.rows ∧ b.physicalRow o r = b.top + (r - b.top + o) % b.rows ∧
      b.physicalRow o r < b.top + b.rows) ∨
    ((r < b.top ∨ b.top + b.rows ≤ r) ∧ b.physicalRow o r = r) := by
  unfold Band.physicalRow
  split
  · next h =>
    have := Nat.mod_lt (r - b.top + o) hb
    exact .inl ⟨h.1, h.2, rfl, by omega⟩
  · next h => exact .inr ⟨by omega, rfl⟩

theorem Band.physicalRow_inj (b : Band) (o : Nat) (hb : 0 < b.rows) {r s : Nat} (h : b.physicalRow o r = b.physicalRow o s) :
    r = s := by
  rcases b.physicalRow_cases o r hb with ⟨h1, h2, h3, h4⟩ | ⟨h1, h2⟩ <;>
    rcases b.physicalRow_cases o s hb with ⟨g1, g2, g3, g4⟩ | ⟨g1, g2⟩
  · rw [h3, g3] at h
    have e : (r - b.top + o) % b.rows = (s - b.top + o) % b.rows := by omega
    have e' : (r - b.top) % b.rows = (s - b.top) % b.rows := Nat.ModEq.add_right_cancel' o e
    rw [Nat.mod_eq_of_lt (by omega), Nat.mod_eq_of_lt (by omega)] at e'
    omega
  · omega
  · omega
  · omega

theorem sound_physicalRow_lt {d : SurfaceFields} (hd : SoundFields d) {y : Nat} (hy : y < d.height) :
    d.physicalRow y < d.height := by
  unfold SurfaceFields.physicalRow
  split
  · exact hy
  · next b hb =>
    obtain ⟨h0, h1⟩ := hd.2.2.2 b hb
    rcases b.physicalRow_cases b.origin y (Nat.zero_lt_of_lt h0) with ⟨_, _, _, h⟩ | ⟨_, h⟩ <;> omega

theorem sound_physicalRow_inj {d : SurfaceFields} (hd : SoundFields d) {y z : Nat}
    (h : d.physicalRow y = d.physicalRow z) : y = z := by
  unfold SurfaceFields.physicalRow at h
  split at h
  · exact h
  · next b hb => exact b.physicalRow_inj b.origin (Nat.zero_lt_of_lt (hd.2.2.2 b hb).1) h

/-! ## Places -/

/-- Where pixel x begins in its row. -/
def SurfaceFields.column (d : SurfaceFields) (x : Nat) : Nat := match d.format with | .m1 => x / 8 | f => x * f.bytes

theorem SurfaceFields.pixelByte_eq (d : SurfaceFields) (x p : Nat) : d.pixelByte x p = d.base + p * d.stride + d.column x := rfl

theorem sound_column_le {d : SurfaceFields} (hd : SoundFields d) {x : Nat} (hx : x < d.width) :
    d.column x + d.format.touched ≤ d.stride := by
  have h := hd.2.1
  unfold SurfaceFields.column
  unfold Format.rowBytes at h
  generalize d.format = f at *
  cases f <;> simp only [Format.touched, Format.bytes] at * <;> omega

theorem mul_step {p q s : Nat} (h : p < q) : p * s + s ≤ q * s := by
  rw [← Nat.succ_mul]; exact Nat.mul_le_mul_right s h

/-- Every pixel inside a sound surface lies in frame memory. -/
theorem sound_pixel_le {d : SurfaceFields} (hd : SoundFields d) {x y : Nat} (hx : x < d.width) (hy : y < d.height) :
    d.pixelByte x (d.physicalRow y) + d.format.touched ≤ Config.frameBytes := by
  have h1 := sound_column_le hd hx
  have h2 := mul_step (s := d.stride) (sound_physicalRow_lt hd hy)
  have h3 := hd.2.2.1
  unfold SurfaceFields.extentBytes at h3
  rw [Nat.mul_comm d.stride] at h3
  rw [d.pixelByte_eq]
  omega

theorem sound_pixelExists {d : SurfaceFields} (hd : SoundFields d) {x y : Nat} (hx : x < d.width) (hy : y < d.height) :
    d.pixelExists x (d.physicalRow y) = true := by
  unfold SurfaceFields.pixelExists
  simpa using sound_pixel_le hd hx hy

/-- Two pixels of a sound surface share no byte, but for two M1 pixels of one row and one byte. -/
theorem sound_apart {d : SurfaceFields} (hd : SoundFields d) {x y x' y' : Nat} (hx : x < d.width)
    (hx' : x' < d.width) (hne : ¬(x = x' ∧ y = y')) :
    (d.format = .m1 ∧ y = y' ∧ x / 8 = x' / 8) ∨
    d.pixelByte x' (d.physicalRow y') + d.format.touched ≤ d.pixelByte x (d.physicalRow y) ∨
    d.pixelByte x (d.physicalRow y) + d.format.touched ≤ d.pixelByte x' (d.physicalRow y') := by
  have c := sound_column_le hd hx
  have c' := sound_column_le hd hx'
  simp only [d.pixelByte_eq]
  rcases Nat.lt_trichotomy (d.physicalRow y) (d.physicalRow y') with h | h | h
  · have := mul_step (s := d.stride) h
    omega
  · have hy := sound_physicalRow_inj hd h
    have hxx : x ≠ x' := fun e => hne ⟨e, hy⟩
    rw [h]
    unfold SurfaceFields.column
    generalize hf : d.format = f at *
    cases f <;> simp only [Format.touched, Format.bytes, reduceCtorEq, true_and, false_and, false_or] <;> omega
  · have := mul_step (s := d.stride) h
    omega

/-! ## Values -/

theorem Format.decode_encode {f : Format} (hf : f ≠ .m1) (v : BitVec 32) : f.decode (f.encode v) = f.trim v := by
  apply BitVec.eq_of_getLsbD_eq
  intro i hi
  cases f
  case m1 => exact absurd rfl hf
  all_goals
    simp only [Format.decode, Format.encode, Format.trim, Format.mask, List.getD_cons_zero, List.getD_cons_succ]
    interval_cases i <;> simp

theorem readPhysical_bytes {m : FrameMemory} {d : SurfaceFields} (hf : d.format ≠ .m1) (x p : Nat) :
    readPhysical m d x p =
      d.format.decode ((List.range d.format.bytes).map fun k => Memory.read m (d.pixelByte x p + k)) := by
  unfold readPhysical
  dsimp only
  split
  · exact absurd ‹_› hf
  · rfl

theorem readPhysical_bit {m : FrameMemory} {d : SurfaceFields} (hf : d.format = .m1) (x p : Nat) :
    readPhysical m d x p = if (Memory.read m (d.pixelByte x p)).getLsbD (m1Bit x) then 1#32 else 0#32 := by
  unfold readPhysical
  simp only [hf]

theorem writePixel_bytes {m : FrameMemory} {d : SurfaceFields} (hf : d.format ≠ .m1) (x y : Nat) (v : BitVec 32) :
    writePixel m d x y v = Memory.writeBytes m (d.pixelByte x (d.physicalRow y)) (d.format.encode v) := by
  unfold writePixel
  dsimp only
  split
  · exact absurd ‹_› hf
  · rfl

theorem writePixel_bit {m : FrameMemory} {d : SurfaceFields} (hf : d.format = .m1) (x y : Nat) (v : BitVec 32) :
    writePixel m d x y v = Memory.write m (d.pixelByte x (d.physicalRow y))
      (setM1 (Memory.read m (d.pixelByte x (d.physicalRow y))) (m1Bit x) v) := by
  unfold writePixel
  simp only [hf]

theorem m1Bit_lt (x : Nat) : m1Bit x < 8 := by unfold m1Bit; omega

theorem setM1_same (b : Byte) {k : Nat} (hk : k < 8) (v : BitVec 32) : (setM1 b k v).getLsbD k = v.getLsbD 0 := by
  unfold setM1
  cases h : v.getLsbD 0 <;> interval_cases k <;> simp

theorem setM1_other (b : Byte) {k l : Nat} (hk : k < 8) (hl : l < 8) (h : l ≠ k) (v : BitVec 32) :
    (setM1 b k v).getLsbD l = b.getLsbD l := by
  unfold setM1
  cases v.getLsbD 0 <;> interval_cases k <;> interval_cases l <;> first | exact absurd rfl h | simp

/-- A pixel value takes no bit outside its format's width (R23). -/
theorem readPixel_trim (m : FrameMemory) (d : SurfaceFields) (x y : Nat) :
    d.format.trim (readPixel m d x y) = readPixel m d x y := by
  unfold readPixel
  by_cases hf : d.format = .m1
  · rw [readPhysical_bit hf, hf]
    split <;> rfl
  · rw [readPhysical_bytes hf]
    generalize ((List.range d.format.bytes).map fun k => Memory.read m (d.pixelByte x (d.physicalRow y) + k)) = bs
    generalize d.format = f at *
    apply BitVec.eq_of_getLsbD_eq
    intro i hi
    cases f
    case m1 => exact absurd rfl hf
    all_goals
      simp only [Format.decode, Format.trim, Format.mask]
      interval_cases i <;> simp

/-- A pixel reads the value written to it, at the width of its format (R1, R91). -/
theorem readPixel_write_self {m : FrameMemory} (h : Memory.wf m) {d : SurfaceFields} (hd : SoundFields d) {x y : Nat}
    (hx : x < d.width) (hy : y < d.height) (v : BitVec 32) : readPixel (writePixel m d x y v) d x y = d.format.trim v := by
  have hle := sound_pixel_le hd hx hy
  unfold readPixel
  by_cases hf : d.format = .m1
  · rw [readPhysical_bit hf, writePixel_bit hf, Memory.read_write_self h (by rw [hf] at hle; exact hle),
      setM1_same _ (m1Bit_lt x), hf]
    apply BitVec.eq_of_getLsbD_eq
    intro i hi
    cases hv : v.getLsbD 0 <;> interval_cases i <;> simp_all [Format.trim, Format.mask]
  · rw [readPhysical_bytes hf, writePixel_bytes hf, ← Format.decode_encode hf v]
    have hlen : (d.format.encode v).length = d.format.bytes := Format.encode_length _ _
    have ht : d.format.touched = d.format.bytes := by generalize d.format = f at *; cases f <;> first | rfl | exact absurd rfl hf
    congr 1
    apply List.ext_getElem
    · simp [hlen]
    · intro k h1 h2
      simp only [List.getElem_map, List.getElem_range]
      rw [Memory.read_writeBytes_at h _ (by omega) k h2, List.getD_eq_getElem?_getD, List.getElem?_eq_getElem h2]
      rfl

/-- A pixel write leaves every other pixel of the surface (R1, R12). -/
theorem readPixel_write_other {m : FrameMemory} (h : Memory.wf m) {d : SurfaceFields} (hd : SoundFields d) {x y x' y' : Nat}
    (hx : x < d.width) (hy : y < d.height) (hx' : x' < d.width) (hne : ¬(x = x' ∧ y = y')) (v : BitVec 32) :
    readPixel (writePixel m d x y v) d x' y' = readPixel m d x' y' := by
  have hle := sound_pixel_le hd hx hy
  unfold readPixel
  rcases sound_apart hd hx hx' hne with ⟨hf, rfl, hb⟩ | hap
  · have hp : d.pixelByte x' (d.physicalRow y) = d.pixelByte x (d.physicalRow y) := by
      simp only [d.pixelByte_eq, SurfaceFields.column, hf, hb]
    have hk : m1Bit x' ≠ m1Bit x := by unfold m1Bit; omega
    rw [readPhysical_bit hf, readPhysical_bit hf, writePixel_bit hf, hp, Memory.read_write_self h (by rw [hf] at hle; exact hle),
      setM1_other _ (m1Bit_lt x) (m1Bit_lt x') hk]
  · have key : ∀ k, k < d.format.touched → Memory.read (writePixel m d x y v) (d.pixelByte x' (d.physicalRow y') + k) =
        Memory.read m (d.pixelByte x' (d.physicalRow y') + k) := fun k hk => read_writePixel_other m d x y v (by omega)
    by_cases hf : d.format = .m1
    · have k0 := key 0 (by rw [hf]; decide)
      rw [Nat.add_zero] at k0
      rw [readPhysical_bit hf, readPhysical_bit hf, k0]
    · rw [readPhysical_bytes hf, readPhysical_bytes hf]
      have ht : d.format.touched = d.format.bytes := by generalize d.format = f at *; cases f <;> first | rfl | exact absurd rfl hf
      congr 1
      apply List.map_congr_left
      intro k hk
      rw [List.mem_range] at hk
      exact key k (by omega)

end Sys2Proof.Machine
end

