-- ==== Sys2Proof/Laws/Terms.lean ====
section
/-! SUPPORT. The terms in which Safety says what a pixel, a region, a setup record and a possible event are, each equal to the
definition of the model that computes it. -/

namespace Sys2Proof.Safety

open Sys2Proof.Machine

/-! ## Pixels, bytes and lines -/

theorem outside_eq (clip : Option Rect) (x y : Nat) : outside clip x y = clippedOut clip x y := by
  cases clip with
  | none => rfl
  | some c =>
    rw [Bool.eq_iff_iff]
    simp only [outside, Option.any_some, clippedOut, Rect.holds, decide_eq_true_eq, Bool.not_eq_true', Bool.and_eq_false_iff,
      decide_eq_false_iff_not, Nat.not_le, Nat.not_lt]
    omega

/-- The bits of a value are those of the format's mask. -/
theorem mask_bit (f : Format) (b : Nat) : f.mask.getLsbD b = decide (b < valueBits f) := by
  by_cases hb : b < 32
  · revert b
    cases f <;> decide
  · rw [BitVec.getLsbD_of_ge _ _ (by omega), eq_comm, decide_eq_false_iff_not]
    cases f <;> simp only [valueBits] <;> omega

theorem equalsKey_eq (key : Option (BitVec 32)) (f : Format) (v : BitVec 32) : equalsKey key f v = keyed key f v := by
  cases key with
  | none => rfl
  | some k =>
    rw [Bool.eq_iff_iff]
    simp only [equalsKey, Option.any_some, keyed, List.all_eq_true, List.mem_range, beq_iff_eq, Format.trim]
    constructor
    · refine fun h => decide_eq_true (BitVec.eq_of_getLsbD_eq fun b _ => ?_)
      rw [BitVec.getLsbD_and, BitVec.getLsbD_and, mask_bit]
      by_cases hb : b < valueBits f
      · rw [h b hb]
      · simp [hb]
    · intro h b hb
      have := congrArg (fun w : BitVec 32 => w.getLsbD b) (of_decide_eq_true h)
      simpa [BitVec.getLsbD_and, mask_bit, hb] using this

theorem pixelsPerLine_eq (o : Orientation) (r : Rect) : pixelsPerLine o r = o.lineLength r := rfl

theorem placeOf_eq (o : Orientation) (r : Rect) (i j : Nat) : placeOf o r i j = o.pixel r i j := by
  cases h : o.columns <;> simp [placeOf, Orientation.pixel, Orientation.column, Orientation.row, h]

theorem linesOf_eq (op : Op) : linesOf op = op.lines := by cases op <;> rfl

theorem lineAnswered_iff (j : Job) : LineAnswered j ↔ j.lineReady = true := by
  unfold LineAnswered Job.lineReady
  cases j.op <;> simp [pixelsPerLine_eq, List.all_eq_true]

theorem bytesOf_eq (f : Format) (v : BitVec 32) : bytesOf f v = f.encode v := by
  have byte (n : Nat) : BitVec.ofNat 8 (v.toNat / 2 ^ n) = v.extractLsb' n 8 := by
    refine BitVec.eq_of_toNat_eq ?_
    simp [BitVec.extractLsb'_toNat, Nat.shiftRight_eq_div_pow]
  cases f with
  | i8 => exact congrArg (fun b => [b]) (by simpa using byte 0)
  | p16 => simp [bytesOf, Format.encode, ← byte]
  | p32 => simp [bytesOf, Format.encode, ← byte]
  | m1 => rfl

/-- A byte moved to a place of a word. -/
theorem byte_shift_toNat (b : Byte) (n : Nat) (h : n ≤ 24) : (b.setWidth 32 <<< n).toNat = b.toNat * 2 ^ n := by
  have hb : b.toNat < 2 ^ 8 := b.isLt
  have : b.toNat * 2 ^ n < 2 ^ 32 := calc
    _ < 2 ^ 8 * 2 ^ n := Nat.mul_lt_mul_of_pos_right hb (Nat.two_pow_pos n)
    _ ≤ 2 ^ 8 * 2 ^ 24 := Nat.mul_le_mul_left _ (Nat.pow_le_pow_right (by decide) h)
    _ = 2 ^ 32 := by decide
  rw [BitVec.toNat_shiftLeft, BitVec.toNat_setWidth, Nat.shiftLeft_eq, Nat.mod_eq_of_lt (show b.toNat < 2 ^ 32 by omega),
    Nat.mod_eq_of_lt this]

theorem valueOf_eq (f : Format) (bytes : List Byte) : valueOf f bytes = f.decode bytes := by
  have lt (b : Byte) : b.toNat < 256 := b.isLt
  have low (b : Byte) : (b.setWidth 32).toNat = b.toNat := by
    rw [BitVec.toNat_setWidth, Nat.mod_eq_of_lt (by have := lt b; omega)]
  have two (a b : Byte) : (a.setWidth 32 ||| (b.setWidth 32 <<< 8)).toNat = a.toNat + 256 * b.toNat := by
    rw [BitVec.toNat_or, low, byte_shift_toNat _ _ (by decide), Nat.or_comm, Nat.mul_comm, ← Nat.two_pow_add_eq_or_of_lt (lt a)]
    omega
  cases f with
  | i8 => exact BitVec.eq_of_toNat_eq (by simp [valueOf, Format.decode])
  | p16 =>
    refine BitVec.eq_of_toNat_eq ?_
    rw [show Format.p16.decode bytes = (bytes.getD 0 0#8).setWidth 32 ||| ((bytes.getD 1 0#8).setWidth 32 <<< 8) from rfl, two]
    have h0 := lt (bytes.getD 0 0#8); have h1 := lt (bytes.getD 1 0#8)
    exact Nat.mod_eq_of_lt (by dsimp only; omega)
  | p32 =>
    refine BitVec.eq_of_toNat_eq ?_
    rw [show Format.p32.decode bytes = (bytes.getD 0 0#8).setWidth 32 ||| ((bytes.getD 1 0#8).setWidth 32 <<< 8) |||
      ((bytes.getD 2 0#8).setWidth 32 <<< 16) from rfl, BitVec.toNat_or, two, byte_shift_toNat _ _ (by decide), Nat.or_comm,
      Nat.mul_comm (BitVec.toNat _)]
    have h0 := lt (bytes.getD 0 0#8); have h1 := lt (bytes.getD 1 0#8); have h2 := lt (bytes.getD 2 0#8)
    rw [← Nat.two_pow_add_eq_or_of_lt (by omega : _ < 2 ^ 16)]
    refine (Nat.mod_eq_of_lt ?_).trans ?_ <;> dsimp only <;> omega
  | m1 => rfl

/-! ## Regions -/

theorem clippedAway_eq (op : Op) : clippedAway op = op.emptyClip := by
  have meet (r c : Rect) : decide (r.x + r.w ≤ c.x ∨ c.x + c.w ≤ r.x ∨ r.y + r.h ≤ c.y ∨ c.y + c.h ≤ r.y) = !r.overlaps c := by
    rw [Bool.eq_iff_iff]
    simp only [Rect.overlaps, decide_eq_true_eq, Bool.not_eq_true', Bool.and_eq_false_iff, decide_eq_false_iff_not, Nat.not_lt]
    omega
  cases op with
  | fill _ _ _ _ clip => cases clip with | none => rfl | some c => exact meet _ _
  | copy _ _ _ _ _ _ _ clip => cases clip with | none => rfl | some c => exact meet _ _
  | pattern _ _ _ _ _ _ _ _ _ clip => cases clip with | none => rfl | some c => exact meet _ _
  | expand _ _ _ _ _ _ _ _ clip => cases clip with | none => rfl | some c => exact meet _ _
  | importPixels _ _ _ _ _ clip => cases clip with | none => rfl | some c => exact meet _ _
  | _ => rfl

theorem cut_eq (r : Rect) (clip : Option Rect) : cut r clip = clippedRect r clip := by cases clip <;> rfl

theorem meet_iff (a b : Region) : Meet a b ↔ a.meets b = true := by
  unfold Meet Region.meets
  rw [Bool.and_eq_true, decide_eq_true_eq]
  refine and_congr_right fun _ => ?_
  cases a.rect <;> cases b.rect <;> simp [Rect.overlaps, and_assoc]

theorem mem_heldWrites (op : Op) (a : Region) : a ∈ op.heldWrites ↔ WriteRegion op a := by
  unfold WriteRegion Op.heldWrites
  rw [clippedAway_eq]
  cases op.emptyClip <;> cases op <;> simp [Op.writeRegions, regionOf, whole, cut_eq]

theorem mem_heldReads (s : State) (op : Op) (a : Region) : a ∈ s.heldReads op ↔ ReadRegion s op a := by
  have dest (rop : BitVec 4) (dst : SurfaceId) (r : Rect) (clip : Option Rect) :
      a ∈ destinationRead rop dst (clippedRect r clip) ↔ ReadsDestination rop dst r clip a := by
    unfold destinationRead ReadsDestination
    rw [cut_eq]
    by_cases h : ropReadsDestination rop = true
    · rw [if_pos h, List.mem_singleton]
      simp only [ropReadsDestination, Bool.and_eq_true, decide_eq_true_eq, ne_eq] at h
      exact ⟨fun e => ⟨⟨h.1.1.1, h.1.1.2, h.1.2, h.2⟩, e⟩, fun e => e.2⟩
    · rw [if_neg h]
      simp only [ropReadsDestination, Bool.and_eq_true, decide_eq_true_eq, ne_eq] at h
      simp only [List.not_mem_nil, false_iff]
      exact fun e => h ⟨⟨⟨e.1.1, e.1.2.1⟩, e.1.2.2.1⟩, e.1.2.2.2⟩
  have look (f : SurfaceFields) (g : Format) :
      a ∈ lookupRegion (conversionLooksUp f.format g) f.palette ↔ ReadsPalette (some f) g a := by
    unfold lookupRegion ReadsPalette conversionLooksUp
    by_cases h : f.format = .i8 <;> by_cases h1 : g = .p16 <;> by_cases h2 : g = .p32 <;> simp [h, h1, h2, whole]
  unfold ReadRegion State.heldReads
  rw [clippedAway_eq]
  cases he : op.emptyClip with
  | true => simp
  | false =>
    simp only [Bool.false_eq_true, if_false, true_and]
    cases op with
    | fill => exact dest _ _ _ _
    | copy src x y dst r rop key clip =>
      simp only [State.readRegions, List.mem_cons, List.cons_append, List.mem_append, dest]
      refine or_congr_right (or_congr_right ?_)
      cases (s.surface src).fields with
      | none => simp [ReadsPalette]
      | some f => cases (s.surface dst).fields with
        | none => simp
        | some g => simp [look]
    | pattern => simp only [State.readRegions, List.mem_cons, dest]; exact Iff.rfl
    | expand => simp only [State.readRegions, List.mem_cons, dest]; exact Iff.rfl
    | importPixels host p dst r key clip =>
      simp only [State.readRegions]
      cases (s.surface dst).fields with
      | none => simp
      | some g => by_cases h : host.format = .i8 <;> by_cases h1 : g.format = .i8 <;> simp [lookupRegion, whole, h, h1]
    | exportPixels src r host =>
      simp only [State.readRegions, List.mem_cons]
      refine or_congr_right ?_
      cases (s.surface src).fields with
      | none => simp [ReadsPalette]
      | some f => exact look f _
    | present => exact List.mem_singleton
    | _ => simp [State.readRegions]

theorem Op.names_iff (op : Op) (id : SurfaceId) : op.names id = true ↔ NamesSurface op id := by
  unfold NamesSurface
  cases op <;> simp [Op.names, Op.dst, Op.src, or_comm]

theorem Slot.conflicts_iff (sl : Slot) (s : State) (op : Op) : sl.conflicts (s.heldReads op) op.heldWrites = true ↔
    (∃ a ∈ sl.writes, ∃ b, (WriteRegion op b ∨ ReadRegion s op b) ∧ Meet a b) ∨ ∃ a ∈ sl.reads, ∃ b, WriteRegion op b ∧ Meet a b := by
  unfold Slot.conflicts anyMeet
  simp only [Bool.or_eq_true, List.any_eq_true, mem_heldWrites, mem_heldReads, ← meet_iff]
  refine or_congr_left ⟨?_, ?_⟩
  · rintro (⟨a, ha, b, hb, hm⟩ | ⟨a, ha, b, hb, hm⟩)
    · exact ⟨a, ha, b, .inl hb, hm⟩
    · exact ⟨a, ha, b, .inr hb, hm⟩
  · rintro ⟨a, ha, b, hb | hb, hm⟩
    · exact .inl ⟨a, ha, b, hb, hm⟩
    · exact .inr ⟨a, ha, b, hb, hm⟩

/-- The dependency set of an operation holds the unended slots that conflict with it, and no other. -/
theorem State.mem_dependencies (s : State) (op : Op) (j : SlotId) : j ∈ s.dependencies op ↔ Conflicts s op j := by
  have settled : op.settledSurface.any (s.slot j).names = true ↔
      ∃ id o, (op = .retire id ∨ ∃ n, op = .scroll id n) ∧ (s.slot j).op = some o ∧ NamesSurface o id := by
    simp only [Slot.names, Option.any_eq_true, Op.names_iff]
    constructor
    · rintro ⟨id, h, o, ho, hn⟩
      refine ⟨id, o, ?_, ho, hn⟩
      cases op <;> simp_all [Op.settledSurface]
    · rintro ⟨id, o, h, ho, hn⟩
      refine ⟨id, ?_, o, ho, hn⟩
      rcases h with rfl | ⟨n, rfl⟩ <;> rfl
  unfold State.dependencies Conflicts
  rw [List.mem_filter]
  simp only [List.mem_finRange, true_and, Bool.and_eq_true, Bool.or_eq_true, Slot.conflicts_iff, settled, or_assoc]

/-! ## The setup record -/

theorem ringSizeOk_iff (n : Nat) : ringSizeOk n = true ↔ ¬∀ k, 4 ≤ k → k ≤ 12 → n ≠ 2 ^ k := by
  have sizes : [16, 32, 64, 128, 256, 512, 1024, 2048, 4096] = (List.range 9).map fun j => 2 ^ (j + 4) := by decide
  unfold ringSizeOk
  rw [List.contains_iff_mem, sizes, List.mem_map]
  constructor
  · rintro ⟨j, hj, rfl⟩ hk
    have := List.mem_range.1 hj
    exact hk (j + 4) (by omega) (by omega) rfl
  · intro h
    by_contra hn
    refine h fun k h4 h12 he => hn ⟨k - 4, List.mem_range.2 (by omega), ?_⟩
    rw [Nat.sub_add_cancel h4, he]

/-! ### Fields -/

theorem byteAt_toNat {n : Nat} (r : BitVec n) (o : Nat) : (byteAt r o).toNat = field r o 1 := rfl

theorem half16At_toNat {n : Nat} (r : BitVec n) (o : Nat) : (half16At r o).toNat = field r o 2 := rfl

theorem word32At_toNat {n : Nat} (r : BitVec n) (o : Nat) : (word32At r o).toNat = field r o 4 := rfl

theorem long64At_toNat {n : Nat} (r : BitVec n) (o : Nat) : (long64At r o).toNat = field r o 8 := rfl

theorem long64At_eq {n : Nat} (r : BitVec n) (o : Nat) : long64At r o = BitVec.ofNat 64 (field r o 8) :=
  BitVec.eq_of_toNat_eq ((Nat.mod_eq_of_lt (long64At r o).isLt).symm.trans (BitVec.toNat_ofNat _ _).symm)

theorem word32At_eq {n : Nat} (r : BitVec n) (o : Nat) : word32At r o = BitVec.ofNat 32 (field r o 4) :=
  BitVec.eq_of_toNat_eq ((Nat.mod_eq_of_lt (word32At r o).isLt).symm.trans (BitVec.toNat_ofNat _ _).symm)

theorem byteAt_eq_one {n : Nat} (r : BitVec n) (o : Nat) : byteAt r o = 1#8 ↔ field r o 1 = 1 := BitVec.toNat_eq

theorem byteAt_le_one {n : Nat} (r : BitVec n) (o : Nat) : byteAt r o ≤ 1#8 ↔ field r o 1 ≤ 1 := BitVec.le_def

theorem when_eq_some {α : Type} {c : Bool} {v w : α} : when c v = some w ↔ c = true ∧ v = w := by cases c <;> simp [when]

theorem isSome_when {α : Type} (c : Bool) (v : α) : (when c v).isSome = c := by cases c <;> rfl

theorem below_eq_some {n v : Nat} {w : Fin n} : below n v = some w ↔ w.val = v := by
  unfold below
  split
  · exact ⟨fun h => congrArg Fin.val (Option.some.inj h).symm, fun h => congrArg some (Fin.ext h.symm)⟩
  · next h => exact ⟨fun e => absurd e nofun, fun e => absurd (e ▸ w.isLt : v < n) h⟩

/-! ### Descriptors -/

/-- A multi-byte field is below the power of two of its width. -/
theorem field_lt {n : Nat} (r : BitVec n) (o k : Nat) : field r o k < 2 ^ (8 * k) := (r.extractLsb' (8 * o) (8 * k)).isLt

/-- An SQ descriptor that is not refused gives the context that its queue takes, and no other. -/
theorem setupQueue_eq_some {r : SetupRecord} {n : QueueId} {c : Queue} :
    setupQueue r n = some c ↔ ¬SqRefused r n.val ∧ SqGives r n.val c := by
  have ring := ringSizeOk_iff (field r (0x10 + 16 * n.val + 8) 2)
  have wide : field r (0x10 + 16 * n.val) 8 % 2 ^ 64 = field r (0x10 + 16 * n.val) 8 := Nat.mod_eq_of_lt (field_lt r _ 8)
  have offset (k : Nat) : 0x10 + k + 16 * n.val = 0x10 + 16 * n.val + k := by omega
  unfold SqRefused SqGives RingRefused
  rw [show 0x18 + 16 * n.val = _ from offset 8, show 0x1A + 16 * n.val = _ from offset 10, show 0x1B + 16 * n.val = _ from offset 11,
    show 0x1C + 16 * n.val = _ from offset 12, show 0x1D + 16 * n.val = _ from offset 13]
  simp only [setupQueue, Option.bind_eq_bind, Option.bind_eq_some_iff, below_eq_some, when_eq_some, Bool.and_eq_true,
    decide_eq_true_eq]
  simp only [byteAt_toNat, half16At_toNat, byteAt_eq_one, byteAt_le_one, long64At_eq r, setupCqCount, ring,
    BitVec.toNat_ofNat, wide, Config.hostBytes]
  constructor
  · rintro ⟨a, ha, ⟨⟨⟨⟨⟨⟨⟨h1, h2⟩, h3⟩, h4⟩, h5⟩, h6⟩, h7⟩, h8⟩, rfl⟩
    refine ⟨?_, rfl, ha⟩
    rintro ((h | h | h) | h | h | h | h | h)
    · exact h h1
    · exact h2 h
    all_goals omega
  · rintro ⟨h, hce, hcq⟩
    simp only [not_or] at h
    obtain ⟨⟨h1, h2, h3⟩, h4, h5, h6, h7, h8⟩ := h
    refine ⟨c.cq, hcq, ⟨⟨⟨⟨⟨⟨⟨by omega, h2⟩, by omega⟩, by omega⟩, by omega⟩, by omega⟩, by omega⟩, by omega⟩,
      hce.symm⟩

/-- A CQ descriptor that is not refused gives the context that its completion queue takes, and no other. -/
theorem setupCq_eq_some {r : SetupRecord} {m : CqId} {c : CompletionQueue} :
    setupCq r m = some c ↔ ¬CqRefused r m.val ∧ CqGives r m.val c := by
  have ring := ringSizeOk_iff (field r (0x90 + 16 * m.val + 8) 2)
  have wide : field r (0x90 + 16 * m.val) 8 % 2 ^ 64 = field r (0x90 + 16 * m.val) 8 := Nat.mod_eq_of_lt (field_lt r _ 8)
  have offset (k : Nat) : 0x90 + k + 16 * m.val = 0x90 + 16 * m.val + k := by omega
  unfold CqRefused CqGives RingRefused
  rw [show 0x98 + 16 * m.val = _ from offset 8, show 0x9A + 16 * m.val = _ from offset 10, show 0x9B + 16 * m.val = _ from offset 11,
    show 0x9C + 16 * m.val = _ from offset 12]
  simp only [setupCq, Option.bind_eq_bind, Option.bind_eq_some_iff, below_eq_some, when_eq_some, Bool.and_eq_true,
    decide_eq_true_eq]
  simp only [byteAt_toNat, half16At_toNat, long64At_eq r, ring, BitVec.toNat_ofNat, wide, Config.hostBytes]
  constructor
  · rintro ⟨a, ha, ⟨⟨⟨⟨h1, h2⟩, h3⟩, h4⟩, h5⟩, rfl⟩
    refine ⟨?_, rfl, ha⟩
    have := a.isLt
    rintro ((h | h | h) | h | h | h)
    · exact h h1
    · exact h2 h
    all_goals omega
  · rintro ⟨h, hce, hcq⟩
    simp only [not_or] at h
    obtain ⟨⟨h1, h2, h3⟩, h4, h5, h6⟩ := h
    exact ⟨c.vector, hcq, ⟨⟨⟨⟨by omega, h2⟩, by omega⟩, by omega⟩, by omega⟩, hce.symm⟩

/-- A record is valid when no field of section 12.4 that it needs is refused (R171, R186). -/
theorem setupValid_iff (r : SetupRecord) : setupValid r = true ↔ ¬SetupRefused r := by
  have sq (hc : field r 1 1 ≤ 4) (n : QueueId) : (setupQueue r n).isSome = true ↔ ¬SqRefused r n.val := by
    rw [Option.isSome_iff_exists]
    refine ⟨fun ⟨c, h⟩ => (setupQueue_eq_some.1 h).1, fun h => ?_⟩
    have lt : field r (0x1B + 16 * n.val) 1 < 4 := by
      unfold SqRefused at h
      omega
    exact ⟨⟨_, _, _, _, ⟨_, lt⟩, _, _, _, _, _, _⟩, setupQueue_eq_some.2 ⟨h, rfl, rfl⟩⟩
  have cq (m : CqId) : (setupCq r m).isSome = true ↔ ¬CqRefused r m.val := by
    rw [Option.isSome_iff_exists]
    refine ⟨fun ⟨c, h⟩ => (setupCq_eq_some.1 h).1, fun h => ?_⟩
    have lt : field r (0x9A + 16 * m.val) 1 < 32 := by
      unfold CqRefused at h
      omega
    exact ⟨⟨_, _, ⟨_, lt⟩, _, _, _, _, _, _, _, _, _, _⟩, setupCq_eq_some.2 ⟨h, rfl, rfl⟩⟩
  have vector : (setupDeviceVector r).isSome = true ↔ field r 2 1 ≤ 31 := by
    rw [Option.isSome_iff_exists]
    exact ⟨fun ⟨v, h⟩ => (below_eq_some.1 h).symm.trans_le (Nat.le_of_lt_succ v.isLt), fun h => ⟨⟨_, Nat.lt_succ_of_le h⟩, below_eq_some.2 rfl⟩⟩
  have panel : (setupPanel r).isSome = true ↔ ¬(field r 0xD0 2 < 16 ∨ 2048 < field r 0xD0 2 ∨ field r 0xD2 2 < 16 ∨
      2048 < field r 0xD2 2 ∨ field r 0xD4 4 < 8000 ∨ 50000 < field r 0xD4 4) := by
    simp only [setupPanel, isSome_when, Bool.and_eq_true, decide_eq_true_eq]
    simp only [half16At_toNat, word32At_toNat]
    omega
  unfold setupValid SetupRefused
  simp only [Bool.and_eq_true, Bool.or_eq_true, List.all_eq_true, List.mem_finRange, true_implies, decide_eq_true_eq, vector, panel, cq]
  simp only [setupSqCount, setupCqCount, byteAt_toNat]
  constructor
  · rintro ⟨⟨⟨⟨⟨⟨⟨h1, h2⟩, h3⟩, h4⟩, h5⟩, h6⟩, h7⟩, h8⟩
    rintro (h | h | h | h | h | ⟨n, hn, h⟩ | ⟨m, hm, h⟩ | h)
    any_goals omega
    · rcases h6 ⟨n, by omega⟩ with g | g
      · exact absurd hn (Nat.not_lt.2 g)
      · exact (sq h4 _).1 g h
    · rcases h7 ⟨m, by omega⟩ with g | g
      · exact absurd hm (Nat.not_lt.2 g)
      · exact g h
  · intro h
    simp only [not_or, not_exists, not_and] at h
    obtain ⟨h1, h2, h3, h4, h5, h6, h7, h8⟩ := h
    refine ⟨⟨⟨⟨⟨⟨⟨by omega, by omega⟩, by omega⟩, by omega⟩, by omega⟩,
      fun n => ?_⟩, fun m => ?_⟩, by simpa only [not_or] using h8⟩
    · by_cases hn : n.val < field r 0 1
      · exact .inr ((sq (by omega) n).2 (h6 _ hn))
      · exact .inl (Nat.not_lt.1 hn)
    · by_cases hm : m.val < field r 1 1
      · exact .inr (h7 _ hm)
      · exact .inl (Nat.not_lt.1 hm)

end Sys2Proof.Safety
end

