-- ==== Sys2Proof/Laws/Records.lean ====
section
/-! SUPPORT. Laws: a record that the first two steps of R40 let through is the operation that its bytes say (section 12.2). -/

namespace Sys2Proof.Safety

open Sys2Proof.Machine

/-! ### The parts of a record -/

theorem flag_bit (r : OpRecord) (k : Nat) (h : k < 8) : (byteAt r 1).getLsbD k = r.getLsbD (8 + k) := by
  simp [byteAt, h]

theorem rectAt_eq_some {r : OpRecord} {o : Nat} {rect : Rect} (h : rectAt r o = some rect) : rect = rectIn r o :=
  (when_eq_some.1 h).2.symm

theorem clipOf_eq_some {r : OpRecord} {clip : Option Rect} (h : clipOf r (byteAt r 1) = some clip) : clip = clipIn r := by
  unfold clipOf flagClip at h
  unfold clipIn flagSet
  rw [flag_bit r 2 (by decide)] at h
  split at h
  · obtain ⟨x, hx, rfl⟩ := Option.map_eq_some_iff.1 h
    rw [if_pos (by assumption), rectAt_eq_some hx]
  · cases h
    rw [if_neg (by assumption)]

theorem keyOf_eq (r : OpRecord) : keyOf r (byteAt r 1) = keyIn r := by
  unfold keyOf keyIn flagKey flagSet
  rw [flag_bit r 3 (by decide), word32At_eq]

theorem backOf_eq (r : OpRecord) : backOf r (byteAt r 1) = backIn r := by
  unfold backOf backIn flagBack flagSet
  rw [flag_bit r 4 (by decide), word32At_eq]

theorem ropOf_eq_some {r : OpRecord} {rop : BitVec 4} (h : ropOf r = some rop) : rop.toNat = field r 6 1 := by
  obtain ⟨le, rfl⟩ := when_eq_some.1 h
  have le : (byteAt r 6).toNat ≤ 15 := BitVec.le_def.1 (of_decide_eq_true le)
  rw [BitVec.toNat_setWidth, Nat.mod_eq_of_lt (Nat.lt_succ_of_le le)]
  rfl

theorem sourcePositionOf_eq_some {r : OpRecord} {p : Nat × Nat} (h : sourcePositionOf r = some p) :
    p = (field r 0x10 2, field r 0x12 2) := (when_eq_some.1 h).2.symm

theorem formatOf_eq_some {code : BitVec 8} {f : Format} (h : formatOf code = some f) : formatCode f = code.toNat := by
  unfold formatOf at h
  split at h <;> cases h <;> (symm; assumption)

theorem hostFormatOf_eq_some {code : BitVec 8} {f : Format} (h : hostFormatOf code = some f) : formatCode f = code.toNat := by
  unfold hostFormatOf at h
  split at h
  · cases h
  · exact formatOf_eq_some h

theorem orientation_code : ∀ o : BitVec 8, o ≤ 7#8 →
    (o.getLsbD 2).toNat * 4 + (o.getLsbD 1).toNat * 2 + (o.getLsbD 0).toNat = o.toNat := by decide +kernel

theorem hostBufferOf_eq_some {r : OpRecord} {rect : Rect} {host : HostBuffer} (h : hostBufferOf r rect = some host) :
    HostBufferIn r host := by
  simp only [hostBufferOf, Option.bind_eq_bind, Option.bind_eq_some_iff] at h
  obtain ⟨f, hf, o, ho, h⟩ := h
  obtain ⟨le, rfl⟩ := when_eq_some.1 ho
  obtain ⟨_, rfl⟩ := when_eq_some.1 h
  exact ⟨rfl, rfl, hostFormatOf_eq_some hf, orientation_code _ (of_decide_eq_true le)⟩

theorem surfaceFieldsOf_eq_some {r : OpRecord} {d : SurfaceFields} (h : surfaceFieldsOf r = some d) : SurfaceFieldsIn r d := by
  simp only [surfaceFieldsOf, Option.bind_eq_bind, Option.bind_eq_some_iff, below_eq_some] at h
  obtain ⟨f, hf, p, hp, b, hb, h⟩ := h
  obtain ⟨_, rfl⟩ := when_eq_some.1 h
  refine ⟨formatOf_eq_some hf, rfl, rfl, rfl, rfl, hp, ?_⟩
  unfold bandOf at hb
  split at hb
  · next absent =>
      cases hb
      exact (if_neg (by rw [← byteAt_toNat, absent]; decide)).symm
  · next present =>
      rw [← (when_eq_some.1 hb).2]
      exact (if_pos present).symm
  · cases hb

theorem ofCode_eq_some {code : BitVec 8} {k : Kind} (h : Kind.ofCode code = some k) : code.toNat = match k with
    | .fill => 1 | .copy => 2 | .pattern => 3 | .expand => 4 | .importPixels => 5 | .exportPixels => 6 | .loadPalette => 7 | .define => 8
    | .retire => 9 | .scroll => 10 | .signal => 11 | .wait => 12 | .present => 13 | .setPanel => 14 | .note => 15 := by
  unfold Kind.ofCode at h
  split at h <;> cases h <;> assumption

/-! ### The operation -/

/-- A record that passes the first two steps of R40 is the operation that its bytes say. -/
theorem says_of_decodeRecord {panelHeight : Nat} {r : OpRecord} {op : Op} (h : decodeRecord panelHeight r = .ok op) : Says r op := by
  unfold decodeRecord at h
  split at h
  · cases h
  next k hk =>
  have code := ofCode_eq_some hk
  rw [byteAt_toNat] at code
  split at h
  · split at h
    · next o ho =>
      cases h
      cases k <;> simp only [Kind.fieldsOf, Option.bind_eq_bind, Option.bind_eq_some_iff, below_eq_some, Option.some.injEq,
        when_eq_some] at ho
      case fill =>
        obtain ⟨dst, hd, rop, hr, rect, hrect, clip, hc, rfl⟩ := ho
        exact ⟨code, hd, ropOf_eq_some hr, rectAt_eq_some hrect, rfl, clipOf_eq_some hc⟩
      case copy =>
        obtain ⟨dst, hd, src, hs, rop, hr, rect, hrect, p, hp, clip, hc, rfl⟩ := ho
        cases sourcePositionOf_eq_some hp
        exact ⟨code, hd, hs, ropOf_eq_some hr, rectAt_eq_some hrect, rfl, rfl, keyOf_eq r, clipOf_eq_some hc⟩
      case pattern =>
        obtain ⟨dst, hd, src, hs, rop, hr, rect, hrect, p, hp, px, hx, py, hy, clip, hc, rfl⟩ := ho
        cases sourcePositionOf_eq_some hp
        exact ⟨code, hd, hs, ropOf_eq_some hr, rectAt_eq_some hrect, rfl, rfl, hx, hy, keyOf_eq r, clipOf_eq_some hc⟩
      case expand =>
        obtain ⟨dst, hd, src, hs, rop, hr, rect, hrect, p, hp, clip, hc, rfl⟩ := ho
        cases sourcePositionOf_eq_some hp
        exact ⟨code, hd, hs, ropOf_eq_some hr, rectAt_eq_some hrect, rfl, rfl, rfl, backOf_eq r, clipOf_eq_some hc⟩
      case importPixels =>
        obtain ⟨dst, hd, rect, hrect, host, hh, p, hp, clip, hc, rfl⟩ := ho
        exact ⟨code, hd, rectAt_eq_some hrect, hostBufferOf_eq_some hh, hp, keyOf_eq r, clipOf_eq_some hc⟩
      case exportPixels =>
        obtain ⟨src, hs, rect, hrect, host, hh, rfl⟩ := ho
        exact ⟨code, hs, rectAt_eq_some hrect, hostBufferOf_eq_some hh⟩
      case loadPalette =>
        obtain ⟨p, hp, _, rfl⟩ := ho
        exact ⟨code, hp, rfl, rfl, rfl⟩
      case define =>
        obtain ⟨id, hi, d, hd, rfl⟩ := ho
        exact ⟨code, hi, surfaceFieldsOf_eq_some hd⟩
      case setPanel =>
        obtain ⟨hc, rfl⟩ := ho
        simp only [Bool.and_eq_true, decide_eq_true_eq] at hc
        have one : ∀ b : BitVec 8, b ≤ 1#8 → (b.getLsbD 0).toNat = b.toNat := by decide +kernel
        exact ⟨code, one _ hc.1.1, rfl, rfl, BitVec.toNat_setWidth _ _⟩
      case note =>
        cases ho
        exact code
      case signal =>
        obtain ⟨i, hi, rfl⟩ := ho
        exact ⟨code, hi, rfl⟩
      case wait =>
        obtain ⟨i, hi, rfl⟩ := ho
        exact ⟨code, hi, rfl, rfl⟩
      case scroll =>
        obtain ⟨i, hi, rfl⟩ := ho
        exact ⟨code, hi, rfl⟩
      all_goals
        obtain ⟨i, hi, rfl⟩ := ho
        exact ⟨code, hi⟩
    · cases h
  · cases h

end Sys2Proof.Safety
end

