-- ==== Sys2Proof/WellFormed.lean ====
section
/-! DEFINITION. Which commands the outside can send: the operands whose range the type does not already give. -/

namespace Sys2Proof

/-- A register write carries 1 to 4 bytes (R167: a 32-bit word, or fewer than 32 bits). -/
def registerWriteSizeOk (size : Nat) : Bool := 1 ≤ size && size ≤ 4

/-- Read data is not empty, holds at most the 4096 pixels of 4 bytes of a line (R29), and ends within the host address space (R34). -/
def readDataOk (address : BitVec 64) (data : List Byte) : Bool :=
  0 < data.length && data.length ≤ 16384 && address.toNat + data.length ≤ 18446744073709551616

/-- A host write of an EXPORT line carries 1 to 4096 whole pixels (R115, R29). -/
def writePixelsOk (pixels : Nat) : Bool := 1 ≤ pixels && pixels ≤ 4096

/-- A panel pixel lies inside the largest panel, 2048 × 2048 (R152). -/
def panelPixelOk (x row : Nat) : Bool := x < 2048 && row < 2048

/-- The command's operands lie in the ranges that the spec gives them. -/
def Instr.wellFormed : Instr → Bool
  | .registerWrite _ size _ => registerWriteSizeOk size
  | .hostReadData _ address data => readDataOk address data
  | .exportWriteAccepted _ pixels => writePixelsOk pixels
  | .scanPixel x row => panelPixelOk x row
  | .submit _ _ | .consume _ _ | .resume _ | .abort _ | .enable | .disable | .functionReset | .statusClear _
  | .setupAddressWrite _ _ | .coldReset | .linkReset | .pendingMessageSend _ _ _ | .setupReadArrival _ | .setupReadFault
  | .abandonedReadAnswer | .fetchStart _ | .recordArrival _ | .fetchFault | .overtakenFetchEnd | .abortAckPlace _ _
  | .dispatch | .lineComplete _ | .importReadFault _ | .exportWriteFault _ | .loadpalReadFault _
  | .completionWriteIssue _ | .completionWriteAccepted _ | .completionWriteFault _ | .abandonedWriteAnswer _
  | .messageWriteFault _ | .coalescingTimerExpiry _ | .waitExpiry _ | .frameStart | .pcieConfigurationTurnOff _ _ _
  | .linkUp | .abandonedFetchAnswer | .abandonedEngineAccessAnswer => true

end Sys2Proof
end

