-- ==== Sys2Proof/Tests/Slice0.lean ====
section
/-! SUPPORT. Tests: what WellFormed refuses, records read by the layouts of chapter 12, single steps whose results the spec gives,
and for every statement with hypotheses a state and operands that meet them. -/

namespace Sys2Proof.Tests

-- One theorem at a time: checked in parallel, these evaluations take more threads than the memory limit of a check allows.
set_option Elab.async false

open Sys2Proof Sys2Proof.Machine Sys2Proof.Safety

/-! ## What no one can send -/

/-- R167: a register write carries 1 to 4 bytes. -/
theorem test_registerWrite_of_five_bytes_refused : (Instr.registerWrite 0x10#12 5 0#32).wellFormed = false := by decide

/-- R113: read data is not empty. -/
theorem test_hostReadData_without_data_refused : (Instr.hostReadData .re0 0 []).wellFormed = false := by decide

/-- R29: read data hold no more than the 4096 pixels of 4 bytes of a line. -/
theorem test_hostReadData_longer_than_a_line_refused :
    (Instr.hostReadData .re0 0 (List.replicate 16385 0#8)).wellFormed = false := by decide +kernel

/-- R34: read data end within the host address space. -/
theorem test_hostReadData_past_the_top_refused :
    (Instr.hostReadData .re0 0xFFFFFFFFFFFFFFFF#64 [0#8, 0#8]).wellFormed = false := by decide

/-- R115: an accepted write carries at least one pixel. -/
theorem test_exportWrite_of_no_pixel_refused : (Instr.exportWriteAccepted .re1 0).wellFormed = false := by decide

/-- R152: no panel is wider than 2048. -/
theorem test_scanPixel_outside_every_panel_refused : (Instr.scanPixel 2048 0).wellFormed = false := by decide

/-- The ends of the ranges are sent. -/
theorem test_wellFormed_at_the_ends : (Instr.registerWrite 0x10#12 1 0#32).wellFormed = true ∧
    (Instr.registerWrite 0x10#12 4 0#32).wellFormed = true ∧ (Instr.hostReadData .re0 0xFFFFFFFFFFFFFFFF#64 [0#8]).wellFormed = true ∧
    (Instr.exportWriteAccepted .re1 4096).wellFormed = true ∧ (Instr.scanPixel 2047 2047).wellFormed = true := by decide

/-- No row of the table has bits (spec/00), so no word spells a command and none is put in the queue. -/
theorem test_no_word_spells_a_command : decodeTableWord 32 0xFFFFFFFF = none ∧ State.reset.withFetchWord 32 1 = State.reset :=
  ⟨rfl, rfl⟩

/-! ## Records -/

/-- A record with a number at each of some offsets, least significant byte first. -/
def recordOf (n : Nat) (fields : List (Nat × Nat)) : BitVec n :=
  BitVec.ofNat n (fields.foldr (fun f w => w + f.2 * 2 ^ (8 * f.1)) 0)

/-- FILL (01h) of surface 3 with ROP SOURCE (10), tag 1234h, rectangle (1, 2, 4, 3), colour 2 (section 12.2). -/
def fillRecord : OpRecord :=
  recordOf 512 [(0, 1), (2, 0x1234), (4, 3), (6, 10), (8, 1), (0x0A, 2), (0x0C, 4), (0x0E, 3), (0x1C, 2)]

theorem test_fill_record_read : decodeRecord 480 fillRecord =
    .ok (.fill 3 { x := 1, y := 2, w := 4, h := 3 } 2#32 10#4 none) := by decide +kernel

/-- COPY (02h) with CLIP and KEY (0Ch): surface 3 from surface 5 at (7, 9). -/
theorem test_copy_record_read : decodeRecord 480 (recordOf 512 [(0, 2), (1, 0x0C), (4, 3), (5, 5), (6, 6), (8, 1), (0x0A, 2),
      (0x0C, 4), (0x0E, 3), (0x10, 7), (0x12, 9), (0x14, 10), (0x16, 11), (0x18, 12), (0x1A, 13), (0x24, 0xABCDEF)]) =
    .ok (.copy 5 7 9 3 { x := 1, y := 2, w := 4, h := 3 } 6#4 (some 0xABCDEF#32)
      (some { x := 10, y := 11, w := 12, h := 13 })) := by decide +kernel

/-- DEFINE (08h) of surface 63 with a band: base 100h, 64 × 32, P16 (1), stride 128, palette 2, band top 4, rows 8, origin 3. -/
def defineRecord : OpRecord :=
  recordOf 512 [(0, 8), (4, 63), (7, 1), (8, 0x100), (0x0C, 64), (0x0E, 32), (0x10, 128), (0x12, 1), (0x14, 4), (0x16, 8),
    (0x18, 3), (0x37, 2)]

/-- The fields that DEFINE reads from `defineRecord`. -/
def defined : SurfaceFields :=
  { base := 0x100, width := 64, height := 32, format := .p16, stride := 128, palette := 2,
    band := some { top := 4, rows := 8, origin := 3 } }

theorem test_define_record_read : decodeRecord 480 defineRecord = .ok (.define 63 defined) := by decide +kernel

/-- COLUMNS with y reverse. -/
def columnsUp : Orientation := { columns := true, xReverse := false, yReverse := true }

/-- A P16 host buffer at 1000h with pitch 16. -/
def hostBuffer : HostBuffer := { address := 0x1000#64, pitch := 16, format := .p16, orientation := columnsUp }

/-- IMPORT (05h) with orientation 6. -/
theorem test_import_record_read : decodeRecord 480 (recordOf 512 [(0, 5), (4, 1), (7, 1), (8, 0), (0x0A, 0), (0x0C, 3), (0x0E, 2),
      (0x28, 0x1000), (0x30, 16), (0x34, 6), (0x37, 3)]) =
    .ok (.importPixels hostBuffer 3 1 { x := 0, y := 0, w := 3, h := 2 } none none) := by decide +kernel

/-- LOADPAL (07h), SIGNAL (0Bh), WAIT (0Ch) and PANEL (0Eh) at the ends of their ranges. -/
theorem test_other_records_read :
    decodeRecord 480 (recordOf 512 [(0, 7), (0x28, 0x40), (0x37, 1), (0x38, 255), (0x3A, 1)]) = .ok (.loadPalette 1 255 1 0x40#64) ∧
    decodeRecord 480 (recordOf 512 [(0, 0x0B), (0x38, 15), (0x3C, 0xFFFFFFFF)]) = .ok (.signal 15 0xFFFFFFFF#32) ∧
    decodeRecord 480 (recordOf 512 [(0, 0x0C), (0x38, 15), (0x3A, 65535), (0x3C, 9)]) = .ok (.wait 15 9#32 65535) ∧
    decodeRecord 480 (recordOf 512 [(0, 0x0E), (0x1C, 0xFF112233), (0x38, 1), (0x3A, 0), (0x3C, 479)]) =
      .ok (.setPanel true 0 479 0x112233#24) := by decide +kernel

/-- R40, R185: kind bytes 00h and 10h, a flag that the kind does not allow, a rop of 16, PANEL rows past the panel. -/
theorem test_records_refused :
    decodeRecord 480 (recordOf 512 [(0, 0)]) = .error .badKind ∧ decodeRecord 480 (recordOf 512 [(0, 0x10), (1, 0xFF)]) =
      .error .badKind ∧ decodeRecord 480 (recordOf 512 [(0, 0x0F), (1, 0x04)]) = .error .badField ∧
    decodeRecord 480 (fillRecord ||| recordOf 512 [(6, 16)]) = .error .badField ∧
    decodeRecord 480 (recordOf 512 [(0, 0x0E), (0x38, 1), (0x3C, 480)]) = .error .badField := by decide +kernel

/-- A setup record: one queue (URGENT, HALT, quota 32, size 64 at 1000h), one completion queue (size 16 at 2000h, vector 3, threshold
2, timer 1), device vector 31, panel 640 × 480 at 16667 µs (section 12.4). -/
def setupRecord : SetupRecord :=
  recordOf 2048 [(0, 1), (1, 1), (2, 31), (0x10, 0x1000), (0x18, 64), (0x1A, 1), (0x1C, 1), (0x1D, 32), (0x90, 0x2000),
    (0x98, 16), (0x9A, 3), (0x9B, 2), (0x9C, 1), (0xD0, 640), (0xD2, 480), (0xD4, 16667)]

theorem test_setup_record_read : setupValid setupRecord = true ∧ setupDeviceVector setupRecord = some 31 ∧
    setupPanel setupRecord = some { width := 640, height := 480, period := 16667 } ∧
    (setupQueue setupRecord 0).map (fun c => (c.service, c.policy, c.size, c.quota)) = some (.urgent, .halt, 64, 32) ∧
    (setupCq setupRecord 0).map (fun c => (c.size, c.vector, c.threshold, c.timer)) = some (16, 3, 2, 1) := by decide +kernel

/-- R171: a quota of 33 is out of range. -/
theorem test_setup_record_refused : setupValid (setupRecord ||| recordOf 2048 [(0x1D, 33)]) = false := by decide +kernel

/-- The terms of the statements say so too. -/
theorem witness_setup_records : ¬SetupRefused setupRecord ∧ SetupRefused (recordOf 2048 []) ∧
    SetupRefused (setupRecord ||| recordOf 2048 [(0x1D, 33)]) :=
  ⟨(setupValid_iff _).1 (by decide +kernel), .inl (by decide +kernel),
    by_contra fun h => absurd ((setupValid_iff _).2 h) (by rw [test_setup_record_refused]; decide)⟩

/-! ## Single steps -/

/-- What holds of the next state of a command. -/
def after (c : Instr) (s : State) (p : State → Bool) : Bool :=
  match exec c s with
  | .next t => p t
  | _ => false

/-- Submission queue 0: size 64, HALT policy, records 13 to 15 pending (section 11.5). -/
def queueA : Queue :=
  { state := .opened, base := 0x1000#64, size := 64, service := .urgent, cq := 1, policy := .halt, quota := 32, head := 13,
    tail := 16, occupied := 0, abort := .absent }

/-- Completion queue 1 of section 8.9. -/
def ringB : CompletionQueue :=
  { base := 0x2000#64, size := 16, vector := 3, threshold := 4, timer := 50, tail := 14, head := 10, lap := 3#8,
    outstanding := 4, posting := [], inFlight := none, count := 0, deadline := none }

/-- A part in a device state with the link up and its configuration on, queue 0 bound to completion queue 1. -/
def part (d : DeviceState) : State :=
  { State.reset with
    control := { Control.coldReset with deviceState := d, enable := d != .off }
    link := { State.reset.link with up := true, busMastering := true, messageInterrupts := true }
    queues := State.reset.queues.set 0 (some queueA)
    cqs := State.reset.cqs.set 1 (some ringB) }

/-- The part in RUNNING. -/
abbrev running : State := part .running

/-- The part with every slot taken by queue 1. -/
def full : State :=
  { running with slots := Vector.replicate 32 { Slot.freed with state := .ended, queue := some 1, status := some .ok } }

/-- Section 11.5: an ABORT with head 13 and tail 16 skips 3 records; with no slot FREE its acknowledgement waits. -/
theorem test_abort_skips_three : after (.abort 0) full (fun t => (t.queue 0).map (fun c => (c.state, c.head, c.abort)) ==
    some (.draining, 16, .owed 3 .anyFree) && t.ackOrder == [0]) = true := by decide +kernel

/-- R58, R59: an acknowledgement that is placed in slot 31 holds the skipped count and is posted; DRAINING ends. -/
theorem test_acknowledgement_ends_draining :
    (let t := (running.beginAbort 0 queueA).placeAck 0 { queueA with state := .draining, head := 16, abort := .owed 3 .anyFree } 3 31
     (t.queue 0).map (fun c => (c.state, c.head, c.occupied, c.abort)) == some (.opened, 16, 1, .absent) &&
       (t.slot 31).status == some .queueAborted && (t.slot 31).detail == 3#32 && (t.cq 1).map CompletionQueue.posting == some [31] &&
       t.ackOrder == []) = true := by decide +kernel

/-- Section 11.5: a RESUME of the halted queue opens it; at its quota it is not fetched for. -/
theorem test_resume_opens : after (.resume 0) (running.setQueue 0 (some { queueA with state := .halted, occupied := 32 }))
    (fun t => (t.queue 0).map Queue.state == some .opened) = true := by decide +kernel

/-- R45: a tail equal to the size is refused, one below it is taken, by a HALTED queue too. -/
theorem test_submit_at_size : after (.submit 0 64#12) running (fun t => t.control.submitIgnored) = true ∧
    after (.submit 0 63#12) (running.setQueue 0 (some { queueA with state := .halted }))
      (fun t => (t.queue 0).map Queue.tail == some 63) = true := by decide +kernel

/-- R47, R48: a SUBMIT that makes the queue eligible starts the fetch of the record at its head, in some FREE slot. -/
theorem test_submit_starts_fetch : ∃ t i, exec (.submit 0 20#12) (running.setQueue 0 (some { queueA with tail := 13 })) = .next t ∧
    t.fetch = some { queue := 0, slot := i, address := 0x1340, sent := true, discard := false } := by
  have one : ∀ u v : State, u = running.setQueue 0 (some { queueA with tail := 20 }) → FetchServed u v →
      ∃ i, v.fetch = some { queue := 0, slot := i, address := 0x1340, sent := true, discard := false } := by
    rintro u v hu (none | @⟨_, q, c, i, hq, hc, _, _⟩ | ⟨_, _, _, hb, _, _⟩)
    · exact absurd (State.fetchPossible_iff.2 (by rw [hu]; decide +kernel)) none
    · cases (show u.chosenQueue = some 0 by rw [hu]; decide +kernel).symm.trans hq
      cases (show u.queue 0 = some { queueA with tail := 20 } by rw [hu]; rfl).symm.trans hc
      exact ⟨i, rfl⟩
    · exact absurd hb (by rw [hu]; decide)
  obtain ⟨i, hi⟩ := one _ _ rfl (State.serveFetch_served _)
  exact ⟨_, i, rfl, hi⟩

/-- R110, R50: with bus mastering off the read of a fetch is refused at once: the path is free, the slot is ENDED FETCH_FAULT with the head, 13,
as detail, and the queue is HALTED at its head. -/
theorem test_refused_fetch : after (.fetchStart 9) { running with link := { running.link with busMastering := false } } (fun t =>
    t.fetch.isNone && (t.slot 9).state == .ended && (t.slot 9).status == some .fetchFault && (t.slot 9).detail == 13#32 &&
    (t.queue 0).map (fun c => (c.state, c.head, c.occupied)) == some (.halted, 13, 1)) = true := by decide +kernel

/-- Section 8.9, steps 6 and 7: head 1 consumes 7 entries, head 3 more than there are. -/
theorem test_consume_across_the_wrap :
    after (.consume 1 1#12) (running.setCq 1 (some { ringB with outstanding := 7 }))
      (fun t => (t.cq 1).map (fun c => (c.head, c.outstanding)) == some (1, 0)) = true ∧
    after (.consume 1 3#12) (running.setCq 1 (some { ringB with head := 1, outstanding := 0 }))
      (fun t => t.control.consumeIgnored) = true := by decide +kernel

/-- An ended slot of queue 0. -/
def endedSlot : Slot :=
  { Slot.freed with
    state := .ended, queue := some 0, sequence := some 5#32, tag := 0x1234#16, kind := 1#8, op := some .note, status := some .ok,
    detail := 7#32 }

/-- Slot 7 waits to be written at position 15 of the ring. -/
def writing : State :=
  let t := running.setSlot 7 endedSlot
  let t := t.setCq 1 (some { ringB with
    tail := 15, outstanding := 5, count := 1, deadline := some 601#64, posting := [7, 20],
    inFlight := some (running.completionWrite { ringB with tail := 15 } 7) })
  t.setQueue 0 (some { queueA with occupied := 2 })

/-- The same with every record of queue 0 fetched. -/
def submitted : State := writing.setQueue 0 (some { queueA with occupied := 2, tail := 13 })

/-- Section 8.9, step 3: tail wraps to 0, lap becomes 4, outstanding 6, count 2, the deadline stays, slot 7 is FREE, and the write of
slot 20 is in flight at position 0. -/
theorem test_accepted_write_wraps : after (.completionWriteAccepted 1) submitted (fun t =>
    (t.cq 1).map (fun c => (c.tail, c.lap, c.outstanding, c.count, c.deadline, c.posting)) ==
      some (0, 4#8, 6, 2, some 601#64, [20]) && (t.slot 7).state == .free &&
    ((t.cq 1).bind CompletionQueue.inFlight).map (fun w => (w.slot, w.address)) == some (20, 0x2000)) = true := by decide +kernel

/-- R110, R116: a completion write is in flight, and a message behind it; bytes of a transfer that are accepted now stand ahead of it, and
its own take its place when it is accepted in turn, ahead of the message. -/
theorem test_writes_stand_in_order_of_acceptance :
    let s : State := { submitted with link := { submitted.link with written := [.bytes 1 [], .issued 1 2 [], .message 3] } }
    (s.accept 4 [9#8]).link.written = [.bytes 1 [], .bytes 4 [9#8], .issued 1 2 [], .message 3] ∧
    after (.completionWriteAccepted 1) (s.accept 4 [9#8]) (fun t =>
      t.link.written.map (fun w => match w with | .bytes a _ => a | .issued _ a _ | .abandoned a _ => 100 + a | .message _ => 0) ==
        [1, 4, 0x20F0, 0, 100 + 0x2000]) = true := by
  decide +kernel

/-- The write of queue 0 is issued and then that of queue 1; both are in flight. -/
def bothInFlight : State :=
  let t := submitted.setCq 0 (some { ringB with posting := [8], inFlight := some (running.completionWrite ringB 8) })
  { t with link := { t.link with written := [.issued 0 1 [], .issued 1 2 []] } }

/-- R141: the link takes the writes in the order of issue, queue 0's and not queue 1's. -/
theorem test_link_takes_in_order_of_issue : after (.completionWriteAccepted 1) bothInFlight (fun t => t == bothInFlight) = true ∧
    after (.completionWriteAccepted 0) bothInFlight (fun t => (t.cq 0).map (fun c => c.tail) == some 15) = true := by
  decide +kernel

/-- R141, R143: with outstanding at size − 1 nothing is in flight; a CONSUME of one entry issues the next write at once. -/
theorem test_consume_issues : after (.consume 1 11#12)
    ((running.setSlot 7 endedSlot).setCq 1 (some { ringB with outstanding := 15, posting := [7] }))
    (fun t => ((t.cq 1).bind CompletionQueue.inFlight).map (fun w => (w.slot, w.address)) == some (7, 0x20E0)) = true := by
  decide +kernel

/-- Section 8.9, step 5: the timer expires with count 3; the vector is signalled and count becomes 0. -/
theorem test_coalescing_timer : after (.coalescingTimerExpiry 1) (running.setCq 1 (some { ringB with count := 3, deadline := some 601#64 }))
    (fun t => (t.cq 1).map (fun c => (c.count, c.deadline)) == some (0, none) && t.link.written == [.message 3] &&
      t.control.timer == 601#64) = true := by decide +kernel

/-- R142: lap steps from 255 to 1. -/
theorem test_lap_wraps : nextLap 255#8 = 1#8 ∧ nextLap 3#8 = 4#8 := by decide

/-- Section 12.3: the completion record of a FILL of queue 5 that ended RANGE. -/
theorem test_completion_record_bytes :
    CompletionEntry.bytes { sq := 5, kind := 1#8, tag := 0x1234#16, status := .badRange, lap := 3#8, sqHead := 0x0ABC#16, detail := 9#32 } =
      [5#8, 1#8, 0x34#8, 0x12#8, 6#8, 3#8, 0xBC#8, 0x0A#8, 9#8, 0#8, 0#8, 0#8, 0#8, 0#8, 0#8, 0#8] := by decide +kernel

/-- R155: the frame counter steps from FFFF_FFFFh to 1. -/
theorem test_frame_counter_wraps : nextFrame 0xFFFFFFFF#32 = 1#32 ∧ nextFrame 0#32 = 1#32 := by decide

/-- R172: a load address that is not a multiple of 64 takes ENABLE to FAULT with SETUP_INVALID; STATUS then reads 24h. -/
theorem test_enable_misaligned : after .enable
    (let s := part .off; { s with control := { s.control with setupLo := 0x20#32 } })
    (fun t => t.readRegister 0x10#12 == 0x24#32 && t.control.enable) = true := by decide +kernel

/-- R184: QCTL reads the code of queue n in bits 3n + 2..3n; queue 0 is HALTED (3), queue 7 DRAINING (4). -/
theorem test_qctl_read : ((running.setQueue 0 (some { queueA with state := .halted })).setQueue 7
    (some { queueA with state := .draining })).readRegister 0x1C#12 = 0x800003#32 := by decide +kernel

/-- R47: after RUNNING is entered the first search begins at queue 0 (section 3.10 starts so). -/
theorem test_first_choice : running.chosenQueue = some 0 := by decide +kernel

/-- R147: a pending vector is sent once when the configuration comes on. -/
theorem test_pending_message : after (.pendingMessageSend true true [])
    (let s := part .off
     { s with link := { s.link with busMastering := false, messageInterrupts := false, pendingFlags := s.link.pendingFlags.set 9 true } })
    (fun t => t.link.written == [.message 9] && !t.link.pendingFlags[(9 : Fin 32)]) = true := by decide +kernel

/-- R173, R174: a valid record takes LOADING to RUNNING and signals its device vector. -/
theorem test_setup_arrival : after (.setupReadArrival setupRecord)
    (let s := part .loading; { s with control := { s.control with setupRead := some { address := 0#64 } } })
    (fun t => t.control.deviceState == .running && t.link.written == [.message 31] &&
      (t.queue 1).isNone && (t.presentation.frameDeadline == some 16667#64)) = true := by decide +kernel

/-- R179, R110: with bus mastering off a load faults at once, with SETUP_READ (STATUS 14h). -/
theorem test_load_without_bus_mastering : after .enable
    (let s := part .off; { s with link := { s.link with busMastering := false } })
    (fun t => t.readRegister 0x10#12 == 0x14#32 && t.control.setupRead.isNone && t.link.pendingFlags[(0 : Fin 32)]) = true := by
  decide +kernel

/-- R180: an expiry is not taken past a timer with an earlier deadline. -/
theorem test_later_timer_waits :
    let s := (running.setCq 0 (some { ringB with deadline := some 600#64 })).setCq 1 (some { ringB with deadline := some 601#64 })
    after (.coalescingTimerExpiry 1) s (fun t => t == s) = true ∧
    after (.coalescingTimerExpiry 0) s (fun t => t.control.timer == 600#64) = true := by decide +kernel

/-! ## Pixels -/

/-- Section 6.8: full red in P16 widens to FF0000h; R94: half-way channel values both ways. -/
theorem test_widen_and_narrow : widen 0xF800#32 = 0xFF0000#32 ∧ widen 0x07E0#32 = 0x00FF00#32 ∧ narrow 0xFF8007#32 = 0xFC00#32 := by
  decide +kernel

/-- The band example of section 1.3: top 40, rows 160, origin 16. -/
theorem test_band_example :
    [0, 39, 40, 100, 183, 184, 199].map (Band.physicalRow { top := 40, rows := 160, origin := 16 } 16) =
      [0, 39, 56, 116, 199, 40, 55] := by decide +kernel

/-- R29, section 6.8: COLUMNS with x reverse, rectangle (10, 20, 4, 3): line 0 is column 13, its pixels rows 20 to 22. -/
theorem test_rotated_lines : (List.range 3).map (Orientation.pixel { columns := true, xReverse := true, yReverse := false }
      { x := 10, y := 20, w := 4, h := 3 } 0) = [(13, 20), (13, 21), (13, 22)] ∧
    Orientation.pixel { columns := true, xReverse := true, yReverse := false } { x := 10, y := 20, w := 4, h := 3 } 3 2 = (10, 22) := by
  decide +kernel

/-- Surface 2 of the worked example of section 5.4: I8, 320 × 240, palette 1, at 0. -/
def sourceI8 : SurfaceFields :=
  { base := 0, width := 320, height := 240, format := .i8, stride := 320, palette := 1, band := none }

/-- Surface 0 of that example: P32, 800 × 480, at 20000h. -/
def screenP32 : SurfaceFields :=
  { base := 0x20000, width := 800, height := 480, format := .p32, stride := 3200, palette := 0, band := none }

/-- Palette 1 of the example: entry 3 = 204060h and entry 9 = FFFFFFh. -/
def examplePalettes : List (Nat × BitVec 24) := Palette.write (Palette.write [] 1 3 0x204060#24) 1 9 0xFFFFFF#24

/-- Frame memory before the COPY: sources 03h, 03h, 07h, 09h; destinations 0F0F0Fh with pad 5Ah. -/
def exampleMemory : FrameMemory :=
  Memory.writeBytes (Memory.writeBytes [] 0 [3, 3, 7, 9]) (screenP32.pixelByte 40 60)
    [15, 15, 15, 0x5A, 15, 15, 15, 0x5A, 15, 15, 15, 0x5A, 15, 15, 15, 0x5A]

/-- The example's COPY with ROP XOR (6), KEY 07h and CLIP (41, 0, 100, 480). -/
def exampleCopy : Job :=
  { op := .copy 2 0 0 0 { x := 40, y := 60, w := 4, h := 1 } 6#4 (some 7#32) (some { x := 41, y := 0, w := 100, h := 480 }),
    src := some sourceI8, dst := some screenP32, plan := { bottomUp := false, rightLeft := false }, latch := [], read := none, arrived := [],
    accepted := 0, drawn := 0, begun := 0 }

/-- Section 5.4, worked example: the bytes of pixels 40 to 43 of row 60 after the COPY. -/
theorem test_copy_example :
    let m := exampleCopy.drawLine examplePalettes exampleMemory 0
    (List.range 16).map (fun k => Memory.read m (screenP32.pixelByte 40 60 + k)) =
      [15, 15, 15, 0x5A, 0x6F, 0x4F, 0x2F, 0, 15, 15, 15, 0x5A, 0xF0, 0xF0, 0xF0, 0] := by decide +kernel

/-- R5: the leftmost M1 pixel is the most significant bit of its byte, and a write keeps the other seven. -/
theorem test_m1_write_keeps_the_byte :
    let d : SurfaceFields := { base := 0, width := 16, height := 1, format := .m1, stride := 64, palette := 0, band := none }
    Memory.read (writePixel [(1, 0x3F#8)] d 8 0 1#32) 1 = 0xBF#8 := by decide +kernel

/-- R99: a COPY that moves down within one surface runs bottom-up, one that moves right within its rows right to left. -/
theorem test_plans : movePlan true 0 0 { x := 0, y := 1, w := 4, h := 4 } = { bottomUp := true, rightLeft := false } ∧
    movePlan true 0 0 { x := 1, y := 0, w := 4, h := 4 } = { bottomUp := false, rightLeft := true } ∧
    movePlan true 0 0 { x := 4, y := 0, w := 4, h := 4 } = { bottomUp := false, rightLeft := false } := by decide

/-- Section 2.7: surfaces 0 (shown), 2, 3, 4 (RETIRING) and 9, with the 800 × 480 panel. -/
def batch : State :=
  let surface := fun (st : SurfaceState) (b w h stride : Nat) (f : Format) (p : PaletteId) (sh : Bool) =>
    ({ state := st, fields := some { base := b, width := w, height := h, format := f, stride := stride, palette := p, band := none },
       shown := sh, presentRefs := 0 } : Surface)
  let s : State := { running with presentation := { running.presentation with panel := some { width := 800, height := 480, period := 16667 } } }
  let s := s.setSurface 0 (surface .defined 0x20000 800 480 3200 .p32 0 true)
  let s := s.setSurface 2 (surface .defined 0 320 240 320 .i8 1 false)
  let s := s.setSurface 3 (surface .defined 0x300000 64 16 64 .m1 0 false)
  let s := s.setSurface 4 (surface .retiring 0x400000 800 480 1600 .p16 0 false)
  s.setSurface 9 (surface .defined 0x600000 4 4 64 .p16 0 false)

/-- The checks of section 2.7, records 1, 3 to 10. -/
theorem test_batch_checks :
    batch.checkOp (.fill 0 { x := 700, y := 0, w := 200, h := 100 } 0xFF00#32 10#4 none) = some .badRange ∧
    batch.checkOp (.copy 2 0 0 0 { x := 40, y := 60, w := 320, h := 240 } 10#4 none none) = none ∧
    batch.checkOp (.copy 0 0 0 2 { x := 0, y := 0, w := 320, h := 240 } 10#4 none none) = some .badFormat ∧
    batch.checkOp (.copy 4 0 0 0 { x := 0, y := 0, w := 800, h := 480 } 10#4 none none) = some .surfaceState ∧
    batch.checkOp (.expand 3 0 0 0 { x := 100, y := 400, w := 64, h := 16 } 0xFFFFFF#32 none 14#4 none) = none ∧
    batch.checkOp (.pattern 9 0 0 0 0 0 { x := 0, y := 0, w := 16, h := 16 } 10#4 none none) = some .badFormat ∧
    batch.checkOp (.present 2) = some .geometry ∧ batch.checkOp (.retire 0) = some .displayBusy ∧
    batch.checkOp (.fill 0 { x := 0, y := 0, w := 800, h := 480 } 0#32 6#4 (some { x := 900, y := 0, w := 50, h := 50 })) = none ∧
    Op.emptyClip (.fill 0 { x := 0, y := 0, w := 800, h := 480 } 0#32 6#4 (some { x := 900, y := 0, w := 50, h := 50 })) = true := by
  decide +kernel

/-- Section 2.7: record 3 reads palette 1, record 6 reads its destination. -/
theorem test_batch_regions :
    batch.readRegions (.copy 2 0 0 0 { x := 40, y := 60, w := 320, h := 240 } 10#4 none none) =
      [regionOf 2 { x := 0, y := 0, w := 320, h := 240 }, whole (.palette 1)] ∧
    batch.readRegions (.expand 3 0 0 0 { x := 100, y := 400, w := 64, h := 16 } 0xFFFFFF#32 none 14#4 none) =
      [regionOf 3 { x := 0, y := 0, w := 64, h := 16 }, regionOf 0 { x := 100, y := 400, w := 64, h := 16 }] := by decide +kernel

/-- The COPY of section 5.5 that moves a run right within one row of surface 5, P16 of 200 × 100. -/
def runRight : Job :=
  let op : Op := .copy 5 0 0 5 { x := 2, y := 0, w := 4, h := 1 } 10#4 none none
  let d : SurfaceFields := { base := 0, width := 200, height := 100, format := .p16, stride := 448, palette := 0, band := none }
  { op := op, src := some d, dst := some d, plan := op.plan, latch := [], read := none, arrived := [], accepted := 0, drawn := 0, begun := 0 }

/-- Its row begins with the pixels Ah to Fh. -/
def runRow : FrameMemory := Memory.writeBytes [] 0 [10, 0, 11, 0, 12, 0, 13, 0, 14, 0, 15, 0]

/-- The first six pixels of that row. -/
def runPixels (m : FrameMemory) : List Nat := (List.range 6).map fun k => (Memory.read m (2 * k)).toNat

/-- Section 5.5, moving a run right within one row: the row after each step of its table, the rest of the line after the second. -/
theorem test_run_moved_right : (List.range 5).map (fun n => runPixels (runRight.drawSome [] runRow 0 0 n)) =
      [[10, 11, 12, 13, 14, 15], [10, 11, 12, 13, 14, 13], [10, 11, 12, 13, 12, 13], [10, 11, 12, 11, 12, 13],
       [10, 11, 10, 11, 12, 13]] ∧
    runPixels ({ runRight with drawn := 2 }.drawRest [] (runRight.drawSome [] runRow 0 0 2) 0) = [10, 11, 10, 11, 12, 13] := by
  decide +kernel

/-! ## States and operands that meet the hypotheses of the statements -/

/-- A slot of queue 0 in a state with an operation. -/
def slotOf (st : SlotState) (op : Op) : Slot :=
  { Slot.freed with state := st, queue := some 0, sequence := some 1#32, op := some op }

/-- A panel with its frame timer set, and the operation that is held. -/
def displaying (held : Option Op) : State :=
  let t := match held with | some op => running.setSlot 31 (slotOf .running op) | none => running
  { t.setSurface 0 { state := .defined, fields := some screenP32, shown := false, presentRefs := 1 } with
    presentation := { running.presentation with
      panel := some { width := 800, height := 480, period := 16667 }
      display := true
      shown := some 0
      firstRow := 1
      lastRow := some 478
      frameDeadline := some 16667#64
      scan := some (800 * 480)
      held := held.map fun _ => 31 } }

theorem witness_ExecKeepsPending : ∃ t, exec .linkUp running = .next t := ⟨_, rfl⟩

theorem witness_MarksNeverDecrease : ∃ t, exec .dispatch running = .next t := ⟨_, rfl⟩

theorem witness_StickyFlagsStaySet : ∃ t, exec (.submit 0 64#12) running = .next t ∧ isReset (.submit 0 64#12) = false := ⟨_, rfl, rfl⟩

theorem witness_DeviceStateFollowsTable : ∃ t, exec .enable (part .off) = .next t ∧ isReset .enable = false := ⟨_, rfl, rfl⟩

/-- The coalescing timer of `writing`, due at 601, at a reading of the device timer. -/
def ticking (now : Time) : State := { writing with control := { writing.control with timer := now } }

theorem ticking_deadline (now : Time) (c : Instr) (d : Time) : Deadline (ticking now) c d ↔ c = .coalescingTimerExpiry 1 ∧ d = 601#64 := by
  rw [← State.mem_liveTimers, show (ticking now).liveTimers = [(.coalescingTimerExpiry 1, 601#64)] from rfl, List.mem_singleton,
    Prod.mk.injEq]

/-- `ticking` with nothing to fetch. -/
def idling (now : Time) : State := (ticking now).setQueue 0 (some { queueA with occupied := 2, tail := 13 })

theorem idling_deadline (now : Time) (c : Instr) (d : Time) : Deadline (idling now) c d ↔ c = .coalescingTimerExpiry 1 ∧ d = 601#64 := by
  rw [← ticking_deadline now, ← State.mem_liveTimers, ← State.mem_liveTimers]
  rfl

/-- A queue with a record to fetch; and with none, a READY engine operation with both engines IDLE, and nothing. -/
theorem witness_TimerRunsOn_possible : FetchPossible (ticking 601#64) ∧
    (let s : State := { (idling 601#64).setSlot 3 (slotOf .ready (.loadPalette 0 0 1 0#64)) with order := [3] }
     s.pending = [] ∧ ¬FetchPossible s ∧ DispatchPossible s) ∧
    ∀ now, ¬FetchPossible (idling now) ∧ ¬DispatchPossible (idling now) := by
  simp only [State.fetchPossible_iff, ← State.mayDispatch_iff]
  exact ⟨by decide +kernel, by decide +kernel, fun now => ⟨by rw [show (idling now).chosenQueue = none from rfl]; decide,
    by rw [show (idling now).mayDispatch = false from rfl]; decide⟩⟩

/-- The clauses of TimerRunsOn: a cold reset; a step at a deadline's own reading; one µs before the deadline; at the deadline, and before a
frame start with one pixel left to scan. -/
theorem witness_TimerRunsOn : (∃ t, exec .coldReset running = .next t) ∧
    (∃ t, step { idling 601#64 with pending := [.linkUp] } = .next t) ∧ Deadline (idling 601#64) (.coalescingTimerExpiry 1) 601#64 ∧
    (601#64).toNat ≤ (idling 601#64).control.timer.toNat ∧ (idling 601#64).pending = [] ∧ (idling 600#64).pending = [] ∧
    (∀ c d, Deadline (idling 600#64) c d → (idling 600#64).control.timer.toNat < d.toNat) ∧
    (let s : State := { displaying none with
        control := { running.control with timer := 16667#64 }
        queues := State.reset.queues
        presentation := { (displaying none).presentation with scan := some (800 * 480 - 1) } }
     s.pending = [] ∧ Deadline s .frameStart 16667#64 ∧ (16667#64).toNat ≤ s.control.timer.toNat ∧ s.chosenQueue = none ∧
       s.mayDispatch = false) := by
  refine ⟨⟨_, rfl⟩, ⟨_, rfl⟩, (idling_deadline _ _ _).2 ⟨rfl, rfl⟩, Nat.le_refl _, rfl, rfl, fun c d h => ?_, rfl,
    .inr (.inr ⟨rfl, rfl, rfl, rfl⟩), Nat.le_refl _, by decide +kernel⟩
  rw [((idling_deadline _ _ _).1 h).2]
  decide

/-- A part with one byte of frame memory and one palette entry written, and a command that waits. -/
def stored : State := { running with pending := [.linkUp], frame := [(33554431, 1#8)], palettes := [(1023, 1#24)] }

theorem witness_StoresStayCanonical : ∃ t, StoresCanonical stored ∧ step stored = .next t :=
  ⟨_, ⟨by decide, by decide⟩, rfl⟩

/-- A part with one surface, at the top of frame memory, and a command that waits. -/
def oneSurface : State :=
  { running.setSurface 63
    { state := .defined, shown := false, presentRefs := 0, fields := some { defined with base := 33550336 } } with
    pending := [.linkUp] }

theorem oneSurface_surface (i : SurfaceId) : oneSurface.surface i =
    if i = 63 then { state := .defined, shown := false, presentRefs := 0, fields := some { defined with base := 33550336 } }
    else Surface.freed := by
  revert i
  decide +kernel

theorem witness_ExtentsStayApart : ∃ t, ExtentsApart oneSurface ∧ step oneSurface = .next t := by
  refine ⟨_, ⟨?_, ?_⟩, rfl⟩
  · rintro i e ⟨h, g⟩
    rw [oneSurface_surface] at h g
    split at h
    · rw [if_pos ‹_›] at g
      cases g
      decide
    · exact absurd rfl h
  · rintro i j e f hij ⟨h, _⟩ ⟨g, _⟩
    rw [oneSurface_surface] at h g
    split at h
    · split at g
      · exact absurd ((‹i = 63›).trans (‹j = 63›).symm) hij
      · exact absurd rfl g
    · exact absurd rfl h

theorem defined_sound : SoundFields { defined with base := 33550336 } := by
  refine ⟨by decide, by decide, by decide, ?_⟩
  intro b h
  cases h
  decide

theorem witness_SurfacesStaySound : ∃ t, SurfacesSound oneSurface ∧ step oneSurface = .next t := by
  refine ⟨_, ⟨?_, ?_⟩, rfl⟩
  · intro i d h
    rw [oneSurface_surface] at h
    split at h
    · cases h; exact defined_sound
    · cases h
  · intro e j h
    exact absurd h (by cases e <;> exact nofun)

theorem witness_RingsStayBounded : ∃ t, RingsBounded { writing with pending := [.completionWriteAccepted 1] } ∧
    step { writing with pending := [.completionWriteAccepted 1] } = .next t := by
  refine ⟨_, ?_, rfl⟩
  intro k c h
  have all : ∀ k : CqId, (writing.cq k).all (fun c => decide (c.outstanding + (if c.inFlight.isSome then 1 else 0) + 1 ≤ c.size)) =
      true := by decide +kernel
  have := all k
  rw [show writing.cq k = some c from h] at this
  simpa using this

/-- A shown surface whose second row lies above the top of frame memory (R1); no run shows one. -/
def overTop : State :=
  let t := displaying none
  { t.setSurface 0 { t.surface 0 with fields := some { screenP32 with base := 33550336 } } with
    presentation := { t.presentation with scan := some 1100 } }

/-- A command that faults does so at a byte that does not exist. -/
theorem witness_OnlyMissingBytesFault : exec (.scanPixel 300 1) overTop = .fault .noSuchFrameByte ∧
    TouchesMissingByte overTop (.scanPixel 300 1) :=
  ⟨rfl, 0, _, rfl, rfl, rfl, by show 33554432 < _; decide +kernel⟩

/-! ### The register window -/

/-- Each clause of ChannelsTakeIndices: the last tail and the tail at the size, an UNUSED queue, the distance at outstanding and one
above it, an unconfigured completion queue. -/
theorem witness_ChannelsTakeIndices : running.link.up = true ∧
    (∃ c, running.queue 0 = some c ∧ (63#12).toNat < c.size) ∧ running.queue 1 = none ∧
    (∃ c, running.queue 0 = some c ∧ c.size ≤ (64#12).toNat) ∧
    (∃ c, running.cq 1 = some c ∧ (14#12).toNat < c.size ∧ ((14#12).toNat + c.size - c.head) % c.size ≤ c.outstanding) ∧
    running.cq 0 = none ∧ (∃ c, running.cq 1 = some c ∧ c.size ≤ (16#12).toNat) ∧
    ∃ c, running.cq 1 = some c ∧ c.outstanding < ((15#12).toNat + c.size - c.head) % c.size :=
  ⟨rfl, ⟨_, rfl, by decide⟩, rfl, ⟨_, rfl, by decide⟩, ⟨_, rfl, by decide, by decide⟩, rfl, ⟨_, rfl, by decide⟩, _, rfl, by decide⟩

/-- The part with queue 0 halted, and with its WAIT in the waiting list. -/
def halted : State := running.setQueue 0 (some { queueA with state := .halted })

theorem witness_ResumeReopensQueue : halted.link.up = true ∧ halted.control.deviceState = .running ∧
    (∃ c, halted.queue 0 = some c ∧ c.state = .halted) ∧ (∀ w ∈ halted.waiting, w.queue ≠ 0) ∧
    ∃ w ∈ ({ halted with waiting := [{ slot := 3, queue := 0, mark := 15, value := 1#32, deadline := none }] } : State).waiting,
      w.queue = 0 :=
  ⟨rfl, rfl, ⟨_, rfl, rfl⟩, by decide, _, List.mem_singleton.2 rfl, rfl⟩

/-- Each reason to refuse: the device state, RESUME of a queue that is OPEN or UNUSED, ABORT of a DRAINING or UNUSED queue, the action codes
0 and 3. -/
theorem witness_RefusedQueueActions : running.link.up = true ∧ (part .fault).control.deviceState ≠ .running ∧
    (∀ c, running.queue 0 = some c → c.state ≠ .halted) ∧ (∀ c, running.queue 7 = some c → c.state ≠ .halted) ∧
    (∀ c, (running.setQueue 0 (some { queueA with state := .draining })).queue 0 = some c → c.state = .draining) ∧
    (∀ c, running.queue 7 = some c → c.state = .draining) ∧
    ((0x300#32).extractLsb' 8 2 ≠ 1#2 ∧ (0x300#32).extractLsb' 8 2 ≠ 2#2) ∧ (0#32).extractLsb' 8 2 ≠ 1#2 ∧
    (0#32).extractLsb' 8 2 ≠ 2#2 := by
  refine ⟨rfl, by decide, ?_, ?_, ?_, ?_, by decide, by decide, by decide⟩ <;> intro c h <;> cases h <;> decide

/-- With FREE slots, with none, and with an acknowledgement that waits already. -/
theorem witness_AbortOfSlotlessQueue : running.link.up = true ∧ running.control.deviceState = .running ∧
    (∃ c k, running.queue 0 = some c ∧ c.state ≠ .draining ∧ c.occupied = 0 ∧ running.cq c.cq = some k) ∧
    (∀ i, (running.slot i).queue ≠ some 0) ∧ (∀ f, running.fetch = some f → f.queue ≠ 0) ∧ running.ackOrder = [] ∧
    (running.slot 31).state = .free ∧ (full.link.up = true ∧ full.control.deviceState = .running ∧ full.queue 0 = some queueA) ∧
    (∀ i, (full.slot i).queue ≠ some 0) ∧ full.fetch = none ∧ (∀ i, (full.slot i).state ≠ .free) ∧
    ({ full with ackOrder := [7] } : State).ackOrder ≠ [] :=
  ⟨rfl, rfl, ⟨_, _, rfl, by decide, rfl, rfl⟩, by decide +kernel, nofun, rfl, by decide +kernel, ⟨rfl, rfl, rfl⟩, by decide +kernel, rfl,
    by decide +kernel, by decide⟩

/-- Queue 0 has a BLOCKED operation, a WAIT, a READY and a held operation, one on RE0 and a fetch in flight. -/
def busy : State :=
  let t := ((running.setSlot 0 (slotOf .blocked .note)).setSlot 1 (slotOf .ready .note)).setSlot 31 (slotOf .running (.present 0))
  let t := (t.setSlot 5 (slotOf .running (.fill 0 { x := 0, y := 0, w := 1, h := 1 } 0#32 0#4 none))).setEngine .re0
    { state := .active, slot := some 5, line := 0, job := none }
  let t := (t.setSlot 2 (slotOf .blocked (.wait 15 5#32 0))).setSlot 9 { Slot.freed with state := .fetching, queue := some 0 }
  { t.setQueue 0 (some { queueA with occupied := 6 }) with
    order := [0, 1, 31, 5, 2]
    waiting := [{ slot := 2, queue := 0, mark := 15, value := 5#32, deadline := none }]
    fetch := some { queue := 0, slot := 9, address := 0x1340, sent := true, discard := false } }

/-- Each state in which a slot ends, the skipped count with records pending and with none, and endings that release nothing. -/
theorem witness_AbortEndsUnfinishedWork : busy.link.up = true ∧ busy.control.deviceState = .running ∧
    (∃ c, busy.queue 0 = some c ∧ c.state ≠ .draining ∧ 1 ≤ c.occupied ∧ (c.tail + c.size - c.head) % c.size ≠ 0) ∧
    (∃ c, (busy.setQueue 0 (some { queueA with occupied := 6, head := 16 })).queue 0 = some c ∧
      (c.tail + c.size - c.head) % c.size = 0) ∧
    (∃ f, busy.fetch = some f ∧ f.queue = 0 ∧ f.discard = false) ∧ (∀ w ∈ busy.waiting, (busy.slot w.slot).state = .blocked) ∧
    ((busy.slot 0).queue = some 0 ∧ (busy.slot 0).state = .blocked) ∧
    ((busy.slot 1).queue = some 0 ∧ (busy.slot 1).state = .ready) ∧
    ((busy.slot 31).queue = some 0 ∧ (busy.slot 31).state = .running ∧
      ∃ op, (busy.slot 31).op = some op ∧ op.isPresentation = true) ∧
    ReleasesNone busy (fun i => decide ((busy.slot i).queue = some 0) && (busy.slot i).endsAtOnce) := by
  refine ⟨rfl, rfl, ⟨_, rfl, by decide, by decide, by decide⟩, ⟨_, rfl, by decide⟩, ⟨_, rfl, rfl, rfl⟩, by decide +kernel, ⟨rfl, rfl⟩, ⟨rfl, rfl⟩,
    ⟨rfl, rfl, _, rfl, rfl⟩, ?_⟩
  intro j hj hb
  have all : ∀ j, (busy.slot j).state = .blocked → (decide ((busy.slot j).queue = some 0) && (busy.slot j).endsAtOnce) = true := by
    decide +kernel
  exact absurd ((all j hb).symm.trans hj) (by decide)

/-- The clauses of EnableFollowsTable, the first with the highest load address that is taken. -/
theorem witness_EnableFollowsTable :
    (let s : State := { part .off with control := { (part .off).control with setupHi := 0xFFFFFFFF#32, setupLo := 0xFFFFFF00#32 } }
     s.link.up = true ∧ s.control.enable = false ∧ s.control.deviceState = .off ∧
       (s.control.setupHi ++ s.control.setupLo).toNat % 64 = 0 ∧ (s.control.setupHi ++ s.control.setupLo).toNat + 255 < 2 ^ 64 ∧
       s.link.busMastering = true) ∧
    running.control.enable = true ∧ (part .off).control.enable = false ∧
    (let s : State := { running with control := { running.control with deviceState := .stopping, enable := false } }
     s.control.enable = false ∧ s.control.deviceState = .stopping) ∧
    (let s : State := { running with control := { running.control with deviceState := .fault, enable := false } }
     s.control.enable = false ∧ s.control.deviceState = .fault) ∧
    (part .loading).control.enable = true ∧ (part .loading).control.deviceState = .loading := by decide +kernel

/-- A device with work of each kind; a PRESENT that is held; a WAIT whose queue is WAITING; a device without slots and a completion queue
with a count. -/
theorem witness_DisableStopsDevice :
    (busy.link.up = true ∧ busy.control.enable = true ∧ busy.control.deviceState = .running ∧ (busy.slot 5).state ≠ .free ∧
      ∀ i, (busy.slot i).queue = none → (busy.slot i).unended = false) ∧
    ({ busy with presentation := { busy.presentation with held := some 31 } } : State).presentation.held = some 31 ∧
    ((busy.slot 31).queue ≠ none ∧ (busy.slot 31).state = .running ∧ (busy.slot 31).op = some (.present 0)) ∧
    ((busy.slot 2).state = .blocked ∧ (busy.slot 2).op = some (.wait 15 5#32 0) ∧ (busy.slot 2).queue = some 0) ∧
    ((busy.setQueue 0 (some { queueA with occupied := 6, state := .waiting })).queue 0).map Queue.state = some .waiting ∧
    (running.link.up = true ∧ running.control.enable = true ∧ running.control.deviceState = .running ∧
      ∀ i, (running.slot i).state = .free) ∧
    ((running.setCq 1 (some { ringB with count := 1 })).cq 1).map CompletionQueue.count = some 1 := by
  decide +kernel

theorem witness_DisableInFaultDiscardsWork : (part .fault).link.up = true ∧ (part .fault).control.enable = true ∧
    (part .fault).control.deviceState = .fault := ⟨rfl, rfl, rfl⟩

theorem witness_ResetsClearBlocks : running.link.up = true ∧ ∀ e, (running.engine e).state = .idle :=
  ⟨rfl, fun e => by cases e <;> rfl⟩

theorem witness_StatusAndSetupWrites : running.link.up = true ∧
    (∃ t, exec (.setupAddressWrite .lo 1#32) running = .next t) ∧ ∃ t, exec (.setupAddressWrite .hi 1#32) running = .next t :=
  ⟨rfl, ⟨_, rfl⟩, _, rfl⟩

/-- Each clause of RegisterWriteTakesFields that has a hypothesis: CONTROL with RESET, with ENABLE, with neither; QCTL with RESUME and
ABORT. -/
theorem witness_RegisterWriteTakesFields : (0x2#32).getLsbD 1 = true ∧ ((0x1#32).getLsbD 1 = false ∧ (0x1#32).getLsbD 0 = true) ∧
    ((0xFFFFFFFC#32).getLsbD 1 = false ∧ (0xFFFFFFFC#32).getLsbD 0 = false) ∧ (0x107#32).extractLsb' 8 2 = 1#2 ∧
    (0x207#32).extractLsb' 8 2 = 2#2 := by decide

theorem witness_RegisterWritesIgnored : (3 < 4 ∧ (0#12) = 0#12 ∧ 0x20 ≤ (0x20#12).toNat) ∧ State.reset.link.up = false := by decide

theorem witness_RegisterReads : 0x20 ≤ (0x20#12).toNat ∧ 0x20 ≤ (0xFFF#12).toNat ∧ (0x1C#12).toNat % 4 = 0 ∧ (0xFFC#12).toNat % 4 = 0 := by
  decide

/-- R167: IDENT read byte by byte. -/
theorem test_byte_reads : [0#12, 1#12, 2#12, 3#12].map running.readRegisterByte = [0x03#8, 0x5C#8, 0x20#8, 0x04#8] := by decide

/-! ### The host link and loading -/

theorem witness_LinkCommands : running.link.up = true ∧
    ({ running with link := { running.link with written := [.bytes 0 [], .message 31] } } : State).link.written[1]? =
      some (.message 31) := ⟨rfl, rfl⟩

theorem witness_PendingMessagesGoOnce : running.link.up = true := rfl

/-- A part that loads. -/
def loading : State :=
  { part .loading with control := { (part .loading).control with setupRead := some { address := 0#64 } } }

theorem witness_ValidSetupRecordStartsRunning : loading.control.deviceState = .loading ∧
    loading.control.setupRead = some { address := 0#64 } ∧ ¬SetupRefused setupRecord :=
  ⟨rfl, rfl, witness_setup_records.1⟩

/-- Each entry to FAULT: an address that is not a multiple of 64, the lowest whose record passes the top, a good one with bus mastering
off, a record that fails, a read that faults, a completion write in flight. -/
theorem witness_FaultsStopDevice :
    ((part .off).link.up = true ∧ (part .off).control.enable = false ∧ (part .off).control.deviceState = .off) ∧
    (0#32 ++ 63#32 : BitVec 64).toNat % 64 ≠ 0 ∧ 2 ^ 64 ≤ (0xFFFFFFFF#32 ++ 0xFFFFFF40#32 : BitVec 64).toNat + 255 ∧
    (let s : State := { part .off with link := { (part .off).link with busMastering := false } }
     s.link.up = true ∧ s.control.enable = false ∧ s.control.deviceState = .off ∧
       (s.control.setupHi ++ s.control.setupLo).toNat % 64 = 0 ∧ (s.control.setupHi ++ s.control.setupLo).toNat + 255 < 2 ^ 64 ∧
       s.link.busMastering = false) ∧
    (loading.control.deviceState = .loading ∧ loading.control.setupRead = some { address := 0#64 } ∧
      SetupRefused (recordOf 2048 [])) ∧
    ∃ c w, writing.cq 1 = some c ∧ c.inFlight = some w :=
  ⟨⟨rfl, rfl, rfl⟩, by decide, by decide, by decide, ⟨rfl, rfl, witness_setup_records.2.1⟩, _, _, rfl, rfl⟩

/-- An abandoned write behind a message, and none. -/
theorem witness_AbandonedAnswersChangeNothing :
    ({ running with link := { running.link with written := [.message 3, .abandoned 16 [1#8], .abandoned 32 [2#8]] } } : State).link.written =
      [.message 3] ++ .abandoned 16 [1#8] :: [.abandoned 32 [2#8]] ∧
    (∀ x ∈ [LinkWrite.message 3], ∀ b d, x ≠ .abandoned b d) ∧ ∀ x ∈ running.link.written, ∀ b d, x ≠ .abandoned b d := by
  refine ⟨rfl, ?_, ?_⟩
  · intro x hx b d h
    rw [List.mem_singleton.1 hx] at h
    cases h
  · intro x hx
    cases hx

/-! ### The fetch unit -/

/-- An eligible queue; and a state in which no fetch is possible, with a command that makes one so. -/
theorem witness_ArbiterServesByClassAndTurn : running.eligible 0 = true ∧ running.chosenQueue = some 0 ∧
    (let s := running.setQueue 0 (some { queueA with tail := 13 })
     ¬FetchPossible s ∧ (∃ t, exec (.submit 0 20#12) s = .next t) ∧ ∃ t, step { s with pending := [.submit 0 20#12] } = .next t) := by
  refine ⟨by decide +kernel, by decide +kernel, ?_, ⟨_, rfl⟩, _, rfl⟩
  rw [State.fetchPossible_iff]
  decide +kernel

/-- With bus mastering on, and off. -/
theorem witness_FetchTakesSlot : running.chosenQueue = some 0 ∧ (∃ c, running.queue 0 = some c) ∧ (running.slot 31).state = .free ∧
    running.link.busMastering = true ∧
    (let s : State := { running with link := { running.link with busMastering := false } }
     s.chosenQueue = some 0 ∧ (s.slot 31).state = .free ∧ s.link.busMastering = false) :=
  ⟨by decide +kernel, ⟨_, rfl⟩, by decide +kernel, rfl, by decide +kernel⟩

/-- A fetch for queue 0 into slot 9. -/
def fetch9 : Fetch := { queue := 0, slot := 9, address := 0x1340, sent := true, discard := false }

/-- A part with that fetch in flight. -/
def fetching : State :=
  { (running.setSlot 9 { Slot.freed with state := .fetching, queue := some 0 }).setQueue 0
      (some { queueA with occupied := 1 }) with
    fetch := some fetch9 }

theorem witness_FetchFaultHaltsQueue : fetching.fetch = some fetch9 ∧ fetch9.discard = false ∧
    (fetching.slot fetch9.slot).queue = some fetch9.queue ∧ ∃ c, fetching.queue fetch9.queue = some c ∧ c.state ≠ .draining :=
  ⟨rfl, rfl, rfl, _, rfl, by decide⟩

/-- The overtaken fetch in a device state, with an abort record and with acknowledgements that wait. -/
def overtaken (d : DeviceState) (st : QueueState) (abort : AbortRecord) (acks : List QueueId) : State :=
  { (((part d).setSlot 9 { Slot.freed with state := .fetching, queue := some 0 }).setQueue 0
      (some { queueA with state := st, occupied := 1, abort := abort })).setQueue 7
        (some { queueA with state := .draining, abort := .owed 2 .anyFree }) with
    fetch := some { fetch9 with discard := true }, ackOrder := acks }

theorem overtaken_spec (d : DeviceState) (st : QueueState) (abort : AbortRecord) (acks : List QueueId) :
    ∃ f c, (overtaken d st abort acks).fetch = some f ∧ f.discard = true ∧ (overtaken d st abort acks).queue f.queue = some c ∧
      ((overtaken d st abort acks).slot f.slot).queue = some f.queue ∧ (overtaken d st abort acks).control.deviceState = d ∧
      c.abort = abort ∧ c.state = st ∧ (overtaken d st abort acks).ackOrder = acks :=
  ⟨_, _, rfl, rfl, rfl, rfl, rfl, rfl, rfl, rfl⟩

/-- No overtaken fetch; in FAULT and in RUNNING with the acknowledgement owed and placed, in RUNNING with one of another queue that waits; in
STOPPING with another slot held and with none. -/
theorem witness_OvertakenFetchFreesSlot : (∀ f, fetching.fetch = some f → f.discard = false) ∧
    (∀ d st abort acks, d ≠ .stopping → ∃ f c, (overtaken d st abort acks).fetch = some f ∧ f.discard = true ∧
      (overtaken d st abort acks).queue f.queue = some c ∧ ((overtaken d st abort acks).slot f.slot).queue = some f.queue ∧
      (overtaken d st abort acks).control.deviceState ≠ .stopping ∧ c.abort = abort) ∧
    (let s := (overtaken .stopping .opened .absent []).setSlot 31 endedSlot; (s.slot 31).state ≠ .free ∧ s.control.deviceState = .stopping) ∧
    (let s := overtaken .stopping .draining .removed []
     s.control.deviceState = .stopping ∧ s.ackOrder = [] ∧ (∃ c, s.queue 0 = some c ∧ ∀ n, c.abort ≠ .owed n .firstFreed) ∧
       ∀ j, j ≠ 9 → (s.slot j).state = .free) := by
  refine ⟨?_, ?_, by decide +kernel, rfl, rfl, ⟨_, rfl, nofun⟩, by decide +kernel⟩
  · intro f h
    cases h
    rfl
  · intro d st abort acks hd
    obtain ⟨f, c, h1, h2, h3, h4, h5, h6, _, _⟩ := overtaken_spec d st abort acks
    exact ⟨f, c, h1, h2, h3, h4, by rw [h5]; exact hd, h6⟩

/-- A queue that drains without a slot; in RUNNING, and in FAULT. -/
def owing (d : DeviceState) : State :=
  { (part d).setQueue 0 (some { queueA with state := .draining, head := 16, abort := .owed 3 .anyFree }) with ackOrder := [0] }

theorem witness_WaitingAckTakesSlot : (∃ c k, (owing .running).queue 0 = some c ∧ c.abort = .owed 3 .anyFree ∧ c.state = .draining ∧
      (owing .running).cq c.cq = some k) ∧
    (owing .running).ackOrder.head? = some 0 ∧ ((owing .running).slot 31).state = .free ∧ (∀ j, ((owing .running).slot j).queue ≠ some 0) ∧
    (owing .running).control.deviceState ≠ .fault ∧ (owing .fault).control.deviceState = .fault :=
  ⟨⟨_, _, rfl, rfl, rfl, rfl⟩, rfl, by decide +kernel, by decide +kernel, by decide, rfl⟩

/-! ### Admission -/

/-- The kind bytes 0, 10h and FFh, 01h and 0Fh. -/
theorem witness_ChecksStopAtFirstFailure_kindBytes :
    ((recordOf 512 [(0, 0)]).extractLsb' 0 8).toNat = 0 ∧ 0x10 ≤ ((recordOf 512 [(0, 0x10)]).extractLsb' 0 8).toNat ∧
    0x10 ≤ ((recordOf 512 [(0, 0xFF)]).extractLsb' 0 8).toNat ∧ 1 ≤ ((recordOf 512 [(0, 1)]).extractLsb' 0 8).toNat ∧
    ((recordOf 512 [(0, 0x0F)]).extractLsb' 0 8).toNat ≤ 0x0F := by
  decide +kernel

/-- The flag bits 5 and 7, and ORDERED on a DEFINE. -/
theorem witness_ChecksStopAtFirstFailure_flags : FlagsRefused (recordOf 512 [(0, 1), (1, 0x20)]) ∧
    FlagsRefused (recordOf 512 [(0, 0x0F), (1, 0x80)]) ∧ FlagsRefused (recordOf 512 [(0, 8), (1, 2)]) := by
  decide +kernel

/-- CLIP on an EXPORT, KEY on a FILL, BACK on a COPY (R22). -/
theorem witness_ChecksStopAtFirstFailure_kindFlags : FlagsRefused (recordOf 512 [(0, 6), (1, 4)]) ∧
    FlagsRefused (recordOf 512 [(0, 1), (1, 8)]) ∧ FlagsRefused (recordOf 512 [(0, 2), (1, 16)]) := by
  decide +kernel

/-- A clip 0 wide where CLIP is set. -/
theorem witness_ChecksStopAtFirstFailure_drawFields :
    DrawFieldRefused (recordOf 512 [(0, 1), (1, 4), (4, 3), (6, 10), (0x0C, 1), (0x0E, 1), (0x1A, 1)]) := by
  decide +kernel

/-- An orientation of 8. -/
theorem witness_ChecksStopAtFirstFailure_transferFields :
    TransferFieldRefused (recordOf 512 [(0, 6), (0x0C, 1), (0x0E, 1), (0x30, 1), (0x34, 8)]) := by
  decide +kernel

/-- Surface 64, and a PANEL's last row at the panel height. -/
theorem witness_ChecksStopAtFirstFailure_tableFields :
    ∀ r ∈ [recordOf 512 [(0, 9), (4, 64)], recordOf 512 [(0, 0x0E), (0x3C, 480)]], TableFieldRefused 480 r := by
  decide +kernel

/-- A record that neither step refuses. -/
theorem witness_ChecksStopAtFirstFailure_steps : ¬FlagsRefused fillRecord ∧ ¬FieldRefused 480 fillRecord := by
  unfold FieldRefused
  refine ⟨?_, not_or.2 ⟨?_, not_or.2 ⟨?_, ?_⟩⟩⟩ <;> decide +kernel

/-- A record of each kind that passes its first two steps, for the 480 rows of `batch`'s panel. -/
theorem witness_ChecksStopAtFirstFailure_kinds : (batch.presentation.panel.map PanelParams.height).getD 0 = 480 ∧
    decodeRecord 480 fillRecord = .ok (.fill 3 { x := 1, y := 2, w := 4, h := 3 } 2#32 10#4 none) ∧
    decodeRecord 480 (recordOf 512 [(0, 2), (4, 0), (5, 2), (6, 10), (0x0C, 1), (0x0E, 1)]) =
      .ok (.copy 2 0 0 0 { x := 0, y := 0, w := 1, h := 1 } 10#4 none none) ∧
    decodeRecord 480 (recordOf 512 [(0, 3), (4, 0), (5, 9), (6, 10), (0x0C, 1), (0x0E, 1)]) =
      .ok (.pattern 9 0 0 0 0 0 { x := 0, y := 0, w := 1, h := 1 } 10#4 none none) ∧
    decodeRecord 480 (recordOf 512 [(0, 4), (4, 0), (5, 3), (6, 10), (0x0C, 1), (0x0E, 1)]) =
      .ok (.expand 3 0 0 0 { x := 0, y := 0, w := 1, h := 1 } 0#32 none 10#4 none) ∧
    decodeRecord 480 (recordOf 512 [(0, 5), (4, 9), (7, 1), (0x0C, 1), (0x0E, 1), (0x30, 2)]) =
      .ok (.importPixels { address := 0, pitch := 2, format := .p16, orientation := { columns := false, xReverse := false, yReverse := false } }
        0 9 { x := 0, y := 0, w := 1, h := 1 } none none) ∧
    decodeRecord 480 (recordOf 512 [(0, 6), (5, 9), (7, 1), (0x0C, 1), (0x0E, 1), (0x30, 2)]) =
      .ok (.exportPixels 9 { x := 0, y := 0, w := 1, h := 1 }
        { address := 0, pitch := 2, format := .p16, orientation := { columns := false, xReverse := false, yReverse := false } }) ∧
    decodeRecord 480 (recordOf 512 [(0, 7), (0x38, 255), (0x3A, 1)]) = .ok (.loadPalette 0 255 1 0#64) ∧
    decodeRecord 480 defineRecord = .ok (.define 63 defined) ∧ decodeRecord 480 (recordOf 512 [(0, 9), (4, 9)]) = .ok (.retire 9) ∧
    decodeRecord 480 (recordOf 512 [(0, 0x0A), (4, 63), (0x18, 8)]) = .ok (.scroll 63 8) ∧
    decodeRecord 480 (recordOf 512 [(0, 0x0D), (4, 2)]) = .ok (.present 2) := by
  decide +kernel

/-- An extent that ends where the only surface's begins. -/
theorem oneSurface_extent : ¬ExtentTaken oneSurface { defined with base := 33546240 } := by
  rintro (h | ⟨i, f, hs, hf, h1, h2⟩)
  · exact absurd h (by decide)
  · rw [oneSurface_surface] at hs hf
    split at hf
    · cases hf
      exact absurd h2 (by decide)
    · cases hf

/-- Surfaces that are DEFINED with their fields, one that is RETIRING, one that is FREE; one that is shown and one that is not; a band of
8 rows; an extent that meets another's and one that does not; a surface of the panel's size. -/
theorem witness_ChecksStopAtFirstFailure_states :
    ((batch.surface 2).state = .defined ∧ (batch.surface 2).fields.isSome ∧ (batch.surface 9).state = .defined ∧
      (batch.surface 9).fields.isSome ∧ (batch.surface 3).state = .defined ∧ (batch.surface 3).fields.isSome) ∧
    (batch.surface 4).state ≠ .defined ∧ (batch.surface 63).state = .free ∧
    ((batch.surface 0).shown = true ∧ (batch.surface 9).shown = false ∧ (batch.surface 9).presentRefs = 0) ∧
    ((oneSurface.surface 63).state = .defined ∧
      (oneSurface.surface 63).fields.bind SurfaceFields.band = some { top := 4, rows := 8, origin := 3 }) ∧
    (batch.surface 9).fields.bind SurfaceFields.band = none ∧ ExtentTaken batch defined ∧
    ¬ExtentTaken oneSurface { defined with base := 33546240 } ∧ ExtentTaken oneSurface { defined with base := 33550400 } ∧
    batch.presentation.panel.map (fun p => (p.width, p.height)) = some (800, 480) := by
  refine ⟨?_, ?_, ?_, ?_, ?_, ?_, .inr ⟨2, _, by decide +kernel, rfl, by decide, by decide⟩, oneSurface_extent, .inl (by decide), ?_⟩ <;> decide +kernel

/-- Surfaces as in section 2.7, with a fetch in flight for queue 0. -/
def arriving : State :=
  { (batch.setSlot 9 { Slot.freed with state := .fetching, queue := some 0 }).setQueue 0 (some { queueA with occupied := 1 }) with
    fetch := some fetch9 }

theorem arriving_arrives : ∃ c, Arriving arriving fetch9 c := ⟨_, rfl, rfl, rfl, rfl⟩

theorem arriving_releasesNothing : ReleasesNothing arriving fetch9.slot := by
  intro j _ h
  have all : ∀ j, (arriving.slot j).state ≠ .blocked := by decide +kernel
  exact absurd h (all j)

theorem arriving_freeToRun (op : Op) (flags : BitVec 8) : FreeToRun arriving fetch9.slot fetch9.queue op flags := by
  have all : ∀ j, (arriving.slot j).unended = false := by decide +kernel
  refine ⟨fun j _ h => ?_, fun h => ?_⟩
  · exact absurd h.1 (by rw [all j]; decide)
  · obtain ⟨_, j, _, _, hu⟩ := h
    exact absurd hu (by rw [all j]; decide)

/-- A NOTE record with the undefined flag bit 7 is refused; nothing is released. -/
theorem witness_RefusedRecordEnds : (∃ c, Arriving arriving fetch9 c ∧ c.policy = .halt ∧ c.state = .opened) ∧
    arriving.checkRecord (recordOf 512 [(0, 0x0F), (1, 0x80)]) = .error .badField ∧ ReleasesNothing arriving fetch9.slot ∧
    arriving.presentation.held ≠ some fetch9.slot ∧ ∀ w ∈ arriving.waiting, w.slot ≠ fetch9.slot :=
  ⟨⟨_, ⟨rfl, rfl, rfl, rfl⟩, rfl, rfl⟩, by decide +kernel, arriving_releasesNothing, nofun, nofun⟩

/-- A DEFINE above the other surfaces, a NOTE, a RETIRE, a SCROLL, a WAIT for 0 and a FILL whose clip misses its rectangle. -/
theorem witness_OperationsEndedAtArrival : (∃ c, Arriving arriving fetch9 c) ∧ arriving.control.deviceState = .running ∧
    ReleasesNothing arriving fetch9.slot ∧ (∀ op flags, FreeToRun arriving fetch9.slot fetch9.queue op flags) ∧
    arriving.checkRecord (recordOf 512 [(0, 8), (4, 63), (8, 0x1000000), (0x0C, 1), (0x0E, 1), (0x10, 64)]) =
      .ok (.define 63 { base := 0x1000000, width := 1, height := 1, format := .i8, stride := 64, palette := 0, band := none }) ∧
    arriving.checkRecord (recordOf 512 [(0, 0x0F)]) = .ok .note ∧ arriving.checkRecord (recordOf 512 [(0, 9), (4, 9)]) = .ok (.retire 9) ∧
    (oneSurface.checkRecord (recordOf 512 [(0, 0x0A), (4, 63), (0x18, 7)]) = .ok (.scroll 63 7)) ∧
    arriving.checkRecord (recordOf 512 [(0, 0x0C)]) = .ok (.wait 0 0#32 0) ∧
    arriving.checkRecord (recordOf 512 [(0, 1), (1, 4), (0x0C, 800), (0x0E, 480), (0x14, 900), (0x18, 50), (0x1A, 50)]) =
      .ok (.fill 0 { x := 0, y := 0, w := 800, h := 480 } 0#32 0#4 (some { x := 900, y := 0, w := 50, h := 50 })) ∧
    clippedAway (.fill 0 { x := 0, y := 0, w := 800, h := 480 } 0#32 0#4 (some { x := 900, y := 0, w := 50, h := 50 })) = true := by
  refine ⟨arriving_arrives, rfl, arriving_releasesNothing, arriving_freeToRun, ?_, ?_, ?_, ?_, ?_, ?_, by decide⟩ <;> decide +kernel

theorem witness_UnsatisfiedWaitIsEntered : (∃ c, Arriving arriving fetch9 c) ∧
    arriving.checkRecord (recordOf 512 [(0, 0x0C), (0x38, 15), (0x3A, 65535), (0x3C, 1)]) = .ok (.wait 15 1#32 65535) ∧
    (arriving.mark 15).toNat < (1#32).toNat := ⟨arriving_arrives, by decide +kernel, by decide +kernel⟩

/-- Slot 4 of queue 0 fills surface 0 while records arrive. -/
def conflicting : State :=
  arriving.setSlot 4 { slotOf .running (.fill 0 { x := 3, y := 0, w := 1, h := 1 } 0#32 0#4 none) with
    writes := [regionOf 0 { x := 3, y := 0, w := 1, h := 1 }] }

/-- Slot 4 of queue 0 holds an ORDERED FILL of surface 9 that is BLOCKED and whose clip leaves nothing to write. -/
def clippedBehind : State :=
  arriving.setSlot 4 { slotOf .blocked (.fill 9 { x := 3, y := 0, w := 1, h := 1 } 0#32 0#4 (some { x := 9, y := 0, w := 1, h := 1 })) with
    orderedPending := true }

/-- R9, R13: a RETIRE and a SCROLL of surface 9 wait for it; a FILL of that surface and a RETIRE of another do not. -/
theorem test_retire_waits_for_clipped :
    (clippedBehind.dependencies (.retire 9), clippedBehind.dependencies (.scroll 9 1), clippedBehind.dependencies (.retire 1),
      clippedBehind.dependencies (.fill 9 { x := 3, y := 0, w := 1, h := 1 } 0#32 0#4 none)) = ([4], [4], [], []) := by
  decide +kernel

/-- A FILL that meets that one's rectangle in one pixel, an ORDERED NOTE of the same queue, and a RETIRE that names the surface of an
operation without regions. -/
theorem witness_ConflictingOperationWaits : (∃ c, Arriving conflicting fetch9 c) ∧
    conflicting.checkRecord (recordOf 512 [(0, 1), (0x0C, 4), (0x0E, 1)]) = .ok (.fill 0 { x := 0, y := 0, w := 4, h := 1 } 0#32 0#4 none) ∧
    (∃ j, j ≠ fetch9.slot ∧ Conflicts conflicting (.fill 0 { x := 0, y := 0, w := 4, h := 1 } 0#32 0#4 none) j) ∧
    conflicting.checkRecord (recordOf 512 [(0, 0x0F), (1, 2)]) = .ok .note ∧ MustWait conflicting fetch9.slot fetch9.queue .note 2#8 ∧
    (∃ c, Arriving clippedBehind fetch9 c) ∧ clippedBehind.checkRecord (recordOf 512 [(0, 9), (4, 9)]) = .ok (.retire 9) ∧
    Conflicts clippedBehind (.retire 9) 4 :=
  ⟨⟨_, rfl, rfl, rfl, rfl⟩, by decide +kernel,
    ⟨4, by decide, by decide +kernel, .inl ⟨_, List.mem_singleton.2 rfl, _, .inl ⟨rfl, rfl⟩, (meet_iff _ _).2 (by decide)⟩⟩, by decide +kernel,
    ⟨.inl (by decide), 4, by decide, by decide +kernel, by decide +kernel⟩, ⟨_, rfl, rfl, rfl, rfl⟩, by decide +kernel,
    (State.mem_dependencies _ _ _).1 (by decide +kernel)⟩

/-- A FILL of one pixel at the corner of surface 0, and a PRESENT of it. -/
theorem witness_FreeOperationIsHandedOver : (∃ c, Arriving arriving fetch9 c) ∧ arriving.control.deviceState = .running ∧
    (∀ op flags, FreeToRun arriving fetch9.slot fetch9.queue op flags) ∧
    arriving.checkRecord (recordOf 512 [(0, 1), (8, 799), (0x0A, 479), (0x0C, 1), (0x0E, 1)]) =
      .ok (.fill 0 { x := 799, y := 479, w := 1, h := 1 } 0#32 0#4 none) ∧
    clippedAway (.fill 0 { x := 799, y := 479, w := 1, h := 1 } 0#32 0#4 none) = false ∧
    arriving.checkRecord (recordOf 512 [(0, 0x0D)]) = .ok (.present 0) ∧ clippedAway (.present 0) = false ∧
    (Op.present 0).isPresentation = true :=
  ⟨arriving_arrives, rfl, arriving_freeToRun, by decide +kernel, by decide, by decide +kernel, rfl, rfl⟩

/-- Slot 2 waits for mark 15 to reach 5, on queue 1. -/
def waiting : State :=
  let t := arriving.setSlot 2 { slotOf .blocked (.wait 15 5#32 0) with queue := some 1 }
  let t := t.setQueue 1 (some { queueA with state := .waiting })
  { t.setMark 15 4#32 with
    order := [2]
    waiting := [{ slot := 2, queue := 1, mark := 15, value := 5#32, deadline := some 9#64 }] }

/-- Besides, in queue 2, a SIGNAL is BLOCKED on ordered pending alone, behind a FILL. -/
def signalling : State :=
  let t := waiting.setSlot 11 { slotOf .running (.fill 0 { x := 0, y := 0, w := 1, h := 1 } 0#32 10#4 none) with queue := some 2 }
  let t := t.setSlot 12 { slotOf .blocked (.signal 3 1#32) with queue := some 2, orderedPending := true }
  { t with order := [2, 11, 12] }

/-- A SIGNAL of exactly the value awaited, one that releases nobody, and one below the mark. -/
theorem witness_SignalRaisesMark : (∃ c, Arriving signalling fetch9 c) ∧ signalling.control.deviceState = .running ∧
    (signalling.slot fetch9.slot).state = .fetching ∧
    signalling.checkRecord (recordOf 512 [(0, 0x0B), (0x38, 15), (0x3C, 5)]) = .ok (.signal 15 5#32) ∧
    signalling.checkRecord (recordOf 512 [(0, 0x0B), (0x38, 15), (0x3C, 4)]) = .ok (.signal 15 4#32) ∧
    signalling.checkRecord (recordOf 512 [(0, 0x0B), (0x38, 15), (0x3C, 3)]) = .ok (.signal 15 3#32) ∧
    (∀ v, ¬MustWait signalling fetch9.slot fetch9.queue (.signal 15 v) 0#8) ∧
    (∀ w ∈ signalling.waiting, (signalling.slot w.slot).isWaiting = true ∧ (signalling.slot w.slot).queue = some w.queue) ∧
    (signalling.waiting.map WaitEntry.slot).Nodup ∧
    (∀ v : BitVec 32, ReleasesNone signalling (fun j => decide (j = fetch9.slot) ||
      signalling.waiting.any fun w => decide (w.slot = j ∧ w.mark = 15 ∧ w.value.toNat ≤ v.toNat))) ∧
    (∃ d, signalling.queue 1 = some d ∧ d.state = .waiting) ∧
    (∃ c, Arriving signalling fetch9 c ∧ c.policy = .halt ∧ c.state = .opened) ∧
    (signalling.mark 15).toNat ≤ (5#32).toNat ∧ (signalling.mark 15).toNat ≤ (4#32).toNat ∧
      (3#32).toNat < (signalling.mark 15).toNat := by
  refine ⟨⟨_, rfl, rfl, rfl, rfl⟩, rfl, ?_, ?_, ?_, ?_, ?notHeld, ?_, ?_, ?none, ⟨_, rfl, rfl⟩, ⟨_, ⟨rfl, rfl, rfl, rfl⟩, rfl, rfl⟩, ?_⟩
  case notHeld =>
    rintro v ⟨_, j, _, hq, hu⟩
    have all : ∀ j, (signalling.slot j).queue = some 0 → (signalling.slot j).unended = false := by decide +kernel
    exact absurd hu (by rw [all j hq]; decide)
  case none =>
    intro v j _ hb
    have all : ∀ j, (signalling.slot j).state = .blocked → (signalling.slot j).isWaiting = true ∨ j = 12 := by decide +kernel
    rcases all j hb with h | rfl
    · exact .inl h
    · refine .inr (.inr ⟨by decide +kernel, 11, by decide +kernel, ?_, by decide +kernel, by decide +kernel⟩)
      have : signalling.waiting = waiting.waiting := rfl
      simp [this, waiting, fetch9]
  all_goals decide +kernel

/-! ### The engines -/

/-- A READY PATTERN in slot 31 behind a BLOCKED slot. -/
def dispatching : State :=
  { (running.setSlot 0 (slotOf .blocked .note)).setSlot 31
      (slotOf .ready (.pattern 1 0 0 7 7 0 { x := 0, y := 0, w := 1, h := 1 } 10#4 none none)) with order := [0, 31] }

/-- Section 5.9 before its first step: slots 4, 7 and 8 are READY, both engines are IDLE. -/
def threeReady : State :=
  let fill := fun n => slotOf .ready (.fill 0 { x := 0, y := n, w := 1, h := 1 } 0#32 10#4 none)
  { ((running.setSlot 4 (fill 0)).setSlot 7 (fill 1)).setSlot 8 (fill 2) with order := [4, 7, 8] }

/-- Section 5.9, step 1: one act gives slot 4 to RE0 and slot 7 to RE1; slot 8 stays READY. -/
theorem test_dispatch_gives_both : after .dispatch threeReady (fun t => (t.engine .re0).slot == some 4 && (t.engine .re1).slot == some 7 &&
    (t.slot 7).state == .running && (t.slot 8).state == .ready) = true := by decide +kernel

theorem not_readyForEngine {sl : Slot} (h : sl.readyForEngine = false) : ¬ReadyForEngine sl := fun r => by
  rw [Slot.readyForEngine_iff.2 r] at h
  cases h

/-- The reasons to give nothing: a device state, a DETACHED engine, no engine IDLE, no READY engine operation. -/
theorem witness_DispatchTakesEarliest_nothing : (part .stopping).control.deviceState ≠ .running ∧
    (∃ e, ((dispatching.setEngine .re1 { state := .detached, slot := none, line := 0, job := none }).engine e).state = .detached) ∧
    (∀ e, (((dispatching.setEngine .re0 { state := .active, slot := some 1, line := 0, job := none }).setEngine .re1
      { state := .stopRequested, slot := some 2, line := 0, job := none }).engine e).state ≠ .idle) ∧
    ∀ j ∈ busy.order, ¬ReadyForEngine (busy.slot j) :=
  ⟨by decide, ⟨.re1, rfl⟩, fun e => by cases e <;> exact nofun, fun j hj => not_readyForEngine
    ((by decide +kernel : ∀ j ∈ busy.order, (busy.slot j).readyForEngine = false) j hj)⟩

/-- One READY operation, with RE0 IDLE, and with RE0 at work and RE1 IDLE. -/
theorem witness_DispatchTakesEarliest : dispatching.control.deviceState = .running ∧ dispatching.order = [0] ++ 31 :: [] ∧
    (∀ j ∈ ([0] : List SlotId), ¬ReadyForEngine (dispatching.slot j)) ∧ (dispatching.slot 31).state = .ready ∧
    (∃ op, (dispatching.slot 31).op = some op ∧ op.isEngine = true ∧ (dispatching.jobFor op).latchExists = true) ∧
    (dispatching.engine .re0).state = .idle ∧ (∀ g, (dispatching.engine g).state ≠ .detached) ∧
    (let s := dispatching.setEngine .re0 { state := .active, slot := some 1, line := 0, job := none }
     (s.engine .re1).state = .idle ∧ (∀ g, (s.engine g).state ≠ .detached) ∧ ∀ g, g ≠ .re1 → (s.engine g).state ≠ .idle) := by
  refine ⟨rfl, rfl, fun j hj => not_readyForEngine (by rw [List.mem_singleton.1 hj]; rfl), rfl, ⟨_, rfl, rfl, by decide +kernel⟩, rfl,
    ?_, rfl, ?_, ?_⟩
  all_goals intro g; cases g
  all_goals decide

/-- A LOADPAL and a FILL that are READY with bus mastering off, and both engines IDLE. -/
def refusing : State :=
  { ((running.setSlot 4 (slotOf .ready (.loadPalette 0 0 1 0#64))).setSlot 7
      (slotOf .ready (.fill 0 { x := 0, y := 0, w := 1, h := 1 } 0#32 10#4 none))) with
    order := [4, 7], link := { running.link with busMastering := false } }

/-- R110, R121: the read of the LOADPAL is refused at once, so that it ends HOST_FAULT with detail 0, its queue is HALTED and RE0 is IDLE
again; the FILL is on RE1. -/
theorem test_refused_read : after .dispatch refusing (fun t => (t.slot 4).status == some .hostFault && (t.slot 4).detail == 0#32 &&
    (t.engine .re0).state == .idle && (t.queue 0).map Queue.state == some .halted && (t.engine .re1).slot == some 7) = true := by
  decide +kernel

/-- The refused reads of DispatchTakesEarliest: of two operations given, and of one. -/
theorem witness_DispatchTakesEarliest_refused : refusing.control.deviceState = .running ∧ refusing.order = [] ++ 4 :: [7] ∧
    [7] = [] ++ (7 : SlotId) :: [] ∧ (∀ g, (refusing.engine g).state = .idle) ∧ refusing.link.busMastering = false ∧
    (refusing.slot 4).op.any readsHost = true ∧ (refusing.slot 7).op.any readsHost = false ∧ (refusing.slot 4).queue = some 0 ∧
    (refusing.queue 0).isSome = true ∧ (∀ i ∈ [(4 : SlotId), 7], (refusing.slot i).readyForEngine = true ∧
      (refusing.slot i).op.any (fun op => (refusing.jobFor op).latchExists) = true) ∧
    (let s := refusing.setEngine .re0 { state := .active, slot := some 1, line := 0, job := none }
     (s.engine .re1).state = .idle ∧ ∀ g, g ≠ .re1 → (s.engine g).state ≠ .idle) := by
  refine ⟨rfl, rfl, rfl, ?_, rfl, rfl, rfl, rfl, rfl, by decide +kernel, rfl, ?_⟩
  all_goals intro g; cases g
  all_goals decide

/-- Three, with both engines IDLE. -/
theorem witness_DispatchTakesEarliest_both : threeReady.control.deviceState = .running ∧ threeReady.order = [] ++ 4 :: [7, 8] ∧
    [7, 8] = [] ++ (7 : SlotId) :: [8] ∧ (7 : SlotId) ≠ 4 ∧ (∀ g, (threeReady.engine g).state = .idle) ∧
    ∀ i ∈ [(4 : SlotId), 7], (threeReady.slot i).readyForEngine = true ∧
      (threeReady.slot i).op.any (fun op => (threeReady.jobFor op).latchExists) = true := by
  refine ⟨rfl, rfl, rfl, by decide, ?_, by decide +kernel⟩
  intro g
  cases g <;> rfl

/-- A FILL of two lines on surface fields. -/
def fillJob : Job :=
  { op := .fill 0 { x := 0, y := 0, w := 2, h := 2 } 0xFF#32 6#4 none, src := none, dst := some sourceI8,
    plan := { bottomUp := false, rightLeft := false }, latch := [], read := none, arrived := [], accepted := 0, drawn := 0, begun := 0 }

/-- RE1 carries out a job of slot 5 in a state of the engine, at a line. -/
def working (d : DeviceState) (st : EngineState) (slot : Option SlotId) (line : Nat) (j : Job) : State :=
  ((part d).setSlot 5 { slotOf .running j.op with engine := some .re1 }).setEngine .re1
    { state := st, slot := slot, line := line, job := some j }

/-- Section 6.8 at its step 2: slot 6 is an IMPORT on RE0 of three pixels a line into four columns of surface 3. -/
def rotated : State :=
  let host : HostBuffer :=
    { address := 0x10000000#64, pitch := 8, format := .p16, orientation := { columns := true, xReverse := true, yReverse := false } }
  let op : Op := .importPixels host 0 3 { x := 10, y := 20, w := 4, h := 3 } none none
  let s := running.setSurface 3
    { Surface.freed with state := .defined, fields := some { screenP32 with width := 320, height := 240, stride := 1280 } }
  s.giveTo .re0 6 (s.jobFor op)

/-- Section 6.8, steps 2 and 3: with the data of line 0 the line is complete, RE0 has begun line 1, and column 13 holds FF0000h; the next
read is of the bytes from 1000_0008h. -/
theorem test_rotated_import : after (.hostReadData .re0 0x10000000#64 [0x00#8, 0xF8#8, 0x00#8, 0xF8#8, 0x00#8, 0xF8#8]) rotated (fun t =>
    (t.engine .re0).state == .active && (t.engine .re0).line == 1 && (t.slot 6).linesDone == 1 &&
    ((t.engine .re0).job.bind Job.read).map (fun r => (r.address, r.length)) == some (0x10000008, 6) &&
    ((t.surface 3).fields.map fun d => [20, 21, 22].map (readPixel t.frame d 13)) == some [0xFF0000#32, 0xFF0000#32, 0xFF0000#32]) =
      true := by decide +kernel

/-- The clauses of LineCompleteOutcomes: the line before the last, the last line, a stop asked in RUNNING and in FAULT, DETACHED. -/
theorem witness_LineCompleteOutcomes :
    (∃ j, ((working .running .active (some 5) 0 fillJob).engine .re1).job = some j ∧ LineAnswered j ∧ j.lineExists 0 = true ∧
      0 + 1 ≠ linesOf j.op ∧ 1 + 1 = linesOf j.op ∧ readsHost j.op = false) ∧
    ((working .running .active (some 5) 1 fillJob).engine .re1).slot = some 5 ∧
    ((working .running .active (some 5) 1 fillJob).slot 5).queue = some 0 ∧
    ((working .running .stopRequested (some 5) 0 fillJob).engine .re1).state = .stopRequested ∧
    (working .fault .stopRequested (some 5) 0 fillJob).control.deviceState = .fault ∧
    (((working .off .detached none 0 fillJob).engine .re1).state = .detached ∧
      ((working .off .detached none 0 fillJob).engine .re1).slot = none) :=
  ⟨⟨_, rfl, trivial, by decide, by decide, by decide, rfl⟩, rfl, rfl, rfl, rfl, rfl, rfl⟩

/-- A slot of queue 1 that waits for slot 5 alone, by its dependency set and by ordered pending. -/
def awaiting (op : Op) (ordered : Bool) : State :=
  { (working .running .active (some 5) 1 fillJob).setSlot 6 { slotOf .blocked op with
      deps := if ordered then [] else [5], orderedPending := ordered } with
    order := [5, 6] }

/-- A FILL, a NOTE, a RETIRE, a SCROLL, a SIGNAL and a PRESENT that wait so, and one held back by ordered pending. -/
theorem witness_LineCompleteOutcomes_releases :
    (∀ op : Op, op.isWait = false → WindowOrderly (awaiting op false) ∧ WaitsOnlyFor (awaiting op false) 5 6) ∧
    (WindowOrderly (awaiting (.signal 0 1#32) true) ∧ WaitsOnlyFor (awaiting (.signal 0 1#32) true) 5 6) := by
  refine ⟨fun op hop => ⟨⟨by show [(5 : SlotId), 6].Nodup; decide, nofun⟩, by decide, by show (6 : SlotId) ∈ [(5 : SlotId), 6]; decide, rfl, ?_, ?_, nofun⟩,
    ⟨by decide +kernel, by decide +kernel⟩, by decide, by decide +kernel, rfl, by decide +kernel, ?_, ?_⟩
  · show (true && op.isWait) = false
    rw [hop]
    rfl
  · intro d hd
    exact List.mem_singleton.1 hd
  · intro d hd
    cases hd
  · intro _ j hj _ _
    have : (awaiting (.signal 0 1#32) true).order.takeWhile (· ≠ 6) = [5] := by decide +kernel
    rw [this] at hj
    exact List.mem_singleton.1 hj

/-- The panel shows the surface that RE1 fills, and the scan is at the corner of it. -/
def drawnShown : State :=
  let s := (displaying none).setSurface 0 { state := .defined, fields := some sourceI8, shown := true, presentRefs := 0 }
  ({ s with presentation := { s.presentation with firstRow := 0, scan := some 0 } } : State).setEngine .re1
    { state := .active, slot := some 5, line := 0, job := some { fillJob with op := .fill 0 { x := 0, y := 0, w := 2, h := 2 } 3#32 10#4 none } }

/-- R108: after one pixel of a line of two, the scan shows the first as written and the second as it was. -/
theorem test_scan_within_line :
    let t := { drawnShown with palettes := Palette.write [] 1 3 0x204060#24 }.drawOn .re1 1
    t.scanOutput 0 0 = .colour 0x204060#24 ∧ t.scanOutput 1 0 = .colour 0#24 ∧ (t.engine .re1).job.map Job.drawn = some 1 ∧
    (t.drawOn .re1 5).scanOutput 1 0 = .colour 0x204060#24 := by decide +kernel

/-- A byte of the line's row past the rectangle, at address 2, one in the rectangle that a clip shuts out, and the two pixels of the
rectangle, of which the first has been visited and the second has not; a pixel scanned within the line. -/
theorem witness_LineWritesOnlyItsPixels :
    (∃ t, exec (.lineComplete .re1) (working .running .active (some 5) 0 fillJob) = .next t) ∧
    (∃ t, exec (.scanPixel 0 0) drawnShown = .next t) ∧
    (visitPlace fillJob.plan { x := 0, y := 0, w := 2, h := 2 } 0 < 1 ∧ ¬visitPlace fillJob.plan { x := 0, y := 0, w := 2, h := 2 } 1 < 1) ∧
    (∀ x, 0 ≤ x → x < 0 + 2 → HoldsPixel sourceI8 x 0 2 → outside none x 0 = true) ∧
    (∀ x, 0 ≤ x → x < 0 + 2 → HoldsPixel sourceI8 x 0 0 → outside (some { x := 1, y := 0, w := 1, h := 1 }) x 0 = true) := by
  refine ⟨⟨_, rfl⟩, ⟨_, rfl⟩, ⟨by decide, by decide⟩, ?_, ?_⟩
  · intro x _ hx h
    obtain rfl | rfl : x = 0 ∨ x = 1 := by omega
    · exact absurd h.2 (by decide)
    · exact absurd h.2 (by decide)
  · intro x _ hx h
    obtain rfl | rfl : x = 0 ∨ x = 1 := by omega
    · decide
    · exact absurd h.1 (by decide)

/-- The last pixel of the line inside, the first outside; and the first pixel of the line visited, the last not. -/
theorem witness_FillLineWritesEveryPixel : StoresCanonical (working .running .active (some 5) 0 fillJob) ∧
    ((working .running .active (some 5) 0 fillJob).engine .re1).state ≠ .idle ∧
    SoundFields sourceI8 ∧ ({ x := 0, y := 0, w := 2, h := 2 } : Rect).inside sourceI8 = true ∧ 0 < 2 ∧
    (0 = fillJob.plan.row { x := 0, y := 0, w := 2, h := 2 } 0 ∧ 0 ≤ 1 ∧ 1 < 0 + 2 ∧ outside none 1 0 = false) ∧
    ¬(0 = fillJob.plan.row { x := 0, y := 0, w := 2, h := 2 } 0 ∧ 0 ≤ 2 ∧ 2 < 0 + 2 ∧ outside none 2 0 = false) ∧
    (fillJob.drawn ≤ visitPlace fillJob.plan { x := 0, y := 0, w := 2, h := 2 } 0 ∧
      visitPlace fillJob.plan { x := 0, y := 0, w := 2, h := 2 } 0 < fillJob.drawn + 1 ∧
      ¬visitPlace fillJob.plan { x := 0, y := 0, w := 2, h := 2 } 1 < fillJob.drawn + 1) ∧
    ∃ t, Visits (working .running .active (some 5) 0 fillJob) t .re1 := by
  refine ⟨⟨?_, ?_⟩, ?_, ⟨by decide, by decide, by decide, nofun⟩, ?_, ?_, ?_, ?_, ⟨by decide, by decide, by decide⟩, ⟨_, 1, rfl, ?_⟩⟩
  all_goals try decide +kernel
  intro j r hj hr
  cases hj
  cases hr
  decide

/-- A COPY of two pixels one to the right in a surface with a band; an EXPAND and a PATTERN between two surfaces; the pixel at the corner of
the rectangle, and the last value of a latch. -/
theorem witness_CopyReadsSourceBeforeWriting :
    let r : Rect := { x := 1, y := 1, w := 2, h := 2 }
    let m1 : SurfaceFields := { base := 0, width := 64, height := 16, format := .m1, stride := 64, palette := 0, band := none }
    let d : SurfaceFields := { defined with base := 33550336 }
    Memory.wf [(0, 7#8)] ∧ SoundFields d ∧ SoundFields m1 ∧ (63 = 63 ∧ d = d) ∧ ((3 : SurfaceId) ≠ 63 ∧ Apart m1 d) ∧
    (Op.copy 63 0 0 63 r 10#4 none none).plan = { bottomUp := true, rightLeft := false } ∧ r.inside defined = true ∧
    0 + r.w ≤ defined.width ∧ 0 + r.h ≤ defined.height ∧ (r.x ≤ 2 ∧ 2 < r.x + r.w ∧ r.y ≤ 2 ∧ 2 < r.y + r.h) ∧
    0 + r.w ≤ m1.width ∧ 0 + r.h ≤ m1.height ∧
    (List.replicate 63 0#32 ++ [9#32])[8 * ((6 + (2 - r.y)) % 8) + (6 + (2 - r.x)) % 8]? = some 9#32 := by
  refine ⟨?_, defined_sound, ⟨by decide, by decide, by decide, nofun⟩, ⟨rfl, rfl⟩, ⟨by decide, .inl (by decide)⟩, ?_⟩ <;> decide

/-- An IMPORT into surface fields, in its last line. -/
def importJob : Job :=
  { op := .importPixels hostBuffer 3 1 { x := 0, y := 0, w := 3, h := 2 } none none, src := none, dst := some screenP32,
    plan := { bottomUp := false, rightLeft := false }, latch := [], read := some { address := 0x1020, length := 4, sent := true },
    arrived := [0], accepted := 0, drawn := 0, begun := 0 }

/-- The line before a LOADPAL's last, complete, with bus mastering off. -/
theorem witness_LineCompleteOutcomes_refused :
    let j : Job := { importJob with
        op := .loadPalette 3 254 2 0#64, dst := none, read := some { address := 0, length := 4, sent := true } }
    let s : State := { working .running .active (some 5) 0 j with link := { running.link with busMastering := false } }
    (s.engine .re1).job = some j ∧ LineAnswered j ∧ 0 + 1 ≠ linesOf j.op ∧ s.link.busMastering = false ∧ readsHost j.op = true ∧
      (s.slot 5).queue = some 0 :=
  ⟨rfl, List.mem_singleton.2 rfl, by decide, rfl, rfl, rfl⟩

/-- A LOADPAL of the last entry. -/
def paletteJob : Job := { importJob with
    op := .loadPalette 3 255 1 0#64, dst := none, read := some { address := 0, length := 4, sent := true }, arrived := [] }

/-- An EXPORT of surface fields. -/
def exportJob : Job := { importJob with op := .exportPixels 2 { x := 0, y := 0, w := 3, h := 2 } hostBuffer, src := some sourceI8, dst := none, read := none }

/-- The first pixel of an IMPORT's line of two, after which the line is not complete, and the first of an EXPORT's. -/
theorem witness_ReadDataIsWritten_part :
    let j : Job := { importJob with arrived := [] }
    [1#8, 2#8].length = 1 * hostBuffer.format.bytes ∧ j.pixelsExist 2 0 1 = true ∧
    (¬∀ k, k < pixelsPerLine hostBuffer.orientation { x := 0, y := 0, w := 3, h := 2 } → k ∈ j.arrived ∨ (0 ≤ k ∧ k < 0 + 1)) ∧
    exportJob.pixelsExist 2 exportJob.accepted 1 = true ∧
    exportJob.accepted + 1 ≠ pixelsPerLine hostBuffer.orientation { x := 0, y := 0, w := 3, h := 2 } := by
  decide +kernel

/-- The two pixels of an IMPORT's line of two. -/
theorem witness_ReadDataIsWritten_two :
    let j : Job := { importJob with arrived := [] }
    j.read = lineReadOf j.op 2 true ∧ (0x1020#64).toNat = hostBuffer.address.toNat + 2 * hostBuffer.pitch + 0 * hostBuffer.format.bytes ∧
    [1#8, 2#8, 3#8, 4#8].length = 2 * hostBuffer.format.bytes ∧
    0 + 2 ≤ pixelsPerLine hostBuffer.orientation { x := 0, y := 0, w := 3, h := 2 } ∧ j.pixelsExist 2 0 2 = true := by
  decide +kernel

/-- The last pixel of an IMPORT's last line, and the last entry of a palette. -/
theorem witness_ReadDataIsWritten :
    ((working .running .active (some 5) 2 importJob).engine .re1).state ≠ .idle ∧
    importJob.read = lineReadOf importJob.op 2 true ∧
    (0x1022#64).toNat = hostBuffer.address.toNat + 2 * hostBuffer.pitch + 1 * hostBuffer.format.bytes ∧
    (hostBuffer.format ≠ .m1 ∧ 1 ≤ 1 ∧ [1#8, 2#8].length = 1 * hostBuffer.format.bytes ∧
      1 + 1 ≤ pixelsPerLine hostBuffer.orientation { x := 0, y := 0, w := 3, h := 2 } ∧ (∀ k, k < 1 → 1 + k ∉ importJob.arrived) ∧
      importJob.pixelsExist 2 1 1 = true) ∧
    (paletteJob.read = lineReadOf paletteJob.op 0 true ∧ (0#64).toNat = (0#64).toNat + 4 * 0 ∧ [1#8, 2#8, 3#8, 4#8].length = 4 ∧
      0 ∉ paletteJob.arrived ∧ 255 + 0 < 256 ∧ Store.Wf 0#24 (part .running).palettes) := by
  refine ⟨by decide +kernel, by decide +kernel, by decide, ⟨by decide, by decide, by decide, by decide, ?_, by decide⟩, by decide +kernel,
    by decide, by decide, by decide, by decide, by decide +kernel⟩
  intro k hk
  obtain rfl : k = 0 := by omega
  decide

/-- The state of an EXPORT in its last line, while a completion write that took this many choices is in flight. -/
def exporting (choice : Nat) : State :=
  let s := working .running .active (some 5) 2 exportJob
  s.setCq 1 (some { ringB with posting := [7], inFlight := some { running.completionWrite ringB 7 with choice := choice } })

/-- R141: an EXPORT's write issued before the completion write in flight is accepted, and one that comes behind it is not. -/
theorem test_export_waits_its_turn : after (.exportWriteAccepted .re1 1) (exporting 1) (fun t => t.link.written.length == 1) = true ∧
    after (.exportWriteAccepted .re1 1) (exporting 0) (fun t => t == exporting 0) = true := by
  decide +kernel

/-- The whole of a line, with bus mastering on and off, and with a completion write ahead of it. -/
theorem witness_ExportedPixelsGoToHost : ((exporting 1).engine .re1).state ≠ .idle ∧ ((exporting 1).engine .re1).job = some exportJob ∧
    (exporting 1).link.busMastering = true ∧ ¬WriteAhead (exporting 1) exportJob ∧ WriteAhead (exporting 0) exportJob ∧
    (let s := working .running .active (some 5) 2 exportJob
     ({ s with link := { s.link with busMastering := false } } : State).link.busMastering = false) ∧
    1 ≤ 2 ∧ exportJob.accepted + 2 ≤ pixelsPerLine hostBuffer.orientation { x := 0, y := 0, w := 3, h := 2 } ∧
    exportJob.pixelsExist 2 exportJob.accepted 2 = true :=
  ⟨by decide +kernel, rfl, rfl, (State.takesLine_iff _ _).1 (by decide +kernel), ⟨1, _, _, rfl, rfl, rfl, by decide⟩, rfl, by decide,
    by decide +kernel, by decide +kernel⟩

/-- An IMPORT's data; and a LOADPAL's, for the last entry. -/
theorem witness_PalettesChangeOnlyByLoadpal :
    (let s := working .running .active (some 5) 2 importJob
     (∃ t, exec (.hostReadData .re1 0x1022#64 [1#8, 2#8]) s = .next t) ∧
       ∀ j p first n x, (s.engine .re1).job = some j → j.op ≠ .loadPalette p first n x) ∧
    (let s := working .running .active (some 5) 0 paletteJob
     (∃ t, exec (.hostReadData .re1 0#64 [1#8, 2#8, 3#8, 4#8]) s = .next t) ∧ (s.engine .re1).job = some paletteJob ∧
       paletteJob.op = .loadPalette 3 255 1 0#64 ∧ StoresCanonical s ∧ 255 + (s.engine .re1).line < 256) := by
  refine ⟨⟨⟨_, rfl⟩, ?_⟩, ⟨_, rfl⟩, rfl, rfl, ⟨by decide +kernel, by decide +kernel⟩, by decide +kernel⟩
  intro j p first n x h
  cases h
  exact nofun

/-- The three transfer kinds with a line unanswered; RUNNING, FAULT and DETACHED. -/
theorem witness_HostFaultEndsTransfer : (¬LineAnswered importJob ∧ ¬LineAnswered exportJob ∧ ¬LineAnswered paletteJob) ∧
    (let s := working .running .stopRequested (some 5) 2 importJob
     (s.engine .re1).state ≠ .idle ∧ (s.engine .re1).state ≠ .detached ∧ (s.engine .re1).slot = some 5 ∧ (s.slot 5).queue = some 0 ∧
       (s.queue 0).isSome) ∧
    (working .fault .stopRequested (some 5) 2 importJob).control.deviceState = .fault ∧
    (let s := working .off .detached none 2 importJob; (s.engine .re1).state = .detached ∧ (s.engine .re1).slot = none) := by
  simp only [lineAnswered_iff]
  decide +kernel

/-! ### The completion unit -/

/-- A member waits at outstanding size − 2, the last that lets it go. -/
theorem witness_OldestMemberIsWritten :
    let s := (running.setSlot 7 endedSlot).setCq 1 (some { ringB with posting := [7], outstanding := 14 })
    ∃ c d, s.cq 1 = some c ∧ c.posting = 7 :: [] ∧ s.control.deviceState = .running ∧ c.inFlight = none ∧ c.outstanding + 1 < c.size ∧
      (s.slot 7).queue = some 0 ∧ s.queue 0 = some d ∧ (s.slot 7).status = some .ok :=
  ⟨_, _, rfl, rfl, rfl, rfl, by decide, rfl, rfl, rfl⟩

/-- A write in flight of a queue that owes nothing, at a count below the threshold and at the threshold; of one that owes its acknowledgement;
of one whose placed acknowledgement it writes; and one that is not the next, behind that of another queue. -/
theorem witness_AcceptedWriteFreesSlot : TakenNext writing 1 ∧ TakenNext bothInFlight 0 ∧ ¬TakenNext bothInFlight 1 ∧
    writing.control.deviceState = .running ∧
    (∃ c w, writing.cq 1 = some c ∧ c.inFlight = some w ∧ w.sent = true ∧ (writing.slot w.slot).queue = some 0 ∧
      c.count + 1 < c.threshold) ∧
    (∃ c w, (writing.setCq 1 ((writing.cq 1).map fun c => { c with threshold := 2 })).cq 1 = some c ∧ c.inFlight = some w ∧
      w.sent = true ∧ c.threshold ≤ c.count + 1) ∧
    (let s : State := { writing.setSlot 31 endedSlot with control := { writing.control with deviceState := .stopping, enable := false } }
     s.control.deviceState = .stopping ∧ (s.slot 31).state ≠ .free ∧
       ∃ c w, s.cq 1 = some c ∧ c.inFlight = some w ∧ w.sent = true ∧ 31 ≠ w.slot ∧ (s.slot w.slot).queue = some 0) ∧
    (∃ d, writing.queue 0 = some d ∧ d.abort = .absent) ∧
    (∃ d, (writing.setQueue 0 (some { queueA with occupied := 1, state := .draining, abort := .owed 3 .firstFreed })).queue 0 = some d ∧
      d.abort = .owed 3 .firstFreed) ∧
    ∃ d, (writing.setQueue 0 (some { queueA with occupied := 1, state := .draining, abort := .placed 7 })).queue 0 = some d ∧
      d.abort = .placed 7 :=
  ⟨(State.takesNext_iff _ _).1 (by decide +kernel), (State.takesNext_iff _ _).1 (by decide +kernel),
    fun h => absurd ((State.takesNext_iff _ _).2 h) (by decide +kernel), rfl, ⟨_, _, rfl, rfl, rfl, rfl, by decide⟩, ⟨_, _, rfl, rfl, rfl, by decide⟩,
    ⟨rfl, by decide +kernel, _, _, rfl, rfl, rfl, by decide, rfl⟩, ⟨_, rfl, rfl⟩, ⟨_, rfl, rfl⟩, _, rfl, rfl⟩

/-- The last slot is written while the device stops, with its queue OPEN, and DRAINING with an acknowledgement that was written before it. -/
theorem witness_LastSlotEndsStop :
    let s : State := { writing with control := { writing.control with deviceState := .stopping, enable := false } }
    s.control.deviceState = .stopping ∧ (∃ c w, s.cq 1 = some c ∧ c.inFlight = some w ∧ w.sent = true ∧
      (s.slot w.slot).queue = some 0 ∧ ∀ j, j ≠ w.slot → (s.slot j).state = .free) ∧ TakenNext s 1 ∧
    (∃ d, s.queue 0 = some d ∧ ∀ n, d.abort ≠ .owed n .firstFreed) ∧
    (∃ d, (s.setQueue 0 (some { queueA with occupied := 1, state := .draining, abort := .placed 8 })).queue 0 = some d ∧
      ∀ n, d.abort ≠ .owed n .firstFreed) ∧ s.ackOrder = [] :=
  ⟨rfl, ⟨_, _, rfl, rfl, rfl, rfl, by decide +kernel⟩, (State.takesNext_iff _ _).1 (by decide +kernel), ⟨_, rfl, nofun⟩, ⟨_, rfl, nofun⟩, rfl⟩

/-- Besides, slot 3 of queue 2 waits with the same deadline; both queues go on after an error, queue 1 in the NORMAL class and queue 2 in the
URGENT, and slot 4 of queue 3 waits longer. -/
def waitingTogether : State :=
  let wait := fun q => { slotOf .blocked (.wait 15 5#32 0) with queue := some q }
  let t := ((waiting.setSlot 3 (wait 2)).setSlot 4 (wait 3)).setQueue 1 (some { queueA with state := .waiting, policy := .goOn, service := .normal })
  let t := ((t.setQueue 2 (some { queueA with state := .waiting, policy := .goOn })).setQueue 3 (some { queueA with state := .waiting })).setQueue 0 none
  { t with
    order := [2, 3, 4]
    fetch := none
    waiting := [{ slot := 2, queue := 1, mark := 15, value := 5#32, deadline := some 9#64 },
      { slot := 3, queue := 2, mark := 15, value := 5#32, deadline := some 9#64 },
      { slot := 4, queue := 3, mark := 15, value := 5#32, deadline := some 10#64 }] }

/-- R131: the WAITs of slots 2 and 3 expire together, each with the mark as detail, whichever of them is named. -/
theorem test_waits_expire_together :
    waitingTogether.timeouts 9#64 =
      [{ slot := 2, status := .waitTimeout, detail := 4#32 }, { slot := 3, status := .waitTimeout, detail := 4#32 }] ∧
    exec (.waitExpiry 2) waitingTogether = exec (.waitExpiry 3) waitingTogether :=
  ⟨by decide +kernel, rfl⟩

/-- A coalescing timer that runs, with count 1 and with count 0; two WAITs with one deadline, and one with a later. -/
theorem witness_ExpiriesAreTaken : (∃ c, writing.cq 1 = some c ∧ c.deadline = some 601#64 ∧ 1 ≤ c.count) ∧
    (∃ c, (writing.setCq 1 (some { ringB with deadline := some 601#64 })).cq 1 = some c ∧ c.deadline = some 601#64 ∧ c.count = 0) ∧
    waitingTogether.control.deviceState = .running ∧
    (∃ w, waitingTogether.waiting.find? (fun w => w.slot = 2) = some w ∧ w.deadline = some 9#64) ∧
    (∀ x ∈ waitingTogether.waiting, (waitingTogether.slot x.slot).isWaiting = true ∧ (waitingTogether.slot x.slot).queue = some x.queue) ∧
    (waitingTogether.waiting.map WaitEntry.slot).Nodup ∧ (∃ c, waitingTogether.queue 1 = some c ∧ c.state = .waiting) ∧
    ReleasesNone waitingTogether (fun j => waitingTogether.waiting.any fun x => decide (x.slot = j ∧ x.deadline = some 9#64)) ∧
    NoEarlierDeadline writing 601#64 ∧ NoEarlierDeadline waitingTogether 9#64 := by
  refine ⟨⟨_, rfl, rfl, by decide⟩, ⟨_, rfl, rfl, rfl⟩, rfl, ⟨_, rfl, rfl⟩, by decide +kernel, by decide +kernel, ⟨_, rfl, rfl⟩, ?_,
    State.mayReach_iff.1 (by decide +kernel), State.mayReach_iff.1 (by decide +kernel)⟩
  have all : ∀ j, (waitingTogether.slot j).state = .blocked → (waitingTogether.slot j).isWaiting = true := by decide +kernel
  exact fun j _ h => .inl (all j h)

/-! ### The presentation unit and pixels -/

theorem displaying_releasesNothing (held : Option Op) : ReleasesNothing (displaying held) 31 := by
  intro j hj h
  have all : ∀ j, j ≠ 31 → (running.slot j).state ≠ .blocked := by decide +kernel
  have same : (displaying held).slot j = running.slot j := by
    cases held with
    | none => rfl
    | some op => exact (State.slot_setSlot running 31 j _).trans (if_neg (Ne.symm hj))
  rw [same] at h
  exact absurd h (all j hj)

/-- Nothing held; a PRESENT held; a PANEL held; the last frame's scan ended, and none begun; and a PANEL that waits for the held PRESENT. -/
theorem witness_FrameStartAppliesHeld : (displaying none).control.deviceState = .running ∧
    (displaying none).presentation.panel = some { width := 800, height := 480, period := 16667 } ∧
    (displaying none).presentation.frameDeadline = some 16667#64 ∧ (displaying none).presentation.held = none ∧
    NoEarlierDeadline (displaying none) 16667#64 ∧ (∀ k, (displaying none).presentation.scan = some k → 800 * 480 ≤ k) ∧
    (∀ k, ({ (displaying none).presentation with scan := none } : Presentation).scan = some k → 800 * 480 ≤ k) ∧
    (let s := displaying (some (.present 0))
     s.presentation.held = some 31 ∧ (s.slot 31).op = some (.present 0) ∧ (s.slot 31).state = .running ∧ (s.slot 31).queue = some 0 ∧
       (∃ c, s.queue 0 = some c) ∧ ReleasesNothing s 31) ∧
    (let s := displaying (some (.setPanel true 0 479 0#24))
     s.presentation.held = some 31 ∧ (s.slot 31).op = some (.setPanel true 0 479 0#24) ∧ (s.slot 31).state = .running ∧
       (s.slot 31).queue = some 0 ∧ (∃ c, s.queue 0 = some c) ∧ ReleasesNothing s 31) ∧
    (let s : State := { (displaying (some (.present 0))).setSlot 6 { slotOf .blocked (.setPanel true 0 479 0#24) with deps := [31] } with
        order := [31, 6] }
     NoEarlierDeadline s 16667#64 ∧ WindowOrderly s ∧ WaitsOnlyFor s 31 6 ∧ s.presentation.held = some 31 ∧
       (s.slot 31).op = some (.present 0) ∧ (Op.present 0).isPresentation = true ∧ (s.slot 31).state = .running ∧
       (s.slot 31).queue = some 0 ∧ ∀ k, (s.slot k).state = .blocked → (s.slot k).op ≠ some (.retire 0)) := by
  refine ⟨rfl, rfl, rfl, rfl, State.mayReach_iff.1 (by decide +kernel), ?_, nofun, ⟨rfl, rfl, rfl, rfl, ⟨_, rfl⟩, displaying_releasesNothing _⟩,
    ⟨rfl, rfl, rfl, rfl, ⟨_, rfl⟩, displaying_releasesNothing _⟩, State.mayReach_iff.1 (by decide +kernel), ⟨by decide +kernel, by decide +kernel⟩,
    ⟨by decide, by decide +kernel, by decide +kernel, by decide +kernel, ?_, nofun⟩, rfl, by decide +kernel, rfl, by decide +kernel,
    by decide +kernel, by decide +kernel⟩
  · intro k h
    cases h
    decide
  · intro d hd
    exact List.mem_singleton.1 hd

/-- The last pixel of the first active row, the rows before and after the active ones, and the display OFF. -/
theorem witness_ScanShowsSurface : (displaying none).control.deviceState = .running ∧ 799 < 800 ∧ 479 < 480 ∧
    ({ (displaying none).presentation with scan := some 1599 } : Presentation).scan = some (1 * 800 + 799) ∧
    running.presentation.display = false ∧
    (displaying none).presentation.display = true ∧ 0 < (displaying none).presentation.firstRow ∧
    (∃ l, (displaying none).presentation.lastRow = some l ∧ l < 479) ∧
    (displaying none).presentation.shown = some 0 ∧ ((displaying none).surface 0).fields = some screenP32 ∧
    (displaying none).presentation.firstRow ≤ 1 ∧ (displaying none).presentation.lastRow = some 478 ∧ 1 ≤ 478 ∧
    screenP32.pixelExists 799 1 = true ∧ screenP32.format ≠ .m1 :=
  ⟨rfl, by decide, by decide, rfl, rfl, rfl, by decide, ⟨_, rfl, by decide⟩, rfl, rfl, by decide, rfl, by decide, by decide, by decide⟩

theorem witness_ConversionValues : (31 < 32 ∧ 63 < 64) ∧ 255 < 256 ∧
    (255#24 = BitVec.ofNat 24 (0 * 65536 + 0 * 256 + 255)) ∧ (0xFFFFFF#32).toNat < 2 ^ valueBits .p32 ∧
    (∃ rect, exampleCopy.op = .copy 2 0 0 0 rect 6#4 (some 7#32) (some { x := 41, y := 0, w := 100, h := 480 })) ∧
    exampleCopy.src = some sourceI8 := ⟨by decide, by decide, by decide, by decide, ⟨_, rfl⟩, rfl⟩

/-- The rows at the ends of a band of 2 rows, and beside it; and the last pixel of a surface at the top of frame memory, P16 and M1. -/
theorem witness_BandMapsRowsOneToOne : 0 < 2 ∧ (4 ≤ 5 ∧ 5 < 4 + 2) ∧ 3 < 4 ∧ 4 + 2 ≤ 6 ∧
    (let d : SurfaceFields := { defined with base := 33550336 }
     Memory.wf [(33554431, 0x3F#8)] ∧ d.format ≠ .m1 ∧
       d.base + d.physicalRow 31 * d.stride + (63 + 1) * d.format.bytes ≤ Config.frameBytes) ∧
    (let d : SurfaceFields := { base := 33550336, width := 512, height := 64, format := .m1, stride := 64, palette := 0, band := none }
     d.base + d.physicalRow 63 * d.stride + 511 / 8 < Config.frameBytes) := by
  decide

end Sys2Proof.Tests
end

section
/-! PROOF. What a command leaves of the two stores and of the claims on frame memory: the relation Still, for every command but a reset, the
arrival of a record, a line, read data and a pixel of the scan; and for those what of it remains true. -/

namespace Sys2Proof.Machine

open Sys2Proof.Safety

/-! ## The relation -/

/-- What most commands leave: both stores as they were, and no claim on frame memory that was not there before (R6). -/
structure Still (s t : State) : Prop where
  frame : t.frame = s.frame
  palettes : t.palettes = s.palettes
  surfaces : ∀ i, (t.surface i).state = .free ∨ ((s.surface i).state ≠ .free ∧ extent (t.surface i) = extent (s.surface i))

namespace Still

theorem of_keeps {s t : State} (h : Keeps s t) : Still s t := ⟨h.frame, h.palettes, h.surfaces⟩

theorem of_settled {s t : State} (h : Settled s t) : Still s t := of_keeps (.of_settled h)

theorem of_same {s t : State} (frame : t.frame = s.frame) (palettes : t.palettes = s.palettes) (surfaces : t.surfaces = s.surfaces) :
    Still s t where
  frame := frame
  palettes := palettes
  surfaces := fun i => by
    have same : t.surface i = s.surface i := by rw [State.surface, surfaces]; rfl
    rw [same]
    exact (Settled.refl s).surfaces i

theorem refl (s : State) : Still s s := of_same rfl rfl rfl

theorem trans {s t u : State} (h : Still s t) (g : Still t u) : Still s u where
  frame := g.frame.trans h.frame
  palettes := g.palettes.trans h.palettes
  surfaces := fun i => by
    rcases g.surfaces i with free | ⟨claimed, same⟩
    · exact .inl free
    · rcases h.surfaces i with free | ⟨claimed', same'⟩
      · exact absurd free claimed
      · exact .inr ⟨claimed', same.trans same'⟩

/-- Whatever is done only while the link is up. -/
theorem whileUp {s t : State} (h : Still s t) : Still s (s.whileUp t) := by
  unfold State.whileUp
  split
  · exact h
  · exact refl s

end Still

theorem State.serveFetch_still (s : State) : Still s s.serveFetch := .of_keeps s.serveFetch_keeps

theorem State.setCq_still (s : State) (k : CqId) (c : Option CompletionQueue) : Still s (s.setCq k c) := .of_same rfl rfl rfl

/-! ## The register writes -/

theorem State.submitWrite_still (s : State) (q : QueueId) (tail : BitVec 12) : Still s (s.submitWrite q tail) := by
  unfold State.submitWrite
  split
  · exact .of_same rfl rfl rfl
  · split
    · exact (Still.of_settled (s.setQueue_settled q _)).trans (State.serveFetch_still _)
    · exact .of_same rfl rfl rfl

theorem State.consumeWrite_still (s : State) (k : CqId) (head : BitVec 12) : Still s (s.consumeWrite k head) := by
  unfold State.consumeWrite
  split
  · exact .of_same rfl rfl rfl
  · dsimp only
    split
    · exact (s.setCq_still k _).trans (.of_settled (State.issueWrites_settled _))
    · exact .of_same rfl rfl rfl

theorem State.resumeAction_still (s : State) (q : QueueId) : Still s (s.resumeAction q) := by
  unfold State.resumeAction
  split
  · exact .of_same rfl rfl rfl
  · split
    · exact (Still.of_settled (s.setQueue_settled q _)).trans (State.serveFetch_still _)
    · exact .of_same rfl rfl rfl

theorem State.abortAction_still (s : State) (q : QueueId) : Still s (s.abortAction q) := by
  unfold State.abortAction
  split
  · exact .of_same rfl rfl rfl
  · split
    · exact (Still.of_keeps (s.abort_keeps q _)).trans (State.serveFetch_still _)
    · exact .of_same rfl rfl rfl

theorem State.qctlWrite_still (s : State) (value : BitVec 32) : Still s (s.qctlWrite value) := by
  unfold State.qctlWrite
  dsimp only
  split
  · exact s.resumeAction_still _
  · exact s.abortAction_still _
  · exact .of_same rfl rfl rfl

theorem State.enableWrite_still (s : State) : Still s s.enableWrite := by
  unfold State.enableWrite
  split
  · exact .refl s
  · split
    · exact .of_keeps s.beginLoad_keeps
    · exact .of_same rfl rfl rfl
    · exact .of_same rfl rfl rfl
    · exact .refl s
    · exact .refl s

theorem State.setupWrite_still (s : State) (half : SetupHalf) (value : BitVec 32) : Still s (s.setupWrite half value) := by
  cases half <;> exact .of_same rfl rfl rfl

theorem State.statusWrite_still (s : State) (value : BitVec 32) : Still s (s.statusWrite value) := .of_same rfl rfl rfl

/-- A register write that is no reset (R167). -/
theorem State.wordWrite_still (s : State) {offset : BitVec 12} {value : BitVec 32} (noReset : offset = 0x0C#12 → value.getLsbD 1 = false) :
    Still s (s.wordWrite offset value) := by
  unfold State.wordWrite
  split
  · exact s.setupWrite_still _ _
  · exact s.setupWrite_still _ _
  · next at12 =>
    unfold State.controlWrite
    rw [noReset (BitVec.eq_of_toNat_eq at12), if_neg Bool.false_ne_true]
    split
    · exact s.enableWrite_still
    · exact .of_keeps s.disableWrite_keeps
  · exact .of_same rfl rfl rfl
  · exact s.submitWrite_still _ _
  · exact s.consumeWrite_still _ _
  · exact s.qctlWrite_still _
  · exact .refl s

/-! ## Loading and completion writes -/

theorem State.takeDeviceVector_still (s : State) (r : SetupRecord) : Still s (s.takeDeviceVector r) := by
  unfold State.takeDeviceVector
  split <;> exact .of_same rfl rfl rfl

theorem State.enterRunning_still (s : State) (r : SetupRecord) : Still s (s.enterRunning r) := by
  unfold State.enterRunning
  refine .trans ?_ (.of_settled (State.interrupt_settled _ _))
  exact .of_same rfl rfl rfl

theorem execSetupReadArrival_still {s t : State} {r : SetupRecord} (h : execSetupReadArrival r s = .next t) : Still s t := by
  unfold execSetupReadArrival at h
  split at h
  · split at h <;> cases h
    · unfold State.setupArrived
      refine (s.takeDeviceVector_still r).trans ?_
      split
      · exact State.enterRunning_still _ r
      · exact .of_keeps (State.enterFault_keeps _ _)
    · exact .refl s
  · cases h
    exact .refl s

theorem State.issue_still (s : State) (k : CqId) : Still s (s.issue k) := by
  unfold State.issue State.putInFlight
  split
  · exact .refl s
  · split
    · exact .refl s
    · split
      · dsimp only
        split <;> exact .of_same rfl rfl rfl
      · exact .refl s

theorem execCompletionWriteIssue_still {s t : State} {k : CqId} (h : execCompletionWriteIssue k s = .next t) : Still s t := by
  unfold execCompletionWriteIssue at h
  split at h <;> cases h
  · exact (Still.of_settled s.choose_settled).trans (State.issue_still _ k)
  · exact .refl s

theorem State.writeAccepted_still (s : State) (k : CqId) (c : CompletionQueue) (w : CompletionWrite) :
    Still s (s.writeAccepted k c w) := by
  unfold State.writeAccepted
  dsimp only
  refine .trans (.trans (.trans (.trans (t := ((s.accept w.address w.entry.bytes).dropIssued k).setCq k
    (some ((c.advance w.slot).countEntry s.control.timer))) (.of_same rfl rfl rfl) (.of_settled (State.freeSlot_settled _ w.slot))) ?_)
    (.of_settled (State.conclude_settled _))) (State.serveFetch_still _)
  split
  · exact .of_settled (State.interrupt_settled _ _)
  · exact .refl _

theorem execCompletionWriteAccepted_still {s t : State} {k : CqId} (h : execCompletionWriteAccepted k s = .next t) : Still s t := by
  unfold execCompletionWriteAccepted at h
  split at h
  · cases h; exact .refl s
  · split at h
    · cases h; exact .refl s
    · split at h <;> cases h
      · exact s.writeAccepted_still k _ _
      · exact .refl s

/-! ## Every command -/

/-- The command may write frame memory or the palette store, or set up a surface: a line, read data, a pixel of the scan, the arrival of a
record, a reset. -/
def writesStores : Instr → Bool
  | .lineComplete _ | .hostReadData _ _ _ | .scanPixel _ _ | .recordArrival _ => true
  | c => isReset c

/-- Every other command leaves both stores, and sets up no surface. -/
theorem exec_still {c : Instr} {s t : State} (h : exec c s = .next t) (quiet : writesStores c = false) : Still s t := by
  cases c with
  | submit q tail => cases h; exact (s.submitWrite_still q tail).whileUp
  | consume k head => cases h; exact (s.consumeWrite_still k head).whileUp
  | resume q => cases h; exact (s.resumeAction_still q).whileUp
  | abort q => cases h; exact (s.abortAction_still q).whileUp
  | enable => cases h; exact s.enableWrite_still.whileUp
  | disable => exact .of_keeps (execDisable_keeps h)
  | functionReset => cases quiet
  | statusClear v => cases h; exact (s.statusWrite_still v).whileUp
  | setupAddressWrite half v => exact .of_keeps (execSetupAddressWrite_keeps h)
  | registerWrite offset size v =>
    cases h
    refine Still.whileUp ?_
    split
    · next size4 =>
      refine s.wordWrite_still fun at12 => ?_
      simpa [writesStores, isReset, at12, size4] using quiet
    · exact .refl s
  | coldReset => cases quiet
  | linkReset => cases quiet
  | pendingMessageSend a b l => exact .of_keeps (execPendingMessageSend_keeps h)
  | setupReadArrival r => exact execSetupReadArrival_still h
  | setupReadFault => exact .of_keeps (execSetupReadFault_keeps h)
  | abandonedReadAnswer => cases h; exact .refl s
  | fetchStart i => exact .of_keeps (execFetchStart_keeps h)
  | recordArrival r => cases quiet
  | fetchFault => exact .of_keeps (execFetchFault_keeps h)
  | overtakenFetchEnd => exact .of_keeps (execOvertakenFetchEnd_keeps h)
  | abortAckPlace q i => exact .of_keeps (execAbortAckPlace_keeps h)
  | dispatch => exact .of_keeps (execDispatch_keeps h)
  | hostReadData e a d => cases quiet
  | exportWriteAccepted e n => exact .of_keeps (execExportWriteAccepted_keeps h)
  | lineComplete e => cases quiet
  | importReadFault e => exact .of_keeps (execImportReadFault_keeps h)
  | exportWriteFault e => exact .of_keeps (execExportWriteFault_keeps h)
  | loadpalReadFault e => exact .of_keeps (execLoadpalReadFault_keeps h)
  | completionWriteIssue k => exact execCompletionWriteIssue_still h
  | completionWriteAccepted k => exact execCompletionWriteAccepted_still h
  | completionWriteFault k => exact .of_keeps (execCompletionWriteFault_keeps h)
  | abandonedWriteAnswer r => exact .of_keeps (execAbandonedWriteAnswer_keeps h)
  | messageWriteFault n => exact .of_keeps (execMessageWriteFault_keeps h)
  | coalescingTimerExpiry k => exact .of_keeps (execCoalescingTimerExpiry_keeps h)
  | waitExpiry i => exact .of_keeps (execWaitExpiry_keeps h)
  | frameStart => exact .of_keeps (execFrameStart_keeps h)
  | pcieConfigurationTurnOff a b l => exact .of_keeps (execPcieConfigurationTurnOff_keeps h)
  | linkUp => exact .of_keeps (execLinkUp_keeps h)
  | scanPixel x r => cases quiet
  | abandonedFetchAnswer => cases h; exact .refl s
  | abandonedEngineAccessAnswer => cases h; exact .refl s

end Sys2Proof.Machine
end

section
/-! PROOF. What the commands that Still leaves out can do: a reset, a line, read data, a pixel of the scan, the arrival of a record. -/

namespace Sys2Proof.Machine

open Sys2Proof.Safety

/-! ## Resets -/

/-- All that a reset does to the stores, the surface table and the engines; with the link down a register write is no reset (log 22). -/
theorem exec_reset {c : Instr} {s t : State} (h : exec c s = .next t) (reset : isReset c = true) :
    t = s ∨ t.frame = s.visitPixels.frame ∧ (t.palettes = s.palettes ∨ c = .coldReset ∧ t.palettes = []) ∧
      t.surfaces = Vector.replicate 64 Surface.freed ∧ t.engines = Vector.replicate 2 Engine.idled := by
  have blocks {u : State} (hu : u = s.whileUp s.resetBlocks) : u = s ∨ u.frame = s.visitPixels.frame ∧
      (u.palettes = s.palettes ∨ c = .coldReset ∧ u.palettes = []) ∧
      u.surfaces = Vector.replicate 64 Surface.freed ∧ u.engines = Vector.replicate 2 Engine.idled := by
    rw [hu, State.whileUp]
    split
    · exact .inr ⟨rfl, .inl rfl, rfl, rfl⟩
    · exact .inl rfl
  cases c with
  | coldReset => cases h; exact .inr ⟨rfl, .inr ⟨rfl, rfl⟩, rfl, rfl⟩
  | linkReset => cases h; exact .inr ⟨rfl, .inl rfl, rfl, rfl⟩
  | functionReset => cases h; exact blocks rfl
  | registerWrite offset size value =>
    simp only [isReset, Bool.and_eq_true, decide_eq_true_eq] at reset
    obtain ⟨⟨rfl, rfl⟩, bit⟩ := reset
    cases h
    refine blocks ?_
    rw [if_pos rfl, show s.wordWrite 0x0C#12 value = s.controlWrite value from rfl, State.controlWrite, if_pos bit]
  | _ => cases reset

/-! ## Lines -/

/-- LINE_COMPLETE completes the line in hand or does nothing (R87). -/
theorem execLineComplete_cases {e : EngineId} {s t : State} (h : execLineComplete e s = .next t) :
    t = s ∨ ∃ j, (s.engine e).job = some j ∧ t = s.completeLine e j := by
  unfold execLineComplete at h
  dsimp only at h
  split at h
  · cases h; exact .inl rfl
  · next j hj =>
    split at h
    · split at h <;> cases h
      exact .inr ⟨j, hj, rfl⟩
    · cases h; exact .inl rfl

/-- Beside frame memory, the completion of a line keeps what the end of a slot keeps. -/
theorem State.completeLine_keeps (s : State) (e : EngineId) (j : Job) :
    Keeps { s with frame := s.lineMemory j (s.engine e).line } (s.completeLine e j) := State.afterLine_keeps _ e j

theorem State.lineMemory_wf {s : State} (h : Memory.wf s.frame) (j : Job) (line : Nat) : Memory.wf (s.lineMemory j line) := by
  unfold State.lineMemory
  split
  · exact j.drawRest_keeps s.palettes h line
  · exact h

/-! ## Read data -/

theorem State.workingJob_job {s : State} {e : EngineId} {j : Job} (h : s.workingJob e = some j) : (s.engine e).job = some j := by
  unfold State.workingJob at h
  split at h
  · cases h
  · exact h

/-- HOST_READ_DATA brings pixels of an IMPORT, the entry of a LOADPAL line, or nothing (R113, R118). -/
theorem execHostReadData_cases {e : EngineId} {a : BitVec 64} {d : List Byte} {s t : State} (h : execHostReadData e a d s = .next t) :
    t = s ∨ ∃ j, (s.engine e).job = some j ∧
      ((∃ pixel host p id rect key clip, j.op = .importPixels host p id rect key clip ∧ t = s.importData e j pixel d host) ∨
        ∃ p first n x, j.op = .loadPalette p first n x ∧ t = s.entryData e j p first d) := by
  unfold execHostReadData at h
  split at h
  · cases h; exact .inl rfl
  · next j hj =>
    have job := State.workingJob_job hj
    split at h
    · next hop =>
      split at h
      · cases h; exact .inl rfl
      · split at h
        · split at h <;> cases h
          exact .inr ⟨j, job, .inl ⟨_, _, _, _, _, _, _, hop, rfl⟩⟩
        · cases h; exact .inl rfl
    · next hop =>
      split at h
      · cases h; exact .inl rfl
      · split at h <;> cases h
        · exact .inr ⟨j, job, .inr ⟨_, _, _, _, hop, rfl⟩⟩
        · exact .inl rfl
    · cases h; exact .inl rfl

/-- Beside frame memory, the data of an IMPORT keeps what an answer keeps. -/
theorem State.importData_keeps (s : State) (e : EngineId) {j : Job} (transfer : j.op.isDrawing = false) (pixel : Nat) (data : List Byte)
    (host : HostBuffer) :
    Keeps { s with frame := j.importRun s.palettes (s.engine e).line pixel (host.format.decodeRun data) s.frame }
      (s.importData e j pixel data host) :=
  State.answered_keeps _ e (j := j.arrive pixel (host.format.decodeRun data).length) transfer

/-- Beside the palette store, the data of a LOADPAL keeps what an answer keeps. -/
theorem State.entryData_keeps (s : State) (e : EngineId) {j : Job} (transfer : j.op.isDrawing = false) (p : PaletteId) (first : Nat)
    (data : List Byte) :
    Keeps { s with palettes := Palette.write s.palettes p (first + (s.engine e).line) ((Format.p32.decode data).setWidth 24) }
      (s.entryData e j p first data) := State.answered_keeps _ e (j := j.arrive 0 1) transfer

/-! ## The arrival of a record -/

/-- The state in which a record that has arrived in a slot is checked: the slot holds it, with a sequence number (R63). -/
def State.withRecord (s : State) (q : QueueId) (i : SlotId) (r : OpRecord) : State :=
  { s.setSlot i (arrivedSlot q s.sequence r) with sequence := s.sequence + 1#32, order := s.order ++ [i] }

/-- A record is judged where it has arrived, and refused or admitted there (R64). -/
theorem State.admission_eq (s : State) (q : QueueId) (i : SlotId) (r : OpRecord) :
    s.admission q i r = match (s.withRecord q i r).checkRecord r with
      | .error st => (s.withRecord q i r).endSlots [{ slot := i, status := st, detail := 0#32 }]
      | .ok op => ((s.withRecord q i r).admissionEffect op).firstState i q op
          ((s.withRecord q i r).admittedSlot (arrivedSlot q s.sequence r) q op) := rfl

theorem State.checkRecord_withRecord (s : State) (q : QueueId) (i : SlotId) (r x : OpRecord) :
    (s.withRecord q i r).checkRecord x = s.checkRecord x := rfl

/-- The head has advanced and the fetch path is free (R49). -/
def State.fetched (s : State) (f : Fetch) (c : Queue) : State :=
  { s.setQueue f.queue (some { c with head := (c.head + 1) % c.size }) with fetch := none }

theorem State.checkRecord_fetched (s : State) (f : Fetch) (c : Queue) (x : OpRecord) :
    (s.fetched f c).checkRecord x = s.checkRecord x := rfl

/-- The state in which an arrived record is checked (R49, R63). -/
def State.withArrival (s : State) (f : Fetch) (c : Queue) (r : OpRecord) : State := (s.fetched f c).withRecord f.queue f.slot r

/-- What the admission or refusal of an arrived record leaves, before the next fetch (R64). -/
def State.afterArrival (s : State) (f : Fetch) (c : Queue) (r : OpRecord) : State :=
  (s.fetched f c).admission f.queue f.slot r

/-- The data of a fetch that may arrive does (R49). -/
theorem exec_recordArrival {s : State} {f : Fetch} {c : Queue} (r : OpRecord) (h : Arriving s f c) :
    exec (.recordArrival r) s = .next (s.afterArrival f c r).serveFetch := by
  obtain ⟨fetch, sent, kept, queue⟩ := h
  show execRecordArrival r s = _
  simp only [execRecordArrival, fetch, sent, kept, queue]
  rfl

theorem execRecordArrival_cases {r : OpRecord} {s t : State} (h : execRecordArrival r s = .next t) :
    t = s ∨ ∃ f c, Arriving s f c ∧ t = (s.afterArrival f c r).serveFetch := by
  unfold execRecordArrival at h
  split at h
  · cases h; exact .inl rfl
  · next f hf =>
    split at h
    · cases h; exact .inl rfl
    · next sent =>
      simp only [Bool.or_eq_true, not_or, Bool.not_eq_true', Bool.not_eq_true, Bool.not_eq_false] at sent
      split at h
      · cases h; exact .inl rfl
      · next c hc => cases h; exact .inr ⟨f, c, ⟨hf, sent.2, sent.1, hc⟩, rfl⟩

/-- A refused record ends at once (R41). -/
theorem State.afterArrival_refused {s : State} {f : Fetch} {c : Queue} {r : OpRecord} {st : Status} (h : s.checkRecord r = .error st) :
    s.afterArrival f c r = (s.withArrival f c r).endSlots [{ slot := f.slot, status := st, detail := 0#32 }] := by
  unfold State.afterArrival
  rw [State.admission_eq, State.checkRecord_withRecord, State.checkRecord_fetched, h]
  rfl

/-- An admitted operation takes its effect on the surface table and its first state (R64). -/
theorem State.afterArrival_admitted {s : State} {f : Fetch} {c : Queue} {r : OpRecord} {op : Op} (h : s.checkRecord r = .ok op) :
    s.afterArrival f c r = ((s.withArrival f c r).admissionEffect op).firstState f.slot f.queue op
      ((s.withArrival f c r).admittedSlot (arrivedSlot f.queue s.sequence r) f.queue op) := by
  unfold State.afterArrival
  rw [State.admission_eq, State.checkRecord_withRecord, State.checkRecord_fetched, h]
  rfl

theorem State.withArrival_still (s : State) (f : Fetch) (c : Queue) (r : OpRecord) : Still s (s.withArrival f c r) :=
  .of_same rfl rfl rfl

theorem State.checkRecord_ok {s : State} {r : OpRecord} {op : Op} (h : s.checkRecord r = .ok op) :
    decodeRecord ((s.presentation.panel.map PanelParams.height).getD 0) r = .ok op ∧ s.checkOp op = none := by
  unfold State.checkRecord at h
  split at h
  · cases h
  · next o ho =>
    split at h <;> cases h
    exact ⟨ho, by assumption⟩

/-- An admission touches nothing but the surface table. -/
theorem State.admissionEffect_same (s : State) (op : Op) : s.admissionEffect op = { s with surfaces := (s.admissionEffect op).surfaces } := by
  cases op <;> rfl

/-- The arrival of a record leaves both stores. -/
theorem execRecordArrival_stores {r : OpRecord} {s t : State} (h : execRecordArrival r s = .next t) :
    t.frame = s.frame ∧ t.palettes = s.palettes := by
  rcases execRecordArrival_cases h with rfl | ⟨f, c, _, rfl⟩
  · exact ⟨rfl, rfl⟩
  · have serve := (s.afterArrival f c r).serveFetch_keeps
    rw [serve.frame, serve.palettes]
    cases hr : s.checkRecord r with
    | error st =>
      rw [State.afterArrival_refused hr]
      have settled := (s.withArrival f c r).endSlots_settled [{ slot := f.slot, status := st, detail := 0#32 }]
      exact ⟨settled.frame, settled.palettes⟩
    | ok op =>
      rw [State.afterArrival_admitted hr]
      have keeps := ((s.withArrival f c r).admissionEffect op).firstState_keeps f.slot f.queue op
        ((s.withArrival f c r).admittedSlot (arrivedSlot f.queue s.sequence r) f.queue op)
      rw [keeps.frame, keeps.palettes, State.admissionEffect_same]
      exact ⟨rfl, rfl⟩

/-! ## A step -/

/-- A step runs a command on a state that agrees with s on all but the queue of commands and the counter of open choices, or counts one µs. -/
theorem step_cases {s t : State} (h : step s = .next t) :
    (∃ c u, exec c u = .next t ∧ u = { s with pending := u.pending, choices := u.choices }) ∨
      t = { s with control := { s.control with timer := s.control.timer + 1#64 } } := by
  unfold step at h
  split at h
  · split at h
    · exact .inl ⟨_, _, h, rfl⟩
    · cases h; exact .inr rfl
  · exact .inl ⟨_, _, h, rfl⟩

/-- A law of the stores, the surface table and the engines that every command keeps is kept by every step. -/
theorem step_keeps {P : State → Prop} (same : ∀ s t : State, t.frame = s.frame → t.palettes = s.palettes → t.surfaces = s.surfaces →
    t.engines = s.engines → P s → P t) (command : ∀ c s t, P s → exec c s = .next t → P t) {s t : State} (h : P s)
    (ht : step s = .next t) : P t := by
  rcases step_cases ht with ⟨c, u, hu, agree⟩ | rfl
  · refine command c u t (same s u ?_ ?_ ?_ ?_ h) hu <;> rw [agree]
  · exact same s _ rfl rfl rfl rfl h

end Sys2Proof.Machine
end

section
/-! PROOF. Frame memory and the palette store: their canonical form (R1, R16), and what changes a palette (R18). -/

namespace Sys2Proof.Machine

open Sys2Proof.Safety

/-- Every command keeps both stores in their canonical form (R1, R16). -/
theorem exec_storesCanonical {c : Instr} {s t : State} (canonical : StoresCanonical s) (h : exec c s = .next t) : StoresCanonical t := by
  obtain ⟨frame, palettes⟩ := canonical
  by_cases quiet : writesStores c = false
  · have still := exec_still h quiet
    exact ⟨still.frame ▸ frame, still.palettes ▸ palettes⟩
  by_cases reset : isReset c = true
  · rcases exec_reset h reset with rfl | ⟨visited, stays | ⟨_, cleared⟩, _⟩
    · exact ⟨frame, palettes⟩
    · exact ⟨visited ▸ State.visitPixels_wf frame, stays ▸ palettes⟩
    · exact ⟨visited ▸ State.visitPixels_wf frame, cleared ▸ ⟨.nil, nofun⟩⟩
  cases c with
  | lineComplete e =>
    rcases execLineComplete_cases h with rfl | ⟨j, _, rfl⟩
    · exact ⟨frame, palettes⟩
    · have keeps := s.completeLine_keeps e j
      exact ⟨keeps.frame ▸ State.lineMemory_wf frame j _, keeps.palettes ▸ palettes⟩
  | hostReadData e a d =>
    rcases execHostReadData_cases h with rfl | ⟨j, _, ⟨pixel, host, _, _, _, _, _, hop, rfl⟩ | ⟨p, first, _, _, hop, rfl⟩⟩
    · exact ⟨frame, palettes⟩
    · have keeps := s.importData_keeps e (by rw [hop]; rfl) pixel d host
      exact ⟨keeps.frame ▸ j.importRun_keeps _ _ _ _ frame, keeps.palettes ▸ palettes⟩
    · have keeps := s.entryData_keeps e (by rw [hop]; rfl) p first d
      exact ⟨keeps.frame ▸ frame, keeps.palettes ▸ Palette.write_keeps palettes _ _ _⟩
  | scanPixel x r =>
    obtain ⟨keeps, wf⟩ := execScanPixel_keeps h
    exact ⟨wf frame, keeps.palettes ▸ palettes⟩
  | recordArrival r =>
    obtain ⟨frames, stays⟩ := execRecordArrival_stores h
    exact ⟨frames ▸ frame, stays ▸ palettes⟩
  | _ => exact absurd (Bool.eq_false_iff.2 reset) quiet

/-- Settles O6, by what each command does to the two stores. -/
theorem storesStayCanonical : Obligations.StoresStayCanonical := fun _ _ canonical h =>
  step_keeps (P := StoresCanonical) (fun _ _ frame palettes _ _ canonical => ⟨frame ▸ canonical.1, palettes ▸ canonical.2⟩)
    (fun _ _ _ canonical h => exec_storesCanonical canonical h) canonical h

/-! ## Palettes -/

/-- What is not the data of a LOADPAL nor a cold reset leaves the palette store (R16, R18). -/
theorem exec_palettes {c : Instr} {s t : State} (h : exec c s = .next t) (cold : c ≠ .coldReset)
    (noEntry : ∀ e a d j p first n x, c = .hostReadData e a d → (s.engine e).job = some j → j.op ≠ .loadPalette p first n x) :
    t.palettes = s.palettes := by
  by_cases quiet : writesStores c = false
  · exact (exec_still h quiet).palettes
  by_cases reset : isReset c = true
  · rcases exec_reset h reset with rfl | ⟨_, stays | ⟨isCold, _⟩, _⟩
    · rfl
    · exact stays
    · exact absurd isCold cold
  cases c with
  | lineComplete e =>
    rcases execLineComplete_cases h with rfl | ⟨j, _, rfl⟩
    · rfl
    · exact (s.completeLine_keeps e j).palettes
  | hostReadData e a d =>
    rcases execHostReadData_cases h with rfl | ⟨j, job, ⟨pixel, host, _, _, _, _, _, hop, rfl⟩ | ⟨p, first, n, x, hop, rfl⟩⟩
    · rfl
    · exact (s.importData_keeps e (by rw [hop]; rfl) pixel d host).palettes
    · exact absurd hop (noEntry e a d j p first n x rfl job)
  | scanPixel x r => exact (execScanPixel_keeps h).1.palettes
  | recordArrival r => exact (execRecordArrival_stores h).2
  | _ => exact absurd (Bool.eq_false_iff.2 reset) quiet

/-- The data of a LOADPAL line leaves every entry but the line's own (R18, R118). -/
theorem State.entryData_read (s : State) (e : EngineId) {j : Job} (transfer : j.op.isDrawing = false) {p : PaletteId} {first : Nat}
    (data : List Byte) (inside : first + (s.engine e).line < 256) {q : PaletteId} {y : BitVec 8}
    (other : q ≠ p ∨ y.toNat ≠ first + (s.engine e).line) :
    Palette.read (s.entryData e j p first data).palettes q y = Palette.read s.palettes q y := by
  have entry : (BitVec.ofNat 8 (first + (s.engine e).line)).toNat = first + (s.engine e).line := Nat.mod_eq_of_lt inside
  rw [(s.entryData_keeps e transfer p first data).palettes]
  dsimp only
  rw [← entry]
  refine Palette.read_write_other _ _ _ _ _ _ (other.imp_right fun ne same => ne ?_)
  rw [same, entry]

/-- Settles O12, by what each command does to the palette store. -/
theorem palettesChangeOnlyByLoadpal : Obligations.PalettesChangeOnlyByLoadpal := by
  intro c s t h cold
  refine ⟨exec_palettes h cold, ?_⟩
  rintro e a d j p first n x rfl job hop _ inside q y other
  rcases execHostReadData_cases h with rfl | ⟨i, job', ⟨_, _, _, _, _, _, _, hop', _⟩ | ⟨p', first', _, _, hop', rfl⟩⟩
  · rfl
  · cases job.symm.trans job'
    cases hop.symm.trans hop'
  · cases job.symm.trans job'
    cases hop.symm.trans hop'
    exact s.entryData_read e (by rw [hop]; rfl) d inside other

end Sys2Proof.Machine
end

section
/-! PROOF. The extent law (R6): a surface claims frame memory only by an admitted DEFINE, whose extent is free (R8). -/

namespace Sys2Proof.Machine

open Sys2Proof.Safety

/-! ## What claims there are after a command -/

/-- Where no claim is new the extents stay apart. -/
theorem extentsApart_of_kept {s t : State} (apart : ExtentsApart s)
    (kept : ∀ i, (t.surface i).state = .free ∨ ((s.surface i).state ≠ .free ∧ extent (t.surface i) = extent (s.surface i))) :
    ExtentsApart t := by
  have claims {i e} (h : Claims t i e) : Claims s i e := by
    rcases kept i with free | ⟨claimed, same⟩
    · exact absurd free h.1
    · exact ⟨claimed, same ▸ h.2⟩
  exact ⟨fun i e h => apart.1 i e (claims h), fun i j e f ne hi hj => apart.2 i j e f ne (claims hi) (claims hj)⟩

/-- No command but the arrival of a record sets up a surface (R8). -/
theorem exec_claims {c : Instr} {s t : State} (h : exec c s = .next t) (noRecord : ∀ r, c ≠ .recordArrival r) (i : SurfaceId) :
    (t.surface i).state = .free ∨ ((s.surface i).state ≠ .free ∧ extent (t.surface i) = extent (s.surface i)) := by
  by_cases quiet : writesStores c = false
  · exact (exec_still h quiet).surfaces i
  by_cases reset : isReset c = true
  · rcases exec_reset h reset with rfl | ⟨_, _, freed, _⟩
    · exact (Still.refl t).surfaces i
    · exact .inl (by simp [State.surface, freed, Surface.freed])
  cases c with
  | lineComplete e =>
    rcases execLineComplete_cases h with rfl | ⟨j, _, rfl⟩
    · exact (Still.refl t).surfaces i
    · exact (s.completeLine_keeps e j).surfaces i
  | hostReadData e a d =>
    rcases execHostReadData_cases h with rfl | ⟨j, _, ⟨pixel, host, _, _, _, _, _, hop, rfl⟩ | ⟨p, first, _, _, hop, rfl⟩⟩
    · exact (Still.refl t).surfaces i
    · exact (s.importData_keeps e (by rw [hop]; rfl) pixel d host).surfaces i
    · exact (s.entryData_keeps e (by rw [hop]; rfl) p first d).surfaces i
  | scanPixel x r => exact (execScanPixel_keeps h).1.surfaces i
  | recordArrival r => exact absurd rfl (noRecord r)
  | _ => exact absurd (Bool.eq_false_iff.2 reset) quiet

/-! ## Admission -/

/-- An extent that R8 finds free lies in frame memory and meets that of no DEFINED or RETIRING surface. -/
theorem State.extentTaken_false {s : State} {d : SurfaceFields} (h : s.extentTaken d = false) :
    d.base + d.extentBytes ≤ Config.frameBytes ∧
      ∀ i f, (s.surface i).state ≠ .free → (s.surface i).fields = some f → extentsOverlap d f = false := by
  unfold State.extentTaken at h
  rw [Bool.or_eq_false_iff, decide_eq_false_iff_not, Nat.not_lt, List.any_eq_false] at h
  refine ⟨h.1, fun i f claimed hf => ?_⟩
  simpa [hf, claimed] using h.2 i (List.mem_finRange i)

/-- A DEFINE that passes its checks names a FREE surface and an extent that is free (R8). -/
theorem State.checkOp_define {s : State} {id : SurfaceId} {d : SurfaceFields} (h : s.checkOp (.define id d) = none) :
    (s.surface id).state = .free ∧ s.extentTaken d = false := by
  unfold State.checkOp at h
  dsimp only at h
  split at h
  · cases h
  · next free =>
    split at h
    · cases h
    · next taken => exact ⟨not_not.1 free, by simpa using taken⟩

/-- A RETIRE that passes its checks names a DEFINED surface (R9). -/
theorem State.checkOp_retire {s : State} {id : SurfaceId} (h : s.checkOp (.retire id) = none) : (s.surface id).state = .defined := by
  unfold State.checkOp at h
  dsimp only at h
  split at h
  · cases h
  · next defined => exact not_not.1 defined

/-- A new surface whose extent is free keeps the extents apart (R6, R8). -/
theorem State.setSurface_apart {s : State} (apart : ExtentsApart s) {id : SurfaceId} {d : SurfaceFields} (free : s.extentTaken d = false) :
    ExtentsApart (s.setSurface id { state := .defined, fields := some d, shown := false, presentRefs := 0 }) := by
  obtain ⟨inside, clear⟩ := State.extentTaken_false free
  have claims {i e} (h : Claims (s.setSurface id { state := .defined, fields := some d, shown := false, presentRefs := 0 }) i e) :
      (id = i ∧ e = (d.base, d.extentBytes)) ∨ (id ≠ i ∧ Claims s i e) := by
    obtain ⟨claimed, he⟩ := h
    rw [State.surface_setSurface] at claimed he
    split at claimed
    · next same =>
      rw [if_pos same] at he
      exact .inl ⟨same, (Option.some.inj he).symm⟩
    · next other =>
      rw [if_neg other] at he
      exact .inr ⟨other, claimed, he⟩
  have away {i e a} (h : Claims s i e) (ha : e.1 ≤ a ∧ a < e.1 + e.2) : ¬(d.base ≤ a ∧ a < d.base + d.extentBytes) := by
    obtain ⟨claimed, he⟩ := h
    obtain ⟨f, hf, rfl⟩ := Option.map_eq_some_iff.1 he
    have := clear i f claimed hf
    simp only [extentsOverlap, Bool.and_eq_false_iff, decide_eq_false_iff_not] at this
    omega
  refine ⟨fun i e hi => ?_, fun i j e f ne hi hj a => ?_⟩
  · rcases claims hi with ⟨_, rfl⟩ | ⟨_, old⟩
    · exact inside
    · exact apart.1 i e old
  · rintro ⟨e1, e2, f1, f2⟩
    rcases claims hi with ⟨rfl, rfl⟩ | ⟨_, oldI⟩ <;> rcases claims hj with ⟨rfl, rfl⟩ | ⟨_, oldJ⟩
    · exact ne rfl
    · exact away oldJ ⟨f1, f2⟩ ⟨e1, e2⟩
    · exact away oldI ⟨e1, e2⟩ ⟨f1, f2⟩
    · exact apart.2 i j e f ne oldI oldJ a ⟨e1, e2, f1, f2⟩

/-- The effect of an admission on the surface table keeps the extents apart (R8, R9, R14). -/
theorem State.admissionEffect_apart {s : State} (apart : ExtentsApart s) {op : Op} (ok : s.checkOp op = none) :
    ExtentsApart (s.admissionEffect op) := by
  cases op with
  | define id d => exact State.setSurface_apart apart (State.checkOp_define ok).2
  | retire id =>
    refine extentsApart_of_kept apart (s.modifySurface_settled id _ (.inr ⟨?_, rfl⟩)).surfaces
    rw [State.checkOp_retire ok]
    exact nofun
  | present id =>
    refine extentsApart_of_kept apart (s.modifySurface_settled id _ ?_).surfaces
    exact or_iff_not_imp_left.2 fun claimed => ⟨claimed, rfl⟩
  | _ => exact apart

/-- Every command keeps the extent law (R6). -/
theorem exec_extentsApart {c : Instr} {s t : State} (apart : ExtentsApart s) (h : exec c s = .next t) : ExtentsApart t := by
  by_cases noRecord : ∀ r, c ≠ .recordArrival r
  · exact extentsApart_of_kept apart (exec_claims h noRecord)
  obtain ⟨r, rfl⟩ : ∃ r, c = .recordArrival r := by simpa using noRecord
  rcases execRecordArrival_cases h with rfl | ⟨f, c, _, rfl⟩
  · exact apart
  refine extentsApart_of_kept ?_ (s.afterArrival f c r).serveFetch_keeps.surfaces
  have arrived : ExtentsApart (s.withArrival f c r) := extentsApart_of_kept apart (s.withArrival_still f c r).surfaces
  cases hr : s.checkRecord r with
  | error st =>
    rw [State.afterArrival_refused hr]
    exact extentsApart_of_kept arrived (State.endSlots_settled _ _).surfaces
  | ok op =>
    rw [State.afterArrival_admitted hr]
    have ok : (s.withArrival f c r).checkOp op = none := (State.checkRecord_ok hr).2
    exact extentsApart_of_kept (State.admissionEffect_apart arrived ok) (State.firstState_keeps _ _ _ _ _).surfaces

/-- Settles O7, by what each command does to the claims on frame memory. -/
theorem extentsStayApart : Obligations.ExtentsStayApart := fun _ _ apart h =>
  step_keeps (P := ExtentsApart)
    (fun _ _ frame palettes surfaces _ apart => extentsApart_of_kept apart (Still.of_same frame palettes surfaces).surfaces)
    (fun _ _ _ apart h => exec_extentsApart apart h) apart h

end Sys2Proof.Machine
end

section
/-! PROOF. What leaves the surface table and the engines alone: the relation Untouched. -/

namespace Sys2Proof.Machine

/-- The surface table and the engines are as they were. -/
structure Untouched (s t : State) : Prop where
  surfaces : t.surfaces = s.surfaces
  engines : t.engines = s.engines

theorem Untouched.trans {s t u : State} (h : Untouched s t) (g : Untouched t u) : Untouched s u :=
  ⟨g.surfaces.trans h.surfaces, g.engines.trans h.engines⟩

theorem State.freeSlot_untouched (s : State) (i : SlotId) : Untouched s (s.freeSlot i) :=
  ⟨(s.freeSlot_surfaces i).1, (s.freeSlot_settled i).engines⟩

theorem State.placeAck_untouched (s : State) (q : QueueId) (c : Queue) (n : Nat) (i : SlotId) : Untouched s (s.placeAck q c n i) := by
  refine ⟨?_, (s.placeAck_settled q c n i).engines⟩
  unfold State.placeAck
  rw [(State.endDraining_surfaces _ q).1, (State.post_surfaces _ i q).1]
  rfl

theorem State.issueWrites_untouched (s : State) : Untouched s s.issueWrites := by
  rw [s.issueWrites_same]
  exact ⟨rfl, rfl⟩

theorem State.interrupt_untouched (s : State) (v : VectorId) : Untouched s (s.interrupt v) := by
  unfold State.interrupt
  split <;> exact ⟨rfl, rfl⟩

theorem State.conclude_untouched (s : State) : Untouched s s.conclude := ⟨s.conclude_marks.1, s.conclude_settled.engines⟩

theorem State.serveFetch_untouched (s : State) : Untouched s s.serveFetch := by
  rw [fetchServed_same s.serveFetch_served]
  exact ⟨rfl, rfl⟩

theorem State.refuseFetch_untouched (s : State) (q : QueueId) (c : Queue) (i : SlotId) : Untouched s (s.refuseFetch q c i) := by
  obtain ⟨v, hv, _, l, _, _, ht, _⟩ := s.refuseFetch_spec q c i
  rw [ht, hv]
  exact ⟨rfl, rfl⟩

theorem State.beginFetch_untouched (s : State) (q : QueueId) (c : Queue) (i : SlotId) : Untouched s (s.beginFetch q c i) := by
  unfold State.beginFetch
  split
  · exact ⟨rfl, rfl⟩
  · exact s.refuseFetch_untouched q c i

theorem State.placeAtOnce_untouched (s : State) (q : QueueId) : Untouched s (s.placeAtOnce q) := by
  unfold State.placeAtOnce
  split
  · split
    · split
      · have chosen : Untouched s s.choose := ⟨rfl, rfl⟩
        exact (chosen.trans (State.placeAck_untouched _ _ _ _ _)).trans (State.issueWrites_untouched _)
      · exact ⟨rfl, rfl⟩
    · exact ⟨rfl, rfl⟩
  · exact ⟨rfl, rfl⟩

theorem State.issue_untouched (s : State) (k : CqId) : Untouched s (s.issue k) := by
  unfold State.issue State.putInFlight
  split
  · exact ⟨rfl, rfl⟩
  · split
    · exact ⟨rfl, rfl⟩
    · split
      · dsimp only
        split <;> exact ⟨rfl, rfl⟩
      · exact ⟨rfl, rfl⟩

theorem State.emitMessages_untouched (l : List VectorId) (s : State) : Untouched s (l.foldl (fun t v => t.emit (.message v)) s) := by
  induction l generalizing s with
  | nil => exact ⟨rfl, rfl⟩
  | cons v rest ih => exact Untouched.trans (t := s.emit (.message v)) ⟨rfl, rfl⟩ (ih _)

theorem Engine.askStop_job (g : Engine) : g.askStop.job = g.job := by
  unfold Engine.askStop
  split <;> rfl

theorem Engine.detach_job (g : Engine) : g.detach.job = g.job := by
  unfold Engine.detach
  split <;> rfl

theorem State.setSlot_untouched (s : State) (i : SlotId) (sl : Slot) : Untouched s (s.setSlot i sl) := ⟨rfl, rfl⟩

theorem State.modifyQueue_untouched (s : State) (q : QueueId) (f : Queue → Queue) : Untouched s (s.modifyQueue q f) := ⟨rfl, rfl⟩

theorem State.removeDependencies_untouched (s : State) (gone : List SlotId) : Untouched s (s.removeDependencies gone) := by
  unfold State.removeDependencies
  exact ⟨rfl, rfl⟩

theorem State.retestOrdered_untouched (s : State) : Untouched s s.retestOrdered := by
  unfold State.retestOrdered
  exact ⟨rfl, rfl⟩

theorem State.markReady_untouched (s : State) (ready : List SlotId) : Untouched s (s.markReady ready) := by
  unfold State.markReady
  exact ⟨rfl, rfl⟩

theorem State.takeDeviceVector_untouched (s : State) (r : SetupRecord) : Untouched s (s.takeDeviceVector r) := by
  unfold State.takeDeviceVector
  split <;> exact ⟨rfl, rfl⟩

theorem State.enterRunning_untouched (s : State) (r : SetupRecord) : Untouched s (s.enterRunning r) := by
  unfold State.enterRunning
  refine Untouched.trans ?_ (State.interrupt_untouched _ _)
  exact ⟨rfl, rfl⟩

end Sys2Proof.Machine
end

section
/-! PROOF. The surface records and the copies that engines have taken stay sound (R6, R12, R37, R86): a DEFINE sets up sound fields, a SCROLL
keeps an origin below the band's rows, and an engine takes its copies from the table. -/

namespace Sys2Proof.Safety

open Sys2Proof.Machine

/-- The copies of surface records that a job holds are sound (R86). -/
def JobSound (j : Job) : Prop := (∀ d, j.src = some d → SoundFields d) ∧ ∀ d, j.dst = some d → SoundFields d

theorem soundFields_withOrigin {r : Surface} (h : ∀ d, r.fields = some d → SoundFields d) (o : Nat) :
    ∀ d, (r.withOrigin o).fields = some d → SoundFields d := by
  intro d hd
  obtain ⟨f, hf, rfl⟩ := Option.map_eq_some_iff.1 hd
  obtain ⟨wide, fits, inside, band⟩ := h f hf
  refine ⟨wide, fits, inside, fun b hb => ?_⟩
  obtain ⟨g, hg, rfl⟩ := Option.map_eq_some_iff.1 hb
  obtain ⟨origin, rows⟩ := band g hg
  refine ⟨?_, rows⟩
  show (if o < g.rows then o else g.origin) < g.rows
  split <;> assumption

namespace SurfacesSound

/-! ## The plain updates -/

theorem of_untouched {s t : State} (h : SurfacesSound s) (same : Untouched s t) : SurfacesSound t := by
  constructor
  · intro i d hd
    rw [State.surface, same.surfaces] at hd
    exact h.1 i d hd
  · intro e j hj
    rw [State.engine, same.engines] at hj
    exact h.2 e j hj

theorem of_same {s t : State} (h : SurfacesSound s) (surfaces : t.surfaces = s.surfaces) (engines : t.engines = s.engines) :
    SurfacesSound t := h.of_untouched ⟨surfaces, engines⟩

theorem setSurface {s : State} (h : SurfacesSound s) (id : SurfaceId) {r : Surface} (hr : ∀ d, r.fields = some d → SoundFields d) :
    SurfacesSound (s.setSurface id r) := by
  refine ⟨fun i d hd => ?_, h.2⟩
  rw [State.surface_setSurface] at hd
  split at hd
  · exact hr d hd
  · exact h.1 i d hd

/-- A change of a surface record that leaves its fields. -/
theorem modifySurface {s : State} (h : SurfacesSound s) (id : SurfaceId) {f : Surface → Surface}
    (fields : (f (s.surface id)).fields = (s.surface id).fields) : SurfacesSound (s.modifySurface id f) :=
  h.setSurface id fun d hd => h.1 id d (fields ▸ hd)

/-- Every engine's job holds the copies that some job held before. -/
theorem of_jobs {s t : State} (h : SurfacesSound s) (surfaces : t.surfaces = s.surfaces)
    (jobs : ∀ e j, (t.engine e).job = some j → ∃ i, (s.engine e).job = some i ∧ j.src = i.src ∧ j.dst = i.dst) : SurfacesSound t := by
  refine ⟨fun i d hd => ?_, fun e j hj => ?_⟩
  · rw [State.surface, surfaces] at hd
    exact h.1 i d hd
  · obtain ⟨i, hi, src, dst⟩ := jobs e j hj
    rw [src, dst]
    exact h.2 e i hi

theorem setEngine {s : State} (h : SurfacesSound s) (e : EngineId) {g : Engine} (hg : ∀ j, g.job = some j → JobSound j) :
    SurfacesSound (s.setEngine e g) := by
  refine ⟨h.1, fun d j hj => ?_⟩
  rw [State.engine_setEngine] at hj
  split at hj
  · exact hg j hj
  · exact h.2 d j hj

theorem idleEngine {s : State} (h : SurfacesSound s) (e : EngineId) : SurfacesSound (s.setEngine e Engine.idled) :=
  h.setEngine e fun j hj => nomatch (show none = some j from hj)

theorem whileUp {s t : State} (h : SurfacesSound s) (g : SurfacesSound t) : SurfacesSound (s.whileUp t) := by
  unfold State.whileUp
  split
  · exact g
  · exact h

theorem foldl {β : Type} {f : State → β → State} {s : State} (h : SurfacesSound s)
    (hf : ∀ s x, SurfacesSound s → SurfacesSound (f s x)) (l : List β) : SurfacesSound (l.foldl f s) := by
  induction l generalizing s with
  | nil => exact h
  | cons x rest ih => exact ih (hf s x h)

/-! ## Endings -/

theorem serveFetch {s : State} (h : SurfacesSound s) : SurfacesSound s.serveFetch := h.of_untouched s.serveFetch_untouched

theorem releaseClaim {s : State} (h : SurfacesSound s) (sl : Slot) (st : Status) : SurfacesSound (s.releaseClaim sl st) := by
  unfold State.releaseClaim
  split
  · split
    · exact h.modifySurface _ rfl
    · split
      · exact h
      · exact h.modifySurface _ (by split <;> rfl)
    · exact h
  · exact h

theorem endSlot {s : State} (h : SurfacesSound s) (e : Ending) : SurfacesSound (s.endSlot e) := by
  cases hq : (s.slot e.slot).queue with
  | none =>
    unfold State.endSlot
    simp only [hq]
    exact h
  | some q =>
    have settled := (s.releaseClaim_settled (s.slot e.slot) e.status).engines
    exact (h.releaseClaim (s.slot e.slot) e.status).of_same (State.endSlot_surfaces hq).1
      ((s.endSlot_settled e).engines.trans settled.symm)

theorem execute {s : State} (h : SurfacesSound s) (i : SlotId) : SurfacesSound (s.execute i).1 := by
  unfold State.execute
  split
  · exact h.setSurface _ nofun
  · exact h.setSurface _ (soundFields_withOrigin (h.1 _) _)
  · exact h
  · unfold State.executeSignal
    split
    · exact h
    · exact h.of_same rfl rfl
  · exact h.of_same rfl rfl
  · exact h.of_same rfl rfl
  · split <;> exact h
  · exact h

theorem executeAll {s : State} (h : SurfacesSound s) (ready : List SlotId) : SurfacesSound (s.executeAll ready).1 := by
  unfold State.executeAll
  generalize s.together ready = l
  suffices key : ∀ p : State × List Ending, SurfacesSound p.1 → SurfacesSound (l.foldl (fun (p : State × List Ending) i =>
      let r := p.1.execute i
      (r.1, p.2 ++ r.2)) p).1 from key _ (h.of_same rfl rfl)
  induction l with
  | nil => exact fun _ hp => hp
  | cons i rest ih => exact fun p hp => ih _ (hp.execute i)

theorem settle {s : State} (h : SurfacesSound s) (n : Nat) (es : List Ending) : SurfacesSound (s.settle n es) := by
  induction n generalizing s es with
  | zero => cases es <;> exact h
  | succ n ih =>
    cases es with
    | nil => exact h
    | cons e es =>
      have chosen : SurfacesSound s.choose := h.of_same rfl rfl
      have ended := chosen.foldl (fun _ x hx => hx.endSlot x) (s.together (e :: es))
      have served : SurfacesSound (s.endTogether (e :: es)) := ended.of_untouched (State.removeDependencies_untouched _ _)
      have retested := served.of_untouched (State.retestOrdered_untouched _)
      exact ih ((retested.of_untouched (State.markReady_untouched _ _)).executeAll _) _

theorem endSlots {s : State} (h : SurfacesSound s) (es : List Ending) : SurfacesSound (s.endSlots es) := by
  unfold State.endSlots
  split
  · exact h.of_same s.finishStop_marks.1 s.finishStop_settled.engines
  · exact (h.settle _ es).of_untouched (State.conclude_untouched _)

/-! ## Engines -/

theorem askEngines {s : State} (h : SurfacesSound s) (asked : SlotId → Bool) : SurfacesSound (s.askEngines asked) := by
  refine h.of_jobs rfl fun e j hj => ⟨j, ?_, rfl, rfl⟩
  rw [← hj]
  simp only [State.askEngines, State.engine, Fin.getElem_fin, Vector.getElem_ofFn]
  split
  · split
    · exact (Engine.askStop_job _).symm
    · rfl
  · rfl

theorem reportEnd {s : State} (h : SurfacesSound s) (e : EngineId) (st : Status) (n : Nat) : SurfacesSound (s.reportEnd e st n) := by
  unfold State.reportEnd
  dsimp only
  split
  · exact ((h.idleEngine e).endSlots _).serveFetch
  · exact h.idleEngine e

theorem dropEngine {s : State} (h : SurfacesSound s) (e : EngineId) : SurfacesSound (s.dropEngine e) := by
  unfold State.dropEngine State.leaveSlot
  split
  · exact (h.of_untouched (State.setSlot_untouched s _ _)).idleEngine e
  · exact h.idleEngine e

theorem hostFault {s : State} (h : SurfacesSound s) (e : EngineId) : SurfacesSound (s.hostFault e) := by
  unfold State.hostFault
  split
  · exact h.reportEnd e _ _
  · exact h.dropEngine e

theorem beginLine {s : State} (h : SurfacesSound s) (e : EngineId) : SurfacesSound (s.beginLine e) := by
  have begun : SurfacesSound (s.setEngine e ((s.engine e).nextLine s.link.busMastering s.choices)) := by
    refine h.setEngine e fun j hj => ?_
    obtain ⟨i, hi, rfl⟩ := Option.map_eq_some_iff.1 hj
    exact h.2 e i hi
  unfold State.beginLine
  dsimp only
  split
  · exact begun.hostFault e
  · exact begun

theorem afterLine {s : State} (h : SurfacesSound s) (e : EngineId) (j : Job) : SurfacesSound (s.afterLine e j) := by
  have counted : SurfacesSound (s.countLine (s.engine e)) := by
    unfold State.countLine
    split
    · exact h.of_untouched (s.setSlot_untouched _ _)
    · exact h
  unfold State.afterLine
  dsimp only
  split
  · split
    · exact counted.reportEnd e _ _
    · exact counted.beginLine e
  · split
    · exact counted.reportEnd e _ _
    · exact counted.dropEngine e
  · exact counted.dropEngine e
  · exact counted

theorem completeLine {s : State} (h : SurfacesSound s) (e : EngineId) (j : Job) : SurfacesSound (s.completeLine e j) :=
  SurfacesSound.afterLine (s := { s with frame := s.lineMemory j (s.engine e).line }) h e j

theorem answered {s : State} (h : SurfacesSound s) (e : EngineId) {j : Job} (hj : JobSound j) : SurfacesSound (s.answered e j) := by
  have set : SurfacesSound (s.setJob e j) := h.setEngine e fun i hi => Option.some.inj hi ▸ hj
  unfold State.answered
  split
  · exact set.completeLine e j
  · exact set

theorem drawOn {s : State} (h : SurfacesSound s) (e : EngineId) (n : Nat) : SurfacesSound (s.drawOn e n) := by
  refine h.of_jobs (by rw [s.drawOn_same]) fun d j hj => ?_
  rcases s.drawOn_engine e n d with same | ⟨i, k, hi, drawn⟩
  · exact ⟨j, same ▸ hj, rfl, rfl⟩
  · rw [drawn] at hj
    exact ⟨i, hi, by rw [← Option.some.inj hj], by rw [← Option.some.inj hj]⟩

theorem visitPixels {s : State} (h : SurfacesSound s) : SurfacesSound s.visitPixels :=
  ((h.drawOn .re0 _).drawOn .re1 _).of_same rfl rfl

/-! ## Dispatch -/

/-- What an engine takes at dispatch is sound (R86). -/
theorem jobFor {s : State} (h : SurfacesSound s) (op : Op) : JobSound (s.jobFor op) := by
  have taken {id : Option SurfaceId} {d : SurfaceFields} (hd : (id.bind fun i => (s.surface i).fields) = some d) : SoundFields d := by
    obtain ⟨i, _, hi⟩ := Option.bind_eq_some_iff.1 hd
    exact h.1 i d hi
  exact ⟨fun _ => taken, fun _ => taken⟩

theorem dispatchTo {s t : State} (h : SurfacesSound s) {e : EngineId} (ht : s.dispatchTo e = some t) : SurfacesSound t := by
  unfold State.dispatchTo at ht
  split at ht
  · cases ht; exact h
  · split at ht
    · cases ht; exact h
    · split at ht <;> cases ht
      exact (h.of_untouched (s.setSlot_untouched _ _)).setEngine e fun j hj => Option.some.inj hj ▸ h.jobFor _

theorem dispatchAll {s t : State} (h : SurfacesSound s) (l : List EngineId) (ht : s.dispatchAll l = some t) : SurfacesSound t := by
  induction l generalizing s with
  | nil => cases ht; exact h
  | cons e rest ih =>
    unfold State.dispatchAll at ht
    split at ht
    · next u hu => exact ih (h.dispatchTo hu) ht
    · cases ht

theorem refuseReads {s : State} (h : SurfacesSound s) (given : List EngineId) : SurfacesSound (s.refuseReads given) := by
  unfold State.refuseReads
  split
  · exact h
  · exact ((h.foldl (fun _ e hs => hs.idleEngine e) _).endSlots _).serveFetch

/-! ## Device-level events -/

theorem clearShown {s : State} (h : SurfacesSound s) : SurfacesSound s.clearShown := by
  unfold State.clearShown
  split
  · exact h.modifySurface _ rfl
  · exact h

theorem enterFault {s : State} (h : SurfacesSound s) (cause : FaultCause) : SurfacesSound (s.enterFault cause) := by
  unfold State.enterFault
  refine of_untouched (askEngines ?_ _) (State.interrupt_untouched _ _)
  exact h.of_same rfl rfl

theorem enterStopping {s : State} (h : SurfacesSound s) : SurfacesSound s.enterStopping := by
  unfold State.enterStopping
  dsimp only
  generalize hs1 : ({ s with
    control := { s.control with deviceState := .stopping, enable := false }
    fetch := s.fetch.map fun (f : Fetch) => { f with discard := true }
    queues := Vector.ofFn fun q => s.queues[q].map Queue.dropAcknowledgement
    ackOrder := [] } : State) = s1
  have stopping : SurfacesSound s1 := by
    rw [← hs1]
    exact h.of_same rfl rfl
  have off : SurfacesSound { s1.clearShown with presentation := s1.clearShown.presentation.turnedOff } :=
    stopping.clearShown.of_same rfl rfl
  exact (off.askEngines _).endSlots _

theorem faultToOff {s : State} (h : SurfacesSound s) : SurfacesSound s.faultToOff := by
  have released := h.foldl (fun _ i ht => ht.releaseClaim (s.slot i) .aborted) (List.finRange 32)
  have discarded : SurfacesSound s.discardSlots := released.of_same rfl rfl
  unfold State.faultToOff
  dsimp only
  refine discarded.clearShown.of_jobs rfl fun e j hj => ⟨j, ?_, rfl, rfl⟩
  rw [← hj]
  simp only [State.engine, Fin.getElem_fin, Vector.getElem_ofFn, Engine.detach_job]
  rfl

theorem beginLoad {s : State} (h : SurfacesSound s) : SurfacesSound s.beginLoad := by
  have loading : SurfacesSound { s with control := { s.control with deviceState := .loading, enable := true, cause := .none } } :=
    h.of_same rfl rfl
  unfold State.beginLoad
  dsimp only
  split
  · exact loading.enterFault _
  · split
    · exact loading.of_same rfl rfl
    · exact loading.enterFault _

theorem enableWrite {s : State} (h : SurfacesSound s) : SurfacesSound s.enableWrite := by
  unfold State.enableWrite
  split
  · exact h
  · split
    · exact h.beginLoad
    · exact h.of_same rfl rfl
    · exact h.of_same rfl rfl
    · exact h
    · exact h

theorem disableWrite {s : State} (h : SurfacesSound s) : SurfacesSound s.disableWrite := by
  unfold State.disableWrite
  split
  · split
    · exact h.of_same rfl rfl
    · exact h.enterStopping
    · exact h.faultToOff
    · exact h
    · exact h
  · exact h

/-! ## The register writes -/

theorem submitWrite {s : State} (h : SurfacesSound s) (q : QueueId) (tail : BitVec 12) : SurfacesSound (s.submitWrite q tail) := by
  unfold State.submitWrite
  split
  · exact h.of_same rfl rfl
  · split
    · exact serveFetch (h.of_same rfl rfl)
    · exact h.of_same rfl rfl

theorem consumeWrite {s : State} (h : SurfacesSound s) (k : CqId) (head : BitVec 12) : SurfacesSound (s.consumeWrite k head) := by
  unfold State.consumeWrite
  split
  · exact h.of_same rfl rfl
  · dsimp only
    split
    · refine of_untouched ?_ (State.issueWrites_untouched _)
      exact h.of_same rfl rfl
    · exact h.of_same rfl rfl

theorem resumeAction {s : State} (h : SurfacesSound s) (q : QueueId) : SurfacesSound (s.resumeAction q) := by
  unfold State.resumeAction
  split
  · exact h.of_same rfl rfl
  · split
    · exact serveFetch (h.of_same rfl rfl)
    · exact h.of_same rfl rfl

theorem abortAction {s : State} (h : SurfacesSound s) (q : QueueId) : SurfacesSound (s.abortAction q) := by
  unfold State.abortAction
  split
  · exact h.of_same rfl rfl
  · next c _ =>
    split
    · have begun : SurfacesSound (s.beginAbort q c) := h.of_same rfl rfl
      exact (((begun.askEngines _).endSlots _).of_untouched (State.placeAtOnce_untouched _ q)).serveFetch
    · exact h.of_same rfl rfl

theorem qctlWrite {s : State} (h : SurfacesSound s) (value : BitVec 32) : SurfacesSound (s.qctlWrite value) := by
  unfold State.qctlWrite
  dsimp only
  split
  · exact h.resumeAction _
  · exact h.abortAction _
  · exact h.of_same rfl rfl

theorem setupWrite {s : State} (h : SurfacesSound s) (half : SetupHalf) (value : BitVec 32) : SurfacesSound (s.setupWrite half value) := by
  cases half <;> exact h.of_same rfl rfl

/-- A register write that is no reset (R167). -/
theorem wordWrite {s : State} (h : SurfacesSound s) {offset : BitVec 12} {value : BitVec 32}
    (noReset : offset = 0x0C#12 → value.getLsbD 1 = false) : SurfacesSound (s.wordWrite offset value) := by
  unfold State.wordWrite
  split
  · exact h.setupWrite _ _
  · exact h.setupWrite _ _
  · next at12 =>
    unfold State.controlWrite
    rw [noReset (BitVec.eq_of_toNat_eq at12), if_neg Bool.false_ne_true]
    split
    · exact h.enableWrite
    · exact h.disableWrite
  · exact h.of_same rfl rfl
  · exact h.submitWrite _ _
  · exact h.consumeWrite _ _
  · exact h.qctlWrite _
  · exact h

/-! ## Admission -/

theorem admissionEffect {s : State} (h : SurfacesSound s) {op : Op} (sound : ∀ id d, op = .define id d → SoundFields d) :
    SurfacesSound (s.admissionEffect op) := by
  cases op with
  | define id d => exact h.setSurface id fun _ hd => Option.some.inj hd ▸ sound id d rfl
  | retire id => exact h.modifySurface id rfl
  | present id => exact h.modifySurface id rfl
  | _ => exact h

theorem firstState {s : State} (h : SurfacesSound s) (i : SlotId) (q : QueueId) (op : Op) (sl : Slot) :
    SurfacesSound (s.firstState i q op sl) := by
  have set (x : Slot) : SurfacesSound (s.setSlot i x) := h.of_untouched (s.setSlot_untouched i x)
  unfold State.firstState
  split
  · exact (set _).endSlots _
  · split
    · exact (set _).endSlots _
    · exact (set { sl with state := .blocked }).of_same rfl rfl
  · split
    · exact ((set _).executeAll _).endSlots _
    · exact set _

/-! ## The presentation unit -/

theorem takeEffect {s : State} (h : SurfacesSound s) (op : Op) : SurfacesSound (s.takeEffect op) := by
  unfold State.takeEffect
  split
  · next id =>
    have cleared : SurfacesSound (if s.presentation.shown = some id then s else s.clearShown) := by
      split
      · exact h
      · exact h.clearShown
    exact of_same (cleared.modifySurface id (f := fun r => { r with shown := true }) rfl) rfl rfl
  · exact h.of_same rfl rfl
  · exact h

theorem beginFrame {s : State} (h : SurfacesSound s) (p : PanelParams) (d : Time) : SurfacesSound (s.beginFrame p d) := by
  have counted : SurfacesSound (s.countFrame d) := h.of_same rfl rfl
  have applied : SurfacesSound (s.countFrame d).applyHeld := by
    unfold State.applyHeld
    split
    · exact counted.takeEffect _
    · exact counted
  have latched : SurfacesSound ((s.countFrame d).applyHeld.latchFrame p d) := applied.of_same rfl rfl
  unfold State.beginFrame State.endHeld
  split
  · exact (latched.endSlots _).serveFetch
  · exact latched

end SurfacesSound

end Sys2Proof.Safety
end

section
/-! PROOF. Every command keeps the surfaces sound (R6, R12, R37, R86). -/

namespace Sys2Proof.Machine

open Sys2Proof.Safety

/-! ## What a DEFINE sets up -/

/-- The fields of a DEFINE that passes R40's second step fit their stride, and its band lies inside the surface (R12, R37). -/
theorem surfaceFieldsOf_bounds {r : OpRecord} {d : SurfaceFields} (h : surfaceFieldsOf r = some d) :
    0 < d.width ∧ d.format.rowBytes d.width ≤ d.stride ∧ ∀ b, d.band = some b → b.origin < b.rows ∧ b.top + b.rows ≤ d.height := by
  simp only [surfaceFieldsOf, Option.bind_eq_bind, Option.bind_eq_some_iff] at h
  obtain ⟨f, _, p, _, band, hband, h⟩ := h
  obtain ⟨bounds, rfl⟩ := when_eq_some.1 h
  simp only [Bool.and_eq_true, decide_eq_true_eq] at bounds
  obtain ⟨⟨⟨⟨⟨⟨⟨_, wide⟩, _⟩, _⟩, _⟩, _⟩, fits⟩, _⟩ := bounds
  refine ⟨wide, fits, fun b hb => ?_⟩
  cases (show band = some b from hb)
  unfold bandOf at hband
  dsimp only at hband
  split at hband
  · cases hband
  · obtain ⟨inside, given⟩ := when_eq_some.1 hband
    cases given
    simp only [Bool.and_eq_true, decide_eq_true_eq] at inside
    exact ⟨inside.1.2, inside.2⟩
  · cases hband

theorem decodeRecord_define {panelHeight : Nat} {r : OpRecord} {id : SurfaceId} {d : SurfaceFields}
    (h : decodeRecord panelHeight r = .ok (.define id d)) : surfaceFieldsOf r = some d := by
  unfold decodeRecord at h
  split at h
  · cases h
  · next k _ =>
    split at h
    · split at h
      · next op hop =>
        cases h
        cases k with
        | define =>
          simp only [Kind.fieldsOf, Option.bind_eq_bind, Option.bind_eq_some_iff, Option.some.injEq, Op.define.injEq] at hop
          obtain ⟨_, _, fields, hf, _, rfl⟩ := hop
          exact hf
        | _ => simp [Kind.fieldsOf, Option.bind_eq_some_iff, when_eq_some] at hop
      · cases h
    · cases h

/-- A DEFINE that is admitted sets up sound fields (R6, R8, R12, R37). -/
theorem State.checkRecord_sound {s : State} {r : OpRecord} {id : SurfaceId} {d : SurfaceFields} (h : s.checkRecord r = .ok (.define id d)) :
    SoundFields d := by
  obtain ⟨decoded, ok⟩ := State.checkRecord_ok h
  obtain ⟨wide, fits, band⟩ := surfaceFieldsOf_bounds (decodeRecord_define decoded)
  exact ⟨wide, fits, (State.extentTaken_false (State.checkOp_define ok).2).1, band⟩

/-! ## The commands -/

section Commands

variable {s t : State}

theorem execDispatch_sound (h : SurfacesSound s) (ht : execDispatch s = .next t) : SurfacesSound t := by
  unfold execDispatch at ht
  split at ht
  · split at ht
    · next u hu => cases ht; exact (h.dispatchAll _ hu).refuseReads _
    · cases ht
  · cases ht; exact h

theorem execSetupReadArrival_sound (h : SurfacesSound s) {r : SetupRecord} (ht : execSetupReadArrival r s = .next t) : SurfacesSound t := by
  unfold execSetupReadArrival at ht
  split at ht
  · split at ht <;> cases ht
    · have taken := h.of_untouched (s.takeDeviceVector_untouched r)
      unfold State.setupArrived
      dsimp only
      split
      · exact taken.of_untouched (State.enterRunning_untouched _ r)
      · exact taken.enterFault _
    · exact h
  · cases ht; exact h

theorem execSetupReadFault_sound (h : SurfacesSound s) (ht : execSetupReadFault s = .next t) : SurfacesSound t := by
  unfold execSetupReadFault at ht
  split at ht
  · split at ht <;> cases ht
    · exact h.enterFault _
    · exact h
  · cases ht; exact h

theorem execPendingMessageSend_sound (h : SurfacesSound s) {a b : Bool} {l : List VectorId} (ht : execPendingMessageSend a b l s = .next t) :
    SurfacesSound t := by
  unfold execPendingMessageSend at ht
  split at ht <;> cases ht
  · unfold State.sendPending
    refine SurfacesSound.of_untouched ?_ (State.emitMessages_untouched _ _)
    exact h.of_same rfl rfl
  · exact h

theorem execFetchStart_sound (h : SurfacesSound s) {i : SlotId} (ht : execFetchStart i s = .next t) : SurfacesSound t := by
  unfold execFetchStart at ht
  split at ht
  · cases ht; exact h
  · split at ht
    · split at ht <;> cases ht
      · exact (h.of_untouched (s.beginFetch_untouched _ _ _)).serveFetch
      · exact h
    · cases ht; exact h

theorem execRecordArrival_sound (h : SurfacesSound s) {r : OpRecord} (ht : execRecordArrival r s = .next t) : SurfacesSound t := by
  rcases execRecordArrival_cases ht with rfl | ⟨f, c, _, rfl⟩
  · exact h
  have arrived : SurfacesSound (s.withArrival f c r) := h.of_same rfl rfl
  refine SurfacesSound.serveFetch ?_
  cases hr : s.checkRecord r with
  | error st =>
    rw [State.afterArrival_refused hr]
    exact arrived.endSlots _
  | ok op =>
    rw [State.afterArrival_admitted hr]
    refine (arrived.admissionEffect ?_).firstState _ _ _ _
    rintro id d rfl
    exact State.checkRecord_sound hr

theorem execFetchFault_sound (h : SurfacesSound s) (ht : execFetchFault s = .next t) : SurfacesSound t := by
  unfold execFetchFault at ht
  split at ht
  · cases ht; exact h
  · split at ht
    · cases ht; exact h
    · split at ht
      · have freed : SurfacesSound { s with fetch := none } := h.of_same rfl rfl
        rw [← Host.Outcome.next.inj ht]
        exact ((freed.endSlots _).of_untouched (State.modifyQueue_untouched _ _ _)).serveFetch
      · cases ht; exact h

theorem execOvertakenFetchEnd_sound (h : SurfacesSound s) (ht : execOvertakenFetchEnd s = .next t) : SurfacesSound t := by
  unfold execOvertakenFetchEnd at ht
  split at ht
  · cases ht; exact h
  · split at ht <;> cases ht
    · have freed : SurfacesSound { s with fetch := none } := h.of_same rfl rfl
      exact ((freed.of_untouched (State.freeSlot_untouched _ _)).of_untouched (State.conclude_untouched _)).serveFetch
    · exact h

theorem execAbortAckPlace_sound (h : SurfacesSound s) {q : QueueId} {i : SlotId} (ht : execAbortAckPlace q i s = .next t) :
    SurfacesSound t := by
  unfold execAbortAckPlace at ht
  split at ht
  · cases ht; exact h
  · split at ht
    · split at ht <;> cases ht
      · exact ((h.of_untouched (s.placeAck_untouched _ _ _ _)).of_untouched (State.issueWrites_untouched _)).serveFetch
      · exact h
    · cases ht; exact h

theorem execLineComplete_sound (h : SurfacesSound s) {e : EngineId} (ht : execLineComplete e s = .next t) : SurfacesSound t := by
  rcases execLineComplete_cases ht with rfl | ⟨j, _, rfl⟩
  · exact h
  · exact h.completeLine e j

theorem execHostReadData_sound (h : SurfacesSound s) {e : EngineId} {a : BitVec 64} {d : List Byte} (ht : execHostReadData e a d s = .next t) :
    SurfacesSound t := by
  rcases execHostReadData_cases ht with rfl | ⟨j, job, ⟨pixel, host, _, _, _, _, _, _, rfl⟩ | ⟨p, first, _, _, _, rfl⟩⟩
  · exact h
  · have same : SurfacesSound { s with frame := j.importRun s.palettes (s.engine e).line pixel (host.format.decodeRun d) s.frame } :=
      h.of_same rfl rfl
    exact same.answered e (j := j.arrive pixel (host.format.decodeRun d).length) (h.2 e j job)
  · have same : SurfacesSound { s with
        palettes := Palette.write s.palettes p (first + (s.engine e).line) ((Format.p32.decode d).setWidth 24) } := h.of_same rfl rfl
    exact same.answered e (j := j.arrive 0 1) (h.2 e j job)

theorem execExportWriteAccepted_sound (h : SurfacesSound s) {e : EngineId} {n : Nat} (ht : execExportWriteAccepted e n s = .next t) :
    SurfacesSound t := by
  unfold execExportWriteAccepted at ht
  split at ht
  · cases ht; exact h
  · next j hj =>
    split at ht
    · next host _ =>
      split at ht
      · split at ht <;> cases ht
        have accepted : SurfacesSound (s.accept (host.pixelAddress (s.engine e).line j.accepted)
            (j.exportRun s.palettes s.frame (s.engine e).line j.accepted n)) := h.of_same rfl rfl
        exact accepted.answered e (j := { j with accepted := j.accepted + n }) (h.2 e j (State.workingJob_job hj))
      · cases ht; exact h
    · cases ht; exact h

/-- A host fault is that of the engine's line in hand, or of none (R119 to R121). -/
theorem hostFaults_cases {e : EngineId} (ht : execImportReadFault e s = .next t ∨ execExportWriteFault e s = .next t ∨
    execLoadpalReadFault e s = .next t) : t = s ∨ t = s.hostFault e := by
  unfold execImportReadFault execExportWriteFault execLoadpalReadFault at ht
  rcases ht with ht | ht | ht
  all_goals
    split at ht
    · cases ht; exact .inl rfl
    · split at ht
      · split at ht <;> cases ht
        · exact .inl rfl
        · exact .inr rfl
      · cases ht; exact .inl rfl

theorem hostFaults_sound (h : SurfacesSound s) {e : EngineId} (ht : execImportReadFault e s = .next t ∨
    execExportWriteFault e s = .next t ∨ execLoadpalReadFault e s = .next t) : SurfacesSound t := by
  rcases hostFaults_cases ht with rfl | rfl
  · exact h
  · exact h.hostFault e

theorem execCompletionWriteIssue_sound (h : SurfacesSound s) {k : CqId} (ht : execCompletionWriteIssue k s = .next t) :
    SurfacesSound t := by
  unfold execCompletionWriteIssue at ht
  have chosen : SurfacesSound s.choose := h.of_same rfl rfl
  split at ht <;> cases ht
  · exact chosen.of_untouched (State.issue_untouched _ k)
  · exact h

theorem State.writeAccepted_sound (h : SurfacesSound s) (k : CqId) (c : CompletionQueue) (w : CompletionWrite) :
    SurfacesSound (s.writeAccepted k c w) := by
  have counted : SurfacesSound (((s.accept w.address w.entry.bytes).dropIssued k).setCq k
      (some ((c.advance w.slot).countEntry s.control.timer))) := h.of_same rfl rfl
  unfold State.writeAccepted
  dsimp only
  refine (SurfacesSound.of_untouched ?_ (State.conclude_untouched _)).serveFetch
  split
  · exact (counted.of_untouched (State.freeSlot_untouched _ _)).of_untouched (State.interrupt_untouched _ _)
  · exact counted.of_untouched (State.freeSlot_untouched _ _)

theorem execCompletionWriteAccepted_sound (h : SurfacesSound s) {k : CqId} (ht : execCompletionWriteAccepted k s = .next t) :
    SurfacesSound t := by
  unfold execCompletionWriteAccepted at ht
  split at ht
  · cases ht; exact h
  · split at ht
    · cases ht; exact h
    · split at ht <;> cases ht
      · exact State.writeAccepted_sound h k _ _
      · exact h

theorem execCompletionWriteFault_sound (h : SurfacesSound s) {k : CqId} (ht : execCompletionWriteFault k s = .next t) : SurfacesSound t := by
  unfold execCompletionWriteFault at ht
  split at ht
  · cases ht; exact h
  · next c _ =>
    split at ht <;> cases ht
    · exact h
    · have dropped : SurfacesSound ((s.dropIssued k).setCq k (some { c with inFlight := none })) := h.of_same rfl rfl
      exact dropped.enterFault _

theorem execMessageWriteFault_sound (h : SurfacesSound s) {n : Nat} (ht : execMessageWriteFault n s = .next t) : SurfacesSound t := by
  unfold execMessageWriteFault at ht
  split at ht
  · split at ht <;> cases ht
    · exact h.of_same rfl rfl
    · exact h
  · cases ht; exact h

theorem execCoalescingTimerExpiry_sound (h : SurfacesSound s) {k : CqId} (ht : execCoalescingTimerExpiry k s = .next t) :
    SurfacesSound t := by
  unfold execCoalescingTimerExpiry at ht
  split at ht
  · cases ht; exact h
  · next c _ =>
    split at ht
    · cases ht; exact h
    · next d _ =>
      split at ht <;> cases ht
      · have expired : SurfacesSound ((s.reach d).setCq k (some { c with count := 0, deadline := none })) := h.of_same rfl rfl
        unfold State.coalesce
        dsimp only
        split
        · exact expired.of_untouched (State.interrupt_untouched _ _)
        · exact expired
      · exact h

theorem execWaitExpiry_sound (h : SurfacesSound s) {i : SlotId} (ht : execWaitExpiry i s = .next t) : SurfacesSound t := by
  unfold execWaitExpiry at ht
  split at ht
  · cases ht; exact h
  · split at ht
    · cases ht; exact h
    · next d _ =>
      split at ht <;> cases ht
      · have reached : SurfacesSound (s.reach d) := h.of_same rfl rfl
        exact (reached.endSlots _).serveFetch
      · exact h

theorem execFrameStart_sound (h : SurfacesSound s) (ht : execFrameStart s = .next t) : SurfacesSound t := by
  unfold execFrameStart at ht
  split at ht
  · split at ht <;> cases ht
    · exact h.beginFrame _ _
    · exact h
  · cases ht; exact h

theorem execPcieConfigurationTurnOff_sound (h : SurfacesSound s) {a b : Bool} {l : List VectorId}
    (ht : execPcieConfigurationTurnOff a b l s = .next t) : SurfacesSound t := by
  unfold execPcieConfigurationTurnOff at ht
  split at ht <;> cases ht
  · exact h.of_same rfl rfl
  · exact h

theorem execScanPixel_sound (h : SurfacesSound s) {x r : Nat} (ht : execScanPixel x r s = .next t) : SurfacesSound t := by
  unfold execScanPixel at ht
  split at ht
  · cases ht; exact h
  · split at ht
    · split at ht <;> cases ht
      exact h.visitPixels.of_same rfl rfl
    · cases ht; exact h

/-- Every command keeps the surfaces sound. -/
theorem exec_surfacesSound {c : Instr} (h : SurfacesSound s) (ht : exec c s = .next t) : SurfacesSound t := by
  by_cases reset : isReset c = true
  · rcases exec_reset ht reset with rfl | ⟨_, _, surfaces, engines⟩
    · exact h
    · refine ⟨fun i d hd => ?_, fun e j hj => ?_⟩
      · simp [State.surface, surfaces, Surface.freed] at hd
      · simp [State.engine, engines, Engine.idled] at hj
  cases c with
  | submit q tail => cases ht; exact h.whileUp (h.submitWrite q tail)
  | consume k head => cases ht; exact h.whileUp (h.consumeWrite k head)
  | resume q => cases ht; exact h.whileUp (h.resumeAction q)
  | abort q => cases ht; exact h.whileUp (h.abortAction q)
  | enable => cases ht; exact h.whileUp h.enableWrite
  | disable => cases ht; exact h.whileUp h.disableWrite
  | functionReset => exact absurd rfl reset
  | statusClear v => cases ht; exact h.whileUp (h.of_same rfl rfl)
  | setupAddressWrite half v => cases ht; exact h.whileUp (h.setupWrite half v)
  | registerWrite offset size v =>
    cases ht
    refine h.whileUp ?_
    split
    · next size4 =>
      refine h.wordWrite fun at12 => ?_
      simpa [isReset, at12, size4] using reset
    · exact h
  | coldReset => exact absurd rfl reset
  | linkReset => exact absurd rfl reset
  | pendingMessageSend a b l => exact execPendingMessageSend_sound h ht
  | setupReadArrival r => exact execSetupReadArrival_sound h ht
  | setupReadFault => exact execSetupReadFault_sound h ht
  | abandonedReadAnswer => cases ht; exact h
  | fetchStart i => exact execFetchStart_sound h ht
  | recordArrival r => exact execRecordArrival_sound h ht
  | fetchFault => exact execFetchFault_sound h ht
  | overtakenFetchEnd => exact execOvertakenFetchEnd_sound h ht
  | abortAckPlace q i => exact execAbortAckPlace_sound h ht
  | dispatch => exact execDispatch_sound h ht
  | hostReadData e a d => exact execHostReadData_sound h ht
  | exportWriteAccepted e n => exact execExportWriteAccepted_sound h ht
  | lineComplete e => exact execLineComplete_sound h ht
  | importReadFault e => exact hostFaults_sound h (.inl ht)
  | exportWriteFault e => exact hostFaults_sound h (.inr (.inl ht))
  | loadpalReadFault e => exact hostFaults_sound h (.inr (.inr ht))
  | completionWriteIssue k => exact execCompletionWriteIssue_sound h ht
  | completionWriteAccepted k => exact execCompletionWriteAccepted_sound h ht
  | completionWriteFault k => exact execCompletionWriteFault_sound h ht
  | abandonedWriteAnswer r => cases ht; exact h.of_same rfl rfl
  | messageWriteFault n => exact execMessageWriteFault_sound h ht
  | coalescingTimerExpiry k => exact execCoalescingTimerExpiry_sound h ht
  | waitExpiry i => exact execWaitExpiry_sound h ht
  | frameStart => exact execFrameStart_sound h ht
  | pcieConfigurationTurnOff a b l => exact execPcieConfigurationTurnOff_sound h ht
  | linkUp => cases ht; exact h.of_same rfl rfl
  | scanPixel x r => exact execScanPixel_sound h ht
  | abandonedFetchAnswer => cases ht; exact h
  | abandonedEngineAccessAnswer => cases ht; exact h

end Commands

/-- Settles O8, by what each command does to the surface table and to the engines' copies. -/
theorem surfacesStaySound : Obligations.SurfacesStaySound := fun _ _ sound h =>
  step_keeps (P := SurfacesSound) (fun _ _ _ _ surfaces engines sound => sound.of_same surfaces engines)
    (fun _ _ _ sound h => exec_surfacesSound sound h) sound h

end Sys2Proof.Machine
end

section
/-! PROOF. The state right after a cold reset, and what the three resets do (R178, R179). -/

namespace Sys2Proof.Machine

open Sys2Proof.Safety

/-! ## Right after a cold reset -/

theorem State.reset_queue (q : QueueId) : State.reset.queue q = none := by simp [State.queue, State.reset]

theorem State.reset_cq (k : CqId) : State.reset.cq k = none := by simp [State.cq, State.reset]

theorem State.reset_slot (i : SlotId) : State.reset.slot i = Slot.freed := by simp [State.slot, State.reset]

theorem State.reset_surface (i : SurfaceId) : State.reset.surface i = Surface.freed := by simp [State.surface, State.reset]

theorem State.reset_engine (e : EngineId) : State.reset.engine e = Engine.idled := by simp [State.engine, State.reset]

theorem State.reset_mark (m : MarkId) : State.reset.mark m = 0#32 := by simp [State.mark, State.reset]

theorem State.reset_pendingFlags (v : VectorId) : State.reset.link.pendingFlags[v] = false := by simp [State.reset]

/-- Settles O4, by the accessors of the reset state. -/
theorem resetValues : Obligations.ResetValues :=
  ⟨rfl, State.reset_queue, State.reset_cq, rfl, rfl, fun i => congrArg Slot.state (State.reset_slot i), rfl, rfl, rfl, rfl,
    State.reset_pendingFlags, State.reset_surface, fun _ _ => rfl, State.reset_engine, State.reset_mark, rfl, rfl, rfl, rfl, rfl, rfl,
    rfl, rfl, rfl, rfl, rfl, rfl⟩

/-- Settles O5: at reset the stores are empty, every surface is FREE, no queue is configured and every engine is IDLE. -/
theorem lawsHoldAtReset : Obligations.LawsHoldAtReset := by
  have unclaimed (i : SurfaceId) (e : Nat × Nat) : ¬Claims State.reset i e := fun h => h.1 (by rw [State.reset_surface]; rfl)
  refine ⟨⟨Memory.wf_nil, .nil, nofun⟩, ⟨fun i e h => absurd h (unclaimed i e), fun i _ e _ _ h => absurd h (unclaimed i e)⟩,
    ⟨fun i d h => ?_, fun e j h => ?_⟩, fun k c h => ?_, fun h => nomatch h.1⟩
  · rw [State.reset_surface] at h; cases h
  · rw [State.reset_engine] at h; cases h
  · rw [State.reset_cq] at h; cases h

/-! ## Frame memory at a reset -/

/-- The visit of some pixels of one engine's line leaves the other engine. -/
theorem State.drawOn_other (s : State) {d e : EngineId} (n : Nat) (ne : e ≠ d) : (s.drawOn e n).engine d = s.engine d := by
  unfold State.drawOn
  dsimp only
  split
  · split
    · rw [State.engine_setEngine, if_neg ne]
      rfl
    · rfl
  · rfl

/-- The visit of some pixels cuts the engine's line in hand (R106). -/
theorem State.drawOn_cutLine (s : State) (e : EngineId) (n : Nat) : CutLine s e s.frame (s.drawOn e n).frame := by
  unfold State.drawOn CutLine
  dsimp only
  cases (s.engine e).job with
  | none => exact ⟨0, rfl⟩
  | some j =>
    refine ⟨min n (j.lineWidth - j.drawn), ?_⟩
    dsimp only
    split <;> rfl

theorem cutLine_of_same {s t : State} {e : EngineId} {m m' : FrameMemory} (h : CutLine t e m m') (engine : t.engine e = s.engine e)
    (palettes : t.palettes = s.palettes) : CutLine s e m m' := by
  unfold CutLine at h ⊢
  rw [engine, palettes] at h
  exact h

/-- At a reset the drawing lines in hand are cut, that of RE0 and that of RE1 (R106). -/
theorem State.visitPixels_cut (s : State) : ∃ m, CutLine s .re0 s.frame m ∧ CutLine s .re1 m s.visitPixels.frame := by
  have first := s.drawOn_cutLine .re0 (Config.pixelsVisited s.choices)
  have second := (s.drawOn .re0 (Config.pixelsVisited s.choices)).drawOn_cutLine .re1 (Config.pixelsVisited (s.choices + 1))
  exact ⟨_, first, cutLine_of_same second (s.drawOn_other _ nofun) (by rw [State.drawOn_same])⟩

/-- An engine that is in no drawing line visits no pixel. -/
theorem State.drawOn_rest {s : State} {e : EngineId} (h : ∀ j, (s.engine e).job = some j → (s.engine e).state ≠ .idle →
    j.op.isDrawing = false) (n : Nat) : s.drawOn e n = s := by
  unfold State.drawOn
  dsimp only
  split
  · next j hj =>
    refine if_neg ?_
    rintro ⟨busy, drawing, _⟩
    exact Bool.false_ne_true ((h j hj busy).symm.trans drawing)
  · rfl

/-- Where no engine is in a drawing line, frame memory stays. -/
theorem State.visitPixels_rest {s : State} (h : ∀ e j, (s.engine e).job = some j → (s.engine e).state ≠ .idle → j.op.isDrawing = false) :
    s.visitPixels.frame = s.frame := by
  unfold State.visitPixels
  rw [State.drawOn_rest (h .re0), State.drawOn_rest (h .re1)]

/-! ## The resets -/

theorem LinkWrite.abandon_eq : LinkWrite.abandon = givenUp := by
  funext w
  cases w <;> rfl

/-- A reset's blocks, with whatever the link and cold resets clear beside them (R178, R179). -/
theorem State.resetBlocks_spec {s t : State}
    (control : t.control = { s.resetBlocks.control with
      setupLo := t.control.setupLo, setupHi := t.control.setupHi, timer := t.control.timer })
    (written : t.link.written = s.resetBlocks.link.written) (flags : t.link.pendingFlags = s.resetBlocks.link.pendingFlags)
    (rest : t = { s.resetBlocks with control := t.control, link := t.link, palettes := t.palettes }) : BlocksReset s t := by
  refine ⟨control, fun q => ?_, by rw [rest]; rfl, by rw [rest]; rfl, fun i => ?_, by rw [rest]; rfl, by rw [rest]; rfl, fun e => ?_,
    fun k => ?_, fun v => ?_, ?_, fun i => ?_, fun m => ?_, by rw [rest]; rfl, by rw [rest]; rfl⟩
  · rw [rest]; simp [State.queue, State.resetBlocks]
  · rw [rest]; simp [State.slot, State.resetBlocks]
  · rw [rest]; simp [State.engine, State.resetBlocks]
  · rw [rest]; simp [State.cq, State.resetBlocks]
  · rw [flags]; simp [State.resetBlocks]
  · rw [written, ← LinkWrite.abandon_eq]; rfl
  · rw [rest]; simp [State.surface, State.resetBlocks]
  · rw [rest]; simp [State.mark, State.resetBlocks]

/-- Settles O23, by the blocks that the three resets share. -/
theorem resetsClearBlocks : Obligations.ResetsClearBlocks := by
  intro s
  have kept (idle : ∀ e, (s.engine e).state = .idle) : s.visitPixels.frame = s.frame :=
    State.visitPixels_rest fun e _ _ busy => absurd (idle e) busy
  have cut := s.visitPixels_cut
  refine ⟨fun up => ⟨s.resetBlocks, ?_, State.resetBlocks_spec rfl rfl rfl rfl, rfl, rfl, rfl, rfl, up, rfl, rfl, rfl, kept, cut⟩,
    ⟨_, rfl, State.resetBlocks_spec rfl rfl rfl rfl, rfl, rfl, rfl, rfl, rfl, rfl, rfl, kept, cut⟩,
    ⟨_, rfl, State.resetBlocks_spec rfl rfl rfl rfl, rfl, rfl, rfl, fun _ _ => rfl, rfl, rfl, rfl, kept, cut⟩⟩
  show Host.Outcome.next (s.whileUp s.resetBlocks) = _
  rw [State.whileUp, if_pos up]

end Sys2Proof.Machine
end

section
/-! PROOF. No command is refused, and a command stops only where it would touch a byte of frame memory that does not exist (R1). -/

namespace Sys2Proof.Machine

open Sys2Proof.Safety

theorem SurfaceFields.missesByte {d : SurfaceFields} {x p : Nat} (h : d.pixelExists x p = false) : MissesByte d x p := by
  unfold SurfaceFields.pixelExists at h
  exact Nat.lt_of_not_le (of_decide_eq_false h)

/-! ## Dispatch -/

/-- What the dispatch arbiter has done so far: the surface table stands, and a slot that is still READY is as it was. -/
structure Dispatched (s t : State) : Prop where
  surfaces : t.surfaces = s.surfaces
  ready : ∀ i, (t.slot i).state = .ready → t.slot i = s.slot i

theorem State.dispatchTo_dispatched {s t u : State} {e : EngineId} (h : Dispatched s t) (hu : t.dispatchTo e = some u) :
    Dispatched s u := by
  unfold State.dispatchTo at hu
  split at hu
  · cases hu; exact h
  · next i _ =>
    split at hu
    · cases hu; exact h
    · split at hu <;> cases hu
      refine ⟨h.surfaces, fun k hk => ?_⟩
      have slot (sl : Slot) (g : Engine) : ((t.setSlot i sl).setEngine e g).slot k = if i = k then sl else t.slot k :=
        State.slot_setSlot t i k sl
      unfold State.giveTo at hk ⊢
      rw [slot] at hk ⊢
      split at hk
      · cases hk
      · next ne =>
        rw [if_neg ne]
        exact h.ready k hk

/-- The arbiter stops only at a PATTERN whose region has a byte that does not exist (R95). -/
theorem State.dispatchTo_stops {s t : State} {e : EngineId} (h : Dispatched s t) (hn : t.dispatchTo e = none) :
    TouchesMissingByte s .dispatch := by
  unfold State.dispatchTo at hn
  split at hn
  · cases hn
  · next i hi =>
    split at hn
    · cases hn
    · next op hop =>
      split at hn
      · cases hn
      · next missing =>
        have ready := List.find?_some hi
        have state : (t.slot i).state = .ready := (Slot.readyForEngine_iff.1 ready).1
        have same := h.ready i state
        unfold Job.latchExists at missing
        split at missing
        · next src x y phaseX phaseY dst rect rop key clip a isPattern fields =>
          cases (show op = _ from isPattern)
          have fields : (s.surface src).fields = some a := by
            rw [State.surface, ← h.surfaces]
            exact fields
          simp only [patternExists, SurfaceFields.rowExists, List.all_eq_true, List.mem_range, not_forall, Bool.not_eq_true] at missing
          obtain ⟨r, hr, hm⟩ := missing
          exact ⟨i, src, x, y, phaseX, phaseY, dst, rect, rop, key, clip, a, r, same ▸ state, same ▸ hop, fields, hr,
            SurfaceFields.missesByte hm⟩
        · exact absurd rfl missing

theorem State.dispatchAll_stops {s t : State} {l : List EngineId} (h : Dispatched s t) (hn : t.dispatchAll l = none) :
    TouchesMissingByte s .dispatch := by
  induction l generalizing t with
  | nil => cases hn
  | cons e rest ih =>
    unfold State.dispatchAll at hn
    split at hn
    · next u hu => exact ih (State.dispatchTo_dispatched h hu) hn
    · next stops => exact State.dispatchTo_stops h stops

/-- A command runs, or stops at a byte that does not exist. -/
def RunsOrMisses (c : Instr) (s : State) : Prop := Runs c s ∨ (exec c s = .fault .noSuchFrameByte ∧ TouchesMissingByte s c)

theorem dispatch_runs (s : State) : RunsOrMisses .dispatch s := by
  unfold RunsOrMisses Runs
  show (∃ t, execDispatch s = .next t) ∨ (execDispatch s = _ ∧ _)
  unfold execDispatch
  split
  · split
    · exact .inl ⟨_, rfl⟩
    · next stops => exact .inr ⟨rfl, State.dispatchAll_stops ⟨rfl, fun _ _ => rfl⟩ stops⟩
  · exact .inl ⟨_, rfl⟩

/-! ## Lines -/

/-- A drawing line that touches a byte that does not exist does so in its destination row or in its source row. -/
theorem Job.lineExists_false {j : Job} {k : Nat} (h : j.lineExists k = false) : ∃ r d, j.op.rect = some r ∧
    (j.dst = some d ∧ MissesByte d (r.x + r.w - 1) (d.physicalRow (j.plan.row r k)) ∨
     j.src = some d ∧ ∃ x y, ((∃ i k rop key clip, j.op = .copy i x y k r rop key clip) ∨
        ∃ i k fore back rop clip, j.op = .expand i x y k r fore back rop clip) ∧
      MissesByte d (x + r.w - 1) (d.physicalRow (y + (j.plan.row r k - r.y)))) := by
  unfold Job.lineExists at h
  split at h
  · next r d hr hd =>
    dsimp only at h
    rw [Bool.and_eq_false_iff] at h
    rcases h with h | h
    · exact ⟨r, d, hr, .inl ⟨hd, SurfaceFields.missesByte h⟩⟩
    · split at h
      · next i x y n rect rop key clip a hop ha =>
        rw [hop] at hr
        cases hr
        exact ⟨_, a, by rw [hop]; rfl, .inr ⟨ha, x, y, .inl ⟨i, n, rop, key, clip, hop⟩, SurfaceFields.missesByte h⟩⟩
      · next i x y n rect fore back rop clip a hop ha =>
        rw [hop] at hr
        cases hr
        exact ⟨_, a, by rw [hop]; rfl, .inr ⟨ha, x, y, .inr ⟨i, n, fore, back, rop, clip, hop⟩, SurfaceFields.missesByte h⟩⟩
      · cases h
  · cases h

theorem lineComplete_runs (e : EngineId) (s : State) : RunsOrMisses (.lineComplete e) s := by
  unfold RunsOrMisses Runs
  show (∃ t, execLineComplete e s = .next t) ∨ (execLineComplete e s = _ ∧ _)
  unfold execLineComplete
  dsimp only
  split
  · exact .inl ⟨_, rfl⟩
  · next j hj =>
    split
    · split
      · exact .inl ⟨_, rfl⟩
      · next missing =>
        simp only [Bool.or_eq_true, not_or, Bool.not_eq_true, Bool.not_eq_true', Bool.not_eq_false] at missing
        obtain ⟨r, d, hr, hd⟩ := Job.lineExists_false missing.1
        exact .inr ⟨rfl, j, r, d, hj, missing.2, hr, hd⟩
    · exact .inl ⟨_, rfl⟩

/-! ## Transfers -/

/-- The host pixels of a transfer line that lie at a byte that does not exist: one of an IMPORT's or of an EXPORT's. -/
theorem Job.pixelsExist_false {j : Job} {line first n : Nat} (h : j.pixelsExist line first n = false) : ∃ k, k < n ∧
    ((∃ host p id rect key clip d, j.op = .importPixels host p id rect key clip ∧ j.dst = some d ∧
        MissesByte d (placeOf host.orientation rect line (first + k)).1 (d.physicalRow (placeOf host.orientation rect line (first + k)).2)) ∨
     ∃ id rect host d, j.op = .exportPixels id rect host ∧ j.src = some d ∧
        MissesByte d (placeOf host.orientation rect line (first + k)).1 (d.physicalRow (placeOf host.orientation rect line (first + k)).2)) := by
  unfold Job.pixelsExist at h
  split at h
  · next host p id rect key clip hop =>
    split at h
    · next d hd =>
      simp only [List.all_eq_false, List.mem_range, Bool.not_eq_true] at h
      obtain ⟨k, hk, hm⟩ := h
      rw [← placeOf_eq] at hm
      exact ⟨k, hk, .inl ⟨host, p, id, rect, key, clip, d, hop, hd, SurfaceFields.missesByte hm⟩⟩
    · cases h
  · next id rect host hop =>
    split at h
    · next d hd =>
      simp only [List.all_eq_false, List.mem_range, Bool.not_eq_true] at h
      obtain ⟨k, hk, hm⟩ := h
      rw [← placeOf_eq] at hm
      exact ⟨k, hk, .inr ⟨id, rect, host, d, hop, hd, SurfaceFields.missesByte hm⟩⟩
    · cases h
  · cases h

/-- The pixel of a host byte address is that of the read which is outstanding (R112). -/
theorem Job.pixelAt_some {j : Job} {bytes address pixel : Nat} (h : j.pixelAt bytes address = some pixel) :
    ∃ r, j.read = some r ∧ pixel = (address - r.address) / bytes := by
  unfold Job.pixelAt at h
  split at h
  · next r hr =>
    split at h <;> cases h
    exact ⟨r, hr, rfl⟩
  · cases h

theorem hostReadData_runs (e : EngineId) (a : BitVec 64) (data : List Byte) (s : State) : RunsOrMisses (.hostReadData e a data) s := by
  unfold RunsOrMisses Runs
  show (∃ t, execHostReadData e a data s = .next t) ∨ (execHostReadData e a data s = _ ∧ _)
  unfold execHostReadData
  split
  · exact .inl ⟨_, rfl⟩
  · next j hj =>
    have job := State.workingJob_job hj
    split
    · next hop =>
      split
      · exact .inl ⟨_, rfl⟩
      · next pixel hp =>
        obtain ⟨r, hr, place⟩ := Job.pixelAt_some hp
        split
        · split
          · exact .inl ⟨_, rfl⟩
          · next missing =>
            obtain ⟨k, hk, ⟨host, p, id, rect, key, clip, d, hop', hd, hm⟩ | ⟨_, _, _, _, hop', _⟩⟩ :=
              Job.pixelsExist_false (Bool.eq_false_iff.2 missing)
            · cases hop.symm.trans hop'
              exact .inr ⟨rfl, j, _, _, _, _, _, _, d, r, k, _, job, hop, hd, hr, hk, rfl, place ▸ hm⟩
            · cases hop.symm.trans hop'
        · exact .inl ⟨_, rfl⟩
    · split
      · exact .inl ⟨_, rfl⟩
      · split <;> exact .inl ⟨_, rfl⟩
    · exact .inl ⟨_, rfl⟩

theorem exportWriteAccepted_runs (e : EngineId) (n : Nat) (s : State) : RunsOrMisses (.exportWriteAccepted e n) s := by
  unfold RunsOrMisses Runs
  show (∃ t, execExportWriteAccepted e n s = .next t) ∨ (execExportWriteAccepted e n s = _ ∧ _)
  unfold execExportWriteAccepted
  split
  · exact .inl ⟨_, rfl⟩
  · next j hj =>
    have job := State.workingJob_job hj
    split
    · next hop =>
      split
      · split
        · exact .inl ⟨_, rfl⟩
        · next missing =>
          obtain ⟨k, hk, ⟨_, _, _, _, _, _, _, hop', _⟩ | ⟨id, rect, host, d, hop', hd, hm⟩⟩ :=
            Job.pixelsExist_false (Bool.eq_false_iff.2 missing)
          · cases hop.symm.trans hop'
          · exact .inr ⟨rfl, j, id, rect, host, d, k, _, job, hop', hd, hk, rfl, hm⟩
      · exact .inl ⟨_, rfl⟩
    · exact .inl ⟨_, rfl⟩

/-! ## The scan -/

theorem State.scanExists_false {s : State} {x r : Nat} (h : s.scanExists x r = false) : TouchesMissingByte s (.scanPixel x r) := by
  unfold State.scanExists State.scannedSurface at h
  split at h
  · cases h
  · next d hd =>
    split at hd
    · next shows =>
      obtain ⟨id, shown, fields⟩ := Option.bind_eq_some_iff.1 hd
      exact ⟨id, d, (Bool.and_eq_true _ _ ▸ shows).1, shown, fields, SurfaceFields.missesByte h⟩
    · cases hd

theorem scanPixel_runs (x r : Nat) (s : State) : RunsOrMisses (.scanPixel x r) s := by
  unfold RunsOrMisses Runs
  show (∃ t, execScanPixel x r s = .next t) ∨ (execScanPixel x r s = _ ∧ _)
  unfold execScanPixel
  split
  · exact .inl ⟨_, rfl⟩
  · split
    · split
      · exact .inl ⟨_, rfl⟩
      · next missing => exact .inr ⟨rfl, State.scanExists_false (Bool.eq_false_iff.2 missing)⟩
    · exact .inl ⟨_, rfl⟩

/-! ## Every command -/

/-- A command that reads and writes no pixel never stops. -/
theorem runs_of_noPixel {c : Instr} (noPixel : c ≠ .dispatch ∧ (∀ e, c ≠ .lineComplete e) ∧ (∀ e a d, c ≠ .hostReadData e a d) ∧
    (∀ e n, c ≠ .exportWriteAccepted e n) ∧ ∀ x r, c ≠ .scanPixel x r) (s : State) : Runs c s := by
  obtain ⟨noDispatch, noLine, noData, noWrite, noScan⟩ := noPixel
  unfold Runs
  cases c with
  | dispatch => exact absurd rfl noDispatch
  | lineComplete e => exact absurd rfl (noLine e)
  | hostReadData e a d => exact absurd rfl (noData e a d)
  | exportWriteAccepted e n => exact absurd rfl (noWrite e n)
  | scanPixel x r => exact absurd rfl (noScan x r)
  | submit | consume | resume | abort | enable | disable | functionReset | statusClear | setupAddressWrite | registerWrite | coldReset
  | linkReset | abandonedReadAnswer | abandonedWriteAnswer | linkUp | abandonedFetchAnswer | abandonedEngineAccessAnswer =>
    exact ⟨_, rfl⟩
  | _ =>
    simp only [exec, execPendingMessageSend, execSetupReadArrival, execSetupReadFault, execFetchStart, execRecordArrival, execFetchFault,
      execOvertakenFetchEnd, execAbortAckPlace, execImportReadFault, execExportWriteFault, execLoadpalReadFault, execCompletionWriteIssue,
      execCompletionWriteAccepted, execCompletionWriteFault, execMessageWriteFault, execCoalescingTimerExpiry, execWaitExpiry,
      execFrameStart, execPcieConfigurationTurnOff]
    repeat' split
    all_goals exact ⟨_, rfl⟩

/-- Settles O3, by the five commands that read or write a pixel. -/
theorem onlyMissingBytesFault : Obligations.OnlyMissingBytesFault := by
  intro c s
  cases c with
  | dispatch => exact dispatch_runs s
  | lineComplete e => exact lineComplete_runs e s
  | hostReadData e a d => exact hostReadData_runs e a d s
  | exportWriteAccepted e n => exact exportWriteAccepted_runs e n s
  | scanPixel x r => exact scanPixel_runs x r s
  | _ =>
    show RunsOrMisses _ s
    exact .inl (runs_of_noPixel (by simp) s)

end Sys2Proof.Machine
end

section
/-! PROOF. The band mapping, and where in frame memory a pixel lies (R12, R5). -/

namespace Sys2Proof.Machine

open Sys2Proof.Safety

theorem Band.physicalRow_of_mem {b : Band} {o r : Nat} (h : b.top ≤ r) (h' : r < b.top + b.rows) :
    b.physicalRow o r = b.top + (r - b.top + o) % b.rows := if_pos ⟨h, h'⟩

theorem Band.physicalRow_of_not_mem {b : Band} {o r : Nat} (h : r < b.top ∨ b.top + b.rows ≤ r) : b.physicalRow o r = r :=
  if_neg (by omega)

/-- Turning a band of n rows back by an origin: n less the origin's rest, added first, undoes adding the origin. -/
theorem turnBack_mod {n k : Nat} (o : Nat) (h : k < n) : ((k + (n - o % n)) % n + o) % n = k := by
  have rest : o % n < n := Nat.mod_lt o (Nat.zero_lt_of_lt h)
  calc ((k + (n - o % n)) % n + o) % n = (k + (n - o % n) + o % n) % n := by rw [Nat.mod_add_mod, Nat.add_mod_mod]
    _ = (k + n) % n := by rw [Nat.add_assoc, Nat.sub_add_cancel rest.le]
    _ = k := by rw [Nat.add_mod_right, Nat.mod_eq_of_lt h]

/-- Every row is the physical row of a logical row (R12). -/
theorem Band.physicalRow_surj (b : Band) (o r : Nat) : ∃ r', b.physicalRow o r' = r := by
  by_cases h : b.top ≤ r ∧ r < b.top + b.rows
  · have back := turnBack_mod (n := b.rows) (k := r - b.top) o (by omega)
    have rows : 0 < b.rows := by omega
    have inside := Nat.mod_lt (r - b.top + (b.rows - o % b.rows)) rows
    refine ⟨b.top + (r - b.top + (b.rows - o % b.rows)) % b.rows, ?_⟩
    rw [Band.physicalRow_of_mem (by omega) (by omega), Nat.add_sub_cancel_left, back]
    omega
  · exact ⟨r, Band.physicalRow_of_not_mem (by omega)⟩

/-- The band mapping of the spec, as the obligation says it. -/
theorem Band.physicalRow_oneToOne (b : Band) (o r : Nat) (rows : 0 < b.rows) :
    (b.top ≤ r → r < b.top + b.rows → b.physicalRow o r = b.top + (r - b.top + o) % b.rows ∧
      b.top ≤ b.physicalRow o r ∧ b.physicalRow o r < b.top + b.rows) ∧
    (r < b.top ∨ b.top + b.rows ≤ r → b.physicalRow o r = r) ∧
    (∀ r', b.physicalRow o r = b.physicalRow o r' → r = r') ∧ ∃ r', b.physicalRow o r' = r := by
  refine ⟨fun h h' => ?_, Band.physicalRow_of_not_mem, fun r' => b.physicalRow_inj o rows, b.physicalRow_surj o r⟩
  have turned := Band.physicalRow_of_mem (o := o) h h'
  have inside := Nat.mod_lt (r - b.top + o) rows
  exact ⟨turned, by omega, by omega⟩

/-! ## Places -/

/-- The first byte of a pixel that is not an M1 bit. -/
theorem SurfaceFields.pixelByte_bytes {d : SurfaceFields} (hf : d.format ≠ .m1) (x p : Nat) :
    d.pixelByte x p = d.base + p * d.stride + x * d.format.bytes := by
  rw [d.pixelByte_eq, SurfaceFields.column]
  split
  · exact absurd ‹_› hf
  · rfl

theorem SurfaceFields.pixelByte_bit {d : SurfaceFields} (hf : d.format = .m1) (x p : Nat) :
    d.pixelByte x p = d.base + p * d.stride + x / 8 := by
  rw [d.pixelByte_eq, SurfaceFields.column, hf]

/-- The bytes that a pixel write leaves: those of the value from the pixel's place on, and every other as it was. -/
theorem read_writePixel_bytes {m : FrameMemory} (h : Memory.wf m) {d : SurfaceFields} (hf : d.format ≠ .m1) (x y : Nat)
    (v : BitVec 32) (hle : d.pixelByte x (d.physicalRow y) + d.format.bytes ≤ Config.frameBytes) (a : Nat) :
    Memory.read (writePixel m d x y v) a =
      if d.pixelByte x (d.physicalRow y) ≤ a ∧ a < d.pixelByte x (d.physicalRow y) + d.format.bytes
      then (d.format.encode v).getD (a - d.pixelByte x (d.physicalRow y)) 0#8 else Memory.read m a := by
  rw [writePixel_bytes hf]
  generalize d.pixelByte x (d.physicalRow y) = p at *
  have length := Format.encode_length d.format v
  split
  · next inside =>
    have written := Memory.read_writeBytes_at h (d.format.encode v) (a := p) (by omega) (a - p) (by omega)
    rwa [Nat.add_sub_cancel' inside.1] at written
  · exact Memory.read_writeBytes_other m _ (by omega)

/-- A surface maps a row by its own band and origin. -/
theorem SurfaceFields.physicalRow_band (d : SurfaceFields) (y : Nat) :
    d.physicalRow y = (match d.band with | some b => b.physicalRow b.origin y | none => y) := by
  unfold SurfaceFields.physicalRow
  cases d.band <;> rfl

/-- The one bit that an M1 pixel write leaves. -/
theorem read_writePixel_bit {m : FrameMemory} (h : Memory.wf m) {d : SurfaceFields} (hf : d.format = .m1) (x y : Nat)
    (v : BitVec 32) (hlt : d.pixelByte x (d.physicalRow y) < Config.frameBytes) (a b : Nat) :
    (Memory.read (writePixel m d x y v) a).getLsbD b =
      if a = d.pixelByte x (d.physicalRow y) ∧ b = m1Bit x then v.getLsbD 0 else (Memory.read m a).getLsbD b := by
  rw [writePixel_bit hf]
  by_cases byte : a = d.pixelByte x (d.physicalRow y)
  · subst byte
    rw [Memory.read_write_self h hlt]
    by_cases bit : b = m1Bit x
    · rw [if_pos ⟨rfl, bit⟩, bit, setM1_same _ (m1Bit_lt x)]
    · rw [if_neg fun both => bit both.2]
      by_cases inside : b < 8
      · exact setM1_other _ (m1Bit_lt x) inside bit v
      · rw [BitVec.getLsbD_of_ge _ _ (by omega), BitVec.getLsbD_of_ge _ _ (by omega)]
  · rw [if_neg fun both => byte both.1, Memory.read_write_other m _ byte]

/-- Settles O60, by the band's rows and by what a pixel write leaves of each byte and bit. -/
theorem bandMapsRowsOneToOne : Obligations.BandMapsRowsOneToOne := by
  refine ⟨fun b o r => b.physicalRow_oneToOne o r, fun d m x y row place =>
    ⟨d.physicalRow_band y, fun hf => ?_, fun hf => ?_, fun v h => ⟨fun hf => ?_, fun hf => ?_⟩⟩⟩
  · rw [valueOf_eq, place, ← d.pixelByte_bytes hf, readPixel, readPhysical_bytes hf]
  · rw [place, ← d.pixelByte_bit hf, readPixel, readPhysical_bit hf, m1Bit]
  · rw [Nat.succ_mul, ← Nat.add_assoc, bytesOf_eq, place, ← d.pixelByte_bytes hf]
    exact fun inside => read_writePixel_bytes h hf x y v inside
  · rw [place, ← d.pixelByte_bit hf]
    exact fun inside => read_writePixel_bit h hf x y v inside

end Sys2Proof.Machine
end

section
/-! PROOF. Which bytes of frame memory a line in hand writes (R1, R89, R90, R108). -/

namespace Sys2Proof.Machine

open Sys2Proof.Safety

theorem Format.touched_eq {f : Format} (hf : f ≠ .m1) : f.touched = f.bytes := by
  cases f with
  | m1 => exact absurd rfl hf
  | i8 | p16 | p32 => rfl

/-- The bytes that a pixel's write may touch are those that hold it. -/
theorem holdsPixel_of_touched {d : SurfaceFields} {x y a : Nat} (low : d.pixelByte x (d.physicalRow y) ≤ a)
    (high : a < d.pixelByte x (d.physicalRow y) + d.format.touched) : HoldsPixel d x y a := by
  unfold HoldsPixel
  dsimp only
  by_cases hf : d.format = .m1
  · have one : d.format.touched = 1 := by rw [hf]; rfl
    have place := d.pixelByte_bit hf x (d.physicalRow y)
    rw [if_pos hf]
    omega
  · have bytes := Format.touched_eq hf
    have place := d.pixelByte_bytes hf x (d.physicalRow y)
    rw [if_neg hf, Nat.succ_mul]
    omega

/-- A drawn pixel leaves every byte, where it is clipped, and every byte that does not hold it, where it is not (R90, R91). -/
theorem Job.read_drawPixel (j : Job) (palettes : List (Nat × BitVec 24)) {d : SurfaceFields} (m : FrameMemory) {x y a : Nat}
    (h : HoldsPixel d x y a → outside j.op.clip x y = true) :
    Memory.read (j.drawPixel palettes d y m x) a = Memory.read m a := by
  unfold Job.drawPixel
  split
  · rfl
  · next v operand =>
    refine read_writePixel_other m d x y _ ?_
    by_contra touched
    have clipped := h (holdsPixel_of_touched (by omega) (by omega))
    rw [outside_eq] at clipped
    rw [Job.operand, if_pos clipped] at operand
    cases operand

/-- The plan's k-th pixel is inside the rectangle, at place k (R98, R99). -/
theorem Plan.columns_getElem {p : Plan} {r : Rect} {k x : Nat} (h : (p.columns r)[k]? = some x) :
    r.x ≤ x ∧ x < r.x + r.w ∧ visitPlace p r x = k := by
  unfold Plan.columns at h
  unfold visitPlace
  split at h
  · next left =>
    rw [if_pos left]
    obtain ⟨lt, at_k⟩ := List.getElem?_eq_some_iff.1 h
    simp only [List.length_reverse, List.length_map, List.length_range] at lt
    simp only [List.getElem_reverse, List.getElem_map, List.getElem_range, List.length_map, List.length_range] at at_k
    omega
  · next right =>
    rw [if_neg right]
    obtain ⟨lt, at_k⟩ := List.getElem?_eq_some_iff.1 h
    simp only [List.length_map, List.length_range] at lt
    simp only [List.getElem_map, List.getElem_range] at at_k
    omega

/-- The pixels that a line visits from the start-th on are inside the rectangle, and at no earlier place. -/
theorem Plan.mem_columns_drop {p : Plan} {r : Rect} {start count x : Nat} (h : x ∈ ((p.columns r).drop start).take count) :
    r.x ≤ x ∧ x < r.x + r.w ∧ start ≤ visitPlace p r x := by
  obtain ⟨k, at_k⟩ := List.mem_iff_getElem?.1 (List.mem_of_mem_take h)
  rw [List.getElem?_drop] at at_k
  obtain ⟨low, high, place⟩ := Plan.columns_getElem at_k
  exact ⟨low, high, by omega⟩

/-- Byte a holds nothing that line k of a job has yet to write: each of its pixels that lies in the byte is clipped or visited. -/
def Job.PassesOver (j : Job) (k a : Nat) : Prop :=
  ∀ r d x, j.op.rect = some r → j.dst = some d → r.x ≤ x → x < r.x + r.w → HoldsPixel d x (j.plan.row r k) a →
    outside j.op.clip x (j.plan.row r k) = true ∨ visitPlace j.plan r x < j.drawn

/-- Whatever number of its next pixels a line visits, it leaves the bytes that hold none of them. -/
theorem Job.read_drawSome {j : Job} (palettes : List (Nat × BitVec 24)) (m : FrameMemory) {k a : Nat} (h : j.PassesOver k a)
    (count : Nat) : Memory.read (j.drawSome palettes m k j.drawn count) a = Memory.read m a := by
  unfold Job.drawSome
  split
  · next r d hr hd =>
    have each : ∀ x ∈ ((j.plan.columns r).drop j.drawn).take count, ∀ m,
        Memory.read (j.drawPixel palettes d (j.plan.row r k) m x) a = Memory.read m a := by
      intro x hx m
      obtain ⟨low, high, place⟩ := Plan.mem_columns_drop hx
      refine j.read_drawPixel palettes m fun holds => ?_
      exact (h r d x hr hd low high holds).resolve_right (by omega)
    generalize ((j.plan.columns r).drop j.drawn).take count = pixels at each
    induction pixels generalizing m with
    | nil => rfl
    | cons x rest ih =>
      rw [List.foldl_cons, ih _ fun y hy => each y (List.mem_cons_of_mem x hy)]
      exact each x List.mem_cons_self m
  · rfl

/-- An engine's visit of more pixels leaves the bytes that hold none of its drawing line in hand. -/
theorem State.read_drawOn {s : State} {e : EngineId} {a : Nat} (h : ∀ j, (s.engine e).job = some j → (s.engine e).state ≠ .idle →
    j.op.isDrawing = true → j.PassesOver (s.engine e).line a) (n : Nat) :
    Memory.read (s.drawOn e n).frame a = Memory.read s.frame a := by
  unfold State.drawOn
  dsimp only
  split
  · next j hj =>
    split
    · next busy => exact Job.read_drawSome s.palettes s.frame (h j hj busy.1 busy.2.1) _
    · rfl
  · rfl

/-- So does the visit of both engines. -/
theorem State.read_visitPixels {s : State} {a : Nat} (h : ∀ e j, (s.engine e).job = some j → (s.engine e).state ≠ .idle →
    j.op.isDrawing = true → j.PassesOver (s.engine e).line a) : Memory.read s.visitPixels.frame a = Memory.read s.frame a := by
  have first := State.read_drawOn (h .re0) (Config.pixelsVisited s.choices)
  have same := s.drawOn_other (d := .re1) (e := .re0) (Config.pixelsVisited s.choices) nofun
  have second := State.read_drawOn (s := s.drawOn .re0 (Config.pixelsVisited s.choices)) (e := .re1) (a := a) (by
    rw [same]
    exact h .re1) (Config.pixelsVisited (s.choices + 1))
  exact second.trans first

/-- A completed line leaves the bytes that hold none of its pixels. -/
theorem State.read_completeLine {s : State} {e : EngineId} {j : Job} {a : Nat} (h : j.PassesOver (s.engine e).line a) :
    Memory.read (s.completeLine e j).frame a = Memory.read s.frame a := by
  rw [(s.completeLine_keeps e j).frame]
  show Memory.read (s.lineMemory j (s.engine e).line) a = _
  unfold State.lineMemory
  split
  · exact Job.read_drawSome s.palettes s.frame h _
  · rfl

/-- A transfer's line was written as its data came. -/
theorem State.completeLine_frame {s : State} {e : EngineId} {j : Job} (h : j.op.isDrawing = false) :
    (s.completeLine e j).frame = s.frame := by
  rw [(s.completeLine_keeps e j).frame]
  show s.lineMemory j (s.engine e).line = _
  rw [State.lineMemory, h]
  rfl

/-- A pixel of the scan finds frame memory as it is, or as the engines have left it by now. -/
theorem execScanPixel_frame {s t : State} {x r : Nat} (h : execScanPixel x r s = .next t) :
    t.frame = s.frame ∨ t.frame = s.visitPixels.frame := by
  unfold execScanPixel at h
  split at h
  · cases h; exact .inl rfl
  · split at h
    · split at h
      · rw [← Host.Outcome.next.inj h]; exact .inr rfl
      · cases h
    · cases h; exact .inl rfl

/-- Settles O47, by what the next pixels of a line in hand leave of each byte. -/
theorem lineWritesOnlyItsPixels : Obligations.LineWritesOnlyItsPixels := by
  refine ⟨fun s t e j hj ht => ?_, fun s t col row ht => ?_⟩
  · rcases execLineComplete_cases ht with rfl | ⟨i, hi, rfl⟩
    · exact ⟨fun _ => rfl, fun _ _ _ _ _ _ => rfl⟩
    · cases hj.symm.trans hi
      refine ⟨State.completeLine_frame, fun r d hr hd a passed => State.read_completeLine fun r' d' x hr' hd' => ?_⟩
      cases hr.symm.trans hr'
      cases hd.symm.trans hd'
      exact passed x
  · rcases execScanPixel_frame ht with same | visited
    · rw [same]
      exact ⟨fun _ => rfl, fun _ _ => rfl⟩
    · rw [visited]
      exact ⟨State.visitPixels_rest, fun a passed => State.read_visitPixels fun e j hj busy drawing r d x => passed e j r d x hj busy drawing⟩

end Sys2Proof.Machine
end

section
/-! PROOF. What the slot of an admitted operation holds (R64 to R70), and the state once the slot is placed. -/

namespace Sys2Proof.Machine

open Sys2Proof.Safety

/-- The state after an arrival whose slot holds sl: the head has advanced, the fetch path is free, the sequence number is given and the
slot is the latest admitted (R49, R63). -/
def State.holding (s : State) (f : Fetch) (c : Queue) (sl : Slot) : State :=
  { (s.setSlot f.slot sl).setQueue f.queue (some { c with head := (c.head + 1) % c.size }) with
    fetch := none, sequence := s.sequence + 1#32, order := s.order ++ [f.slot] }

/-- Beside the slot, an admission has its effect on the surface table, and no other. -/
theorem State.admissionEffect_setSlot (s : State) (f : Fetch) (c : Queue) (r : OpRecord) (op : Op) (sl : Slot) :
    ((s.withArrival f c r).admissionEffect op).setSlot f.slot sl =
      { s.holding f c sl with surfaces := (s.admissionEffect op).surfaces } := by
  have effect : (s.withArrival f c r).admissionEffect op =
      { s.withArrival f c r with surfaces := (s.admissionEffect op).surfaces } := by cases op <;> rfl
  have slots : (s.slots.set f.slot (arrivedSlot f.queue s.sequence r)).set f.slot sl = s.slots.set f.slot sl := by simp
  rw [effect]
  show { s.holding f c sl with
    slots := (s.slots.set f.slot (arrivedSlot f.queue s.sequence r)).set f.slot sl, surfaces := (s.admissionEffect op).surfaces } = _
  rw [slots]
  rfl

/-- What an admission does to each surface (R8, R9, R14). -/
theorem State.admissionEffect_surface (s : State) (op : Op) (i : SurfaceId) : (s.admissionEffect op).surface i = match op with
    | .define id d => if i = id then { state := .defined, fields := some d, shown := false, presentRefs := 0 } else s.surface i
    | .retire id => if i = id then { s.surface i with state := .retiring } else s.surface i
    | .present id => if i = id then { s.surface i with presentRefs := (s.surface i).presentRefs + 1 } else s.surface i
    | _ => s.surface i := by
  cases op with
  | define id d =>
    refine (s.surface_setSurface id i _).trans ?_
    simp only [eq_comm (a := id)]
  | retire id | present id =>
    refine (s.surface_modifySurface id i _).trans ?_
    by_cases same : id = i
    · subst same; simp
    · simp [same, Ne.symm same]
  | _ => rfl

/-! ## The slot -/

/-- What the slot of an admitted operation holds before its first state (steps 2 and 3 of R64). -/
def State.admitted (s : State) (f : Fetch) (c : Queue) (r : OpRecord) (op : Op) : Slot :=
  (s.withArrival f c r).admittedSlot (arrivedSlot f.queue s.sequence r) f.queue op

/-- The dependency set and ordered pending of an arrived operation. -/
def State.arrivedDeps (s : State) (f : Fetch) (c : Queue) (r : OpRecord) (op : Op) : List SlotId := (s.withArrival f c r).dependencies op

def State.arrivedPending (s : State) (f : Fetch) (c : Queue) (r : OpRecord) (op : Op) : Bool :=
  op.ordered (byteAt r 1) && (s.withArrival f c r).queueUnended f.queue

theorem State.admitted_eq (s : State) (f : Fetch) (c : Queue) (r : OpRecord) (op : Op) : s.admitted f c r op =
    { arrived s f r with
      state := .fetching, op := some op, reads := s.heldReads op, writes := op.heldWrites, deps := s.arrivedDeps f c r op,
      orderedPending := s.arrivedPending f c r op } := rfl

theorem State.withArrival_slot (s : State) (f : Fetch) (c : Queue) (r : OpRecord) (j : SlotId) :
    (s.withArrival f c r).slot j = if f.slot = j then arrivedSlot f.queue s.sequence r else s.slot j :=
  State.slot_setSlot _ _ _ _

/-- The slot of the arrival itself is not yet unended; every other slot is as it was. -/
theorem State.withArrival_unended {s : State} {f : Fetch} {c : Queue} {r : OpRecord} {j : SlotId}
    (h : ((s.withArrival f c r).slot j).unended = true) : j ≠ f.slot ∧ (s.withArrival f c r).slot j = s.slot j := by
  rw [State.withArrival_slot] at h ⊢
  split at h
  · cases h
  · next ne => exact ⟨Ne.symm ne, if_neg ne⟩

/-- The dependency set of an arrived operation: the other slots that conflict with it (R64, R68). -/
theorem State.mem_arrivedDeps (s : State) (f : Fetch) (c : Queue) (r : OpRecord) (op : Op) (j : SlotId) :
    j ∈ s.arrivedDeps f c r op ↔ j ≠ f.slot ∧ Conflicts s op j := by
  unfold State.arrivedDeps
  rw [State.mem_dependencies]
  unfold Conflicts
  constructor
  · rintro ⟨unended, meets⟩
    obtain ⟨ne, same⟩ := State.withArrival_unended unended
    rw [same] at unended meets
    exact ⟨ne, unended, meets⟩
  · rintro ⟨ne, conflicts⟩
    have same : (s.withArrival f c r).slot j = s.slot j := by rw [State.withArrival_slot, if_neg (Ne.symm ne)]
    rw [same]
    exact conflicts

theorem State.arrivedDeps_nodup (s : State) (f : Fetch) (c : Queue) (r : OpRecord) (op : Op) : (s.arrivedDeps f c r op).Nodup := by
  unfold State.arrivedDeps State.dependencies
  exact (List.nodup_finRange 32).filter _

theorem Op.ordered_iff (op : Op) (flags : BitVec 8) : op.ordered flags = true ↔
    flags.getLsbD 1 = true ∨ ∃ m v, op = .signal m v := by
  unfold Op.ordered flagOrdered
  cases op <;> simp

/-- Ordered pending of an arrived operation (R70). -/
theorem State.arrivedPending_iff (s : State) (f : Fetch) (c : Queue) (r : OpRecord) (op : Op) :
    s.arrivedPending f c r op = true ↔ MustWait s f.slot f.queue op (r.extractLsb' 8 8) := by
  unfold State.arrivedPending MustWait State.queueUnended
  rw [Bool.and_eq_true, Op.ordered_iff]
  refine and_congr_right fun _ => ?_
  simp only [List.any_eq_true, List.mem_finRange, true_and, Bool.and_eq_true, decide_eq_true_eq]
  constructor
  · rintro ⟨j, queue, unended⟩
    obtain ⟨ne, same⟩ := State.withArrival_unended unended
    rw [same] at queue unended
    exact ⟨j, ne, queue, unended⟩
  · rintro ⟨j, ne, queue, unended⟩
    have same : (s.withArrival f c r).slot j = s.slot j := by rw [State.withArrival_slot, if_neg (Ne.symm ne)]
    exact ⟨j, same ▸ queue, same ▸ unended⟩

/-- An arrived operation waits for nothing just when it is free to run (R64). -/
theorem State.arrived_free_iff (s : State) (f : Fetch) (c : Queue) (r : OpRecord) (op : Op) :
    ((s.arrivedDeps f c r op).isEmpty && !s.arrivedPending f c r op) = true ↔ FreeToRun s f.slot f.queue op (r.extractLsb' 8 8) := by
  unfold FreeToRun
  rw [← s.arrivedPending_iff f c r op, Bool.and_eq_true, List.isEmpty_iff, List.eq_nil_iff_forall_not_mem]
  simp only [State.mem_arrivedDeps, not_and, Bool.not_eq_true', Bool.not_eq_true]

/-! ## The first state -/

/-- An operation other than DEFINE and WAIT that waits for something is BLOCKED (step 4 of R64). -/
theorem State.firstState_blocked (s : State) (i : SlotId) (q : QueueId) {op : Op} {sl : Slot} (notDefine : ∀ id d, op ≠ .define id d)
    (notWait : ∀ m v n, op ≠ .wait m v n) (waits : (sl.deps.isEmpty && !sl.orderedPending) = false) :
    s.firstState i q op sl = s.setSlot i { sl with state := .blocked } := by
  unfold State.firstState
  split
  · exact absurd rfl (notDefine _ _)
  · exact absurd rfl (notWait _ _ _)
  · rw [waits]
    rfl

/-- Settles O42: what waits is not free to run, and its slot is BLOCKED with what it held at its arrival. -/
theorem conflictingOperationWaits : Obligations.ConflictingOperationWaits := by
  intro s f c r op arriving ok notDefine notWait waits
  have notFree : ((s.arrivedDeps f c r op).isEmpty && !s.arrivedPending f c r op) = false := by
    rw [Bool.eq_false_iff, Ne, State.arrived_free_iff]
    rintro ⟨apart, unordered⟩
    rcases waits with ⟨j, ne, conflicts⟩ | must
    · exact apart j ne conflicts
    · exact unordered must
  have blocked : s.afterArrival f c r = { s.holding f c { s.admitted f c r op with state := .blocked } with
      surfaces := (s.admissionEffect op).surfaces } := by
    rw [State.afterArrival_admitted ok, State.firstState_blocked _ _ _ notDefine notWait notFree, State.admissionEffect_setSlot]
    rfl
  refine ⟨s.afterArrival f c r, s.heldReads op, op.heldWrites, s.arrivedDeps f c r op, s.arrivedPending f c r op,
    goesTo_of_serve (exec_recordArrival r arriving), ?_, mem_heldReads s op, mem_heldWrites op, s.arrivedDeps_nodup f c r op,
    s.mem_arrivedDeps f c r op, s.arrivedPending_iff f c r op, fun i => ?_⟩
  · rw [blocked]
    rfl
  · rw [blocked]
    refine (s.admissionEffect_surface op i).trans ?_
    cases op with
    | define id d => exact absurd rfl (notDefine id d)
    | _ => rfl

end Sys2Proof.Machine
end

section
/-! PROOF. An operation that ends OK at its admission (R64, R75, R127). -/

namespace Sys2Proof.Machine

open Sys2Proof.Safety

/-! ## The end of the arrived slot -/

theorem mem_takeWhile_append {α : Type} {p : α → Bool} {l m : List α} {a : α} (h : a ∈ l.takeWhile p) : a ∈ (l ++ m).takeWhile p := by
  rw [List.takeWhile_append]
  split
  · exact List.mem_append_left _ ((List.takeWhile_prefix p).subset h)
  · exact h

/-- What holds a slot back is still there when the arrived slot joins the window. -/
theorem releasesNothing_of_window {s t : State} {i : SlotId} (h : ReleasesNothing s i) (slots : ∀ j, j ≠ i → t.slot j = s.slot j)
    (order : t.order = s.order ++ [i]) : ReleasesNothing t i := by
  intro j ne blocked
  rw [slots j ne] at blocked
  unfold HeldBack
  rw [slots j ne, order]
  rcases h j ne blocked with waiting | dep | ⟨pending, k, earlier, other, queue, unended⟩
  · exact .inl waiting
  · exact .inr (.inl dep)
  · refine .inr (.inr ⟨pending, k, mem_takeWhile_append earlier, other, ?_⟩)
    rw [slots k other]
    exact ⟨queue, unended⟩

/-- An OK ending releases no claim but a PRESENT's (step 3 of R79). -/
theorem State.releaseClaim_ok (s : State) {sl : Slot} (h : ∀ id, sl.op ≠ some (.present id)) : s.releaseClaim sl .ok = s := by
  unfold State.releaseClaim
  split
  · split
    · next id present => exact absurd present (h id)
    · rfl
    · rfl
  · rfl

/-- The arrived operation ends OK with the detail, in the step of its arrival, and the surfaces are then those given. -/
def EndsAtArrival (s : State) (f : Fetch) (c : Queue) (r : OpRecord) (op : Op) (detail : BitVec 32) (surfaces : SurfaceId → Surface) : Prop :=
  ∃ t, GoesTo (.recordArrival r) s t ∧ Advanced s t f.queue c ∧ Answered t f.slot { arrived s f r with op := some op } .ok detail ∧
    ((r.extractLsb' 8 8).getLsbD 0 = false → Posted s t f.queue f.slot) ∧ (∀ i, t.surface i = surfaces i) ∧
    t.marks = s.marks ∧ t.frame = s.frame ∧ t.palettes = s.palettes ∧ t.engines = s.engines

/-- The arrived slot's operation is about to end: beside the slot's state, only the surfaces and the open choices are not those of the
arrival. -/
structure AboutToEnd (s : State) (f : Fetch) (c : Queue) (r : OpRecord) (op : Op) (v : State) : Prop where
  held : ∃ state, v = { s.holding f c { s.admitted f c r op with state := state } with surfaces := v.surfaces, choices := v.choices }

namespace AboutToEnd

variable {s v : State} {f : Fetch} {c : Queue} {r : OpRecord} {op : Op}

theorem slot (h : AboutToEnd s f c r op v) (j : SlotId) :
    (j ≠ f.slot → v.slot j = s.slot j) ∧ ∃ state, v.slot f.slot = { s.admitted f c r op with state := state } := by
  obtain ⟨state, hv⟩ := h.held
  have slot (k : SlotId) : v.slot k = if f.slot = k then { s.admitted f c r op with state := state } else s.slot k := by
    rw [hv]
    exact s.slot_setSlot f.slot k _
  exact ⟨fun ne => by rw [slot, if_neg (Ne.symm ne)], state, by rw [slot, if_pos rfl]⟩

theorem releasesNothing (h : AboutToEnd s f c r op v) (nothing : ReleasesNothing s f.slot) : ReleasesNothing v f.slot := by
  refine releasesNothing_of_window nothing (fun j => (h.slot j).1) ?_
  obtain ⟨state, hv⟩ := h.held
  rw [hv]
  rfl

theorem queue (h : AboutToEnd s f c r op v) : v.queue f.queue = some { c with head := (c.head + 1) % c.size } := by
  obtain ⟨state, hv⟩ := h.held
  rw [hv]
  exact State.queue_setQueue_self _ _ _

/-- The fields that neither the arrival nor the surfaces concern. -/
theorem kept (h : AboutToEnd s f c r op v) : v.control = s.control ∧ v.cqs = s.cqs ∧ v.marks = s.marks ∧ v.frame = s.frame ∧
    v.palettes = s.palettes ∧ v.engines = s.engines ∧ v.sequence = s.sequence + 1#32 ∧ v.fetch = none := by
  obtain ⟨state, hv⟩ := h.held
  rw [hv]
  exact ⟨rfl, rfl, rfl, rfl, rfl, rfl, rfl, rfl⟩

/-- The OK ending of the arrived slot, where it releases nothing. -/
theorem ends (h : AboutToEnd s f c r op v) (arriving : Arriving s f c) (running : s.control.deviceState = .running)
    (nothing : ReleasesNothing s f.slot) (notPresent : ∀ id, op ≠ .present id) {detail : BitVec 32}
    (ending : s.afterArrival f c r = v.endSlots [{ slot := f.slot, status := .ok, detail := detail }])
    {surfaces : SurfaceId → Surface} (left : ∀ i, v.surface i = surfaces i) : EndsAtArrival s f c r op detail surfaces := by
  obtain ⟨state, slot⟩ := (h.slot f.slot).2
  obtain ⟨control, cqs, marks, frame, palettes, engines, sequence, fetch⟩ := h.kept
  have inQueue : (v.slot f.slot).queue = some f.queue := by rw [slot]; rfl
  have settled := v.endSlots_settled [{ slot := f.slot, status := .ok, detail := detail }]
  obtain ⟨u, goes, issued⟩ := State.endSlots_goes (s := v) (es := [{ slot := f.slot, status := .ok, detail := detail }])
    (List.mem_singleton.2 rfl) (by rw [control, running]; decide)
  obtain ⟨table, marked⟩ := State.endSlots_surfaces (e := { slot := f.slot, status := .ok, detail := detail }) inQueue
    (h.releasesNothing nothing)
  refine ⟨s.afterArrival f c r, goesTo_of_serve (exec_recordArrival r arriving), ?_⟩
  rw [ending]
  refine ⟨⟨settled.sequence.trans sequence, settled.fetch.trans fetch, ?_⟩, ?_, fun loud => ?_, fun i => ?_, marked.trans marks,
    settled.frame.trans frame, settled.palettes.trans palettes, settled.engines.trans engines⟩
  · obtain ⟨d, queue, kept⟩ := goes.queues _ _ h.queue
    exact ⟨d, by rw [issued, State.issueWrites_queue, queue], kept.head, kept.tail⟩
  · have answered := State.endSlots_answered (s := v) (e := { slot := f.slot, status := .ok, detail := detail })
      (es := [{ slot := f.slot, status := .ok, detail := detail }]) (by simp) (List.mem_singleton.2 rfl) inQueue
    rw [slot] at answered
    exact answered
  · have posted := (State.endSlots_posted (s := v) (e := { slot := f.slot, status := .ok, detail := detail })
      (es := [{ slot := f.slot, status := .ok, detail := detail }]) (by simp) (List.mem_singleton.2 rfl) inQueue (by
        rw [slot]
        rintro ⟨_, quiet⟩
        exact Bool.false_ne_true (loud.symm.trans quiet))).1
    intro d k queue cq
    cases arriving.2.2.2.symm.trans queue
    have joined := posted { c with head := (c.head + 1) % c.size } k h.queue (by rw [State.cq, cqs]; exact cq)
    rw [control] at joined
    exact joined
  · rw [State.surface, table, slot, State.releaseClaim_ok _ (by simpa [State.admitted_eq] using notPresent)]
    exact left i

end AboutToEnd

/-! ## The kinds -/

/-- An admitted operation that ends before it is released: a DEFINE, or a WAIT that is satisfied. -/
theorem aboutToEnd_admitted (s : State) (f : Fetch) (c : Queue) (r : OpRecord) (op : Op) (state : SlotState) :
    AboutToEnd s f c r op (((s.withArrival f c r).admissionEffect op).setSlot f.slot { s.admitted f c r op with state := state }) := by
  refine ⟨state, ?_⟩
  rw [State.admissionEffect_setSlot]

theorem State.admitted_surface (s : State) (f : Fetch) (c : Queue) (r : OpRecord) (op : Op) (sl : Slot) (i : SurfaceId) :
    (((s.withArrival f c r).admissionEffect op).setSlot f.slot sl).surface i = (s.admissionEffect op).surface i := by
  rw [State.admissionEffect_setSlot]
  rfl

/-- An operation other than DEFINE and WAIT that waits for nothing is READY, and is released at once (step 4 of R64). -/
theorem State.firstState_free (s : State) (i : SlotId) (q : QueueId) {op : Op} {sl : Slot} (notDefine : ∀ id d, op ≠ .define id d)
    (notWait : ∀ m v n, op ≠ .wait m v n) (free : (sl.deps.isEmpty && !sl.orderedPending) = true) :
    s.firstState i q op sl = (s.setSlot i { sl with state := .ready }).release [i] := by
  unfold State.firstState
  split
  · exact absurd rfl (notDefine _ _)
  · exact absurd rfl (notWait _ _ _)
  · rw [if_pos free]

/-- The state in which an operation that is free to run is executed. -/
def State.readied (s : State) (f : Fetch) (c : Queue) (r : OpRecord) (op : Op) : State :=
  (((s.withArrival f c r).admissionEffect op).setSlot f.slot { s.admitted f c r op with state := .ready }).choose

theorem State.afterArrival_free {s : State} {f : Fetch} {c : Queue} {r : OpRecord} {op : Op} (ok : s.checkRecord r = .ok op)
    (notDefine : ∀ id d, op ≠ .define id d) (notWait : ∀ m v n, op ≠ .wait m v n)
    (free : FreeToRun s f.slot f.queue op (r.extractLsb' 8 8)) :
    s.afterArrival f c r = ((s.readied f c r op).execute f.slot).1.endSlots ((s.readied f c r op).execute f.slot).2 := by
  rw [State.afterArrival_admitted ok, State.firstState_free _ _ _ notDefine notWait ((s.arrived_free_iff f c r op).2 free)]
  rfl

theorem State.readied_op (s : State) (f : Fetch) (c : Queue) (r : OpRecord) (op : Op) : ((s.readied f c r op).slot f.slot).op = some op :=
  congrArg Slot.op (State.slot_setSlot_self _ f.slot _)

theorem State.readied_surface (s : State) (f : Fetch) (c : Queue) (r : OpRecord) (op : Op) (i : SurfaceId) :
    (s.readied f c r op).surface i = (s.admissionEffect op).surface i :=
  s.admitted_surface f c r op { s.admitted f c r op with state := .ready } i

/-- An operation of the window that is executed at once ends; the surface table is as its execution leaves it. -/
theorem aboutToEnd_readied (s : State) (f : Fetch) (c : Queue) (r : OpRecord) (op : Op) {v : State}
    (executed : v = { s.readied f c r op with surfaces := v.surfaces }) : AboutToEnd s f c r op v := by
  refine ⟨.ready, ?_⟩
  rw [executed, State.readied, State.admissionEffect_setSlot]
  rfl

theorem State.execute_note {s : State} {i : SlotId} (h : (s.slot i).op = some .note) :
    s.execute i = (s, [{ slot := i, status := .ok, detail := 0#32 }]) := by
  unfold State.execute
  rw [h]

theorem State.execute_retire {s : State} {i : SlotId} {id : SurfaceId} (h : (s.slot i).op = some (.retire id)) :
    s.execute i = (s.setSurface id Surface.freed, [{ slot := i, status := .ok, detail := 0#32 }]) := by
  unfold State.execute
  rw [h]

theorem State.execute_scroll {s : State} {i : SlotId} {id : SurfaceId} {o : Nat} (h : (s.slot i).op = some (.scroll id o)) :
    s.execute i = (s.modifySurface id (fun r => r.withOrigin o), [{ slot := i, status := .ok, detail := 0#32 }]) := by
  unfold State.execute
  rw [h]

/-- An engine kind whose clip leaves nothing to write is not carried out (R75). -/
theorem State.execute_clipped {s : State} {i : SlotId} {op : Op} (h : (s.slot i).op = some op) (clipped : op.emptyClip = true) :
    s.execute i = (s, [{ slot := i, status := .ok, detail := 0#32 }]) := by
  unfold State.execute
  rw [h]
  cases op with
  | fill | copy | pattern | expand | importPixels => exact if_pos clipped
  | _ => cases clipped

/-- The kinds with a clip are not DEFINE, WAIT or PRESENT, and have no effect at their admission. -/
theorem clipped_kind {op : Op} (clipped : op.emptyClip = true) : (∀ id d, op ≠ .define id d) ∧ (∀ m v n, op ≠ .wait m v n) ∧
    (∀ id, op ≠ .present id) ∧ ∀ s : State, s.admissionEffect op = s := by
  cases op with
  | fill | copy | pattern | expand | importPixels => exact ⟨nofun, nofun, nofun, fun _ => rfl⟩
  | _ => cases clipped

theorem clipped_endsAtArrival {s : State} {f : Fetch} {c : Queue} {r : OpRecord} {op : Op} (arriving : Arriving s f c)
    (ok : s.checkRecord r = .ok op) (running : s.control.deviceState = .running)
    (free : FreeToRun s f.slot f.queue op (r.extractLsb' 8 8)) (nothing : ReleasesNothing s f.slot) (clipped : clippedAway op = true) :
    EndsAtArrival s f c r op 0#32 s.surface := by
  rw [clippedAway_eq] at clipped
  obtain ⟨notDefine, notWait, notPresent, noEffect⟩ := clipped_kind clipped
  refine (aboutToEnd_readied s f c r op rfl).ends arriving running nothing notPresent ?_ fun i => by
    rw [State.readied_surface, noEffect]
  rw [State.afterArrival_free ok notDefine notWait free, State.execute_clipped (s.readied_op f c r op) clipped]

/-- The band origin of a SCROLL that was not refused is replaced (R13). -/
theorem Surface.withOrigin_eq {x : Surface} {o : Nat} (below : ∀ d b, x.fields = some d → d.band = some b → o < b.rows) :
    x.withOrigin o = { x with fields := x.fields.map fun d => { d with band := d.band.map fun b => { b with origin := o } } } := by
  unfold Surface.withOrigin
  refine congrArg (fun fields => { x with fields := fields }) (Option.map_congr fun d hd => ?_)
  refine congrArg (fun band => { d with band := band }) (Option.map_congr fun b hb => ?_)
  rw [Band.withOrigin, if_pos (below d b hd hb)]

/-- The new origin of an admitted SCROLL is less than the rows of its surface's band (R40). -/
theorem State.checkOp_scroll {s : State} {id : SurfaceId} {o : Nat} (h : s.checkOp (.scroll id o) = none) (d : SurfaceFields) (b : Band)
    (fields : (s.surface id).fields = some d) (band : d.band = some b) : o < b.rows := by
  unfold State.checkOp at h
  dsimp only at h
  split at h
  · cases h
  · next g hg =>
    split at h
    · next lt =>
      obtain ⟨d', hd', hb'⟩ := Option.bind_eq_some_iff.1 hg
      unfold State.definedFields at hd'
      split at hd'
      · cases fields.symm.trans hd'
        cases band.symm.trans hb'
        exact lt
      · cases hd'
    · cases h

/-- Settles O40, kind by kind: each brings the arrived slot's one OK ending, which releases nothing. -/
theorem operationsEndedAtArrival : Obligations.OperationsEndedAtArrival := by
  intro s f c r op arriving ok running free nothing ends
  cases op with
  | define id d =>
    refine (aboutToEnd_admitted s f c r (.define id d) .fetching).ends arriving running nothing nofun ?_ fun i =>
      (s.admitted_surface f c r (.define id d) _ i).trans (s.admissionEffect_surface (.define id d) i)
    rw [State.afterArrival_admitted ok]
    rfl
  | wait m v n =>
    refine (aboutToEnd_admitted s f c r (.wait m v n) .fetching).ends arriving running nothing nofun ?_
      (s.admitted_surface f c r (.wait m v n) _)
    rw [State.afterArrival_admitted ok]
    exact if_pos (of_decide_eq_true ends)
  | note =>
    refine (aboutToEnd_readied s f c r .note rfl).ends arriving running nothing nofun ?_ (s.readied_surface f c r .note)
    rw [State.afterArrival_free ok nofun nofun free, State.execute_note (s.readied_op f c r .note)]
  | retire id =>
    refine (aboutToEnd_readied s f c r (.retire id) (v := (s.readied f c r (.retire id)).setSurface id Surface.freed) rfl).ends arriving
      running nothing nofun ?_ fun i => ?_
    · rw [State.afterArrival_free ok nofun nofun free, State.execute_retire (s.readied_op f c r (.retire id))]
    · rw [State.surface_setSurface, State.readied_surface, State.admissionEffect_surface]
      by_cases own : i = id
      · rw [if_pos own.symm]
        exact (if_pos own).symm
      · rw [if_neg (Ne.symm own)]
        exact (if_neg own).trans (if_neg own).symm
  | scroll id o =>
    have below := State.checkOp_scroll (State.checkRecord_ok ok).2
    refine (aboutToEnd_readied s f c r (.scroll id o)
      (v := (s.readied f c r (.scroll id o)).modifySurface id fun x => x.withOrigin o) rfl).ends arriving running nothing nofun ?_ fun i => ?_
    · rw [State.afterArrival_free ok nofun nofun free, State.execute_scroll (s.readied_op f c r (.scroll id o))]
    · rw [State.surface_modifySurface, State.readied_surface, State.readied_surface]
      by_cases own : i = id
      · subst own
        rw [if_pos rfl]
        exact (Surface.withOrigin_eq below).trans (if_pos rfl).symm
      · rw [if_neg (Ne.symm own)]
        exact (if_neg own).symm
  | fill | copy | pattern | expand | importPixels => exact clipped_endsAtArrival arriving ok running free nothing ends
  | exportPixels | loadPalette | signal | present | setPanel => cases ends

end Sys2Proof.Machine
end

section
/-! PROOF. Which flags and fields of a record steps 1 and 2 of R40 refuse (R22, R30 to R39, R185). -/

namespace Sys2Proof.Safety

open Sys2Proof.Machine

/-! ### Kinds and flags -/

theorem ofCode_eq_none {code : BitVec 8} (h : code.toNat = 0 ∨ 0x10 ≤ code.toNat) : Kind.ofCode code = none := by
  unfold Kind.ofCode
  split <;> first | rfl | omega

theorem exists_ofCode {code : BitVec 8} (low : 1 ≤ code.toNat) (high : code.toNat ≤ 0x0F) : ∃ k, Kind.ofCode code = some k := by
  unfold Kind.ofCode
  generalize code.toNat = n at low high
  interval_cases n <;> exact ⟨_, rfl⟩

/-- The code of a kind (section 12.2). -/
def kindCode : Kind → Nat
  | .fill => 1 | .copy => 2 | .pattern => 3 | .expand => 4 | .importPixels => 5 | .exportPixels => 6 | .loadPalette => 7 | .define => 8
  | .retire => 9 | .scroll => 10 | .signal => 11 | .wait => 12 | .present => 13 | .setPanel => 14 | .note => 15

theorem field_kind {r : OpRecord} {k : Kind} (h : Kind.ofCode (byteAt r 0) = some k) : field r 0 1 = kindCode k :=
  (ofCode_eq_some h).trans (by cases k <;> rfl)

/-- The flags that a kind allows are those that the table of R22 gives it, on every flags byte. -/
theorem flagsOk_iff (k : Kind) : ∀ flags : BitVec 8, k.flagsOk flags = true ↔
    ¬(flags.getLsbD 5 = true ∨ flags.getLsbD 6 = true ∨ flags.getLsbD 7 = true ∨
      (flags.getLsbD 1 = true ∧ kindCode k ∈ [0x08, 0x0C]) ∨
      (flags.getLsbD 2 = true ∧ kindCode k ∉ [0x01, 0x02, 0x03, 0x04, 0x05]) ∨
      (flags.getLsbD 3 = true ∧ kindCode k ∉ [0x02, 0x03, 0x05]) ∨ (flags.getLsbD 4 = true ∧ kindCode k ≠ 0x04)) := by
  cases k <;> decide +kernel

/-- The flags that pass step 2 of R40 are those that R22 does not refuse. -/
theorem flagsOk_iff_not_refused {r : OpRecord} {k : Kind} (h : Kind.ofCode (byteAt r 0) = some k) :
    k.flagsOk (byteAt r 1) = true ↔ ¬FlagsRefused r := by
  rw [flagsOk_iff, ← field_kind h, flag_bit r 5, flag_bit r 6, flag_bit r 7, flag_bit r 1, flag_bit r 2, flag_bit r 3, flag_bit r 4] <;> decide

/-! ### Ranges -/

theorem exists_below {n v : Nat} : (∃ w : Fin n, below n v = some w) ↔ v < n :=
  ⟨fun ⟨w, h⟩ => below_eq_some.1 h ▸ w.isLt, fun h => ⟨⟨v, h⟩, below_eq_some.2 rfl⟩⟩

theorem exists_when {α : Type} {c : Bool} {v : α} : (∃ w, when c v = some w) ↔ c = true := by simp [when_eq_some]

/-- A rectangle is read where R185 does not refuse it, and it is the one in the record. -/
theorem rectAt_iff {r : OpRecord} {o : Nat} {rect : Rect} : rectAt r o = some rect ↔ ¬RectRefused r o ∧ rect = rectIn r o := by
  unfold rectAt
  rw [when_eq_some]
  simp only [Bool.and_eq_true, decide_eq_true_eq]
  simp only [half16At_toNat]
  refine and_congr ?_ eq_comm
  unfold RectRefused
  omega

theorem exists_clipOf {r : OpRecord} : (∃ clip, clipOf r (byteAt r 1) = some clip) ↔ ¬ClipRefused r := by
  unfold clipOf flagClip ClipRefused flagSet
  rw [flag_bit r 2 (by decide)]
  cases r.getLsbD (8 + 2) <;> simp [Option.map_eq_some_iff, rectAt_iff]

theorem exists_ropOf {r : OpRecord} : (∃ rop, ropOf r = some rop) ↔ field r 6 1 ≤ 15 := by
  unfold ropOf
  rw [exists_when, decide_eq_true_eq, BitVec.le_def, byteAt_toNat]
  rfl

theorem exists_sourcePositionOf {r : OpRecord} : (∃ p, sourcePositionOf r = some p) ↔ ¬SourceRefused r := by
  unfold sourcePositionOf SourceRefused
  simp only [exists_when, Bool.and_eq_true, decide_eq_true_eq]
  simp only [half16At_toNat]
  omega

theorem orientationOf_iff {r : OpRecord} {o : Orientation} : orientationOf r = some o ↔ field r 0x34 1 ≤ 7 ∧
    o = { columns := (byteAt r 0x34).getLsbD 2, xReverse := (byteAt r 0x34).getLsbD 0, yReverse := (byteAt r 0x34).getLsbD 1 } := by
  unfold orientationOf
  rw [when_eq_some, decide_eq_true_eq, BitVec.le_def, byteAt_toNat]
  exact and_congr Iff.rfl eq_comm

theorem hostFormatOf_ne_m1 {code : BitVec 8} : hostFormatOf code ≠ some .m1 := by
  unfold hostFormatOf
  split
  · nofun
  · next other => exact other

/-- The bytes of a pixel of a host format are a power of two, by its code (section 12.2). -/
theorem hostFormatOf_bytes {code : BitVec 8} {f : Format} (h : hostFormatOf code = some f) :
    f.bytes = 2 ^ code.toNat ∧ code.toNat ≤ 2 := by
  rw [← hostFormatOf_eq_some h]
  cases f with
  | m1 => exact absurd h hostFormatOf_ne_m1
  | _ => exact ⟨rfl, by decide⟩

theorem exists_formatOf {code : BitVec 8} (le : code.toNat ≤ 3) : ∃ f, formatOf code = some f := by
  unfold formatOf
  generalize code.toNat = n at le
  interval_cases n <;> exact ⟨_, rfl⟩

theorem exists_hostFormatOf {code : BitVec 8} (le : code.toNat ≤ 2) : ∃ f, hostFormatOf code = some f := by
  unfold hostFormatOf formatOf
  generalize code.toNat = n at le
  interval_cases n <;> exact ⟨_, rfl⟩

theorem formatOf_rowBytes {code : BitVec 8} {f : Format} (h : formatOf code = some f) (width : Nat) : code.toNat ≤ 3 ∧
    f.rowBytes width = if code.toNat = 3 then (width + 7) / 8 else width * 2 ^ code.toNat := by
  rw [← formatOf_eq_some h]
  cases f <;> exact ⟨by decide, rfl⟩

theorem columns_code : ∀ o : BitVec 8, o.toNat ≤ 7 → (o.getLsbD 2 = true ↔ 4 ≤ o.toNat) := by decide +kernel

/-- The lines of a record's host buffer, by its orientation (R29, R34). -/
theorem hostBufferRefused_iff {r : OpRecord} : ¬HostBufferRefused r ↔ field r 7 1 ≤ 2 ∧ field r 0x34 1 ≤ 7 ∧
    ¬LinesRefused r (2 ^ field r 7 1) (if (byteAt r 0x34).getLsbD 2 then field r 0x0E 2 else field r 0x0C 2)
      (if (byteAt r 0x34).getLsbD 2 then field r 0x0C 2 else field r 0x0E 2) := by
  unfold HostBufferRefused
  by_cases le : field r 0x34 1 ≤ 7
  · have columns := columns_code (byteAt r 0x34) le
    rw [byteAt_toNat] at columns
    by_cases major : 4 ≤ field r 0x34 1
    · rw [if_pos (columns.2 major), if_pos (columns.2 major)]
      generalize LinesRefused r _ _ _ = refused
      simp [le, major, Nat.not_lt.2 major]
    · rw [if_neg (mt columns.1 major), if_neg (mt columns.1 major)]
      simp [le, major, Nat.not_le.1 major]
  · simp [le, Nat.not_le.1 le]

/-- Lines that lie in host memory as R34 asks. -/
theorem not_linesRefused_iff {r : OpRecord} {f : Format} (bytes : f.bytes = 2 ^ field r 7 1) (pixels lines : Nat) :
    ¬LinesRefused r (2 ^ field r 7 1) pixels lines ↔
      (((field r 0x28 8 % f.bytes = 0 ∧ field r 0x30 4 % f.bytes = 0) ∧ pixels * f.bytes ≤ field r 0x30 4) ∧
        field r 0x28 8 + (lines - 1) * field r 0x30 4 + pixels * f.bytes ≤ Config.hostBytes) := by
  rw [bytes]
  unfold LinesRefused Config.hostBytes
  omega

/-- A host buffer for the record's rectangle is given by a record that R34 and R35 do not refuse. -/
theorem exists_hostBufferOf {r : OpRecord} : (∃ host, hostBufferOf r (rectIn r 8) = some host) ↔ ¬HostBufferRefused r := by
  rw [hostBufferRefused_iff]
  simp only [hostBufferOf, Option.bind_eq_bind, Option.bind_eq_some_iff, orientationOf_iff, when_eq_some, Bool.and_eq_true,
    decide_eq_true_eq]
  simp only [long64At_toNat, word32At_toNat]
  constructor
  · rintro ⟨host, f, hf, o, ⟨le, rfl⟩, fits, -⟩
    obtain ⟨bytes, two⟩ := hostFormatOf_bytes hf
    exact ⟨two, le, (not_linesRefused_iff bytes _ _).2 fits⟩
  · rintro ⟨two, le, fits⟩
    obtain ⟨f, hf⟩ := exists_hostFormatOf two
    exact ⟨_, f, hf, _, ⟨le, rfl⟩, (not_linesRefused_iff (hostFormatOf_bytes hf).1 _ _).1 fits, rfl⟩

/-- The band of a DEFINE that R37 does not refuse. -/
theorem exists_bandOf {r : OpRecord} {height : Nat} : (∃ band, bandOf r height = some band) ↔ field r 0x12 1 ≤ 1 ∧
    ¬(field r 0x12 1 = 1 ∧ (field r 0x16 2 < 2 ∨ field r 0x16 2 ≤ field r 0x18 2 ∨ height < field r 0x14 2 + field r 0x16 2)) := by
  unfold bandOf
  rw [← byteAt_toNat]
  split
  · next absent => simp [absent]
  · next present =>
    simp only [exists_when, Bool.and_eq_true, decide_eq_true_eq]
    simp only [half16At_toNat]
    omega
  · next absent present =>
    have absent : (byteAt r 0x12).toNat ≠ 0 := absent
    have present : (byteAt r 0x12).toNat ≠ 1 := present
    simp only [reduceCtorEq, exists_false, false_iff]
    omega

/-- The surface and its fields are given by a DEFINE that R37 does not refuse. -/
theorem exists_surfaceFieldsOf {r : OpRecord} : (field r 4 1 < 64 ∧ ∃ d, surfaceFieldsOf r = some d) ↔ ¬DefineRefused r := by
  have band := exists_bandOf (r := r) (height := field r 0x0E 2)
  unfold DefineRefused
  simp only [surfaceFieldsOf, Option.bind_eq_bind, Option.bind_eq_some_iff, below_eq_some, when_eq_some, Bool.and_eq_true,
    decide_eq_true_eq]
  simp only [byteAt_toNat, half16At_toNat, word32At_toNat]
  constructor
  · rintro ⟨id, d, f, hf, p, hp, b, hb, h⟩
    obtain ⟨known, rowBytes⟩ := formatOf_rowBytes hf (field r 0x0C 2)
    have present := band.1 ⟨b, hb⟩
    have four := p.isLt
    rw [rowBytes, byteAt_toNat] at h
    rw [byteAt_toNat] at known
    omega
  · intro h
    obtain ⟨f, hf⟩ := exists_formatOf (code := byteAt r 7) (by rw [byteAt_toNat]; omega)
    obtain ⟨known, rowBytes⟩ := formatOf_rowBytes hf (field r 0x0C 2)
    obtain ⟨b, hb⟩ := band.2 (by omega)
    refine ⟨by omega, _, f, hf, ⟨field r 0x37 1, by omega⟩, rfl, b, hb, ?_, rfl⟩
    rw [rowBytes, byteAt_toNat]
    omega

/-! ### The fields of a kind -/

theorem exists_rectAt {r : OpRecord} {o : Nat} : (∃ rect, rectAt r o = some rect) ↔ ¬RectRefused r o := by
  simp only [rectAt_iff, exists_and_left, exists_eq, and_true]

/-- A host buffer is read for the record's own rectangle. -/
theorem exists_rect_hostBuffer {r : OpRecord} : (∃ rect, rectAt r 8 = some rect ∧ ∃ host, hostBufferOf r rect = some host) ↔
    ¬RectRefused r 8 ∧ ¬HostBufferRefused r := by
  simp only [rectAt_iff, ← exists_hostBufferOf]
  exact ⟨fun ⟨_, ⟨ok, same⟩, host⟩ => ⟨ok, same ▸ host⟩, fun ⟨ok, host⟩ => ⟨_, ⟨ok, rfl⟩, host⟩⟩

theorem exists_rect_hostBuffer_and {r : OpRecord} {p : Prop} :
    (∃ rect, rectAt r 8 = some rect ∧ (∃ host, hostBufferOf r rect = some host) ∧ p) ↔
      (¬RectRefused r 8 ∧ ¬HostBufferRefused r) ∧ p := by
  simp only [← and_assoc, exists_and_right, exists_rect_hostBuffer]

/-- A field that is read first and those read after it. -/
theorem exists_bind {α β : Type} {x : Option α} {f : α → Option β} :
    (∃ b, x.bind f = some b) ↔ ∃ a, x = some a ∧ ∃ b, f a = some b := by
  simp only [Option.bind_eq_some_iff]
  exact ⟨fun ⟨b, a, ha, hb⟩ => ⟨a, ha, b, hb⟩, fun ⟨a, ha, b, hb⟩ => ⟨b, a, ha, hb⟩⟩

/-- A kind's parameters are read from a record just when no field that the kind reads is refused (R40 step 2, R185). -/
theorem exists_fieldsOf {r : OpRecord} {k : Kind} (panelHeight : Nat) (code : field r 0 1 = kindCode k) :
    (∃ op, k.fieldsOf panelHeight r = some op) ↔ ¬FieldRefused panelHeight r := by
  unfold FieldRefused DrawFieldRefused TransferFieldRefused TableFieldRefused
  rw [code]
  cases k <;> simp only [Kind.fieldsOf, Option.bind_eq_bind, exists_bind, exists_and_right, Option.some.injEq, exists_eq', and_true,
    exists_below, exists_rectAt, exists_clipOf, exists_ropOf, exists_sourcePositionOf, exists_rect_hostBuffer,
    exists_rect_hostBuffer_and, exists_when, Bool.and_eq_true, decide_eq_true_eq, byteAt_le_one] <;>
  simp only [kindCode, List.mem_cons, Nat.reduceEqDiff, List.not_mem_nil, or_false, false_or, false_and, or_self,
    or_true, true_and, byteAt_toNat, half16At_toNat, long64At_toNat]
  case define => exact exists_surfaceFieldsOf
  case loadPalette =>
    unfold Config.hostBytes
    omega
  case note => exact iff_of_true trivial not_false
  case fill | copy | pattern | expand | importPixels | exportPixels =>
    generalize RectRefused r 8 = rect, ClipRefused r = clip, SourceRefused r = source, HostBufferRefused r = host
    grind
  all_goals omega

end Sys2Proof.Safety
end

section
/-! PROOF. The admission checks stop at the first that fails (R40). -/

namespace Sys2Proof.Safety

open Sys2Proof.Machine

/-! ### Steps 1 and 2 of R40 -/

theorem decodeRecord_badKind (panelHeight : Nat) {r : OpRecord} (h : field r 0 1 = 0 ∨ 0x10 ≤ field r 0 1) :
    decodeRecord panelHeight r = .error .badKind := by
  unfold decodeRecord
  rw [ofCode_eq_none (code := byteAt r 0) h]

/-- A known kind whose flags and fields are not refused gives an operation; one that is refused in either is BAD_FIELD. -/
theorem decodeRecord_known (panelHeight : Nat) {r : OpRecord} (low : 1 ≤ field r 0 1) (high : field r 0 1 ≤ 0x0F) :
    (FlagsRefused r ∨ FieldRefused panelHeight r → decodeRecord panelHeight r = .error .badField) ∧
    (¬FlagsRefused r → ¬FieldRefused panelHeight r → ∃ op, decodeRecord panelHeight r = .ok op) := by
  obtain ⟨k, known⟩ := exists_ofCode (code := byteAt r 0) low high
  have flags := flagsOk_iff_not_refused known
  have fields := exists_fieldsOf panelHeight (field_kind known)
  unfold decodeRecord
  rw [known]
  dsimp only
  constructor
  · intro refused
    split
    · next ok =>
      split
      · next op read => exact absurd (refused.resolve_left (flags.1 ok)) (fields.1 ⟨op, read⟩)
      · rfl
    · rfl
  · intro flagsKept fieldsKept
    obtain ⟨op, read⟩ := fields.2 fieldsKept
    exact ⟨op, by rw [if_pos (flags.2 flagsKept), read]⟩

/-! ### Steps 3 to 9 of R40 -/

/-- What the later checks answer for an operation: the status of the first that fails, or the operation. -/
def verdict (op : Op) (failed : Option Status) : Except Status Op :=
  match failed with
  | some st => .error st
  | none => .ok op

theorem checkRecord_eq_verdict {s : State} {r : OpRecord} {op : Op}
    (h : decodeRecord ((s.presentation.panel.map PanelParams.height).getD 0) r = .ok op) :
    s.checkRecord r = verdict op (s.checkOp op) := by
  unfold State.checkRecord
  rw [h]
  rfl

theorem verdict_ite (op : Op) (c : Prop) [Decidable c] (a b : Option Status) :
    verdict op (if c then a else b) = if c then verdict op a else verdict op b := apply_ite ..

theorem verdict_some (op : Op) (st : Status) : verdict op (some st) = .error st := rfl

theorem verdict_none (op : Op) : verdict op none = .ok op := rfl

theorem definedFields_defined {s : State} {id : SurfaceId} (h : (s.surface id).state = .defined) :
    s.definedFields id = (s.surface id).fields := if_pos h

theorem definedFields_undefined {s : State} {id : SurfaceId} (h : (s.surface id).state ≠ .defined) : s.definedFields id = none := if_neg h

theorem conversionAllowed_iff (a b : Format) : conversionAllowed a b = true ↔ Convertible a b := by
  cases a <;> cases b <;> decide

theorem inside_iff (r : Rect) (d : SurfaceFields) : r.inside d = true ↔ ¬Leaves r d := by
  unfold Rect.inside
  rw [Bool.and_eq_true, decide_eq_true_eq, decide_eq_true_eq]
  omega

theorem keyRefused_iff (key : Option (BitVec 32)) (a : SurfaceFields) : keyRefused key a = true ↔ key ≠ none ∧ a.format = .m1 := by
  unfold keyRefused
  rw [Bool.and_eq_true, Option.isSome_iff_ne_none, decide_eq_true_eq]

theorem extentTaken_iff (s : State) (d : SurfaceFields) : s.extentTaken d = true ↔ ExtentTaken s d := by
  unfold State.extentTaken ExtentTaken
  rw [Bool.or_eq_true, decide_eq_true_eq, List.any_eq_true]
  refine or_congr Iff.rfl (exists_congr fun i => ?_)
  cases (s.surface i).fields <;> simp [extentsOverlap]

/-- Steps 3 to 6 for a kind that names two surfaces which are DEFINED. -/
theorem checkMove_defined {s : State} {src dst : SurfaceId} {a b : SurfaceFields} (key : Option (BitVec 32)) (paired : Format → Format → Bool)
    (area rect : Rect) (ha : s.definedFields src = some a) (hb : s.definedFields dst = some b) :
    s.checkMove src dst key paired area rect =
      if key ≠ none ∧ a.format = .m1 then some .badField
      else if ¬paired a.format b.format = true then some .badFormat
      else if Leaves area a ∨ Leaves rect b then some .badRange else none := by
  unfold State.checkMove
  simp only [ha, hb, keyRefused_iff, Bool.not_eq_true', ← Bool.not_eq_true, Bool.and_eq_true, inside_iff]
  simp only [not_and_or, not_not]

/-- A surface that is not DEFINED fails the first of an engine kind's later checks (R40 step 3). -/
theorem checkOp_undefined {s : State} {op : Op} {id : SurfaceId} (named : op.src = some id ∨ op.dst = some id)
    (h : (s.surface id).state ≠ .defined) : s.checkOp op = some .surfaceState := by
  have missing := definedFields_undefined h
  cases op <;> simp only [Op.src, Op.dst, Option.some.injEq, reduceCtorEq, or_false, false_or, or_self] at named
  case fill | importPixels | exportPixels =>
    subst named
    unfold State.checkOp
    simp only [missing]
  all_goals
    unfold State.checkOp State.checkMove
    rcases named with rfl | rfl
    · simp only [missing]
    · dsimp only
      rw [missing]
      split
      · next found => cases found
      · rfl

theorem checkOp_fill {s : State} {dst : SurfaceId} {b : SurfaceFields} (h : s.definedFields dst = some b) (rect : Rect)
    (colour : BitVec 32) (rop : BitVec 4) (clip : Option Rect) :
    s.checkOp (.fill dst rect colour rop clip) = if Leaves rect b then some .badRange else none := by
  unfold State.checkOp
  simp only [h, inside_iff, ite_not]

theorem checkOp_import {s : State} {dst : SurfaceId} {b : SurfaceFields} (h : s.definedFields dst = some b) (host : HostBuffer)
    (palette : PaletteId) (rect : Rect) (key : Option (BitVec 32)) (clip : Option Rect) :
    s.checkOp (.importPixels host palette dst rect key clip) =
      if ¬Convertible host.format b.format then some .badFormat else if Leaves rect b then some .badRange else none := by
  unfold State.checkOp
  simp only [h, inside_iff, ite_not, Bool.not_eq_true', ← Bool.not_eq_true, conversionAllowed_iff]

theorem checkOp_export {s : State} {src : SurfaceId} {a : SurfaceFields} (h : s.definedFields src = some a) (rect : Rect) (host : HostBuffer) :
    s.checkOp (.exportPixels src rect host) =
      if ¬Convertible a.format host.format then some .badFormat else if Leaves rect a then some .badRange else none := by
  unfold State.checkOp
  simp only [h, inside_iff, ite_not, Bool.not_eq_true', ← Bool.not_eq_true, conversionAllowed_iff]

theorem checkOp_define (s : State) (id : SurfaceId) (d : SurfaceFields) [Decidable (ExtentTaken s d)] : s.checkOp (.define id d) =
    if (s.surface id).state ≠ .free then some .surfaceState else if ExtentTaken s d then some .overlap else none := by
  unfold State.checkOp
  simp only [extentTaken_iff]

theorem checkOp_retire (s : State) (id : SurfaceId) : s.checkOp (.retire id) =
    if (s.surface id).state ≠ .defined then some .surfaceState
    else if (s.surface id).shown = true ∨ 0 < (s.surface id).presentRefs then some .displayBusy else none := by
  unfold State.checkOp
  simp only [Bool.or_eq_true, decide_eq_true_eq]

theorem checkOp_scroll_unbanded {s : State} {id : SurfaceId} (o : Nat)
    (h : (s.surface id).state ≠ .defined ∨ (s.surface id).fields.bind SurfaceFields.band = none) :
    s.checkOp (.scroll id o) = some .surfaceState := by
  have noBand : (s.definedFields id).bind SurfaceFields.band = none := by
    unfold State.definedFields
    split
    · next defined => exact h.resolve_left (not_not.2 defined)
    · rfl
  unfold State.checkOp
  simp only [noBand]

theorem checkOp_scroll_banded {s : State} {id : SurfaceId} {b : Band} (o : Nat) (state : (s.surface id).state = .defined)
    (h : (s.surface id).fields.bind SurfaceFields.band = some b) :
    s.checkOp (.scroll id o) = if o < b.rows then none else some .badField := by
  unfold State.checkOp
  simp only [definedFields_defined state, h]

theorem checkOp_present_undefined {s : State} {id : SurfaceId} (h : (s.surface id).state ≠ .defined) :
    s.checkOp (.present id) = some .surfaceState := by
  unfold State.checkOp
  simp only [definedFields_undefined h]

theorem checkOp_present {s : State} {id : SurfaceId} {d : SurfaceFields} (h : s.definedFields id = some d) : s.checkOp (.present id) =
    if d.format = .m1 then some .badFormat
    else if s.presentation.panel.map (fun p => (p.width, p.height)) = some (d.width, d.height) then none else some .geometry := by
  unfold State.checkOp
  simp only [h]
  cases s.presentation.panel with
  | none => rfl
  | some p => simp only [Option.map_some, Option.some.injEq, Prod.mk.injEq, eq_comm]

/-- Settles O38: steps 1 and 2 by the kind's code, its flags and its fields, the later steps kind by kind. -/
theorem checksStopAtFirstFailure : Obligations.ChecksStopAtFirstFailure := by
  intro s r
  refine ⟨fun unknown => ?_, fun low high => ?_, fun op decoded => ⟨says_of_decodeRecord decoded, ?_⟩⟩
  · unfold State.checkRecord
    rw [decodeRecord_badKind _ unknown]
  · obtain ⟨refused, kept⟩ := decodeRecord_known ((s.presentation.panel.map PanelParams.height).getD 0) low high
    refine ⟨fun h => ?_, kept⟩
    unfold State.checkRecord
    rw [refused h]
  rw [checkRecord_eq_verdict decoded]
  have both {src dst : SurfaceId} {a b : SurfaceFields} (key : Option (BitVec 32)) (paired : Format → Format → Bool) (area rect : Rect)
      (stateA : (s.surface src).state = .defined) (stateB : (s.surface dst).state = .defined)
      (fieldsA : (s.surface src).fields = some a) (fieldsB : (s.surface dst).fields = some b) :=
    checkMove_defined key paired area rect ((definedFields_defined stateA).trans fieldsA) ((definedFields_defined stateB).trans fieldsB)
  refine ⟨?_, ?_, ?_, ?_, ?_, ?_, ?_, ?_, ?_, ?_, ?_, ?_⟩
  · intro id named undefined
    rw [checkOp_undefined named undefined, verdict_some]
  · rintro dst rect colour rop clip b rfl state fields
    rw [checkOp_fill ((definedFields_defined state).trans fields), verdict_ite, verdict_some, verdict_none]
  · rintro src x y dst rect rop key clip a b rfl stateA stateB fieldsA fieldsB
    rw [State.checkOp, both _ _ _ _ stateA stateB fieldsA fieldsB]
    simp only [verdict_ite, verdict_some, verdict_none, conversionAllowed_iff]
  · rintro src x y px py dst rect rop key clip a b rfl stateA stateB fieldsA fieldsB
    rw [State.checkOp, both _ _ _ _ stateA stateB fieldsA fieldsB]
    simp only [verdict_ite, verdict_some, verdict_none, decide_eq_true_eq, ne_eq]
  · rintro src x y dst rect fore back rop clip a b rfl stateA stateB fieldsA fieldsB
    rw [State.checkOp, both _ _ _ _ stateA stateB fieldsA fieldsB]
    simp only [verdict_ite, verdict_some, verdict_none, decide_eq_true_eq, ne_eq, not_true_eq_false, false_and, if_false]
  · rintro host palette dst rect key clip b rfl state fields
    simp only [checkOp_import ((definedFields_defined state).trans fields), verdict_ite, verdict_some, verdict_none]
  · rintro src rect host a rfl state fields
    simp only [checkOp_export ((definedFields_defined state).trans fields), verdict_ite, verdict_some, verdict_none]
  · rintro id d rfl
    classical
    rw [checkOp_define]
    refine ⟨fun used => ?_, fun free taken => ?_, fun free clear => ?_⟩
    · rw [if_pos used, verdict_some]
    · rw [if_neg (not_not.2 free), if_pos taken, verdict_some]
    · rw [if_neg (not_not.2 free), if_neg clear, verdict_none]
  · rintro id rfl
    simp only [checkOp_retire, verdict_ite, verdict_some, verdict_none]
  · rintro id o rfl
    refine ⟨fun unbanded => ?_, fun b state band => ?_⟩
    · rw [checkOp_scroll_unbanded o unbanded, verdict_some]
    · rw [checkOp_scroll_banded o state band, verdict_ite, verdict_some, verdict_none]
  · rintro id rfl
    refine ⟨fun undefined => ?_, fun d state fields => ?_⟩
    · rw [checkOp_present_undefined undefined, verdict_some]
    · simp only [checkOp_present ((definedFields_defined state).trans fields), verdict_ite, verdict_some, verdict_none]
  · intro unchecked
    cases op with
    | loadPalette | signal | wait | setPanel | note => rfl
    | _ => cases unchecked

end Sys2Proof.Safety
end

section
/-! PROOF. The end of a slot with an error (R53, R79): what it does to its queue and leaves of the presentation unit. -/

namespace Sys2Proof.Machine

open Sys2Proof.Safety

/-! ## The panel -/

theorem State.endSlot_panel (s : State) (e : Ending) : (s.endSlot e).presentation.panel = s.presentation.panel := by
  cases h : (s.slot e.slot).queue with
  | none =>
    unfold State.endSlot
    simp only [h]
  | some q => rw [(State.endSlot_surfaces h).2.2]

theorem State.endTogether_panel (s : State) (es : List Ending) : (s.endTogether es).presentation.panel = s.presentation.panel := by
  have each (l : List Ending) : ∀ u : State, (l.foldl State.endSlot u).presentation.panel = u.presentation.panel := by
    induction l with
    | nil => exact fun _ => rfl
    | cons e rest ih => exact fun u => (ih _).trans (u.endSlot_panel e)
  unfold State.endTogether State.removeDependencies
  exact each (s.together es) s.choose

theorem State.execute_panel (s : State) (i : SlotId) : (s.execute i).1.presentation.panel = s.presentation.panel := by
  unfold State.execute State.executeSignal
  repeat' split
  all_goals rfl

theorem State.executeAll_panel (s : State) (ready : List SlotId) : (s.executeAll ready).1.presentation.panel = s.presentation.panel := by
  unfold State.executeAll
  suffices each : ∀ (l : List SlotId) (p : State × List Ending), (l.foldl (fun (p : State × List Ending) i =>
      let r := p.1.execute i
      (r.1, p.2 ++ r.2)) p).1.presentation.panel = p.1.presentation.panel from each _ _
  intro l
  induction l with
  | nil => exact fun _ => rfl
  | cons i rest ih => exact fun p => (ih _).trans (p.1.execute_panel i)

/-- Endings and what they release leave the panel parameters; only the end of a stop takes them away (R152). -/
theorem State.settle_panel (n : Nat) (s : State) (es : List Ending) : (s.settle n es).presentation.panel = s.presentation.panel := by
  induction n generalizing s es with
  | zero => cases es <;> rfl
  | succ n ih =>
    cases es with
    | nil => rfl
    | cons e es => exact (ih _ _).trans ((State.executeAll_panel _ _).trans (s.endTogether_panel (e :: es)))

/-! ## A slot that is not freed -/

theorem State.post_queue (s : State) (i : SlotId) (q p : QueueId) : (s.post i q).queue p = s.queue p := by
  unfold State.post
  split <;> rfl

/-- A slot that ends and is not freed takes its queue where R53 and R54 take it. -/
theorem State.endSlot_queue {s : State} {e : Ending} {q : QueueId} {c : Queue} (h : (s.slot e.slot).queue = some q)
    (hc : s.queue q = some c) (posted : ¬(e.status = .ok ∧ (s.slot e.slot).flags.getLsbD 0 = true)) :
    (s.endSlot e).queue q = some (queueAfter c (s.slot e.slot).isWaiting e.status) := by
  rw [State.endSlot_eq h hc, State.freeOrPost, if_neg posted, State.post_queue, State.slotGone_queue, State.releaseClaim_slot]

/-- What one ending releases goes on from where the ending alone leaves the queues. -/
theorem State.settle_single_goes (n : Nat) (s : State) (e : Ending) : Goes (s.choose.endSlot e) (s.settle (n + 1) [e]) :=
  ((State.removeDependencies_goes _ [e.slot]).trans (State.retestOrdered_goes _)).trans
    (((State.markReady_goes _ _).trans (State.executeAll_goes _ _)).trans (State.settle_goes n _ _))

/-- The end of a slot that is not freed holds a stop back: the step ends with the issue of the writes that are due (R141, R175). -/
theorem State.endSlots_single {s : State} {e : Ending} {q : QueueId} (h : (s.slot e.slot).queue = some q)
    (posted : ¬(e.status = .ok ∧ (s.slot e.slot).flags.getLsbD 0 = true)) : s.endSlots [e] = (s.settle 33 [e]).issueWrites := by
  have answered := (State.settle_answered (n := 32) (es := [e]) (by simp) (List.mem_singleton.2 rfl) h).1
  unfold Answered at answered
  rw [if_neg posted] at answered
  rw [State.endSlots_eq (List.mem_singleton.2 rfl)]
  refine State.conclude_held (i := e.slot) ?_
  show ((s.settle 33 [e]).slot e.slot).state ≠ _
  rw [answered]
  exact nofun

/-- The queue of a slot that ends and is not freed, once all that the end releases is settled. -/
theorem State.endSlots_queue {s : State} {e : Ending} {q : QueueId} {c : Queue} (h : (s.slot e.slot).queue = some q)
    (hc : s.queue q = some c) (posted : ¬(e.status = .ok ∧ (s.slot e.slot).flags.getLsbD 0 = true)) :
    ∃ d, (s.endSlots [e]).queue q = some d ∧ QueueKept (queueAfter c (s.slot e.slot).isWaiting e.status) d := by
  rw [State.endSlots_single h posted, State.issueWrites_queue]
  exact (State.settle_single_goes 32 s e).queues q _ (State.endSlot_queue (s := s.choose) h hc posted)

/-- Nothing of the presentation unit changes but what it holds. -/
theorem State.endSlots_presentation {s : State} {e : Ending} {q : QueueId} (h : (s.slot e.slot).queue = some q)
    (posted : ¬(e.status = .ok ∧ (s.slot e.slot).flags.getLsbD 0 = true)) :
    (s.endSlots [e]).presentation = { s.presentation with held := (s.endSlots [e]).presentation.held } := by
  have panel : (s.endSlots [e]).presentation.panel = s.presentation.panel := by
    rw [State.endSlots_single h posted, State.issueWrites_same]
    exact State.settle_panel 33 s [e]
  have kept := (s.endSlots_settled [e]).presentation
  rwa [panel] at kept

/-! ## An ending that releases nothing -/

/-- A slot that ends, is not freed and releases nothing: what may change. -/
theorem EndsAlone.same {s t : State} {i : SlotId} {q : QueueId} {c : Queue} {st : Status} {detail : BitVec 32}
    (h : EndsAlone s t i q c st detail) (posted : ¬(st = .ok ∧ (s.slot i).flags.getLsbD 0 = true)) :
    t = { s.setQueue q (some (queueAfter c (s.slot i).isWaiting st)) with
      slots := t.slots, cqs := t.cqs, link := t.link, choices := t.choices
      waiting := s.waiting.filter fun w => w.slot ≠ i
      presentation := { s.presentation with held := if s.presentation.held = some i then none else s.presentation.held } } := by
  obtain ⟨r, v, u, ended, after, released, _, _, _, _, issued, _⟩ := h
  rw [if_neg posted] at after
  rw [issued, released, after.1, ended]
  rfl

theorem EndsAlone.queue {s t : State} {i : SlotId} {q p : QueueId} {c : Queue} {st : Status} {detail : BitVec 32}
    (h : EndsAlone s t i q c st detail) (posted : ¬(st = .ok ∧ (s.slot i).flags.getLsbD 0 = true)) (other : p ≠ q) :
    t.queue p = s.queue p := by
  rw [EndsAlone.same h posted]
  exact (State.queue_setQueue s q p _).trans (if_neg (Ne.symm other))

/-- The end of a slot that was not admitted releases no claim on a surface. -/
theorem State.endSlots_alone_unadmitted {s : State} {e : Ending} {q : QueueId} {c : Queue} (h : (s.slot e.slot).queue = some q)
    (hc : s.queue q = some c) (nothing : ReleasesNothing s e.slot) (unadmitted : (s.slot e.slot).unended = false)
    (posted : ¬(e.status = .ok ∧ (s.slot e.slot).flags.getLsbD 0 = true)) :
    EndsAlone s (s.endSlots [e]) e.slot q c e.status e.detail := by
  have alone := State.endSlots_alone h hc nothing (.inr posted)
  rwa [State.releaseClaim, unadmitted, if_neg Bool.false_ne_true] at alone

/-- An ending does not read the state that its slot was in, but whether it was unended. -/
theorem EndsAlone.of_state {s t : State} {i : SlotId} {q : QueueId} {c : Queue} {st : Status} {detail : BitVec 32} {sl : Slot}
    {state : SlotState} (h : EndsAlone (s.setSlot i sl) t i q c st detail) (done : sl.unended = false)
    (done' : ({ sl with state := state } : Slot).unended = false) :
    EndsAlone (s.setSlot i { sl with state := state }) t i q c st detail := by
  obtain ⟨r, v, u, ended, after, released, slots, issued⟩ := h
  have waits : sl.isWaiting = false := by rw [Slot.isWaiting, done, Bool.false_and]
  have waits' : ({ sl with state := state } : Slot).isWaiting = false := by rw [Slot.isWaiting, done', Bool.false_and]
  rw [State.slot_setSlot_self, waits] at ended after
  refine ⟨r, v, u, ?_, ?_, released, fun j => ?_, issued⟩
  · rw [State.slot_setSlot_self, waits', ended]
    unfold State.setSlot State.setQueue slotEnded
    simp
  · rw [State.slot_setSlot_self, waits']
    exact after
  · obtain ⟨b, slot, pending⟩ := slots j
    refine ⟨b, slot, pending.trans (and_congr_right fun _ => exists_congr fun k => and_congr_right fun _ => and_congr_right fun other => ?_)⟩
    simp only [State.slot_setSlot, if_neg (Ne.symm other)]
    by_cases own : i = j
    · simp only [if_pos own]
    · simp only [if_neg own]

end Sys2Proof.Machine
end

section
/-! PROOF. The arrival of a record that is refused (R41, R49, R53). -/

namespace Sys2Proof.Machine

open Sys2Proof.Safety

/-! ## The refusal -/

theorem State.checkOp_isError {s : State} {op : Op} {st : Status} (h : s.checkOp op = some st) : st.isError = true := by
  unfold State.checkOp State.checkMove at h
  repeat' split at h
  all_goals cases h
  all_goals rfl

theorem decodeRecord_isError {panelHeight : Nat} {r : OpRecord} {st : Status} (h : decodeRecord panelHeight r = .error st) :
    st.isError = true := by
  unfold decodeRecord at h
  repeat' split at h
  all_goals cases h
  all_goals rfl

/-- Every refusal is an error (R40, R53). -/
theorem State.checkRecord_isError {s : State} {r : OpRecord} {st : Status} (h : s.checkRecord r = .error st) : st.isError = true := by
  unfold State.checkRecord at h
  split at h
  · next st' decoded =>
    cases h
    exact decodeRecord_isError decoded
  · split at h
    · next failed =>
      cases h
      exact State.checkOp_isError failed
    · cases h

theorem Status.ne_ok_of_isError {st : Status} (h : st.isError = true) : st ≠ .ok := by
  rintro rfl
  cases h

/-- An error under HALT policy halts an OPEN or WAITING queue (R53). -/
theorem queueAfter_halted {c : Queue} {st : Status} (waited : Bool) (error : st.isError = true) (policy : c.policy = .halt)
    (state : c.state = .opened ∨ c.state = .waiting) : (queueAfter c waited st).state = .halted := by
  rw [← Queue.afterEnding_eq, Queue.afterEnding, if_pos]
  simpa [error, policy] using state

theorem queueAfter_place (c : Queue) (waited : Bool) (st : Status) :
    (queueAfter c waited st).head = c.head ∧ (queueAfter c waited st).tail = c.tail := by
  rw [← Queue.afterEnding_eq]
  exact ⟨(c.afterEnding_kept waited st).head, (c.afterEnding_kept waited st).tail⟩

/-! ## The arrived slot -/

theorem State.withArrival_own_slot (s : State) (f : Fetch) (c : Queue) (r : OpRecord) :
    (s.withArrival f c r).slot f.slot = { arrived s f r with state := .fetching } := State.slot_setSlot_self _ f.slot _

theorem State.withArrival_own_queue (s : State) (f : Fetch) (c : Queue) (r : OpRecord) :
    (s.withArrival f c r).queue f.queue = some { c with head := (c.head + 1) % c.size } := State.queue_setQueue_self s f.queue _

theorem State.withArrival_queue (s : State) {f : Fetch} (c : Queue) (r : OpRecord) {q : QueueId} (other : q ≠ f.queue) :
    (s.withArrival f c r).queue q = s.queue q := (State.queue_setQueue s f.queue q _).trans (if_neg (Ne.symm other))

/-- The arrived slot joins a state in which the head has advanced (R49, R63). -/
theorem State.withArrival_eq (s : State) (f : Fetch) (c : Queue) (r : OpRecord) : s.withArrival f c r =
    State.setSlot { s.setQueue f.queue (some { c with head := (c.head + 1) % c.size }) with
      fetch := none, sequence := s.sequence + 1#32, order := s.order ++ [f.slot] } f.slot { arrived s f r with state := .fetching } := rfl

/-- A slot that ends with another status than OK, whatever its end releases: its queue, the presentation unit, the slot and its posting. -/
theorem State.endSlots_failed {s : State} {i : SlotId} {q : QueueId} {c : Queue} {st : Status} (h : (s.slot i).queue = some q)
    (hc : s.queue q = some c) (failed : st ≠ .ok) (detail : BitVec 32) :
    (∃ d, (s.endSlots [{ slot := i, status := st, detail := detail }]).queue q = some d ∧
      QueueKept (queueAfter c (s.slot i).isWaiting st) d) ∧
    (s.endSlots [{ slot := i, status := st, detail := detail }]).presentation = { s.presentation with
      held := (s.endSlots [{ slot := i, status := st, detail := detail }]).presentation.held } ∧
    (s.endSlots [{ slot := i, status := st, detail := detail }]).slot i = slotEnded (s.slot i) st detail ∧
    Posted s (s.endSlots [{ slot := i, status := st, detail := detail }]) q i := by
  have posted : ¬(st = .ok ∧ (s.slot i).flags.getLsbD 0 = true) := fun both => failed both.1
  have answered := State.endSlots_answered (s := s) (e := { slot := i, status := st, detail := detail })
    (by simp) (List.mem_singleton.2 rfl) h
  unfold Answered at answered
  rw [if_neg posted] at answered
  exact ⟨State.endSlots_queue (e := { slot := i, status := st, detail := detail }) h hc posted,
    State.endSlots_presentation (e := { slot := i, status := st, detail := detail }) h posted, answered,
    (State.endSlots_posted (e := { slot := i, status := st, detail := detail }) (by simp) (List.mem_singleton.2 rfl) h posted).1⟩

/-- Settles O39: the refusal is one ending, with an error, of the slot that the record arrived in. -/
theorem refusedRecordEnds : Obligations.RefusedRecordEnds := by
  intro s f c r st arriving refused
  have error := State.checkRecord_isError refused
  have notOk := Status.ne_ok_of_isError error
  have slot := s.withArrival_own_slot f c r
  have inQueue : ((s.withArrival f c r).slot f.slot).queue = some f.queue := by rw [slot]; rfl
  have context := s.withArrival_own_queue f c r
  have unadmitted : ((s.withArrival f c r).slot f.slot).unended = false := by rw [slot]; rfl
  have settled := (s.withArrival f c r).endSlots_settled [{ slot := f.slot, status := st, detail := 0#32 }]
  obtain ⟨⟨d, queue, kept⟩, presentation, ended, joined⟩ := State.endSlots_failed inQueue context notOk 0#32
  refine ⟨s.afterArrival f c r, goesTo_of_serve (exec_recordArrival r arriving), ?_⟩
  rw [State.afterArrival_refused refused]
  refine ⟨⟨settled.sequence, settled.fetch, d, queue, ?_⟩, notOk, ?_, ?_, fun policy state => ⟨d, queue, ?_⟩, settled.frame,
    settled.palettes, settled.engines, presentation, fun nothing => ?_⟩
  · obtain ⟨head, tail⟩ := queueAfter_place { c with head := (c.head + 1) % c.size } ((s.withArrival f c r).slot f.slot).isWaiting st
    exact ⟨kept.head.trans head, kept.tail.trans tail⟩
  · rw [slot] at ended
    unfold Answered
    rw [if_neg fun both => notOk both.1]
    exact ended
  · intro c' k hc hk
    cases arriving.2.2.2.symm.trans hc
    exact joined { c with head := (c.head + 1) % c.size } k context hk
  · exact kept.halted (queueAfter_halted _ error policy state)
  · have releases := releasesNothing_of_window (t := s.withArrival f c r) nothing
      (fun j other => by rw [State.withArrival_slot, if_neg (Ne.symm other)]) rfl
    have posted : ¬(st = .ok ∧ ((s.withArrival f c r).slot f.slot).flags.getLsbD 0 = true) := fun both => notOk both.1
    have alone := State.endSlots_alone_unadmitted (e := { slot := f.slot, status := st, detail := 0#32 }) inQueue context releases
      unadmitted posted
    have queues (q : QueueId) (other : q ≠ f.queue) := (EndsAlone.queue alone posted other).trans (s.withArrival_queue c r other)
    have same := EndsAlone.same alone posted
    generalize (s.withArrival f c r).endSlots [{ slot := f.slot, status := st, detail := 0#32 }] = t at same alone queues ⊢
    rw [s.withArrival_eq] at alone
    have alone := EndsAlone.of_state (state := .free) alone rfl rfl
    refine ⟨?_, ?_, fun unheld => ?_, fun absent => ?_, queues, alone⟩
    · rw [same]; rfl
    · rw [same]; rfl
    · rw [same]
      exact congrArg (fun held => { s.presentation with held := held }) (if_neg unheld)
    · rw [same]
      exact List.filter_eq_self.2 fun w hw => by simpa using absent w hw

end Sys2Proof.Machine
end

section
/-! PROOF. What pixels drawn one after another leave of each other (R90, R91, R98). -/

namespace Sys2Proof.Machine

open Sys2Proof.Safety

/-! ## Values -/

theorem Format.trim_trim (f : Format) (v : BitVec 32) : f.trim (f.trim v) = f.trim v := by
  unfold Format.trim
  rw [BitVec.and_assoc, BitVec.and_self]

/-- A raster operation gives a value of the destination format (R91). -/
theorem trim_ropCombine (code : BitVec 4) (f : Format) (src dst : BitVec 32) :
    f.trim (ropCombine code f src dst) = ropCombine code f src dst := Format.trim_trim ..

/-- A raster operation reads its source at the width of the destination format (R91). -/
theorem ropCombine_trim (code : BitVec 4) (f : Format) (src dst : BitVec 32) :
    ropCombine code f (f.trim src) dst = ropCombine code f src dst := by
  refine BitVec.eq_of_getLsbD_eq fun i lt => ?_
  unfold ropCombine Format.trim
  simp only [BitVec.getLsbD_and, BitVec.getLsbD_or, BitVec.getLsbD_not]
  cases f.mask.getLsbD i <;> simp

/-! ## Pixels apart -/

/-- A pixel of a sound surface lies in its extent (R5, R6). -/
theorem sound_pixel_extent {d : SurfaceFields} (hd : SoundFields d) {x y : Nat} (hx : x < d.width) (hy : y < d.height) :
    d.base ≤ d.pixelByte x (d.physicalRow y) ∧ d.pixelByte x (d.physicalRow y) + d.format.touched ≤ d.base + d.extentBytes := by
  have column := sound_column_le hd hx
  have rows := mul_step (s := d.stride) (sound_physicalRow_lt hd hy)
  rw [Nat.mul_comm d.height] at rows
  unfold SurfaceFields.extentBytes
  rw [d.pixelByte_eq]
  omega

/-- A pixel is read from the bytes that it touches, and no other. -/
theorem readPixel_congr {m m' : FrameMemory} {d : SurfaceFields} {x y : Nat} (same : ∀ k, k < d.format.touched →
    Memory.read m' (d.pixelByte x (d.physicalRow y) + k) = Memory.read m (d.pixelByte x (d.physicalRow y) + k)) :
    readPixel m' d x y = readPixel m d x y := by
  unfold readPixel
  by_cases hf : d.format = .m1
  · have byte := same 0 (by rw [hf]; decide)
    rw [Nat.add_zero] at byte
    rw [readPhysical_bit hf, readPhysical_bit hf, byte]
  · rw [readPhysical_bytes hf, readPhysical_bytes hf]
    refine congrArg _ (List.map_congr_left fun k hk => same k ?_)
    rw [Format.touched_eq hf]
    exact List.mem_range.1 hk

/-- A pixel write leaves every pixel of a surface whose extent is apart (R6). -/
theorem readPixel_write_apart (m : FrameMemory) {a d : SurfaceFields} (ha : SoundFields a) (hd : SoundFields d) (apart : Apart a d)
    {x y x' y' : Nat} (hx : x < d.width) (hy : y < d.height) (hx' : x' < a.width) (hy' : y' < a.height) (v : BitVec 32) :
    readPixel (writePixel m d x y v) a x' y' = readPixel m a x' y' := by
  have written := sound_pixel_extent hd hx hy
  have read := sound_pixel_extent ha hx' hy'
  unfold Apart at apart
  exact readPixel_congr fun k hk => read_writePixel_other m d x y v (by omega)

/-! ## One drawn pixel -/

theorem Job.drawPixel_cases (j : Job) (palettes : List (Nat × BitVec 24)) (d : SurfaceFields) (m : FrameMemory) (x y : Nat) :
    j.drawPixel palettes d y m x = m ∨ ∃ v, j.drawPixel palettes d y m x = writePixel m d x y v := by
  unfold Job.drawPixel
  split
  · exact .inl rfl
  · exact .inr ⟨_, rfl⟩

/-- The value that a drawn pixel takes from its operand and from what it held (R90, R91). -/
def Job.drawnValue (j : Job) (palettes : List (Nat × BitVec 24)) (m : FrameMemory) (d : SurfaceFields) (x y : Nat) : BitVec 32 :=
  match j.operand palettes m d x y with
  | none => readPixel m d x y
  | some v => ropCombine j.op.rop d.format v (readPixel m d x y)

theorem Job.readPixel_drawPixel (j : Job) (palettes : List (Nat × BitVec 24)) {m : FrameMemory} (h : Memory.wf m) {d : SurfaceFields}
    (hd : SoundFields d) {x y : Nat} (hx : x < d.width) (hy : y < d.height) :
    readPixel (j.drawPixel palettes d y m x) d x y = j.drawnValue palettes m d x y := by
  unfold Job.drawPixel Job.drawnValue
  cases j.operand palettes m d x y with
  | none => rfl
  | some v => exact (readPixel_write_self h hd hx hy _).trans (trim_ropCombine ..)

theorem Job.readPixel_drawPixel_other (j : Job) (palettes : List (Nat × BitVec 24)) {m : FrameMemory} (h : Memory.wf m)
    {d : SurfaceFields} (hd : SoundFields d) {x y x' y' : Nat} (hx : x < d.width) (hy : y < d.height) (hx' : x' < d.width)
    (other : ¬(x = x' ∧ y = y')) : readPixel (j.drawPixel palettes d y m x) d x' y' = readPixel m d x' y' := by
  rcases j.drawPixel_cases palettes d m x y with same | ⟨v, written⟩
  · rw [same]
  · rw [written, readPixel_write_other h hd hx hy hx' other]

/-! ## The pixels of an operation -/

/-- The pixels of a rectangle in the order of a plan: line by line, and in each line column by column (R87, R98, R99). -/
def Plan.pixels (p : Plan) (r : Rect) : List (Nat × Nat) :=
  (List.range r.h).flatMap fun k => (p.columns r).map fun x => (x, p.row r k)

/-- Pixel q comes before pixel p in the order of a plan (R98, R99). -/
def Plan.Before (plan : Plan) (q p : Nat × Nat) : Prop :=
  (if plan.bottomUp then p.2 < q.2 else q.2 < p.2) ∨ (q.2 = p.2 ∧ if plan.rightLeft then p.1 < q.1 else q.1 < p.1)

theorem Plan.mem_columns {p : Plan} {r : Rect} {x : Nat} : x ∈ p.columns r ↔ r.x ≤ x ∧ x < r.x + r.w := by
  have cols : x ∈ (List.range r.w).map (r.x + ·) ↔ r.x ≤ x ∧ x < r.x + r.w := by
    rw [List.mem_map]
    refine ⟨fun ⟨k, hk, at_k⟩ => ?_, fun inside => ⟨x - r.x, List.mem_range.2 (by omega), by omega⟩⟩
    have := List.mem_range.1 hk
    omega
  unfold Plan.columns
  split
  · rw [List.mem_reverse, cols]
  · exact cols

theorem Plan.mem_pixels {p : Plan} {r : Rect} {x y : Nat} :
    (x, y) ∈ p.pixels r ↔ r.x ≤ x ∧ x < r.x + r.w ∧ r.y ≤ y ∧ y < r.y + r.h := by
  unfold Plan.pixels Plan.row
  simp only [List.mem_flatMap, List.mem_map, List.mem_range, Prod.mk.injEq, Plan.mem_columns]
  constructor
  · rintro ⟨k, hk, x', inside, rfl, rfl⟩
    split <;> omega
  · rintro ⟨left, right, top, bottom⟩
    cases p.bottomUp with
    | true => exact ⟨r.y + r.h - 1 - y, by omega, x, ⟨left, right⟩, rfl, by rw [if_pos rfl]; omega⟩
    | false => exact ⟨y - r.y, by omega, x, ⟨left, right⟩, rfl, by rw [if_neg Bool.false_ne_true]; omega⟩

theorem Plan.columns_pairwise (p : Plan) (r : Rect) : (p.columns r).Pairwise fun x x' => if p.rightLeft then x' < x else x < x' := by
  have cols : ((List.range r.w).map (r.x + ·)).Pairwise (· < ·) :=
    List.pairwise_map.2 (List.pairwise_lt_range.imp fun lt => Nat.add_lt_add_left lt r.x)
  unfold Plan.columns
  cases p.rightLeft with
  | true => simpa using List.pairwise_reverse.2 cols
  | false => simpa using cols

/-- The pixels of a rectangle stand in the order of the plan. -/
theorem Plan.pixels_pairwise (p : Plan) (r : Rect) : (p.pixels r).Pairwise p.Before := by
  unfold Plan.pixels
  rw [List.pairwise_flatMap]
  constructor
  · intro k _
    rw [List.pairwise_map]
    exact (p.columns_pairwise r).imp fun later => .inr ⟨rfl, later⟩
  · refine List.pairwise_lt_range.imp_of_mem fun {k l} hk hl lt => ?_
    simp only [List.mem_map]
    rintro _ ⟨x, _, rfl⟩ _ ⟨x', _, rfl⟩
    have := List.mem_range.1 hl
    refine .inl ?_
    unfold Plan.row
    cases p.bottomUp with
    | true => simp only [if_true]; omega
    | false => simp only [Bool.false_eq_true, if_false]; omega

theorem Plan.length_columns (p : Plan) (r : Rect) : (p.columns r).length = r.w := by
  unfold Plan.columns
  split <;> simp

/-- A line is drawn whole by any number of pixels from its width on (R90). -/
theorem Job.drawSome_whole (j : Job) (palettes : List (Nat × BitVec 24)) (m : FrameMemory) (k : Nat) {count : Nat}
    (whole : j.lineWidth ≤ count) : j.drawSome palettes m k 0 count = j.drawLine palettes m k := by
  unfold Job.drawLine Job.drawSome
  unfold Job.lineWidth at *
  cases hr : j.op.rect with
  | none => rfl
  | some r =>
    cases j.dst with
    | none => rfl
    | some d =>
      have length := j.plan.length_columns r
      simp only [hr] at whole
      dsimp only
      rw [List.drop_zero, List.take_of_length_le (by omega), List.take_of_length_le (by omega)]

/-- The lines of a drawing are its pixels, one after another. -/
theorem Job.foldl_drawLine {j : Job} {rect : Rect} {d : SurfaceFields} (palettes : List (Nat × BitVec 24)) (hr : j.op.rect = some rect)
    (hd : j.dst = some d) (m : FrameMemory) : (List.range rect.h).foldl (fun m k => j.drawLine palettes m k) m =
      (j.plan.pixels rect).foldl (fun m p => j.drawPixel palettes d p.2 m p.1) m := by
  have line (m : FrameMemory) (k : Nat) : j.drawLine palettes m k =
      (j.plan.columns rect).foldl (j.drawPixel palettes d (j.plan.row rect k)) m := by
    simp only [Job.drawLine, Job.drawSome, Job.lineWidth, hr, hd, List.drop_zero, ← j.plan.length_columns rect, List.take_length]
  simp only [Plan.pixels, List.foldl_flatMap, List.foldl_map, line]

/-- Drawing pixels leaves every other pixel of the surface (R1, R91). -/
theorem Job.readPixel_foldl_other (j : Job) (palettes : List (Nat × BitVec 24)) {d : SurfaceFields} (hd : SoundFields d)
    {x y : Nat} (hx : x < d.width) (pixels : List (Nat × Nat)) : ∀ {m : FrameMemory}, Memory.wf m →
    (∀ p ∈ pixels, p.1 < d.width ∧ p.2 < d.height) → (x, y) ∉ pixels →
    readPixel (pixels.foldl (fun m p => j.drawPixel palettes d p.2 m p.1) m) d x y = readPixel m d x y := by
  induction pixels with
  | nil => exact fun _ _ _ => rfl
  | cons q rest ih =>
    intro m h inside notIn
    obtain ⟨hqx, hqy⟩ := inside q List.mem_cons_self
    have other : ¬(q.1 = x ∧ q.2 = y) := fun same => notIn (List.mem_cons.2 (.inl (Prod.ext same.1.symm same.2.symm)))
    rw [List.foldl_cons, ih (j.drawPixel_keeps palettes d q.2 h q.1) (fun p hp => inside p (List.mem_cons_of_mem q hp))
      fun mem => notIn (List.mem_cons_of_mem q mem), j.readPixel_drawPixel_other palettes h hd hqx hqy hx other]

/-- Pixel p takes the same operand whether or not pixel q has been drawn before (R93). -/
def Job.Undisturbed (j : Job) (palettes : List (Nat × BitVec 24)) (d : SurfaceFields) (q p : Nat × Nat) : Prop :=
  ∀ m, Memory.wf m → j.operand palettes (j.drawPixel palettes d q.2 m q.1) d p.1 p.2 = j.operand palettes m d p.1 p.2

/-- Pixels drawn one after another take what each would take alone, where no earlier one disturbs a later one's operand. -/
theorem Job.readPixel_foldl (j : Job) (palettes : List (Nat × BitVec 24)) {d : SurfaceFields} (hd : SoundFields d)
    (pixels : List (Nat × Nat)) (inside : ∀ p ∈ pixels, p.1 < d.width ∧ p.2 < d.height)
    (order : pixels.Pairwise fun q p => q ≠ p ∧ j.Undisturbed palettes d q p) : ∀ p ∈ pixels, ∀ m, Memory.wf m →
    readPixel (pixels.foldl (fun m p => j.drawPixel palettes d p.2 m p.1) m) d p.1 p.2 = j.drawnValue palettes m d p.1 p.2 := by
  induction pixels with
  | nil => exact fun _ mem => absurd mem List.not_mem_nil
  | cons q rest ih =>
    intro p mem m h
    obtain ⟨first, later⟩ := List.pairwise_cons.1 order
    obtain ⟨hqx, hqy⟩ := inside q List.mem_cons_self
    have inRest : ∀ p ∈ rest, p.1 < d.width ∧ p.2 < d.height := fun p hp => inside p (List.mem_cons_of_mem q hp)
    have kept := j.drawPixel_keeps palettes d q.2 h q.1
    rw [List.foldl_cons]
    rcases List.mem_cons.1 mem with rfl | hp
    · rw [j.readPixel_foldl_other palettes hd hqx rest kept inRest fun again => (first p again).1 rfl,
        j.readPixel_drawPixel palettes h hd hqx hqy]
    · obtain ⟨ne, undisturbed⟩ := first p hp
      rw [ih inRest later p hp _ kept, Job.drawnValue, Job.drawnValue, undisturbed m h,
        j.readPixel_drawPixel_other palettes h hd hqx hqy (inRest p hp).1 fun same => ne (Prod.ext same.1 same.2)]

/-- After all its lines each pixel of a drawing's rectangle has taken what it would take alone, where no pixel disturbs a later one's
operand. -/
theorem Job.readPixel_lines {j : Job} {rect : Rect} {d : SurfaceFields} (palettes : List (Nat × BitVec 24)) (hr : j.op.rect = some rect)
    (hj : j.dst = some d) (hd : SoundFields d) (inside : rect.inside d = true)
    (undisturbed : ∀ q ∈ j.plan.pixels rect, ∀ p ∈ j.plan.pixels rect, j.plan.Before q p → j.Undisturbed palettes d q p)
    {m : FrameMemory} (h : Memory.wf m) {x y : Nat} (pixel : (x, y) ∈ j.plan.pixels rect) :
    readPixel ((List.range rect.h).foldl (fun m k => j.drawLine palettes m k) m) d x y = j.drawnValue palettes m d x y := by
  unfold Rect.inside at inside
  rw [Bool.and_eq_true, decide_eq_true_eq, decide_eq_true_eq] at inside
  rw [Job.foldl_drawLine palettes hr hj]
  refine j.readPixel_foldl palettes hd (j.plan.pixels rect) (fun p hp => ?_) ?_ (x, y) pixel m h
  · have := Plan.mem_pixels.1 hp
    omega
  · refine (j.plan.pixels_pairwise rect).imp_of_mem fun {q p} hq hp before => ⟨?_, undisturbed q hq p hp before⟩
    rintro rfl
    unfold Plan.Before at before
    split at before <;> split at before <;> omega

end Sys2Proof.Machine
end

section
/-! PROOF. A COPY, an EXPAND and a PATTERN leave what the rules make of the source as it stood (R31, R93, R95, R96, R99). -/

namespace Sys2Proof.Machine

open Sys2Proof.Safety

/-- A line that is written in two parts, the second at its completion, leaves what it leaves when written whole (R90). -/
theorem Job.drawRest_drawSome (j : Job) (palettes : List (Nat × BitVec 24)) (m : FrameMemory) (k n : Nat) :
    ({ j with drawn := n } : Job).drawRest palettes (j.drawSome palettes m k 0 n) k = j.drawLine palettes m k := by
  have parts := j.drawSome_add palettes m k 0 n j.lineWidth
  rw [Nat.zero_add] at parts
  exact parts.trans (j.drawSome_whole palettes m k (Nat.le_add_left _ n))

/-- In the order of its plan a move on one surface reads no pixel that it has written (R98, R99): from the bottom row up, a source
higher up is in no row written so far; from the right, a source to the left in the same row is in no column written so far; else the
source is further down, or no further left in the same row; and rectangles that do not overlap share no pixel. -/
theorem movePlan_source_ne {sx sy : Nat} {rect : Rect} {q p : Nat × Nat} (hq : q ∈ (movePlan true sx sy rect).pixels rect)
    (hp : p ∈ (movePlan true sx sy rect).pixels rect) (before : (movePlan true sx sy rect).Before q p) :
    ¬(q.1 = sx + (p.1 - rect.x) ∧ q.2 = sy + (p.2 - rect.y)) := by
  have inQ := Plan.mem_pixels.1 hq
  have inP := Plan.mem_pixels.1 hp
  unfold movePlan at before
  unfold Plan.Before at before
  rw [Bool.true_and] at before
  split at before
  · split at before
    · simp only [if_true, Bool.false_eq_true, if_false] at before
      omega
    · split at before
      · simp only [if_true, Bool.false_eq_true, if_false] at before
        omega
      · simp only [Bool.false_eq_true, if_false] at before
        omega
  · next apart =>
    unfold Rect.overlaps at apart
    simp only [Bool.and_eq_true, decide_eq_true_eq] at apart
    omega

/-- Drawing a pixel of a move leaves the source of every pixel that comes after it in the plan (R93, R99). -/
theorem Job.readPixel_source {j : Job} (palettes : List (Nat × BitVec 24)) {src dst : SurfaceId} {sx sy : Nat} {rect : Rect}
    {a d : SurfaceFields} (ha : SoundFields a) (hd : SoundFields d) (plan : j.plan = movePlan (src == dst) sx sy rect)
    (inside : rect.inside d = true) (surfaces : src = dst ∧ a = d ∨ src ≠ dst ∧ Apart a d) (width : sx + rect.w ≤ a.width)
    (height : sy + rect.h ≤ a.height) {q p : Nat × Nat} (hq : q ∈ j.plan.pixels rect) (hp : p ∈ j.plan.pixels rect)
    (before : j.plan.Before q p) {m : FrameMemory} (h : Memory.wf m) :
    readPixel (j.drawPixel palettes d q.2 m q.1) a (sx + (p.1 - rect.x)) (sy + (p.2 - rect.y)) =
      readPixel m a (sx + (p.1 - rect.x)) (sy + (p.2 - rect.y)) := by
  unfold Rect.inside at inside
  rw [Bool.and_eq_true, decide_eq_true_eq, decide_eq_true_eq] at inside
  have inQ := Plan.mem_pixels.1 hq
  have inP := Plan.mem_pixels.1 hp
  rcases surfaces with ⟨rfl, rfl⟩ | ⟨_, apart⟩
  · rw [plan, beq_self_eq_true] at hq hp before
    exact j.readPixel_drawPixel_other palettes h hd (by omega) (by omega) (by omega) (movePlan_source_ne hq hp before)
  · rcases j.drawPixel_cases palettes d m q.1 q.2 with same | ⟨v, written⟩
    · rw [same]
    · rw [written, readPixel_write_apart m ha hd apart (by omega) (by omega) (by omega) (by omega)]

/-! ## The kinds -/

theorem Job.operand_copy {j : Job} {src dst : SurfaceId} {sx sy : Nat} {rect : Rect} {rop : BitVec 4} {key : Option (BitVec 32)}
    {clip : Option Rect} {a : SurfaceFields} (op : j.op = .copy src sx sy dst rect rop key clip) (hj : j.src = some a)
    (palettes : List (Nat × BitVec 24)) (m : FrameMemory) (d : SurfaceFields) (x y : Nat) : j.operand palettes m d x y =
      if outside clip x y = true then none
      else if equalsKey key a.format (readPixel m a (sx + (x - rect.x)) (sy + (y - rect.y))) = true then none
      else some (convertPixel (Palette.read palettes a.palette) a.format d.format
        (readPixel m a (sx + (x - rect.x)) (sy + (y - rect.y)))) := by
  unfold Job.operand Job.colours
  simp only [op, hj, Op.clip, outside_eq, equalsKey_eq]

theorem Job.operand_pattern {j : Job} {src dst : SurfaceId} {px py phaseX phaseY : Nat} {rect : Rect} {rop : BitVec 4}
    {key : Option (BitVec 32)} {clip : Option Rect} {a : SurfaceFields}
    (op : j.op = .pattern src px py phaseX phaseY dst rect rop key clip) (hj : j.src = some a)
    (palettes : List (Nat × BitVec 24)) (m : FrameMemory) (d : SurfaceFields) (x y : Nat) : j.operand palettes m d x y =
      if outside clip x y = true then none
      else if equalsKey key a.format (latchEntry j.latch phaseX phaseY rect x y) = true then none
      else some (latchEntry j.latch phaseX phaseY rect x y) := by
  unfold Job.operand
  simp only [op, hj, Op.clip, outside_eq, equalsKey_eq]

theorem Job.operand_expand {j : Job} {src dst : SurfaceId} {sx sy : Nat} {rect : Rect} {fore : BitVec 32} {back : Option (BitVec 32)}
    {rop : BitVec 4} {clip : Option Rect} {a : SurfaceFields} (op : j.op = .expand src sx sy dst rect fore back rop clip)
    (hj : j.src = some a) (palettes : List (Nat × BitVec 24)) (m : FrameMemory) (d : SurfaceFields) (x y : Nat) :
    j.operand palettes m d x y =
      if outside clip x y = true then none
      else if readPixel m a (sx + (x - rect.x)) (sy + (y - rect.y)) = 1#32 then some (d.format.trim fore)
      else back.map d.format.trim := by
  unfold Job.operand
  simp only [op, hj, Op.clip, outside_eq]

/-! ### What each pixel takes -/

theorem Job.drawnValue_none {j : Job} {palettes : List (Nat × BitVec 24)} {m : FrameMemory} {d : SurfaceFields} {x y : Nat}
    (h : j.operand palettes m d x y = none) : j.drawnValue palettes m d x y = readPixel m d x y := by
  unfold Job.drawnValue
  simp only [h]

theorem Job.drawnValue_some {j : Job} {palettes : List (Nat × BitVec 24)} {m : FrameMemory} {d : SurfaceFields} {x y : Nat} {v : BitVec 32}
    (h : j.operand palettes m d x y = some v) :
    j.drawnValue palettes m d x y = ropCombine j.op.rop d.format v (readPixel m d x y) := by
  unfold Job.drawnValue
  simp only [h]

/-- What a pixel takes that may be clipped or keyed (R26, R27, R90). -/
theorem Job.drawnValue_keyed {j : Job} {palettes : List (Nat × BitVec 24)} {m : FrameMemory} {d : SurfaceFields} {x y : Nat}
    {clipped matched : Bool} {v : BitVec 32}
    (h : j.operand palettes m d x y = if clipped = true then none else if matched = true then none else some v) :
    j.drawnValue palettes m d x y =
      if clipped = true ∨ matched = true then readPixel m d x y else ropCombine j.op.rop d.format v (readPixel m d x y) := by
  cases clipped with
  | true => exact Job.drawnValue_none h
  | false =>
    cases matched with
    | true => exact Job.drawnValue_none h
    | false => exact Job.drawnValue_some h

theorem latchEntry_eq {latch : List (BitVec 32)} {phaseX phaseY : Nat} {rect : Rect} {x y : Nat} {v : BitVec 32} (left : rect.x ≤ x)
    (top : rect.y ≤ y) (entry : latch[8 * ((phaseY + (y - rect.y)) % 8) + (phaseX + (x - rect.x)) % 8]? = some v) :
    latchEntry latch phaseX phaseY rect x y = v := by
  unfold latchEntry
  rw [Nat.add_sub_assoc left, Nat.add_sub_assoc top, List.getD_eq_getElem?_getD, entry]
  rfl

/-- Settles O49: no pixel of the plan disturbs the source of a later one, so each takes what it would take alone. -/
theorem copyReadsSourceBeforeWriting : Obligations.CopyReadsSourceBeforeWriting := by
  intro palettes m j src dst rect rop clip a d h ha hd plan hsrc hdst inside surfaces
  refine ⟨fun m k n => j.drawRest_drawSome palettes m k n, fun x y left right top bottom => ?_⟩
  have pixel : (x, y) ∈ j.plan.pixels rect := Plan.mem_pixels.2 ⟨left, right, top, bottom⟩
  refine ⟨?_, ?_, ?_⟩
  · rintro sx sy key v op width height rfl
    rw [op] at plan
    rw [Job.readPixel_lines palettes (by rw [op]; rfl) hdst hd inside (fun q hq p hp before m h => ?_) h pixel,
      Job.drawnValue_keyed (Job.operand_copy op hsrc palettes m d x y), op]
    · rfl
    · rw [Job.operand_copy op hsrc, Job.operand_copy op hsrc,
        Job.readPixel_source palettes ha hd plan inside surfaces width height hq hp before h]
  · rintro sx sy fore back v op width height rfl
    rw [op] at plan
    rw [Job.readPixel_lines palettes (by rw [op]; rfl) hdst hd inside (fun q hq p hp before m h => ?_) h pixel]
    · have operand := Job.operand_expand op hsrc palettes m d x y
      have code : j.op.rop = rop := by rw [op]; rfl
      by_cases clipped : outside clip x y = true
      · rw [if_pos clipped] at operand ⊢
        exact Job.drawnValue_none operand
      rw [if_neg clipped] at operand ⊢
      by_cases one : readPixel m a (sx + (x - rect.x)) (sy + (y - rect.y)) = 1#32
      · rw [if_pos one] at operand ⊢
        rw [Job.drawnValue_some operand, code, ropCombine_trim]
      rw [if_neg one] at operand ⊢
      cases back with
      | none => exact Job.drawnValue_none operand
      | some b => rw [Job.drawnValue_some operand, code, ropCombine_trim]
    · rw [Job.operand_expand op hsrc, Job.operand_expand op hsrc,
        Job.readPixel_source palettes ha hd plan inside surfaces width height hq hp before h]
  · intro px py phaseX phaseY key v op entry
    rw [Job.readPixel_lines palettes (by rw [op]; rfl) hdst hd inside (fun q hq p hp before m h => ?_) h pixel,
      Job.drawnValue_keyed (Job.operand_pattern op hsrc palettes m d x y), op, latchEntry_eq left top entry]
    · rfl
    · rw [Job.operand_pattern op hsrc, Job.operand_pattern op hsrc]

end Sys2Proof.Machine
end

section
/-! PROOF. The channels and the queue actions RESUME and those that are refused (R45, R55, R56, R143, R184), and the answers to abandoned
accesses (R51, R124, R150, R173). -/

namespace Sys2Proof.Machine

open Sys2Proof.Safety

/-- A register write reaches the part while the link is up (R179). -/
theorem State.whileUp_up {s : State} (up : s.link.up = true) (t : State) : s.whileUp t = t := if_pos up

/-! ## SUBMIT and CONSUME -/

/-- A SUBMIT that is taken (R45). -/
theorem State.submitWrite_taken {s : State} {q : QueueId} {c : Queue} {v : BitVec 12} (h : s.queue q = some c) (below : v.toNat < c.size) :
    s.submitWrite q v = (s.setQueue q (some { c with tail := v.toNat })).serveFetch := by
  unfold State.submitWrite
  simp only [h, if_pos below]

theorem State.submitWrite_refused {s : State} {q : QueueId} {v : BitVec 12}
    (h : s.queue q = none ∨ ∃ c, s.queue q = some c ∧ c.size ≤ v.toNat) : s.submitWrite q v = s.refuseSubmit := by
  unfold State.submitWrite
  rcases h with unused | ⟨c, used, above⟩
  · simp only [unused]
  · simp only [used, if_neg (Nat.not_lt.2 above)]

/-- A CONSUME that is taken (R143). -/
theorem State.consumeWrite_taken {s : State} {k : CqId} {c : CompletionQueue} {v : BitVec 12} (h : s.cq k = some c)
    (below : v.toNat < c.size) (seen : ringDistance c.size c.head v.toNat ≤ c.outstanding) : s.consumeWrite k v =
      (s.setCq k (some { c with
        head := v.toNat, outstanding := c.outstanding - ringDistance c.size c.head v.toNat })).issueWrites := by
  unfold State.consumeWrite
  simp only [h, if_pos (And.intro below seen)]

theorem State.consumeWrite_refused {s : State} {k : CqId} {v : BitVec 12} (h : s.cq k = none ∨ ∃ c, s.cq k = some c ∧
    (c.size ≤ v.toNat ∨ c.outstanding < ringDistance c.size c.head v.toNat)) : s.consumeWrite k v = s.refuseConsume := by
  unfold State.consumeWrite
  rcases h with unconfigured | ⟨c, configured, outside⟩
  · simp only [unconfigured]
  · simp only [configured]
    refine if_neg fun ⟨below, seen⟩ => ?_
    omega

/-- Settles O15, by the two writes, each taken or refused. -/
theorem channelsTakeIndices : Obligations.ChannelsTakeIndices := by
  intro s v up
  refine ⟨fun q c used below => goesTo_of_serve ?_, fun q refused => ?_, fun k c configured below seen => ⟨_, rfl, ?_⟩, fun k refused => ?_⟩
  · show Host.Outcome.next (s.whileUp (s.submitWrite q v)) = _
    rw [State.whileUp_up up, State.submitWrite_taken used below]
  · show Host.Outcome.next (s.whileUp (s.submitWrite q v)) = _
    rw [State.whileUp_up up, State.submitWrite_refused refused]
    rfl
  · rw [State.whileUp_up up, State.consumeWrite_taken configured below seen]
    exact State.issueWrites_spec _
  · show Host.Outcome.next (s.whileUp (s.consumeWrite k v)) = _
    rw [State.whileUp_up up, State.consumeWrite_refused refused]
    rfl

/-! ## RESUME and the refused actions -/

/-- A RESUME that is taken (R56). -/
theorem State.resumeAction_taken {s : State} {q : QueueId} {c : Queue} (running : s.control.deviceState = .running)
    (h : s.queue q = some c) (halted : c.state = .halted) : s.resumeAction q = (s.setQueue q (some { c with
      state := if s.waiting.any (fun w => w.queue = q) then .waiting else .opened })).serveFetch := by
  unfold State.resumeAction
  simp only [h, if_pos (And.intro running halted)]

theorem State.resumeAction_refused {s : State} {q : QueueId}
    (h : s.control.deviceState ≠ .running ∨ ∀ c, s.queue q = some c → c.state ≠ .halted) : s.resumeAction q = s.refuseQctl := by
  unfold State.resumeAction
  split
  · rfl
  · next c used => exact if_neg fun ⟨running, halted⟩ => h.elim (· running) (· c used halted)

theorem State.abortAction_refused {s : State} {q : QueueId}
    (h : s.control.deviceState ≠ .running ∨ ∀ c, s.queue q = some c → c.state = .draining) : s.abortAction q = s.refuseQctl := by
  unfold State.abortAction
  split
  · rfl
  · next c used => exact if_neg fun ⟨running, live⟩ => h.elim (· running) (live <| · c used)

/-- A QCTL action code other than RESUME's and ABORT's (R184). -/
theorem State.qctlWrite_refused {s : State} {v : BitVec 32} (notResume : v.extractLsb' 8 2 ≠ 1#2) (notAbort : v.extractLsb' 8 2 ≠ 2#2) :
    s.qctlWrite v = s.refuseQctl := by
  unfold State.qctlWrite
  dsimp only
  split
  · next code => exact absurd (BitVec.eq_of_toNat_eq code) notResume
  · next code => exact absurd (BitVec.eq_of_toNat_eq code) notAbort
  · rfl

/-- Settles O16: the queue's state is WAITING just when the waiting list has an entry of it. -/
theorem resumeReopensQueue : Obligations.ResumeReopensQueue := by
  intro s q c up running used halted
  have resumed : exec (.resume q) s = .next (s.setQueue q (some { c with
      state := if s.waiting.any (fun w => w.queue = q) then .waiting else .opened })).serveFetch := by
    show Host.Outcome.next (s.whileUp (s.resumeAction q)) = _
    rw [State.whileUp_up up, State.resumeAction_taken running used halted]
  constructor
  · rintro ⟨w, mem, own⟩
    rw [if_pos (List.any_eq_true.2 ⟨w, mem, decide_eq_true own⟩)] at resumed
    exact goesTo_of_serve resumed
  · intro none
    rw [if_neg (by simpa using none)] at resumed
    exact goesTo_of_serve resumed

/-- Settles O17, one refusal after the other. -/
theorem refusedQueueActions : Obligations.RefusedQueueActions := by
  intro s q up
  refine ⟨fun refused => ?_, fun refused => ?_, fun v notResume notAbort => ?_⟩
  · show Host.Outcome.next (s.whileUp (s.resumeAction q)) = _
    rw [State.whileUp_up up, State.resumeAction_refused refused]
    rfl
  · show Host.Outcome.next (s.whileUp (s.abortAction q)) = _
    rw [State.whileUp_up up, State.abortAction_refused refused]
    rfl
  · show Host.Outcome.next (s.whileUp (s.qctlWrite v)) = _
    rw [State.whileUp_up up, State.qctlWrite_refused notResume notAbort]
    rfl

/-! ## Answers to abandoned accesses -/

/-- The first abandoned write of the record is the one that is answered (log 28). -/
theorem answerAbandoned_first (reached : Bool) {before rest : List LinkWrite} {a : Nat} {data : List Byte}
    (first : ∀ x ∈ before, ∀ b d, x ≠ .abandoned b d) : answerAbandoned reached (before ++ .abandoned a data :: rest) =
      before ++ if reached then .bytes a data :: rest else rest := by
  induction before with
  | nil => rfl
  | cons w before ih =>
    have tail := ih fun x mem => first x (List.mem_cons_of_mem _ mem)
    cases w with
    | abandoned b d => exact absurd rfl (first _ List.mem_cons_self b d)
    | _ => exact congrArg (List.cons _) tail

theorem answerAbandoned_none (reached : Bool) {l : List LinkWrite} (none : ∀ x ∈ l, ∀ b d, x ≠ .abandoned b d) :
    answerAbandoned reached l = l := by
  induction l with
  | nil => rfl
  | cons w l ih =>
    have tail := ih fun x mem => none x (List.mem_cons_of_mem _ mem)
    cases w with
    | abandoned b d => exact absurd rfl (none _ List.mem_cons_self b d)
    | _ => exact congrArg (List.cons _) tail

/-- Settles O32: three answers are no effect by definition, the fourth touches the record of writes alone. -/
theorem abandonedAnswersChangeNothing : Obligations.AbandonedAnswersChangeNothing := by
  intro s
  have answer (r : Bool) : exec (.abandonedWriteAnswer r) s =
      .next { s with link := { s.link with written := answerAbandoned r s.link.written } } := rfl
  refine ⟨rfl, rfl, rfl, fun before a data rest written first => ⟨?_, ?_⟩, fun r none => ?_⟩
  · rw [answer, written, answerAbandoned_first false first]
    rfl
  · rw [answer, written, answerAbandoned_first true first]
    rfl
  · rw [answer, answerAbandoned_none r none]

end Sys2Proof.Machine
end

section
/-! PROOF. The slots that acknowledgements and fetches take: ABORT of a queue without slots, ABORT_ACK_PLACE, FETCH_START and the end of an
overtaken fetch (R47 to R52, R57 to R60, R175). -/

namespace Sys2Proof.Machine

open Sys2Proof.Safety

/-! ## The acknowledgement of a queue that holds no slot -/

theorem State.cqs_eq {s t : State} (h : ∀ k, t.cq k = s.cq k) : t.cqs = s.cqs := by
  refine Vector.ext fun k below => ?_
  exact h ⟨k, below⟩

/-- The acknowledgement of a DRAINING queue that holds no slot ends DRAINING as it is placed (R58, R59). -/
theorem State.placeAck_slotless {s : State} {q : QueueId} {c : Queue} {k : CompletionQueue} (bound : s.cq c.cq = some k)
    (draining : c.state = .draining) (slotless : ∀ j, (s.slot j).queue ≠ some q) (n : Nat) (i : SlotId) : s.placeAck q c n i =
      { ((s.setSlot i (ackSlot q n)).setQueue q (some { c with
          occupied := c.occupied + 1, state := .opened, abort := .absent })).setCq c.cq
          (some { k with posting := k.posting ++ [i] }) with
        ackOrder := s.ackOrder.filter (· ≠ q) } := by
  obtain ⟨placed, cqs⟩ := s.placeAck_spec q c n i
  have others : ∀ j, j ≠ i → ((s.setSlot i (ackSlot q n)).slot j).queue ≠ some q := fun j other => by
    rw [State.slot_setSlot, if_neg (Ne.symm other)]
    exact slotless j
  rw [drainEnded, if_pos ⟨draining, i, rfl, others⟩] at placed
  have posted : (s.placeAck q c n i).cqs = (s.setCq c.cq (some { k with posting := k.posting ++ [i] })).cqs :=
    State.cqs_eq fun p => by
      rw [cqs p, State.cq_setCq]
      split
      · next own => rw [← own, bound]; rfl
      · rfl
  rw [placed, posted]
  rfl

/-- ABORT_ACK_PLACE where it places (R58). -/
theorem execAbortAckPlace_placed {s : State} {q : QueueId} {c : Queue} {i : SlotId} {n : Nat} (h : s.queue q = some c)
    (owed : c.abort = .owed n .anyFree) (alive : s.control.deviceState ≠ .fault) (first : s.ackOrder.head? = some q)
    (free : (s.slot i).state = .free) :
    exec (.abortAckPlace q i) s = .next (s.placeAck q c n i).issueWrites.serveFetch := by
  have may : s.mayPlace q .anyFree i = true := by simp [State.mayPlace, State.isFree, first, free]
  show execAbortAckPlace q i s = _
  simp only [execAbortAckPlace, h, owed, if_pos (And.intro alive may)]

/-- Settles O37: the acknowledgement is placed, and ends DRAINING as the queue holds no other slot. -/
theorem waitingAckTakesSlot : Obligations.WaitingAckTakesSlot := by
  intro s q c k i n used owed draining bound first free slotless
  refine ⟨fun alive => ⟨_, goesTo_of_serve (execAbortAckPlace_placed used owed alive first free), ?_⟩, fun fault => ?_⟩
  · have issued := (s.placeAck q c n i).issueWrites_spec
    rw [State.placeAck_slotless bound draining slotless] at issued ⊢
    exact issued
  · show execAbortAckPlace q i s = _
    simp only [execAbortAckPlace, used, owed]
    exact if_neg fun both => both.1 fault

/-! ## ABORT -/

/-- The context of a queue once its ABORT is taken: DRAINING, the head at the tail, and an acknowledgement owed (R57). -/
def Queue.owing (c : Queue) (n : Nat) (claim : Claim) : Queue := { c with state := .draining, head := c.tail, abort := .owed n claim }

/-- The ABORT of a queue without a slot: the queue owes its acknowledgement, which waits behind the others (R58). -/
def State.awaiting (s : State) (q : QueueId) (c : Queue) : State :=
  { s.setQueue q (some (c.owing (ringDistance c.size c.head c.tail) .anyFree)) with ackOrder := s.ackOrder ++ [q] }

theorem State.awaiting_queue (s : State) (q : QueueId) (c : Queue) :
    (s.awaiting q c).queue q = some (c.owing (ringDistance c.size c.head c.tail) .anyFree) := State.queue_setQueue_self s q _

/-- Steps 1 to 3 of R57, with the engines asked to stop (R102). -/
def State.aborting (s : State) (q : QueueId) (c : Queue) : State := (s.beginAbort q c).askEngines fun i => (s.slot i).queue = some q

/-- The endings that an ABORT brings (R57): of the queue's slots that end at once. -/
def State.abortEndings (s : State) (q : QueueId) : List Ending := s.abortedEndings fun sl => sl.queue = some q && sl.endsAtOnce

/-- What an ABORT that is taken leaves, before the next fetch (R57, R58). -/
def State.aborted (s : State) (q : QueueId) (c : Queue) : State := ((s.aborting q c).endSlots (s.abortEndings q)).placeAtOnce q

theorem exec_abort {s : State} {q : QueueId} {c : Queue} (up : s.link.up = true) (running : s.control.deviceState = .running)
    (h : s.queue q = some c) (live : c.state ≠ .draining) : exec (.abort q) s = .next (s.aborted q c).serveFetch := by
  show Host.Outcome.next (s.whileUp (s.abortAction q)) = _
  rw [State.whileUp_up up]
  unfold State.abortAction
  simp only [h, if_pos (And.intro running live)]
  rfl

/-- An engine that is not asked goes on. -/
theorem State.askEngines_engine (s : State) (asked : SlotId → Bool) (e : EngineId) : (s.askEngines asked).engine e =
    match (s.engine e).slot with
    | some i => if asked i then stopAsked (s.engine e) else s.engine e
    | none => s.engine e := by
  unfold State.engine State.askEngines
  simp only [Fin.getElem_fin, Vector.getElem_ofFn]
  rfl

theorem State.askEngines_none {s : State} {asked : SlotId → Bool} (none : ∀ i, asked i = false) : s.askEngines asked = s := by
  have same : (s.askEngines asked).engines = s.engines := by
    refine Vector.ext fun k below => ?_
    simp only [State.askEngines, Vector.getElem_ofFn, none, Bool.false_eq_true, if_false]
    split <;> rfl
  show { s with engines := (s.askEngines asked).engines } = s
  rw [same]

/-- An ABORT of a queue without a slot and without a fetch begins with its queue's context, and its place among those that wait (R57, R58). -/
theorem State.aborting_slotless {s : State} {q : QueueId} {c : Queue} (empty : c.occupied = 0) (slotless : ∀ i, (s.slot i).queue ≠ some q)
    (idle : ∀ f, s.fetch = some f → f.queue ≠ q) : s.aborting q c = s.awaiting q c := by
  have fetching : s.fetching q = false := by
    unfold State.fetching
    split
    · next f hf => rw [decide_eq_false (idle f hf), Bool.false_and]
    · rfl
  have skipped : s.skippedCount q c = ringDistance c.size c.head c.tail := by
    unfold State.skippedCount
    exact if_neg fun both => Bool.false_ne_true (fetching.symm.trans both.2)
  have fetch : (s.fetch.map fun (f : Fetch) => if f.queue = q then { f with discard := true } else f) = s.fetch := by
    cases hf : s.fetch with
    | none => rfl
    | some f => exact congrArg some (if_neg (idle f hf))
  unfold State.aborting
  rw [State.askEngines_none fun i => decide_eq_false (slotless i)]
  unfold State.beginAbort
  rw [skipped, fetch, if_pos empty, Queue.firstClaim, if_pos empty]
  rfl

theorem State.abortEndings_slotless {s : State} {q : QueueId} (slotless : ∀ i, (s.slot i).queue ≠ some q) : s.abortEndings q = [] := by
  unfold State.abortEndings State.abortedEndings
  rw [List.map_eq_nil_iff, List.filter_eq_nil_iff]
  intro i _
  simp [slotless i]

theorem State.anyFreeSlot_none {s : State} (h : ∀ i, (s.slot i).state ≠ .free) : s.anyFreeSlot = none := by
  cases taken : s.anyFreeSlot with
  | none => rfl
  | some i => exact absurd (State.anyFreeSlot_free taken) (h i)

/-- An acknowledgement that waits alone takes a FREE slot at once (R58). -/
theorem State.placeAtOnce_placed {s : State} {q : QueueId} {c : Queue} {i : SlotId} {n : Nat} (h : s.queue q = some c)
    (slot : s.anyFreeSlot = some i) (owed : c.abort = .owed n .anyFree) (alone : s.ackOrder = [q]) :
    s.placeAtOnce q = (s.choose.placeAck q c n i).issueWrites := by
  unfold State.placeAtOnce
  simp only [h, slot, owed, if_pos alone]

/-- One that finds no FREE slot, or waits behind others, stays where it is. -/
theorem State.placeAtOnce_waits {s : State} {q : QueueId} (h : s.anyFreeSlot = none ∨ s.ackOrder ≠ [q]) : s.placeAtOnce q = s := by
  unfold State.placeAtOnce
  split
  · next slot =>
    split
    · exact if_neg (h.resolve_left fun none => nomatch slot.symm.trans none)
    · rfl
  · rfl

/-- The acknowledgement of a queue without a slot ends DRAINING where it is placed at once (R58, R59). -/
theorem State.awaiting_placed {s : State} {q : QueueId} {c : Queue} {k : CompletionQueue} {i : SlotId} (empty : c.occupied = 0)
    (first : s.ackOrder = []) (slotless : ∀ i, (s.slot i).queue ≠ some q) (bound : s.cq c.cq = some k) :
    (s.awaiting q c).choose.placeAck q (c.owing (ringDistance c.size c.head c.tail) .anyFree) (ringDistance c.size c.head c.tail) i =
      { ((s.setSlot i (ackSlot q ((c.tail + c.size - c.head) % c.size))).setQueue q (some { c with
          state := .opened, head := c.tail, occupied := 1, abort := .absent })).setCq c.cq
            (some { k with posting := k.posting ++ [i] }) with choices := s.choices + 1 } := by
  have order : (s.ackOrder ++ [q]).filter (· ≠ q) = s.ackOrder := by simp [first]
  refine (State.placeAck_slotless (s := (s.awaiting q c).choose) (c := c.owing (ringDistance c.size c.head c.tail) .anyFree) bound rfl
    slotless _ i).trans ?_
  simp only [State.awaiting, State.choose, State.setQueue, State.setSlot, State.setCq, Vector.set_set, order, Queue.owing, empty]
  rfl

/-- Settles O18: nothing ends, and the acknowledgement is placed or waits. -/
theorem abortOfSlotlessQueue : Obligations.AbortOfSlotlessQueue := by
  intro s q c up running used live empty slotless idle
  have taken := exec_abort up running used live
  have begun : (s.aborting q c).endSlots (s.abortEndings q) = s.aborting q c := by
    rw [State.abortEndings_slotless slotless]
    exact State.endSlots_nil_running running
  rw [State.aborted, begun, State.aborting_slotless empty slotless idle] at taken
  constructor
  · intro k first someFree bound
    obtain ⟨i, slot⟩ := State.anyFreeSlot_isSome someFree
    rw [State.placeAtOnce_placed (s.awaiting_queue q c) slot rfl (congrArg (· ++ [q]) first)] at taken
    rw [State.awaiting_placed empty first slotless bound] at taken
    exact ⟨_, i, goesTo_of_serve taken, State.anyFreeSlot_free slot, State.issueWrites_spec _⟩
  · intro waits
    have resting : ¬FetchPossible (s.awaiting q c) := fun possible => by
      have none : s.ackOrder ++ [q] = [] := possible.2.2.1
      simp at none
    have stays : (s.awaiting q c).placeAtOnce q = s.awaiting q c := by
      refine State.placeAtOnce_waits (waits.symm.imp (State.anyFreeSlot_none (s := s.awaiting q c)) fun others alone => ?_)
      exact others (List.append_left_eq_self.1 alone)
    rw [taken, stays, State.serveFetch_rest resting]
    rfl

end Sys2Proof.Machine
end

section
/-! PROOF. The start of a fetch and the end of an overtaken one (R47 to R52, R58 to R60, R80, R110, R175). -/

namespace Sys2Proof.Machine

open Sys2Proof.Safety

/-! ## FETCH_START -/

theorem exec_fetchStart {s : State} {q : QueueId} {c : Queue} {i : SlotId} (chosen : s.chosenQueue = some q) (h : s.queue q = some c)
    (free : (s.slot i).state = .free) : exec (.fetchStart i) s = .next (s.beginFetch q c i).serveFetch := by
  show execFetchStart i s = _
  simp only [execFetchStart, chosen, h, State.isFree, free, decide_true, if_true]

/-- Settles O34: a read that is sent takes the fetch path, so that no fetch follows; one that is refused leaves it free. -/
theorem fetchTakesSlot : Obligations.FetchTakesSlot := by
  intro s q c i chosen used free
  have started := exec_fetchStart chosen used free
  unfold State.beginFetch at started
  refine ⟨fun on => ?_, fun off => ?_⟩
  · rw [started, if_pos on, State.serveFetch_rest (s.startFetch_impossible q c i), State.startFetch, on]
    rfl
  · rw [if_neg (by rw [off]; exact Bool.false_ne_true)] at started
    exact ⟨_, goesTo_of_serve started, s.refuseFetch_spec q c i⟩

/-! ## The end of a stop (R148, R175) -/

/-- An interrupt touches the link alone. -/
theorem State.interrupt_same (s : State) (v : VectorId) : s.interrupt v = { s with link := (s.interrupt v).link } := by
  unfold State.interrupt
  split <;> rfl

theorem State.foldl_interrupt_same (l : List VectorId) (s : State) :
    l.foldl State.interrupt s = { s with link := (l.foldl State.interrupt s).link } := by
  induction l generalizing s with
  | nil => rfl
  | cons v rest ih =>
    have first := s.interrupt_same v
    rw [List.foldl_cons]
    generalize s.interrupt v = u at first ⊢
    rw [ih u, first]

theorem State.stopInterrupts_same (s : State) :
    s.stopInterrupts = { s with link := s.stopInterrupts.link, choices := s.choices + 1 } := State.foldl_interrupt_same _ s.choose

/-- Where the configuration of link l allows it, the message of the vector is the last of link m's writes; else the vector is pending there
(R147). -/
def SignalledLast (l m : HostLink) (v : VectorId) : Prop :=
  if l.messageInterrupts = true ∧ l.busMastering = true ∧ l.masked[v] = false
  then m.written.getLast? = some (.message v) else m.pendingFlags[v] = true

/-- Only the configuration of the first link is read. -/
theorem SignalledLast.of_configuration {l l' m : HostLink} {v : VectorId} (h : SignalledLast l m v)
    (mastering : l.busMastering = l'.busMastering) (messages : l.messageInterrupts = l'.messageInterrupts)
    (masked : l.masked = l'.masked) : SignalledLast l' m v := by
  unfold SignalledLast at h ⊢
  rwa [← mastering, ← messages, ← masked]

theorem State.interrupt_last (s : State) (v : VectorId) : SignalledLast s.link (s.interrupt v).link v := by
  have allows : s.link.allows v = true ↔
      s.link.messageInterrupts = true ∧ s.link.busMastering = true ∧ s.link.masked[v] = false := by
    simp [HostLink.allows, and_assoc]
  unfold SignalledLast State.interrupt
  simp only [allows]
  split
  · simp [State.emit]
  · simp

/-- The passage from STOPPING to OFF (R175): the interrupts of the completion queues, everything unconfigured, the device vector. -/
theorem State.finishStop_stopped {s : State} (stopping : s.control.deviceState = .stopping) (free : ∀ i, (s.slot i).state = .free) :
    s.finishStop.control = { s.control with deviceState := .off } ∧ (∀ q, s.finishStop.queue q = none) ∧
      (∀ k, s.finishStop.cq k = none) ∧ s.finishStop.presentation = { s.presentation with panel := none } ∧
      SignalledLast s.link s.finishStop.link s.control.deviceVector := by
  have window : s.windowFree = true := List.all_eq_true.2 fun i _ => decide_eq_true (free i)
  obtain ⟨_, mastering, messages, masked⟩ := s.stopInterrupts_settled.configuration
  have same := s.stopInterrupts_same
  have control : s.stopInterrupts.control = s.control := by rw [same]
  have presentation : s.stopInterrupts.presentation = s.presentation := by rw [same]
  have stopped : s.finishStop = State.interrupt { s.stopInterrupts.unconfigure with
      control := { s.control with deviceState := .off } } s.control.deviceVector := by
    unfold State.finishStop
    rw [if_pos ⟨stopping, window⟩, ← control]
    rfl
  have last := State.interrupt_last { s.stopInterrupts.unconfigure with control := { s.control with deviceState := .off } }
    s.control.deviceVector
  rw [← stopped] at last
  refine ⟨?_, fun q => ?_, fun k => ?_, ?_,
    last.of_configuration mastering messages masked⟩ <;> rw [stopped, State.interrupt_same]
  · simp [State.queue, State.unconfigure]
  · simp [State.cq, State.unconfigure]
  · exact congrArg (fun p : Presentation => { p with panel := none }) presentation

/-! ## OVERTAKEN_FETCH_END -/

theorem exec_overtakenFetchEnd {s : State} {f : Fetch} (h : s.fetch = some f) (overtaken : f.discard = true) :
    exec .overtakenFetchEnd s = .next (State.freeSlot { s with fetch := none } f.slot).conclude.serveFetch := by
  show execOvertakenFetchEnd s = _
  simp only [execOvertakenFetchEnd, h, overtaken, if_true]

/-- A slot that no acknowledgement takes is FREE (R58, R80). -/
theorem State.freeSlot_unclaimed {s : State} {i : SlotId} {q : QueueId} {c : Queue} (h : (s.slot i).queue = some q)
    (hq : s.queue q = some c) (alive : s.control.deviceState ≠ .fault) (unowed : ∀ n, c.abort ≠ .owed n .firstFreed)
    (none : s.ackOrder = []) : (s.freeSlot i).slot i = Slot.freed := by
  obtain ⟨s0, begun, _, taken⟩ := State.freeSlot_spec h hq
  obtain ⟨s1, drained, last, _⟩ := (taken alive).2 unowed
  rw [last none, drained, begun]
  exact State.slot_setSlot_self s i _

/-- The last slot of a stopping device is freed by the end of an overtaken fetch (R175). -/
theorem execOvertakenFetchEnd_stops {s : State} {f : Fetch} (h : s.fetch = some f) (overtaken : f.discard = true)
    (stopping : s.control.deviceState = .stopping) (freed : (State.freeSlot { s with fetch := none } f.slot).slot f.slot = Slot.freed)
    (others : ∀ j, j ≠ f.slot → (s.slot j).state = .free) :
    ∃ t, exec .overtakenFetchEnd s = .next t ∧ t.control = { s.control with deviceState := .off } ∧ t.fetch = none ∧
      (∀ p, t.queue p = none) ∧ (∀ p, t.cq p = none) ∧ (∀ j, (t.slot j).state = .free) ∧
      t.presentation = { s.presentation with panel := none } ∧ t.surfaces = s.surfaces ∧ t.palettes = s.palettes ∧
      t.marks = s.marks ∧ t.frame = s.frame ∧
      SignalledLast s.link t.link s.control.deviceVector := by
  have ended := exec_overtakenFetchEnd h overtaken
  generalize hu : State.freeSlot { s with fetch := none } f.slot = u at freed ended
  have settled : Settled { s with fetch := none } u := hu ▸ State.freeSlot_settled _ _
  have control : u.control = s.control := hu ▸ (State.freeSlot_goes { s with fetch := none } f.slot).control
  obtain ⟨surfaces, marks, presentation⟩ : u.surfaces = s.surfaces ∧ u.marks = s.marks ∧ u.presentation = s.presentation :=
    hu ▸ State.freeSlot_surfaces { s with fetch := none } f.slot
  have free (j : SlotId) : (u.issueWrites.slot j).state = .free := by
    rw [State.issueWrites_slot]
    by_cases own : j = f.slot
    · rw [own, freed]; rfl
    · rw [← hu, State.freeSlot_slot_ne (Ne.symm own)]
      exact others j own
  have issued := u.issueWrites_same
  have issuedControl : u.issueWrites.control = s.control := by rw [issued]; exact control
  obtain ⟨off, queues, cqs, panel, signalled⟩ := State.finishStop_stopped (s := u.issueWrites)
    (by rw [issuedControl]; exact stopping) free
  obtain ⟨concludedSurfaces, concludedMarks⟩ := u.conclude_marks
  have concluded := u.conclude_settled
  have resting : ¬FetchPossible u.conclude := fun possible => by
    have running := possible.1
    rw [State.conclude, off] at running
    cases running
  rw [State.serveFetch_rest resting] at ended
  obtain ⟨_, mastering, messages, masked⟩ := settled.configuration
  rw [issuedControl] at off signalled
  have signalled := signalled.of_configuration (l' := s.link) (by rw [issued]; exact mastering) (by rw [issued]; exact messages)
    (by rw [issued]; exact masked)
  refine ⟨u.conclude, ended, off, concluded.fetch.trans settled.fetch, queues, cqs, fun j => ?_, ?_, concludedSurfaces.trans surfaces,
    concluded.palettes.trans settled.palettes, concludedMarks.trans marks, concluded.frame.trans settled.frame, signalled⟩
  · rw [State.conclude, State.finishStop_slot]
    exact free j
  · rw [State.conclude, panel, issued]
    exact congrArg (fun p : Presentation => { p with panel := none }) presentation

/-- Settles O36: the slot is freed, and a stop ends with it or the writes that are due are issued. -/
theorem overtakenFetchFreesSlot : Obligations.OvertakenFetchFreesSlot := by
  refine ⟨fun s none => ?_, fun s f c fetch overtaken used held => ⟨fun goesOn => ?_, fun stopping first unowed others => ?_⟩⟩
  · show execOvertakenFetchEnd s = _
    unfold execOvertakenFetchEnd
    split
    · rfl
    · next f fetch => rw [none f fetch]; rfl
  · refine ⟨_, _, goesTo_of_serve (exec_overtakenFetchEnd fetch overtaken),
      State.freeSlot_spec (s := { s with fetch := none }) held used, ?_⟩
    have concluded : (State.freeSlot { s with fetch := none } f.slot).conclude =
        (State.freeSlot { s with fetch := none } f.slot).issueWrites := by
      rcases goesOn with notStopping | ⟨j, other, taken⟩
      · refine State.conclude_running ?_
        rw [(State.freeSlot_goes { s with fetch := none } f.slot).control]
        exact notStopping
      · refine State.conclude_held (i := j) ?_
        rw [State.freeSlot_slot_ne (Ne.symm other)]
        exact taken
    rw [concluded]
    exact State.issueWrites_spec _
  · refine execOvertakenFetchEnd_stops fetch overtaken stopping (State.freeSlot_unclaimed (s := { s with fetch := none }) held used ?_
      unowed first) others
    show s.control.deviceState ≠ .fault
    rw [stopping]
    exact nofun

end Sys2Proof.Machine
end

section
/-! PROOF. The arrival of a WAIT above its mark (R54, R127, R128). -/

namespace Sys2Proof.Machine

open Sys2Proof.Safety

/-- A WAIT conflicts with nothing (R66, R68). -/
theorem not_conflicts_wait (s : State) (m : MarkId) (v : BitVec 32) (n : Nat) (j : SlotId) : ¬Conflicts s (.wait m v n) j := by
  rintro ⟨_, ⟨_, _, _, region | region, _⟩ | ⟨_, _, _, region, _⟩ | ⟨_, _, settled | ⟨_, settled⟩, _⟩⟩
  · exact region.2
  · exact region.2
  · exact region.2
  · cases settled
  · cases settled

/-- ORDERED is refused on a WAIT (R22), so that a WAIT need not wait for its queue (R70). -/
theorem not_mustWait_wait {s : State} {r : OpRecord} {m : MarkId} {v : BitVec 32} {n : Nat} (ok : s.checkRecord r = .ok (.wait m v n))
    (i : SlotId) (q : QueueId) : ¬MustWait s i q (.wait m v n) (r.extractLsb' 8 8) := by
  obtain ⟨decoded, _⟩ := State.checkRecord_ok ok
  obtain ⟨code, _⟩ := says_of_decodeRecord decoded
  rintro ⟨ordered | ⟨_, _, signal⟩, _⟩
  · have flag : flagSet r 1 := by
      rw [BitVec.getLsbD_extractLsb'] at ordered
      exact (Bool.and_eq_true_iff.1 ordered).2
    have refused : FlagsRefused r := .inr (.inr (.inr (.inl ⟨flag, by rw [code]; decide⟩)))
    have failed := (decodeRecord_known ((s.presentation.panel.map PanelParams.height).getD 0) (r := r) (by rw [code]; decide)
      (by rw [code]; decide)).1 (.inl refused)
    rw [failed] at decoded
    cases decoded
  · cases signal

/-- What the slot of an arrived WAIT holds: no region and no dependency. -/
theorem State.admitted_wait {s : State} (f : Fetch) (c : Queue) {r : OpRecord} {m : MarkId} {v : BitVec 32} {n : Nat}
    (ok : s.checkRecord r = .ok (.wait m v n)) :
    s.admitted f c r (.wait m v n) = { arrived s f r with state := .fetching, op := some (.wait m v n) } := by
  have deps : s.arrivedDeps f c r (.wait m v n) = [] := List.eq_nil_iff_forall_not_mem.2 fun j mem =>
    not_conflicts_wait s m v n j ((s.mem_arrivedDeps f c r _ j).1 mem).2
  have pending : s.arrivedPending f c r (.wait m v n) = false := by
    rw [Bool.eq_false_iff, Ne, State.arrivedPending_iff]
    exact not_mustWait_wait ok f.slot f.queue
  rw [State.admitted_eq, deps, pending]
  rfl

/-- A WAIT above its mark is entered (step 4 of R64, R128). -/
theorem State.firstState_wait {s : State} {i : SlotId} {q : QueueId} {m : MarkId} {v : BitVec 32} {n : Nat} {sl : Slot}
    (above : (s.mark m).toNat < v.toNat) :
    s.firstState i q (.wait m v n) sl = (s.setSlot i { sl with state := .blocked }).enterWait i q m v n :=
  if_neg (Nat.not_le.2 above)

/-- The entry joins the waiting list, and an OPEN queue waits (R54, R128). -/
theorem State.enterWait_eq {s : State} {i : SlotId} {q : QueueId} {c : Queue} (h : s.queue q = some c) (m : MarkId) (v : BitVec 32) (n : Nat) :
    s.enterWait i q m v n = { s.setQueue q (some { c with state := if c.state = .opened then .waiting else c.state }) with
      waiting := s.waiting ++ [{ slot := i, queue := q, mark := m, value := v, deadline := s.waitDeadline n }] } := by
  have context : (if c.state = .opened then { c with state := .waiting } else c : Queue) =
      { c with state := if c.state = .opened then .waiting else c.state } := by
    split <;> rfl
  unfold State.enterWait
  dsimp only
  rw [State.modifyQueue_some (c := c) (by exact h), context]
  rfl

/-- After an arrival the head of its queue has advanced (R49). -/
theorem State.holding_queue (s : State) (f : Fetch) (c : Queue) (sl : Slot) :
    (s.holding f c sl).queue f.queue = some { c with head := (c.head + 1) % c.size } :=
  State.queue_setQueue_self (s.setSlot f.slot sl) f.queue _

/-- Settles O41: the WAIT is admitted with nothing in its way, and is entered. -/
theorem unsatisfiedWaitIsEntered : Obligations.UnsatisfiedWaitIsEntered := by
  intro s f c r m v n arriving ok above
  have entered : s.afterArrival f c r =
      (s.holding f c { arrived s f r with state := .blocked, op := some (.wait m v n) }).enterWait f.slot f.queue m v n := by
    rw [State.afterArrival_admitted ok, State.firstState_wait (by exact above), State.admissionEffect_setSlot]
    show State.enterWait { s.holding f c { s.admitted f c r (.wait m v n) with state := .blocked } with surfaces := s.surfaces } _ _ _ _ _ = _
    rw [State.admitted_wait f c ok]
    rfl
  have waits := exec_recordArrival r arriving
  rw [entered, State.enterWait_eq (s.holding_queue f c _)] at waits
  refine goesTo_of_serve (waits.trans ?_)
  simp only [State.holding, State.setQueue, Vector.set_set]
  rfl

end Sys2Proof.Machine
end

section
/-! PROOF. What endings, and all that they release, keep of one queue (R53, R54, R58, R59, R80), and the end of a faulted fetch (R50). -/

namespace Sys2Proof.Machine

open Sys2Proof.Safety

/-! ## The context of one queue -/

/-- Condition F holds of queue q's context, if q is configured. -/
def State.Context (s : State) (q : QueueId) (F : Queue → Prop) : Prop := ∀ c, s.queue q = some c → F c

theorem State.Context.of_queues {s t : State} {q : QueueId} {F : Queue → Prop} (h : s.Context q F) (same : t.queue q = s.queue q) :
    t.Context q F := fun c hc => h c (same.symm.trans hc)

/-- Condition F outlasts what the end of slot i can do to queue q's context; own says that the slot may be the queue's. -/
structure Lasts (s : State) (q : QueueId) (i : SlotId) (own : Prop) (F : Queue → Prop) : Prop where
  ended : own → ∀ c waited st, F c → F (c.afterEnding waited st)
  freed : own → ∀ c, F c → F { c with occupied := c.occupied - 1 }
  placed : ∀ c n, F c → own ∨ c.abort = .owed n .anyFree → F { c with occupied := c.occupied + 1, abort := .placed i }
  drained : ∀ c j, F c → c.state = .draining → c.abort = .placed j → (∀ k, k ≠ i → k ≠ j → (s.slot k).queue ≠ some q) →
    F { c with state := .opened, abort := .absent }

section
variable {s : State} {q : QueueId} {i : SlotId} {own : Prop} {F : Queue → Prop}

/-- Whether a condition lasts is seen from the other slots alone. -/
theorem Lasts.of_others {t : State} (h : Lasts s q i own F) (others : ∀ k, k ≠ i → t.slot k = s.slot k) : Lasts t q i own F where
  ended := h.ended
  freed := h.freed
  placed := h.placed
  drained := fun c j hc draining placed foreign =>
    h.drained c j hc draining placed fun k hi hj => others k hi ▸ foreign k hi hj

theorem State.modifyQueue_context (h : s.Context q F) (p : QueueId) (f : Queue → Queue) (keeps : p = q → ∀ c, F c → F (f c)) :
    (s.modifyQueue p f).Context q F := by
  intro d hd
  rw [State.queue_modifyQueue] at hd
  split at hd
  · next same =>
    obtain ⟨c, hc, rfl⟩ := Option.map_eq_some_iff.1 hd
    exact keeps same c (h c (same ▸ hc))
  · exact h d hd

theorem State.setQueue_context (h : s.Context q F) (p : QueueId) (d : Queue) (keeps : p = q → F d) :
    (s.setQueue p (some d)).Context q F := by
  intro d' hd
  rw [State.queue_setQueue] at hd
  split at hd
  · next same =>
    cases hd
    exact keeps same
  · exact h d' hd

theorem State.endDraining_context (h : s.Context q F) (lasts : Lasts s q i own F) (p : QueueId) : (s.endDraining p).Context q F := by
  cases hp : s.queue p with
  | none =>
    rw [State.endDraining, hp]
    exact h
  | some c =>
    rw [State.endDraining_eq hp]
    refine State.setQueue_context h p _ fun same => ?_
    subst same
    unfold drainEnded
    split
    · next ends =>
      obtain ⟨draining, j, placed, foreign⟩ := ends
      exact lasts.drained c j (h c hp) draining placed fun k _ hj => foreign k hj
    · exact h c hp

theorem State.placeAck_context (h : s.Context q F) (lasts : Lasts s q i own F) {p : QueueId} {c : Queue} {n : Nat}
    (hp : s.queue p = some c) (claim : p = q → own ∨ c.abort = .owed n .anyFree) : (s.placeAck p c n i).Context q F := by
  unfold State.placeAck
  refine State.endDraining_context (s := State.post _ i p) ?_ (lasts.of_others fun k other => ?_) p
  · refine State.Context.of_queues ?_ (State.post_queue _ i p q)
    exact State.setQueue_context (s := s.setSlot i (acknowledgementSlot p n)) h p _ fun same =>
      lasts.placed c n (h c (same ▸ hp)) (claim same)
  · rw [State.post_slot]
    exact (State.slot_setSlot s i k _).trans (if_neg (Ne.symm other))

theorem State.serveWaiting_context (h : s.Context q F) (lasts : Lasts s q i own F) : (s.serveWaiting i).Context q F := by
  unfold State.serveWaiting
  split
  · exact h
  · split
    · exact h
    · next hp =>
      split
      · next owed => exact State.placeAck_context h lasts hp fun _ => .inr owed
      · exact h

theorem State.claimFreed_context (h : s.Context q F) (lasts : Lasts s q i own F) {p : QueueId} (owner : p = q → own) :
    (s.claimFreed p i).Context q F := by
  unfold State.claimFreed
  split
  · exact h
  · split
    · exact h
    · next hp =>
      split
      · exact State.placeAck_context h lasts hp fun same => .inl (owner same)
      · exact State.serveWaiting_context (State.endDraining_context h lasts p) (lasts.of_others fun k _ => State.endDraining_slot s p k)

theorem State.freeSlot_context (h : s.Context q F) (lasts : Lasts s q i own F) (owner : (s.slot i).queue = some q → own) :
    (s.freeSlot i).Context q F := by
  unfold State.freeSlot
  split
  · exact h
  · next p hp =>
    have owner' : p = q → own := fun same => owner (same ▸ hp)
    refine State.claimFreed_context (State.modifyQueue_context (s := { s.setSlot i Slot.freed with order := _ }) h p _ fun same =>
      lasts.freed (owner' same)) (lasts.of_others fun k other => ?_) owner'
    exact (State.slot_setSlot s i k _).trans (if_neg (Ne.symm other))

/-- What outlasts the end of a slot holds after it. -/
theorem State.endSlot_context (h : s.Context q F) (e : Ending) (lasts : Lasts s q e.slot own F)
    (owner : (s.slot e.slot).queue = some q → own) : (s.endSlot e).Context q F := by
  unfold State.endSlot
  dsimp only
  split
  · exact h
  · next p hp =>
    have owner' : p = q → own := fun same => owner (same ▸ hp)
    have unclaimed : (s.releaseClaim (s.slot e.slot) e.status).Context q F :=
      h.of_queues (by rw [s.releaseClaim_same (s.slot e.slot) e.status]; rfl)
    have slots := fun k => s.releaseClaim_slot (s.slot e.slot) e.status k
    generalize s.releaseClaim (s.slot e.slot) e.status = w at unclaimed slots
    have ended := State.modifyQueue_context (s := { w.setSlot e.slot ((s.slot e.slot).endedWith e.status e.detail) with
      waiting := w.waiting.filter fun x => x.slot ≠ e.slot
      presentation := { w.presentation with held := if w.presentation.held = some e.slot then none else w.presentation.held } })
      unclaimed p (fun c => c.afterEnding (s.slot e.slot).isWaiting e.status) fun same c hc => lasts.ended (owner' same) c _ _ hc
    split
    · refine State.freeSlot_context ended (lasts.of_others fun k other => ?_) fun same => owner' ?_
      · exact (State.slot_setSlot w e.slot k _).trans ((if_neg (Ne.symm other)).trans (slots k))
      · have slot := congrArg Slot.queue (w.slot_setSlot_self e.slot ((s.slot e.slot).endedWith e.status e.detail))
        exact Option.some.inj (hp.symm.trans (slot.symm.trans same))
    · exact ended.of_queues (State.post_queue _ _ _ _)

end

/-! ## The rounds that follow an event's endings -/

/-- Slot i does not end with what endings release: it is not BLOCKED, and no entry of the waiting list names it (R69, R130). -/
def State.Fixed (s : State) (i : SlotId) : Prop := (s.slot i).state ≠ .blocked ∧ ∀ w ∈ s.waiting, w.slot ≠ i

theorem State.Fixed.of_state {s t : State} {i : SlotId} (h : s.Fixed i) (state : (t.slot i).state = (s.slot i).state)
    (waiting : ∀ w ∈ t.waiting, w ∈ s.waiting) : t.Fixed i :=
  ⟨fun blocked => h.1 (state ▸ blocked), fun w hw => h.2 w (waiting w hw)⟩

/-- What endings of the slots Q keep, seen from the queues and from the queue of each slot. -/
structure Kept (Q : SlotId → Prop) (P : State → Prop) : Prop where
  ends : ∀ s e, P s → Q e.slot → P (s.endSlot e)
  same : ∀ s t : State, P s → t.queues = s.queues → (∀ i, (t.slot i).queue = (s.slot i).queue) → P t

section
variable {Q : SlotId → Prop} {P : State → Prop}

theorem Kept.foldl (kept : Kept Q P) {es : List Ending} : ∀ {s : State}, P s → (∀ e ∈ es, Q e.slot) → P (es.foldl State.endSlot s) := by
  induction es with
  | nil => exact fun h _ => h
  | cons e rest ih =>
    exact fun h all => ih (kept.ends _ e h (all e List.mem_cons_self)) fun x hx => all x (List.mem_cons_of_mem e hx)

theorem State.foldl_endSlot_fixed {s : State} {es : List Ending} {i : SlotId} (h : s.Fixed i) (others : ∀ e ∈ es, e.slot ≠ i) :
    (es.foldl State.endSlot s).Fixed i :=
  h.of_state (by rw [State.foldl_endSlot_slot others]) (Goes.foldl State.endSlot_goes es s).waiting

theorem State.execute_queues (s : State) (i : SlotId) : (s.execute i).1.queues = s.queues := by
  unfold State.execute State.executeSignal
  repeat' split
  all_goals rfl

theorem State.execute_slot_queue (s : State) (i j : SlotId) : ((s.execute i).1.slot j).queue = (s.slot j).queue := by
  by_cases own : i = j
  · subst own
    unfold State.execute State.executeSignal
    repeat' split
    all_goals first | rfl | skip
    all_goals
      show ((State.setSlot _ i _).slot i).queue = _
      rw [State.slot_setSlot_self]
  · rw [State.execute_slot_ne own]

/-- What is executed keeps what endings keep, and the endings that it brings are of slots that may end. -/
theorem Kept.executeAll (kept : Kept Q P) {s : State} (h : P s) (fixed : ∀ i, ¬Q i → s.Fixed i) {ready : List SlotId}
    (may : ∀ i ∈ ready, Q i) : P (s.executeAll ready).1 ∧ (∀ i, ¬Q i → (s.executeAll ready).1.Fixed i) ∧
      ∀ e ∈ (s.executeAll ready).2, Q e.slot := by
  unfold State.executeAll
  refine List.foldlRecOn (motive := fun p : State × List Ending => P p.1 ∧ (∀ i, ¬Q i → p.1.Fixed i) ∧ ∀ e ∈ p.2, Q e.slot) _ _
    ⟨kept.same s _ h rfl fun _ => rfl, fun i barred => (fixed i barred).of_state rfl fun _ h => h, nofun⟩ ?_
  rintro p ⟨holds, stay, ends⟩ x member
  have mayEnd : Q x := may x ((s.together_perm ready).mem_iff.1 member)
  refine ⟨kept.same _ _ holds (State.execute_queues _ _) (State.execute_slot_queue _ _), fun i barred => ?_, fun e he => ?_⟩
  · have other : x ≠ i := fun same => barred (same ▸ mayEnd)
    exact (stay i barred).of_state (congrArg Slot.state (State.execute_slot_ne other)) (p.1.execute_goes x).waiting
  · rcases List.mem_append.1 he with he | he
    · exact ends e he
    · rcases State.execute_endings he with own | ⟨w, hw, names⟩
      · exact own ▸ mayEnd
      · exact Classical.byContradiction fun barred => (stay e.slot barred).2 w hw names

/-- What one round releases, and the endings that this brings (R69, R70, R75 to R77). -/
def State.released (s : State) (es : List Ending) : State × List Ending :=
  let v := (s.endTogether es).retestOrdered
  (v.markReady v.releasableSlots).executeAll v.releasableSlots

theorem State.settle_released (n : Nat) (s : State) (e : Ending) (es : List Ending) :
    s.settle (n + 1) (e :: es) = (s.released (e :: es)).1.settle n (s.released (e :: es)).2 := rfl

/-- A slot that does not end with what endings release is not released. -/
theorem State.Fixed.not_released {s : State} {i : SlotId} (h : s.Fixed i) : i ∉ s.releasableSlots := by
  intro member
  unfold State.releasableSlots at member
  split at member
  · have releasable := (List.mem_filter.1 member).2
    simp only [Slot.releasable, Bool.and_eq_true, decide_eq_true_eq] at releasable
    exact h.1 releasable.1.1.1
  · exact List.not_mem_nil member

/-- One round keeps what endings keep, and the endings that it brings are of slots that may end. -/
theorem Kept.released (kept : Kept Q P) {s : State} {es : List Ending} (h : P ((s.together es).foldl State.endSlot s.choose))
    (fixed : ∀ i, ¬Q i → ((s.together es).foldl State.endSlot s.choose).Fixed i) :
    P (s.released es).1 ∧ (∀ i, ¬Q i → (s.released es).1.Fixed i) ∧ ∀ e ∈ (s.released es).2, Q e.slot := by
  unfold State.released State.endTogether
  dsimp only
  generalize (s.together es).foldl State.endSlot s.choose = u at h fixed
  have slots (i : SlotId) : (((u.removeDependencies (es.map Ending.slot)).retestOrdered).slot i).queue = (u.slot i).queue ∧
      (((u.removeDependencies (es.map Ending.slot)).retestOrdered).slot i).state = (u.slot i).state := by
    rw [State.retestOrdered_slot, State.removeDependencies_slot]
    exact ⟨rfl, rfl⟩
  have waiting := ((u.removeDependencies_goes (es.map Ending.slot)).trans (State.retestOrdered_goes _)).waiting
  have queues : ((u.removeDependencies (es.map Ending.slot)).retestOrdered).queues = u.queues := by
    unfold State.retestOrdered State.removeDependencies
    rfl
  generalize (u.removeDependencies (es.map Ending.slot)).retestOrdered = v at slots waiting queues
  have holds : P v := kept.same u v h queues fun i => (slots i).1
  have stay (i : SlotId) (barred : ¬Q i) : v.Fixed i := (fixed i barred).of_state (slots i).2 waiting
  have may : ∀ i ∈ v.releasableSlots, Q i := fun i member =>
    Classical.byContradiction fun barred => (stay i barred).not_released member
  refine kept.executeAll (kept.same v _ holds (by unfold State.markReady; rfl) fun i => ?_) (fun i barred => ?_) may
  · rw [State.markReady_slot]
    split <;> rfl
  · refine (stay i barred).of_state ?_ (State.markReady_goes v _).waiting
    rw [State.markReady_slot, if_neg (by simpa using (stay i barred).not_released)]

/-- What endings keep holds once all that an event's endings release is settled, when it holds after those endings themselves. -/
theorem Kept.settle (kept : Kept Q P) (n : Nat) : ∀ {s : State} {e : Ending} {es : List Ending},
    P ((s.together (e :: es)).foldl State.endSlot s.choose) →
    (∀ i, ¬Q i → ((s.together (e :: es)).foldl State.endSlot s.choose).Fixed i) → P (s.settle (n + 1) (e :: es)) := by
  induction n with
  | zero =>
    intro s e es h fixed
    exact (kept.released h fixed).1
  | succ n ih =>
    intro s e es h fixed
    obtain ⟨holds, stay, may⟩ := kept.released h fixed
    rw [State.settle_released]
    cases next : (s.released (e :: es)).2 with
    | nil => exact holds
    | cons x rest =>
      rw [next] at may
      have mayAll : ∀ y ∈ (s.released (e :: es)).1.together (x :: rest), Q y.slot := fun y hy =>
        may y (((s.released (e :: es)).1.together_perm _).mem_iff.1 hy)
      refine ih (kept.foldl (kept.same _ _ holds rfl fun _ => rfl) mayAll) fun i barred => ?_
      exact State.foldl_endSlot_fixed ((stay i barred).of_state rfl fun _ h => h) fun y hy same => barred (same ▸ mayAll y hy)

end

/-! ## The end of a faulted fetch -/

/-- No queue becomes DRAINING as a slot ends (R57). -/
theorem Kept.notDraining (q : QueueId) : Kept (fun _ => True) (fun s => s.Context q fun c => c.state ≠ .draining) where
  ends := fun s e h _ => State.endSlot_context (own := True) h e
    { ended := fun _ c waited st hc => by
        unfold Queue.afterEnding
        split
        · exact nofun
        · split
          · exact nofun
          · exact hc
      freed := fun _ _ hc => hc
      placed := fun _ _ hc _ => hc
      drained := fun _ _ _ _ _ _ => nofun } fun _ => trivial
  same := fun _ _ h queues _ => h.of_queues (congrArg (·[q]) queues)

/-- FETCH_FAULT of a fetch that is not overtaken (R50). -/
theorem exec_fetchFault {s : State} {f : Fetch} {c : Queue} (inFlight : s.fetch = some f) (wanted : f.discard = false)
    (h : s.queue f.queue = some c) : exec .fetchFault s = .next (s.fetchFaulted f c).serveFetch := by
  show execFetchFault s = _
  simp [execFetchFault, inFlight, wanted, h]

/-- The queue of a slot that ends with another status than OK does not become DRAINING, and device control stays. -/
theorem State.endSlots_failed_live {s : State} {x : Ending} {q : QueueId} {c : Queue} (h : (s.slot x.slot).queue = some q)
    (hc : s.queue q = some c) (failed : x.status ≠ .ok) (live : c.state ≠ .draining) :
    ((s.endSlots [x]).Context q fun d => d.state ≠ .draining) ∧ (s.endSlots [x]).control = s.control := by
  have single := State.endSlots_single h fun both => failed both.1
  have start : s.Context q fun d => d.state ≠ .draining := fun d hd => Option.some.inj (hc.symm.trans hd) ▸ live
  have settled : (s.settle 33 [x]).Context q fun d => d.state ≠ .draining :=
    (Kept.notDraining q).settle 32 ((Kept.notDraining q).foldl start fun _ _ => trivial) fun _ barred => absurd trivial barred
  rw [single]
  refine ⟨settled.of_queues (State.issueWrites_queue _ q), ?_⟩
  rw [State.issueWrites_same]
  exact (s.settle_goes 33 [x]).control

/-- Settles O35: the fetch's slot ends, whatever its end releases, and its queue, which is not DRAINING after that either, is halted. -/
theorem fetchFaultHaltsQueue : Obligations.FetchFaultHaltsQueue := by
  intro s f c inFlight wanted used slot live
  obtain ⟨⟨d, queue, kept⟩, -, ended, joined⟩ := State.endSlots_failed (s := { s with fetch := none }) slot used
    (st := .fetchFault) nofun (BitVec.ofNat 32 c.head)
  obtain ⟨alive, control⟩ := State.endSlots_failed_live (s := { s with fetch := none })
    (x := { slot := f.slot, status := .fetchFault, detail := BitVec.ofNat 32 c.head }) slot used nofun live
  have settled := ({ s with fetch := none } : State).endSlots_settled
    [{ slot := f.slot, status := .fetchFault, detail := BitVec.ofNat 32 c.head }]
  have halted : s.fetchFaulted f c = (({ s with fetch := none } : State).endSlots
      [{ slot := f.slot, status := .fetchFault, detail := BitVec.ofNat 32 c.head }]).setQueue f.queue
        (some { d with state := .halted }) := by
    unfold State.fetchFaulted
    rw [State.modifyQueue_some queue, if_neg (alive d queue)]
  have served := exec_fetchFault inFlight wanted used
  rw [halted] at served
  generalize ({ s with fetch := none } : State).endSlots
    [{ slot := f.slot, status := .fetchFault, detail := BitVec.ofNat 32 c.head }] = u at *
  obtain ⟨head, tail⟩ := queueAfter_place c (s.slot f.slot).isWaiting .fetchFault
  refine ⟨_, { d with state := .halted }, goesTo_of_serve served, settled.fetch, ?_, joined, State.queue_setQueue_self u f.queue _, rfl,
    kept.head.trans head, kept.tail.trans tail, settled.sequence, control, settled.engines, settled.frame, settled.palettes⟩
  unfold Answered
  rw [if_neg nofun]
  exact ended

end Sys2Proof.Machine
end

section
/-! PROOF. ABORT of a queue (R57, R58): the slots that it ends, and what becomes of the queue, of the surfaces that the slots named and of
the acknowledgement. -/

namespace Sys2Proof.Machine

open Sys2Proof.Safety

/-! ## The slots that end -/

theorem State.mem_abortedEndings {s : State} {which : Slot → Bool} {e : Ending} :
    e ∈ s.abortedEndings which ↔ which (s.slot e.slot) = true ∧ e.status = .aborted ∧ e.detail = 0#32 := by
  unfold State.abortedEndings
  constructor
  · intro member
    obtain ⟨i, chosen, rfl⟩ := List.mem_map.1 member
    exact ⟨(List.mem_filter.1 chosen).2, rfl, rfl⟩
  · rintro ⟨chosen, status, detail⟩
    refine List.mem_map.2 ⟨e.slot, List.mem_filter.2 ⟨List.mem_finRange _, chosen⟩, ?_⟩
    rw [← status, ← detail]

theorem State.abortedEndings_nodup (s : State) (which : Slot → Bool) : ((s.abortedEndings which).map Ending.slot).Nodup := by
  unfold State.abortedEndings
  rw [List.map_map]
  exact ((List.nodup_finRange 32).filter _).map Function.injective_id

/-- ABORT ends the queue's slots that end at once. -/
theorem State.mem_abortEndings {s : State} {q : QueueId} {e : Ending} : e ∈ s.abortEndings q ↔
    ((s.slot e.slot).queue = some q ∧ (s.slot e.slot).endsAtOnce = true) ∧ e.status = .aborted ∧ e.detail = 0#32 := by
  unfold State.abortEndings
  rw [State.mem_abortedEndings, Bool.and_eq_true, decide_eq_true_iff]

/-- The slots that an ABORT of queue q ends (R57). -/
def State.abortEnds (s : State) (q : QueueId) (i : SlotId) : Bool := decide ((s.slot i).queue = some q) && (s.slot i).endsAtOnce

theorem State.abortEnds_iff {s : State} {q : QueueId} {i : SlotId} :
    s.abortEnds q i = true ↔ i ∈ (s.abortEndings q).map Ending.slot := by
  unfold State.abortEnds
  rw [Bool.and_eq_true, decide_eq_true_iff, List.mem_map]
  constructor
  · exact fun ends => ⟨{ slot := i, status := .aborted, detail := 0#32 }, State.mem_abortEndings.2 ⟨ends, rfl, rfl⟩, rfl⟩
  · rintro ⟨e, member, rfl⟩
    exact (State.mem_abortEndings.1 member).1

/-! ## The queue while its slots end -/

/-- Endings with another status than OK leave a DRAINING queue as it is (R53, R54). -/
theorem State.foldl_endSlot_draining {q : QueueId} {c : Queue} (draining : c.state = .draining) (es : List Ending) :
    ∀ {s : State}, (es.map Ending.slot).Nodup → (∀ e ∈ es, (s.slot e.slot).queue = some q ∧ e.status ≠ .ok) → s.queue q = some c →
    (es.foldl State.endSlot s).queue q = some c := by
  induction es with
  | nil => exact fun _ _ h => h
  | cons e rest ih =>
    intro s nodup all h
    rw [List.map_cons, List.nodup_cons] at nodup
    have other : ∀ x ∈ rest, e.slot ≠ x.slot := fun x hx same => nodup.1 (same ▸ List.mem_map_of_mem hx)
    obtain ⟨inQueue, failed⟩ := all e List.mem_cons_self
    refine ih nodup.2 (fun x hx => ?_) ?_
    · rw [State.endSlot_slot_ne (other x hx)]
      exact all x (List.mem_cons_of_mem e hx)
    · rw [State.endSlot_queue inQueue h fun both => failed both.1, ← Queue.afterEnding_eq]
      simp [Queue.afterEnding, draining]

/-- While slot b of a DRAINING queue stays, and is not the acknowledgement's, DRAINING does not end (R59). -/
theorem Kept.draining (q : QueueId) (b : SlotId) : Kept (· ≠ b)
    (fun s => (s.Context q fun c => c.state = .draining ∧ c.abort ≠ .placed b) ∧ (s.slot b).queue = some q) where
  ends := by
    rintro s e ⟨h, slot⟩ other
    refine ⟨State.endSlot_context (own := True) h e ?_ fun _ => trivial, ?_⟩
    · exact
        { ended := fun _ c waited st hc => by simpa [Queue.afterEnding, hc.1] using hc
          freed := fun _ _ hc => hc
          placed := fun _ _ hc _ => ⟨hc.1, fun same => other (AbortRecord.placed.inj same)⟩
          drained := fun c j hc _ placed foreign => by
            have distinct : b ≠ j := fun same => hc.2 (same ▸ placed)
            exact absurd slot (foreign b (Ne.symm other) distinct) }
    · rw [State.endSlot_slot_ne other]
      exact slot
  same := fun _ _ h queues slots => ⟨h.1.of_queues (congrArg (·[q]) queues), (slots b).trans h.2⟩

section
variable {s : State} {q : QueueId} {d : Queue} {n : Nat} {i : SlotId}

/-- The acknowledgement of a queue that waits for one of the queue's own slots takes no other (R58). -/
theorem State.serveWaiting_foreign (h : s.queue q = some d) (owed : d.abort = .owed n .firstFreed) (foreign : (s.slot i).queue ≠ some q) :
    ((s.serveWaiting i).slot i).queue ≠ some q := by
  unfold State.serveWaiting
  split
  · exact foreign
  · next p _ _ =>
    split
    · exact foreign
    · next c hp =>
      split
      · next m any =>
        rw [State.placeAck_slot, if_pos rfl]
        intro same
        have own : p = q := Option.some.inj same
        rw [own, h] at hp
        cases hp
        cases owed.symm.trans any
      · exact foreign

theorem State.freeSlot_foreign (h : s.queue q = some d) (owed : d.abort = .owed n .firstFreed) (foreign : (s.slot i).queue ≠ some q) :
    ((s.freeSlot i).slot i).queue ≠ some q := by
  unfold State.freeSlot
  split
  · exact foreign
  · next p hp =>
    have other : p ≠ q := fun same => foreign (same ▸ hp)
    have freed : ((({ s.setSlot i Slot.freed with order := s.order.filter (· ≠ i) } : State).modifyQueue p
        fun c => { c with occupied := c.occupied - 1 }).slot i).queue ≠ some q := by
      show ((s.setSlot i Slot.freed).slot i).queue ≠ some q
      rw [State.slot_setSlot_self]
      exact nofun
    have same : (({ s.setSlot i Slot.freed with order := s.order.filter (· ≠ i) } : State).modifyQueue p
        fun c => { c with occupied := c.occupied - 1 }).queue q = some d := by
      rw [State.queue_modifyQueue, if_neg other]
      exact h
    dsimp only
    generalize ({ s.setSlot i Slot.freed with order := s.order.filter (· ≠ i) } : State).modifyQueue p _ = u at freed same ⊢
    unfold State.claimFreed
    split
    · exact freed
    · split
      · exact freed
      · split
        · rw [State.placeAck_slot, if_pos rfl]
          exact fun own => other (Option.some.inj own)
        · have kept : (u.endDraining p).queue q = some d := by
            rename_i c hc _ _
            rw [State.endDraining_eq hc, State.queue_setQueue, if_neg other, same]
          exact State.serveWaiting_foreign kept owed (by rwa [State.endDraining_slot])

theorem State.endSlot_foreign {e : Ending} (h : s.queue q = some d) (owed : d.abort = .owed n .firstFreed)
    (foreign : (s.slot e.slot).queue ≠ some q) : ((s.endSlot e).slot e.slot).queue ≠ some q := by
  unfold State.endSlot
  dsimp only
  split
  · exact foreign
  · next p hp =>
    have other : p ≠ q := fun same => foreign (same ▸ hp)
    have kept : (s.releaseClaim (s.slot e.slot) e.status).queue q = some d := by
      rw [s.releaseClaim_same (s.slot e.slot) e.status]
      exact h
    generalize s.releaseClaim (s.slot e.slot) e.status = w at kept
    have slot : ((w.setSlot e.slot ((s.slot e.slot).endedWith e.status e.detail)).slot e.slot).queue ≠ some q := by
      rw [State.slot_setSlot_self]
      exact foreign
    split
    · refine State.freeSlot_foreign (d := d) (n := n) ?_ owed slot
      rw [State.queue_modifyQueue, if_neg other]
      exact kept
    · rw [State.post_slot]
      exact slot

/-- While slots that are not its own end, a queue whose acknowledgement waits for one of its own slots stays as it is (R58). -/
theorem Kept.owed (owed : d.abort = .owed n .firstFreed) (Q : SlotId → Prop) :
    Kept Q (fun s => s.queue q = some d ∧ ∀ i, Q i → (s.slot i).queue ≠ some q) where
  ends := by
    rintro s e ⟨h, foreign⟩ may
    refine ⟨?_, fun i hi => ?_⟩
    · have context : s.Context q (· = d) := fun c hc => Option.some.inj (hc.symm.trans h)
      obtain ⟨d', used, -⟩ := (s.endSlot_goes e).queues q d h
      rw [used, State.endSlot_context (own := False) context e ?_ (foreign e.slot may) d' used]
      exact
        { ended := nofun
          freed := nofun
          placed := by
            rintro c m rfl (no | any)
            · exact no.elim
            · cases owed.symm.trans any
          drained := by
            rintro c j rfl _ placed
            cases owed.symm.trans placed }
    · by_cases own : e.slot = i
      · exact own ▸ State.endSlot_foreign h owed (foreign e.slot may)
      · rw [State.endSlot_slot_ne own]
        exact foreign i hi
  same := fun _ _ h queues slots => ⟨(congrArg (·[q]) queues).trans h.1, fun i hi => slots i ▸ h.2 i hi⟩

end

/-! ## What the endings do to the surfaces -/

/-- A surface whose RETIRE is given back, if back says so, and which n PRESENTs no longer count on (R11, R14). -/
def Surface.givenBack (r : Surface) (back : Bool) (n : Nat) : Surface :=
  { r with state := if r.state = .retiring ∧ back = true then .defined else r.state, presentRefs := r.presentRefs - n }

theorem Surface.givenBack_none (r : Surface) : r.givenBack false 0 = r := by
  simp [Surface.givenBack]

theorem Surface.givenBack_givenBack (r : Surface) (a b : Bool) (m n : Nat) :
    (r.givenBack a m).givenBack b n = r.givenBack (a || b) (m + n) := by
  unfold Surface.givenBack
  cases a <;> cases b <;> by_cases retiring : r.state = .retiring <;> simp [retiring, Nat.sub_sub]

/-- The slot holds an unended operation: the one named. -/
def Slot.claims (sl : Slot) (op : Op) : Bool := sl.unended && decide (sl.op = some op)

/-- What an ending with another status than OK releases of a surface (step 3 of R79). -/
theorem State.releaseClaim_surface (s : State) (sl : Slot) {st : Status} (failed : st ≠ .ok) (i : SurfaceId) :
    (s.releaseClaim sl st).surface i =
      (s.surface i).givenBack (sl.claims (.retire i)) (if sl.claims (.present i) then 1 else 0) := by
  unfold State.releaseClaim Slot.claims
  cases unended : sl.unended with
  | false => simp [Surface.givenBack_none]
  | true =>
    rw [if_pos rfl]
    split
    · next id op =>
      unfold State.dropPresent
      rw [State.surface_modifySurface, op]
      by_cases own : id = i <;> simp [own, Surface.givenBack]
    · next id op =>
      rw [if_neg failed, op]
      unfold State.returnRetiring
      rw [State.surface_modifySurface]
      by_cases own : id = i
      · rw [own]
        by_cases retiring : (s.surface i).state = .retiring <;> simp [retiring, Surface.givenBack]
      · simp [own, Surface.givenBack]
    · next noPresent noRetire =>
      have none : sl.op ≠ some (.present i) ∧ sl.op ≠ some (.retire i) := ⟨noPresent i, noRetire i⟩
      simp [none, Surface.givenBack]

/-- What endings with another status than OK release of a surface. -/
theorem State.foldl_endSlot_surface (es : List Ending) (i : SurfaceId) : ∀ {s : State}, (es.map Ending.slot).Nodup →
    (∀ e ∈ es, (s.slot e.slot).queue.isSome = true ∧ e.status ≠ .ok) → (es.foldl State.endSlot s).surface i =
      (s.surface i).givenBack (es.any fun e => (s.slot e.slot).claims (.retire i))
        (es.countP fun e => (s.slot e.slot).claims (.present i)) := by
  induction es with
  | nil => exact fun _ _ => (Surface.givenBack_none _).symm
  | cons e rest ih =>
    intro s nodup all
    rw [List.map_cons, List.nodup_cons] at nodup
    have other : ∀ x ∈ rest, (s.endSlot e).slot x.slot = s.slot x.slot := fun x hx =>
      State.endSlot_slot_ne fun same => nodup.1 (same ▸ List.mem_map_of_mem hx)
    obtain ⟨used, failed⟩ := all e List.mem_cons_self
    obtain ⟨q, inQueue⟩ := Option.isSome_iff_exists.1 used
    have first : (s.endSlot e).surface i = (s.releaseClaim (s.slot e.slot) e.status).surface i :=
      congrArg (·[i]) (State.endSlot_surfaces inQueue).1
    rw [List.foldl_cons, ih nodup.2 fun x hx => other x hx ▸ all x (List.mem_cons_of_mem e hx), first,
      State.releaseClaim_surface s _ failed, Surface.givenBack_givenBack, List.any_cons, List.countP_cons, Nat.add_comm]
    congr 2
    · rw [Bool.eq_iff_iff, List.any_eq_true, List.any_eq_true]
      exact exists_congr fun x => and_congr_right fun hx => by rw [other x hx]
    · exact List.countP_congr fun x hx => by rw [other x hx]

/-! ## The acknowledgement that is placed at once -/

/-- An acknowledgement is placed at once in a FREE slot, or nothing happens (R58). -/
theorem State.placeAtOnce_cases (s : State) (q : QueueId) : s.placeAtOnce q = s ∨ ∃ c n i, s.queue q = some c ∧
    (s.slot i).state = .free ∧ c.abort = .owed n .anyFree ∧ s.placeAtOnce q = (s.choose.placeAck q c n i).issueWrites := by
  unfold State.placeAtOnce
  split
  · next c i used slot =>
    split
    · next n owed =>
      split
      · exact .inr ⟨c, n, i, used, State.anyFreeSlot_free slot, owed, rfl⟩
      · exact .inl rfl
    · exact .inl rfl
  · exact .inl rfl

/-- Beside its slot nothing of the window changes. -/
theorem State.placeAtOnce_slot {s : State} (q : QueueId) {j : SlotId} (held : (s.slot j).state ≠ .free) :
    (s.placeAtOnce q).slot j = s.slot j := by
  obtain rest | ⟨c, n, i, -, free, -, placed⟩ := s.placeAtOnce_cases q
  · rw [rest]
  · have other : i ≠ j := fun same => held (same ▸ free)
    rw [placed, State.issueWrites_slot, State.placeAck_slot, if_neg other]
    rfl

/-- A DRAINING queue whose acknowledgement is placed at once stays DRAINING or is OPEN (R59). -/
theorem State.placeAtOnce_queue {s : State} {q : QueueId} {c : Queue} (h : s.queue q = some c) (draining : c.state = .draining) :
    ∃ d, (s.placeAtOnce q).queue q = some d ∧ QueueKept c d ∧ (d.state = .draining ∨ d.state = .opened) := by
  obtain rest | ⟨c', n, i, used, -, owed, placed⟩ := s.placeAtOnce_cases q
  · exact ⟨c, by rw [rest, h], .refl c, .inl draining⟩
  · cases h.symm.trans used
    obtain ⟨d, queue, kept⟩ := (State.placeAck_goes (s := s.choose) h n i).queues q c h
    have context : s.choose.Context q fun d => d.state = .draining ∨ d.state = .opened := fun d hd =>
      Option.some.inj (h.symm.trans hd) ▸ .inl draining
    have lasts : Lasts s.choose q i False fun d => d.state = .draining ∨ d.state = .opened :=
      { ended := nofun
        freed := nofun
        placed := fun _ _ hd _ => hd
        drained := fun _ _ _ _ _ _ => .inr rfl }
    exact ⟨d, by rw [placed, State.issueWrites_queue, queue], kept, State.placeAck_context context lasts h (fun _ => .inr owed) d queue⟩

/-- Device control and the presentation unit stay. -/
theorem State.placeAtOnce_control (s : State) (q : QueueId) : (s.placeAtOnce q).control = s.control ∧
    (s.placeAtOnce q).presentation = s.presentation := by
  obtain rest | ⟨c, n, i, used, -, -, placed⟩ := s.placeAtOnce_cases q
  · rw [rest]
    exact ⟨rfl, rfl⟩
  · obtain ⟨ack, -⟩ := s.choose.placeAck_spec q c n i
    rw [placed, State.issueWrites_same, ack]
    exact ⟨rfl, rfl⟩

/-- A slot that is posted, with the writes that were due issued, stays posted while more slots join (R140, R141). -/
theorem Posted.joins {s u v : State} {q : QueueId} {i : SlotId} (h : Posted s u q i) (goes : Goes u v) (control : u.control = s.control) :
    Posted s v.issueWrites q i := by
  intro c k hc hk
  obtain ⟨l, w, hu, member, flying, idle⟩ := h c k hc hk
  obtain ⟨l', hv⟩ := goes.cqs _ _ hu
  have rests : nextWrite v c.cq = none := by
    cases next : nextWrite v c.cq with
    | none => rfl
    | some x =>
      exfalso
      unfold nextWrite at next
      rw [hv] at next
      simp only [goes.control, control] at next
      split at next
      · next may =>
        obtain ⟨running, empty, room⟩ := may
        have none : k.inFlight = none := Option.not_isSome_iff_eq_none.1 fun some => by
          rw [← flying some, empty] at some
          cases some
        have issued := (idle none).1.2 ⟨running, room⟩
        rw [empty] at issued
        cases issued
      · cases next
  have issued := v.issueWrites_cq c.cq
  rw [hv, rests, Option.map_some, List.append_assoc] at issued
  refine ⟨l ++ l', w, issued, List.mem_append_left l' member, flying, fun none => ⟨(idle none).1, fun x hx => ?_⟩⟩
  obtain ⟨head, place⟩ := (idle none).2 x hx
  rw [← List.append_assoc, List.head?_append, head]
  exact ⟨rfl, place⟩

theorem Posted.placeAtOnce {s u : State} {q p : QueueId} {i : SlotId} (h : Posted s u q i) (control : u.control = s.control) :
    Posted s (u.placeAtOnce p) q i := by
  obtain rest | ⟨c, n, j, used, -, -, placed⟩ := u.placeAtOnce_cases p
  · rw [rest]
    exact h
  · rw [placed]
    exact Posted.joins h (u.choose_goes.trans (State.placeAck_goes (s := u.choose) used n j)) control

/-! ## The endings of an ABORT, with all that they release -/

/-- In RUNNING endings settle, and the writes that are then due are issued (R141). -/
theorem State.endSlots_running {s : State} (running : s.control.deviceState = .running) (es : List Ending) :
    s.endSlots es = s.settle 33 es ∨ s.endSlots es = (s.settle 33 es).issueWrites := by
  cases es with
  | nil => exact .inl (State.endSlots_nil_running running)
  | cons e rest =>
    refine .inr ((State.endSlots_eq List.mem_cons_self).trans (State.conclude_running fun stopping => ?_))
    rw [(s.settle_goes _ (e :: rest)).control, running] at stopping
    cases stopping

/-- In RUNNING endings leave device control and the panel, and a queue's context is as settling leaves it. -/
theorem State.endSlots_running_kept {s : State} (running : s.control.deviceState = .running) (es : List Ending) :
    (s.endSlots es).control = s.control ∧
      (s.endSlots es).presentation = { s.presentation with held := (s.endSlots es).presentation.held } ∧
      ∀ q, (s.endSlots es).queue q = (s.settle 33 es).queue q := by
  have settled := (s.endSlots_settled es).presentation
  obtain same | same := State.endSlots_running running es
  · rw [same] at settled ⊢
    rw [State.settle_panel] at settled
    exact ⟨(s.settle_goes 33 es).control, settled, fun _ => rfl⟩
  · rw [same, State.issueWrites_same] at settled ⊢
    have panel := s.settle_panel 33 es
    exact ⟨(s.settle_goes 33 es).control, by rw [panel] at settled; exact settled, fun _ => rfl⟩

section
variable {s : State} {q : QueueId} {d : Queue}

theorem State.abortEndings_perm (s : State) (q : QueueId) {es : List Ending} (perm : es.Perm (s.abortEndings q)) :
    (es.map Ending.slot).Nodup ∧ ∀ e ∈ es, (s.slot e.slot).queue = some q ∧ e.status ≠ .ok := by
  refine ⟨(perm.map Ending.slot).nodup_iff.2 (s.abortedEndings_nodup _), fun e member => ?_⟩
  obtain ⟨⟨inQueue, -⟩, status, -⟩ := State.mem_abortEndings.1 (perm.mem_iff.1 member)
  exact ⟨inQueue, by rw [status]; exact nofun⟩

/-- The slots that an ABORT ends once they have ended, before anything is released: they have left the waiting list, the others are as they
were, and so is their DRAINING queue. -/
theorem State.abortEndings_fold (h : s.queue q = some d) (draining : d.state = .draining) {es : List Ending}
    (perm : es.Perm (s.abortEndings q)) : (es.foldl State.endSlot s.choose).queue q = some d ∧
      (∀ i, s.abortEnds q i = true → (es.foldl State.endSlot s.choose).Fixed i ∧ ((es.foldl State.endSlot s.choose).slot i).queue = some q) ∧
      ∀ i, s.abortEnds q i = false → (es.foldl State.endSlot s.choose).slot i = s.slot i := by
  obtain ⟨nodup, all⟩ := s.abortEndings_perm q perm
  refine ⟨State.foldl_endSlot_draining draining es (s := s.choose) nodup all h, fun i ends => ?_, fun i stays => ?_⟩
  · obtain ⟨e, member, rfl⟩ := List.mem_map.1 ((perm.map Ending.slot).mem_iff.2 (State.abortEnds_iff.1 ends))
    obtain ⟨inQueue, failed⟩ := all e member
    obtain ⟨answered, closed⟩ := State.foldl_endSlot_answered (s := s.choose) nodup member inQueue
    unfold Answered at answered
    rw [if_neg fun both => failed both.1] at answered
    refine ⟨⟨fun blocked => ?_, closed.waiting⟩, ?_⟩
    · rw [answered] at blocked
      cases blocked
    · rw [answered]
      exact inQueue
  · refine State.foldl_endSlot_slot (s := s.choose) fun e member same => ?_
    have ends := State.abortEnds_iff.2 ((perm.map Ending.slot).mem_iff.1 (List.mem_map_of_mem member))
    rw [same, stays] at ends
    cases ends

/-- A DRAINING queue is DRAINING after its slots that end at once have ended, with all that this releases (R57, R59). -/
theorem State.abortEndings_draining (h : s.queue q = some d) (draining : d.state = .draining) (owes : ∀ i, d.abort ≠ .placed i) :
    ∃ d', (s.settle 33 (s.abortEndings q)).queue q = some d' ∧ QueueKept d d' ∧ d'.state = .draining := by
  obtain ⟨d', used, kept⟩ := (s.settle_goes 33 (s.abortEndings q)).queues q d h
  refine ⟨d', used, kept, ?_⟩
  obtain ⟨queue, ended, -⟩ := State.abortEndings_fold h draining (s.together_perm (s.abortEndings q))
  have mem := fun j => State.abortEnds_iff (s := s) (q := q) (i := j)
  cases ends : s.abortEndings q with
  | nil =>
    rw [ends, State.settle_nil, h] at used
    cases used
    exact draining
  | cons e rest =>
    rw [ends] at used queue ended mem
    obtain ⟨fixed, inQueue⟩ := ended e.slot ((mem e.slot).2 List.mem_cons_self)
    have stays := (Kept.draining q e.slot).settle 32 ⟨fun c hc => ?_, inQueue⟩ fun i same => Classical.not_not.1 same ▸ fixed
    · exact (stays.1 d' used).1
    · cases queue.symm.trans hc
      exact ⟨draining, owes e.slot⟩

/-- A queue whose acknowledgement waits for one of its slots stays as it is while its slots that end at once end (R58). -/
theorem State.abortEndings_owed {n : Nat} (h : s.queue q = some d) (draining : d.state = .draining) (owed : d.abort = .owed n .firstFreed)
    (waits : ∀ w ∈ s.waiting, (s.slot w.slot).state = .blocked) : (s.settle 33 (s.abortEndings q)).queue q = some d := by
  obtain ⟨queue, ended, others⟩ := State.abortEndings_fold h draining (s.together_perm (s.abortEndings q))
  have waiting := (s.choose_goes.trans (Goes.foldl State.endSlot_goes (s.together (s.abortEndings q)) s.choose)).waiting
  cases ends : s.abortEndings q with
  | nil => rwa [State.settle_nil]
  | cons e rest =>
    rw [ends] at queue ended others waiting
    refine ((Kept.owed owed fun i => (s.slot i).queue ≠ some q).settle 32 ⟨queue, fun i foreign => ?_⟩ fun i own => ?_).1
    · have stays : s.abortEnds q i = false := by simp [State.abortEnds, foreign]
      rwa [others i stays]
    · have inQueue : (s.slot i).queue = some q := Classical.not_not.1 own
      cases goes : s.abortEnds q i with
      | true => exact (ended i goes).1
      | false =>
        have runs : (s.slot i).state ≠ .blocked := fun blocked => by simp [State.abortEnds, inQueue, Slot.endsAtOnce, blocked] at goes
        rw [State.Fixed, others i goes]
        exact ⟨runs, fun w member names => runs (names ▸ waits w (waiting w member))⟩

/-- Where the endings of an ABORT release nothing, they give back what their slots claim of the surfaces (R11, R14). -/
theorem State.abortEndings_surface (running : s.control.deviceState = .running) (nothing : ReleasesNone s (s.abortEnds q)) (i : SurfaceId) :
    (s.endSlots (s.abortEndings q)).surface i = (s.surface i).givenBack
      ((s.abortEndings q).any fun e => (s.slot e.slot).claims (.retire i))
      ((s.abortEndings q).countP fun e => (s.slot e.slot).claims (.present i)) := by
  have perm := s.together_perm (s.abortEndings q)
  obtain ⟨nodup, all⟩ := s.abortEndings_perm q perm
  have given := State.foldl_endSlot_surface (s.together (s.abortEndings q)) i (s := s.choose) nodup fun e member =>
    ⟨Option.isSome_of_mem (all e member).1, (all e member).2⟩
  have mem := fun j => State.abortEnds_iff (s := s) (q := q) (i := j)
  have any : ((s.together (s.abortEndings q)).any fun e => (s.slot e.slot).claims (.retire i)) =
      (s.abortEndings q).any fun e => (s.slot e.slot).claims (.retire i) := by
    rw [Bool.eq_iff_iff, List.any_eq_true, List.any_eq_true]
    exact exists_congr fun e => and_congr_left' perm.mem_iff
  simp only [State.choose_slot, any, perm.countP_eq] at given
  cases ends : s.abortEndings q with
  | nil =>
    rw [State.endSlots_nil_running running]
    exact (Surface.givenBack_none _).symm
  | cons e rest =>
    rw [ends] at given mem nodup all perm
    rw [State.endSlots_releasesNone ((perm.map Ending.slot).nodup_iff.1 nodup)
      (fun x hx => Option.isSome_of_mem (all x (perm.mem_iff.2 hx)).1) mem nothing]
    have after := (State.conclude_marks (s.endTogether (e :: rest)).retestOrdered.choose).1.trans
      (State.retested_surfaces ((s.together (e :: rest)).foldl State.endSlot s.choose) ((e :: rest).map Ending.slot)).1
    exact (congrArg (·[i]) after).trans given

/-- Where the endings of an ABORT release nothing, the surfaces are as their unended operations leave them (R11, R14). -/
theorem State.abortEndings_unclaimed (running : s.control.deviceState = .running) (nothing : ReleasesNone s (s.abortEnds q))
    (i : SurfaceId) : (s.endSlots (s.abortEndings q)).surface i = { unclaimed s (s.abortEnds q) i with shown := (s.surface i).shown } := by
  have claimed (op : Op) : ((s.abortEndings q).any fun e => (s.slot e.slot).claims op) = true ↔
      ∃ j, s.abortEnds q j = true ∧ (s.slot j).unended = true ∧ (s.slot j).op = some op := by
    rw [List.any_eq_true]
    constructor
    · rintro ⟨e, member, claims⟩
      rw [Slot.claims, Bool.and_eq_true, decide_eq_true_iff] at claims
      exact ⟨e.slot, State.abortEnds_iff.2 (List.mem_map_of_mem member), claims⟩
    · rintro ⟨j, ends, claims⟩
      obtain ⟨e, member, rfl⟩ := List.mem_map.1 (State.abortEnds_iff.1 ends)
      exact ⟨e, member, by rw [Slot.claims, Bool.and_eq_true, decide_eq_true_iff]; exact claims⟩
  have count (op : Op) : ((s.abortEndings q).countP fun e => (s.slot e.slot).claims op) =
      ((List.finRange 32).filter fun j => s.abortEnds q j && (s.slot j).unended && decide ((s.slot j).op = some op)).length := by
    unfold State.abortEndings State.abortedEndings
    rw [List.countP_map, List.countP_filter, List.countP_eq_length_filter]
    congr 1
    refine List.filter_congr fun j _ => ?_
    show ((s.slot j).claims op && s.abortEnds q j) = _
    rw [Slot.claims, Bool.and_comm, Bool.and_assoc]
  rw [State.abortEndings_surface running nothing]
  unfold Surface.givenBack unclaimed
  simp only [claimed, count]

end

/-! ## ABORT as a whole -/

theorem State.aborting_queue (s : State) (q : QueueId) (c : Queue) :
    (s.aborting q c).queue q = some (c.owing (s.skippedCount q c) c.firstClaim) := State.queue_setQueue_self s q _

section
variable {s : State} {q : QueueId} {c : Queue}

/-- After its ABORT a queue is DRAINING, or OPEN once its acknowledgement is placed, with the head at the tail (R57, R59). -/
theorem State.aborted_queue (running : s.control.deviceState = .running) : ∃ d, (s.aborted q c).queue q = some d ∧ d.head = c.tail ∧
    d.tail = c.tail ∧ d.quota = c.quota ∧ (d.state = .draining ∨ d.state = .opened) := by
  obtain ⟨d, queue, kept, draining⟩ := State.abortEndings_draining (s.aborting_queue q c) rfl fun _ => nofun
  rw [← (State.endSlots_running_kept (s := s.aborting q c) running _).2.2 q] at queue
  obtain ⟨d', placed, kept', state⟩ := State.placeAtOnce_queue queue draining
  exact ⟨d', placed, kept'.head.trans kept.head, kept'.tail.trans kept.tail, kept'.quota.trans kept.quota, state⟩

/-- The slots that an ABORT ends are answered ABORTED and posted (R57, R79). -/
theorem State.aborted_answered (running : s.control.deviceState = .running) (used : s.queue q = some c) {i : SlotId}
    (inQueue : (s.slot i).queue = some q) (ends : (s.slot i).endsAtOnce = true) :
    Answered (s.aborted q c) i (s.slot i) .aborted 0#32 ∧ Posted s (s.aborted q c) q i := by
  have member : ({ slot := i, status := .aborted, detail := 0#32 } : Ending) ∈ s.abortEndings q :=
    State.mem_abortEndings.2 ⟨⟨inQueue, ends⟩, rfl, rfl⟩
  have nodup : ((s.abortEndings q).map Ending.slot).Nodup := s.abortedEndings_nodup _
  have answered := State.endSlots_answered (s := s.aborting q c) nodup member inQueue
  obtain ⟨posted, -⟩ := State.endSlots_posted (s := s.aborting q c) nodup member inQueue nofun
  have control := (State.endSlots_running_kept (s := s.aborting q c) running (s.abortEndings q)).1
  unfold State.aborted
  generalize (s.aborting q c).endSlots (s.abortEndings q) = u at answered posted control ⊢
  have held : (u.slot i).state ≠ .free := by
    unfold Answered at answered
    rw [if_neg nofun] at answered
    rw [answered]
    exact nofun
  refine ⟨Answered.of_slot answered (State.placeAtOnce_slot q held), ?_⟩
  intro c' k used' bound
  cases used.symm.trans used'
  exact Posted.placeAtOnce posted control (c.owing (s.skippedCount q c) c.firstClaim) k (s.aborting_queue q c) bound

/-- What an ABORT leaves of the device: the engines of its queue are asked to stop, and its fetch is overtaken (R51, R57, R102). -/
theorem State.aborted_kept (running : s.control.deviceState = .running) :
    (∀ e, (s.aborted q c).engine e = match (s.engine e).slot with
      | some i => if (s.slot i).queue = some q then stopAsked (s.engine e) else s.engine e
      | none => s.engine e) ∧
    ((s.aborted q c).fetch = s.fetch.map fun (f : Fetch) => if f.queue = q then { f with discard := true } else f) ∧
    (s.aborted q c).frame = s.frame ∧ (s.aborted q c).palettes = s.palettes ∧
    (s.aborted q c).presentation = { s.presentation with held := (s.aborted q c).presentation.held } ∧
    (s.aborted q c).control = s.control := by
  obtain ⟨control, presentation, -⟩ := State.endSlots_running_kept (s := s.aborting q c) running (s.abortEndings q)
  have asked (e : EngineId) := (s.beginAbort q c).askEngines_engine (fun i => (s.slot i).queue = some q) e
  have settled := (s.aborting q c).endSlots_settled (s.abortEndings q)
  unfold State.aborted
  generalize (s.aborting q c).endSlots (s.abortEndings q) = u at control presentation settled ⊢
  obtain ⟨control', presentation'⟩ := u.placeAtOnce_control q
  have settled := settled.trans (u.placeAtOnce_settled q)
  refine ⟨fun e => ?_, settled.fetch, settled.frame, settled.palettes, ?_, control'.trans control⟩
  · have engine : (u.placeAtOnce q).engine e = (s.aborting q c).engine e := by
      unfold State.engine
      rw [settled.engines]
    rw [engine]
    simp only [decide_eq_true_eq] at asked
    exact asked e
  · rw [presentation']
    exact presentation

/-- A queue that holds slots owes the first of them to become FREE an acknowledgement with the skipped count (R58). -/
theorem State.aborted_owed (running : s.control.deviceState = .running) (holds : 1 ≤ c.occupied)
    (waits : ∀ w ∈ s.waiting, (s.slot w.slot).state = .blocked) :
    (s.aborted q c).queue q = some (c.owing (s.skippedCount q c) .firstFreed) := by
  have claim : c.firstClaim = .firstFreed := if_neg (Nat.pos_iff_ne_zero.1 holds)
  have queue := State.abortEndings_owed (s.aborting_queue q c) rfl (congrArg (AbortRecord.owed _) claim) waits
  rw [← (State.endSlots_running_kept (s := s.aborting q c) running _).2.2 q, claim] at queue
  obtain rest | ⟨c', n, i, used, -, owed, -⟩ := State.placeAtOnce_cases ((s.aborting q c).endSlots (s.abortEndings q)) q
  · unfold State.aborted
    rw [rest]
    exact queue
  · cases queue.symm.trans used
    cases owed

theorem State.fetching_iff : s.fetching q = true ↔ ∃ f, s.fetch = some f ∧ f.queue = q ∧ f.discard = false := by
  unfold State.fetching
  cases s.fetch <;> simp

end

/-- Settles O19: the slots of the queue that end at once end together, and the acknowledgement may be placed after all that this releases. -/
theorem abortEndsUnfinishedWork : Obligations.AbortEndsUnfinishedWork := by
  intro s q c up running used live
  obtain ⟨engines, fetch, frame, palettes, presentation, control⟩ := State.aborted_kept (q := q) (c := c) running
  refine ⟨s.aborted q c, goesTo_of_serve (exec_abort up running used live), State.aborted_queue running, fun i inQueue state => ?_,
    engines, fetch, frame, palettes, presentation, control, fun holds waits => ?_, fun nothing i => ?_⟩
  · refine State.aborted_answered running used inQueue ?_
    unfold Slot.endsAtOnce Slot.isHeld
    rcases state with state | state | ⟨state, op, holds, kind⟩
    · simp [state]
    · simp [state]
    · simp [state, holds, kind]
  · refine ⟨_, s.skippedCount q c, State.aborted_owed running holds waits, rfl, rfl, rfl, ?_⟩
    unfold State.skippedCount
    simp only [State.fetching_iff]
    rfl
  · have ended := State.abortEndings_unclaimed (s := s.aborting q c) running nothing i
    have untouched := (((s.aborting q c).endSlots (s.abortEndings q)).placeAtOnce_untouched q).surfaces
    exact (congrArg (·[i]) untouched).trans ended

end Sys2Proof.Machine
end

section
/-! PROOF. The fetch arbiter (R46, R47): what makes a queue eligible, the order of the choice, and that no command leaves a fetch possible
that it has not started. -/

namespace Sys2Proof.Machine

open Sys2Proof.Safety

/-! ## A change that makes no fetch possible -/

/-- If no fetch is possible in s, none is possible in t. -/
def Rests (s t : State) : Prop := ¬FetchPossible s → ¬FetchPossible t

namespace Rests

variable {s t u : State}

theorem refl (s : State) : Rests s s := id

theorem trans (h : Rests s t) (g : Rests t u) : Rests s u := g ∘ h

/-- What does not put the device in RUNNING, frees neither the fetch path nor a slot, places no acknowledgement and leaves the queues
makes no fetch possible. -/
theorem of_kept (device : t.control.deviceState = s.control.deviceState) (fetch : t.fetch = s.fetch) (acks : t.ackOrder = s.ackOrder)
    (slots : ∀ i, (t.slot i).state = .free → (s.slot i).state = .free) (queues : t.queues = s.queues) : Rests s t := by
  rintro none ⟨running, path, first, ⟨i, free⟩, q, c, used, may⟩
  exact none ⟨device ▸ running, fetch ▸ path, acks ▸ first, ⟨i, slots i free⟩, q, c, (congrArg (·[q]) queues).symm.trans used, may⟩

theorem of_same (device : t.control.deviceState = s.control.deviceState) (fetch : t.fetch = s.fetch) (acks : t.ackOrder = s.ackOrder)
    (slots : t.slots = s.slots) (queues : t.queues = s.queues) : Rests s t :=
  of_kept device fetch acks (fun i free => by rwa [State.slot, slots] at free) queues

/-- No fetch is possible outside RUNNING (R46). -/
theorem of_stopped (stopped : t.control.deviceState ≠ .running) : Rests s t := fun _ possible => stopped possible.1

/-- The fetch that was possible has started (R47). -/
theorem serve (s u : State) : Rests s u.serveFetch := fun _ => u.serveFetch_impossible

theorem whileUp (h : Rests s t) : Rests s (s.whileUp t) := by
  unfold State.whileUp
  split
  · exact h
  · exact .refl s

end Rests

theorem State.setSlot_rests {s : State} {i : SlotId} {sl : Slot} (held : sl.state = .free → (s.slot i).state = .free) :
    Rests s (s.setSlot i sl) := by
  refine .of_kept rfl rfl rfl (fun j free => ?_) rfl
  rw [State.slot_setSlot] at free
  split at free
  · next own => exact own ▸ held free
  · exact free

theorem State.setEngine_rests (s : State) (e : EngineId) (g : Engine) : Rests s (s.setEngine e g) := .of_same rfl rfl rfl rfl rfl

theorem State.interrupt_rests (s : State) (v : VectorId) : Rests s (s.interrupt v) := by
  rw [State.interrupt_same]
  exact .of_same rfl rfl rfl rfl rfl

theorem State.issueWrites_rests (s : State) : Rests s s.issueWrites := by
  rw [State.issueWrites_same]
  exact .of_same rfl rfl rfl rfl rfl

/-! ## Register writes -/

theorem State.submitWrite_rests (s : State) (q : QueueId) (tail : BitVec 12) : Rests s (s.submitWrite q tail) := by
  unfold State.submitWrite
  split
  · exact .of_same rfl rfl rfl rfl rfl
  · split
    · exact .serve s _
    · exact .of_same rfl rfl rfl rfl rfl

theorem State.consumeWrite_rests (s : State) (k : CqId) (head : BitVec 12) : Rests s (s.consumeWrite k head) := by
  unfold State.consumeWrite
  split
  · exact .of_same rfl rfl rfl rfl rfl
  · dsimp only
    split
    · refine .trans ?_ (State.issueWrites_rests _)
      exact .of_same rfl rfl rfl rfl rfl
    · exact .of_same rfl rfl rfl rfl rfl

theorem State.resumeAction_rests (s : State) (q : QueueId) : Rests s (s.resumeAction q) := by
  unfold State.resumeAction
  split
  · exact .of_same rfl rfl rfl rfl rfl
  · split
    · exact .serve s _
    · exact .of_same rfl rfl rfl rfl rfl

theorem State.abortAction_rests (s : State) (q : QueueId) : Rests s (s.abortAction q) := by
  unfold State.abortAction
  split
  · exact .of_same rfl rfl rfl rfl rfl
  · split
    · exact .serve s _
    · exact .of_same rfl rfl rfl rfl rfl

theorem State.qctlWrite_rests (s : State) (value : BitVec 32) : Rests s (s.qctlWrite value) := by
  unfold State.qctlWrite
  dsimp only
  split
  · exact s.resumeAction_rests _
  · exact s.abortAction_rests _
  · exact .of_same rfl rfl rfl rfl rfl

theorem State.enterFault_state (s : State) (cause : FaultCause) : (s.enterFault cause).control.deviceState = .fault := by
  unfold State.enterFault State.signalDevice
  dsimp only
  rw [State.interrupt_same]
  rfl

theorem State.enableWrite_rests (s : State) : Rests s s.enableWrite := by
  have loads : s.beginLoad.control.deviceState ≠ .running := by
    unfold State.beginLoad
    dsimp only
    split
    · rw [State.enterFault_state]
      exact nofun
    · split
      · exact nofun
      · rw [State.enterFault_state]
        exact nofun
  unfold State.enableWrite
  split
  · exact .refl s
  · split
    · exact .of_stopped loads
    · exact .of_same rfl rfl rfl rfl rfl
    · exact .of_same rfl rfl rfl rfl rfl
    · exact .refl s
    · exact .refl s

/-- The end of a stop does not put the device in RUNNING (R175). -/
theorem State.finishStop_state {s : State} (stopped : s.control.deviceState ≠ .running) :
    s.finishStop.control.deviceState ≠ .running := by
  unfold State.finishStop
  split
  · unfold State.signalDevice
    dsimp only
    rw [State.interrupt_same]
    exact nofun
  · exact stopped

/-- Outside RUNNING endings do not put the device in RUNNING. -/
theorem State.endSlots_stopped {s : State} (stopped : s.control.deviceState ≠ .running) (es : List Ending) :
    (s.endSlots es).control.deviceState ≠ .running := by
  unfold State.endSlots
  split
  · exact State.finishStop_state stopped
  · refine State.finishStop_state ?_
    rw [State.issueWrites_same]
    show (s.settle settleRounds es).control.deviceState ≠ _
    rwa [(s.settle_goes settleRounds es).control]

theorem State.enterStopping_state (s : State) : s.enterStopping.control.deviceState ≠ .running := by
  unfold State.enterStopping
  refine State.endSlots_stopped ?_ _
  unfold State.clearShown
  split <;> exact nofun

theorem State.disableWrite_rests (s : State) : Rests s s.disableWrite := by
  unfold State.disableWrite
  split
  · split
    · exact .of_stopped nofun
    · exact .of_stopped s.enterStopping_state
    · exact .of_stopped nofun
    · exact .refl s
    · exact .refl s
  · exact .refl s

theorem State.resetBlocks_rests (s : State) : Rests s s.resetBlocks := .of_stopped nofun

theorem State.setupWrite_rests (s : State) (half : SetupHalf) (value : BitVec 32) : Rests s (s.setupWrite half value) := by
  cases half <;> exact .of_same rfl rfl rfl rfl rfl

theorem State.statusWrite_rests (s : State) (value : BitVec 32) : Rests s (s.statusWrite value) := .of_same rfl rfl rfl rfl rfl

theorem State.controlWrite_rests (s : State) (value : BitVec 32) : Rests s (s.controlWrite value) := by
  unfold State.controlWrite
  split
  · exact s.resetBlocks_rests
  · split
    · exact s.enableWrite_rests
    · exact s.disableWrite_rests

theorem State.wordWrite_rests (s : State) (offset : BitVec 12) (value : BitVec 32) : Rests s (s.wordWrite offset value) := by
  unfold State.wordWrite
  split
  · exact s.setupWrite_rests .lo value
  · exact s.setupWrite_rests .hi value
  · exact s.controlWrite_rests value
  · exact s.statusWrite_rests value
  · exact s.submitWrite_rests _ _
  · exact s.consumeWrite_rests _ _
  · exact s.qctlWrite_rests value
  · exact .refl s

/-! ## Loading -/

/-- A queue has nothing pending as the setup record configures it (R42). -/
theorem setupQueue_empty {r : SetupRecord} {n : QueueId} {c : Queue} (h : setupQueue r n = some c) : c.head = c.tail := by
  obtain ⟨-, given, -⟩ := setupQueue_eq_some.1 h
  rw [given]

theorem State.enterRunning_rests (s : State) (r : SetupRecord) : Rests s (s.enterRunning r) := by
  rintro - ⟨-, -, -, -, q, c, used, -, pending, -⟩
  have queue : (setupQueues r)[q] = some c := by
    unfold State.enterRunning State.signalDevice at used
    rw [State.interrupt_same] at used
    exact used
  unfold setupQueues at queue
  simp only [Fin.getElem_fin, Vector.getElem_ofFn] at queue
  split at queue
  · exact pending (setupQueue_empty queue)
  · cases queue

theorem State.setupArrived_rests (s : State) (r : SetupRecord) : Rests s (s.setupArrived r) := by
  have vector : Rests s (s.takeDeviceVector r) := by
    unfold State.takeDeviceVector
    split <;> exact .of_same rfl rfl rfl rfl rfl
  unfold State.setupArrived
  dsimp only
  split
  · exact vector.trans (State.enterRunning_rests _ r)
  · exact .of_stopped (by rw [State.enterFault_state]; exact nofun)

/-! ## Engines -/

theorem State.giveTo_rests (s : State) (e : EngineId) (i : SlotId) (j : Job) : Rests s (s.giveTo e i j) := by
  refine .trans ?_ (State.setEngine_rests _ _ _)
  exact State.setSlot_rests nofun

theorem State.dispatchAll_rests (es : List EngineId) : ∀ {s t : State}, s.dispatchAll es = some t → Rests s t := by
  induction es with
  | nil =>
    intro s t h
    cases h
    exact .refl s
  | cons e rest ih =>
    intro s t h
    unfold State.dispatchAll at h
    split at h
    · next u given =>
      refine .trans ?_ (ih h)
      unfold State.dispatchTo at given
      split at given
      · cases given
        exact .refl s
      · split at given
        · cases given
          exact .refl s
        · split at given
          · cases given
            exact s.giveTo_rests _ _ _
          · cases given
    · cases h

theorem State.refuseReads_rests (s : State) (given : List EngineId) : Rests s (s.refuseReads given) := by
  unfold State.refuseReads
  split
  · exact .refl s
  · exact .serve s _

theorem State.countLine_rests (s : State) (g : Engine) : Rests s (s.countLine g) := by
  unfold State.countLine
  split
  · exact State.setSlot_rests id
  · exact .refl s

theorem State.dropEngine_rests (s : State) (e : EngineId) : Rests s (s.dropEngine e) := by
  unfold State.dropEngine State.leaveSlot
  split
  · refine .trans ?_ (State.setEngine_rests _ _ _)
    exact State.setSlot_rests fun free => free
  · exact State.setEngine_rests _ _ _

theorem State.reportEnd_rests (s : State) (e : EngineId) (st : Status) (lines : Nat) : Rests s (s.reportEnd e st lines) := by
  unfold State.reportEnd
  dsimp only
  split
  · exact .serve s _
  · exact State.setEngine_rests _ _ _

theorem State.hostFault_rests (s : State) (e : EngineId) : Rests s (s.hostFault e) := by
  unfold State.hostFault
  split
  · exact s.reportEnd_rests _ _ _
  · exact s.dropEngine_rests e

theorem State.beginLine_rests (s : State) (e : EngineId) : Rests s (s.beginLine e) := by
  unfold State.beginLine
  dsimp only
  split
  · exact .trans (State.setEngine_rests _ _ _) (State.hostFault_rests _ e)
  · exact State.setEngine_rests _ _ _

theorem State.afterLine_rests (s : State) (e : EngineId) (j : Job) : Rests s (s.afterLine e j) := by
  unfold State.afterLine
  refine .trans (s.countLine_rests (s.engine e)) ?_
  dsimp only
  split
  · split
    · exact State.reportEnd_rests _ _ _ _
    · exact State.beginLine_rests _ e
  · split
    · exact State.reportEnd_rests _ _ _ _
    · exact State.dropEngine_rests _ e
  · exact State.dropEngine_rests _ e
  · exact .refl _

theorem State.completeLine_rests (s : State) (e : EngineId) (j : Job) : Rests s (s.completeLine e j) :=
  .trans (t := { s with frame := s.lineMemory j (s.engine e).line }) (.of_same rfl rfl rfl rfl rfl) (State.afterLine_rests _ e j)

theorem State.answered_rests (s : State) (e : EngineId) (j : Job) : Rests s (s.answered e j) := by
  unfold State.answered
  split
  · exact .trans (State.setEngine_rests _ _ _) (State.completeLine_rests _ e j)
  · exact State.setEngine_rests _ _ _

/-! ## Completions, the link and the panel -/

theorem State.issue_rests (s : State) (k : CqId) : Rests s (s.issue k) := by
  unfold State.issue State.putInFlight
  split
  · exact .refl s
  · split
    · exact .refl s
    · split
      · dsimp only
        split <;> exact .of_same rfl rfl rfl rfl rfl
      · exact .refl s

theorem State.coalesce_rests (s : State) (k : CqId) (c : CompletionQueue) (d : Time) : Rests s (s.coalesce k c d) := by
  unfold State.coalesce
  dsimp only
  split
  · refine .trans ?_ (State.interrupt_rests _ _)
    exact .of_same rfl rfl rfl rfl rfl
  · exact .of_same rfl rfl rfl rfl rfl

theorem State.sendPending_rests (s : State) : Rests s s.sendPending := by
  unfold State.sendPending
  refine List.foldlRecOn (motive := fun t => Rests s t) _ _ (.of_same rfl rfl rfl rfl rfl) fun t kept v _ => kept.trans ?_
  exact .of_same rfl rfl rfl rfl rfl

theorem State.clearShown_rests (s : State) : Rests s s.clearShown := by
  unfold State.clearShown
  split
  · exact .of_same rfl rfl rfl rfl rfl
  · exact .refl s

theorem State.applyHeld_rests (s : State) : Rests s s.applyHeld := by
  unfold State.applyHeld
  split
  · unfold State.takeEffect
    split
    · dsimp only
      split
      · exact .of_same rfl rfl rfl rfl rfl
      · refine s.clearShown_rests.trans ?_
        exact .of_same rfl rfl rfl rfl rfl
    · exact .of_same rfl rfl rfl rfl rfl
    · exact .refl s
  · exact .refl s

theorem State.beginFrame_rests (s : State) (p : PanelParams) (d : Time) : Rests s (s.beginFrame p d) := by
  have latched : Rests s ((s.countFrame d).applyHeld.latchFrame p d) := by
    refine .trans (t := s.countFrame d) (.of_same rfl rfl rfl rfl rfl) ((State.applyHeld_rests _).trans ?_)
    exact .of_same rfl rfl rfl rfl rfl
  unfold State.beginFrame State.endHeld
  split
  · exact .serve s _
  · exact latched

theorem State.visitPixels_rests (s : State) : Rests s s.visitPixels := by
  rw [State.visitPixels_same]
  exact .of_same rfl rfl rfl rfl rfl

/-! ## Every command -/

section
variable {s t : State}

theorem execFetchStart_rests {i : SlotId} (h : execFetchStart i s = .next t) : Rests s t := by
  unfold execFetchStart at h
  repeat' split at h
  all_goals cases h
  · exact .refl s
  · exact .serve s _
  · exact .refl s
  · exact .refl s

theorem execRecordArrival_rests {r : OpRecord} (h : execRecordArrival r s = .next t) : Rests s t := by
  unfold execRecordArrival at h
  repeat' split at h
  all_goals cases h
  · exact .refl s
  · exact .refl s
  · exact .refl s
  · exact .serve s _

theorem execFetchFault_rests (h : execFetchFault s = .next t) : Rests s t := by
  unfold execFetchFault at h
  repeat' split at h
  all_goals rw [← Host.Outcome.next.inj h]
  · exact .refl s
  · exact .refl s
  · exact .serve s _
  · exact .refl s

theorem execOvertakenFetchEnd_rests (h : execOvertakenFetchEnd s = .next t) : Rests s t := by
  unfold execOvertakenFetchEnd at h
  repeat' split at h
  all_goals cases h
  · exact .refl s
  · exact .serve s _
  · exact .refl s

theorem execAbortAckPlace_rests {q : QueueId} {i : SlotId} (h : execAbortAckPlace q i s = .next t) : Rests s t := by
  unfold execAbortAckPlace at h
  repeat' split at h
  all_goals cases h
  · exact .refl s
  · exact .serve s _
  · exact .refl s
  · exact .refl s

theorem execWaitExpiry_rests {i : SlotId} (h : execWaitExpiry i s = .next t) : Rests s t := by
  unfold execWaitExpiry at h
  repeat' split at h
  all_goals cases h
  · exact .refl s
  · exact .refl s
  · exact .serve s _
  · exact .refl s

theorem execCompletionWriteAccepted_rests {k : CqId} (h : execCompletionWriteAccepted k s = .next t) : Rests s t := by
  unfold execCompletionWriteAccepted at h
  repeat' split at h
  all_goals cases h
  · exact .refl s
  · exact .refl s
  · unfold State.writeAccepted
    exact .serve s _
  · exact .refl s

theorem execCompletionWriteFault_rests {k : CqId} (h : execCompletionWriteFault k s = .next t) : Rests s t := by
  unfold execCompletionWriteFault at h
  repeat' split at h
  all_goals cases h
  · exact .refl s
  · exact .refl s
  · exact .of_stopped (by rw [State.enterFault_state]; exact nofun)

theorem execCompletionWriteIssue_rests {k : CqId} (h : execCompletionWriteIssue k s = .next t) : Rests s t := by
  unfold execCompletionWriteIssue at h
  repeat' split at h
  all_goals cases h
  · exact .trans (t := s.choose) (.of_same rfl rfl rfl rfl rfl) (State.issue_rests _ k)
  · exact .refl s

theorem execCoalescingTimerExpiry_rests {k : CqId} (h : execCoalescingTimerExpiry k s = .next t) : Rests s t := by
  unfold execCoalescingTimerExpiry at h
  repeat' split at h
  all_goals cases h
  · exact .refl s
  · exact .refl s
  · exact s.coalesce_rests k _ _
  · exact .refl s

theorem execSetupReadArrival_rests {r : SetupRecord} (h : execSetupReadArrival r s = .next t) : Rests s t := by
  unfold execSetupReadArrival at h
  repeat' split at h
  all_goals cases h
  · exact s.setupArrived_rests r
  · exact .refl s
  · exact .refl s

theorem execSetupReadFault_rests (h : execSetupReadFault s = .next t) : Rests s t := by
  unfold execSetupReadFault at h
  repeat' split at h
  all_goals cases h
  · exact .of_stopped (by rw [State.enterFault_state]; exact nofun)
  · exact .refl s
  · exact .refl s

theorem execPendingMessageSend_rests {bm mi : Bool} {unmask : List VectorId} (h : execPendingMessageSend bm mi unmask s = .next t) : Rests s t := by
  unfold execPendingMessageSend at h
  repeat' split at h
  all_goals cases h
  · exact .trans (t := { s with link := s.link.turnOn bm mi unmask }) (.of_same rfl rfl rfl rfl rfl) (State.sendPending_rests _)
  · exact .refl s

theorem execPcieConfigurationTurnOff_rests {bm mi : Bool} {mask : List VectorId} (h : execPcieConfigurationTurnOff bm mi mask s = .next t) : Rests s t := by
  unfold execPcieConfigurationTurnOff at h
  repeat' split at h
  all_goals cases h
  · exact .of_same rfl rfl rfl rfl rfl
  · exact .refl s

theorem execMessageWriteFault_rests {n : Nat} (h : execMessageWriteFault n s = .next t) : Rests s t := by
  unfold execMessageWriteFault at h
  repeat' split at h
  all_goals cases h
  · exact .of_same rfl rfl rfl rfl rfl
  · exact .refl s
  · exact .refl s

theorem execFrameStart_rests (h : execFrameStart s = .next t) : Rests s t := by
  unfold execFrameStart at h
  repeat' split at h
  all_goals cases h
  · exact s.beginFrame_rests _ _
  · exact .refl s
  · exact .refl s

theorem execScanPixel_rests {x r : Nat} (h : execScanPixel x r s = .next t) : Rests s t := by
  unfold execScanPixel at h
  repeat' split at h
  all_goals cases h
  · exact .refl s
  · refine s.visitPixels_rests.trans ?_
    exact .of_same rfl rfl rfl rfl rfl
  · exact .refl s

theorem execDispatch_rests (h : execDispatch s = .next t) : Rests s t := by
  unfold execDispatch at h
  repeat' split at h
  all_goals cases h
  · next given => exact (State.dispatchAll_rests _ given).trans (State.refuseReads_rests _ _)
  · exact .refl s

theorem execLineComplete_rests {e : EngineId} (h : execLineComplete e s = .next t) : Rests s t := by
  unfold execLineComplete at h
  dsimp only at h
  repeat' split at h
  all_goals cases h
  · exact .refl s
  · exact s.completeLine_rests e _
  · exact .refl s

theorem execHostReadData_rests {e : EngineId} {a : BitVec 64} {data : List Byte} (h : execHostReadData e a data s = .next t) : Rests s t := by
  unfold execHostReadData at h
  repeat' split at h
  all_goals cases h
  · exact .refl s
  · exact .refl s
  · refine .trans ?_ (State.answered_rests _ e _)
    exact .of_same rfl rfl rfl rfl rfl
  · exact .refl s
  · exact .refl s
  · refine .trans ?_ (State.answered_rests _ e _)
    exact .of_same rfl rfl rfl rfl rfl
  · exact .refl s
  · exact .refl s

theorem execExportWriteAccepted_rests {e : EngineId} {n : Nat} (h : execExportWriteAccepted e n s = .next t) : Rests s t := by
  unfold execExportWriteAccepted at h
  repeat' split at h
  all_goals cases h
  · exact .refl s
  · refine .trans ?_ (State.answered_rests _ e _)
    exact .of_same rfl rfl rfl rfl rfl
  · exact .refl s
  · exact .refl s

theorem execImportReadFault_rests {e : EngineId} (h : execImportReadFault e s = .next t) : Rests s t := by
  unfold execImportReadFault at h
  repeat' split at h
  all_goals cases h
  · exact .refl s
  · exact .refl s
  · exact s.hostFault_rests e
  · exact .refl s

theorem execExportWriteFault_rests {e : EngineId} (h : execExportWriteFault e s = .next t) : Rests s t := by
  unfold execExportWriteFault at h
  repeat' split at h
  all_goals cases h
  · exact .refl s
  · exact .refl s
  · exact s.hostFault_rests e
  · exact .refl s

theorem execLoadpalReadFault_rests {e : EngineId} (h : execLoadpalReadFault e s = .next t) : Rests s t := by
  unfold execLoadpalReadFault at h
  repeat' split at h
  all_goals cases h
  · exact .refl s
  · exact .refl s
  · exact s.hostFault_rests e
  · exact .refl s

end

/-- No command leaves a fetch possible that it has not started, where none was (R47). -/
theorem exec_rests {c : Instr} {s t : State} (h : exec c s = .next t) : Rests s t := by
  cases c with
  | submit q tail =>
    cases h
    exact (s.submitWrite_rests q tail).whileUp
  | consume k head =>
    cases h
    exact (s.consumeWrite_rests k head).whileUp
  | resume q =>
    cases h
    exact (s.resumeAction_rests q).whileUp
  | abort q =>
    cases h
    exact (s.abortAction_rests q).whileUp
  | enable =>
    cases h
    exact s.enableWrite_rests.whileUp
  | disable =>
    cases h
    exact s.disableWrite_rests.whileUp
  | functionReset =>
    cases h
    exact s.resetBlocks_rests.whileUp
  | statusClear value =>
    cases h
    exact (s.statusWrite_rests value).whileUp
  | setupAddressWrite half value =>
    cases h
    exact (s.setupWrite_rests half value).whileUp
  | registerWrite offset size value =>
    cases h
    refine Rests.whileUp ?_
    split
    · exact s.wordWrite_rests offset value
    · exact .refl s
  | coldReset | linkReset =>
    cases h
    exact .of_stopped nofun
  | abandonedReadAnswer | abandonedFetchAnswer | abandonedEngineAccessAnswer =>
    cases h
    exact .refl s
  | abandonedWriteAnswer reached =>
    cases h
    exact .of_same rfl rfl rfl rfl rfl
  | linkUp =>
    cases h
    exact .of_same rfl rfl rfl rfl rfl
  | pendingMessageSend => exact execPendingMessageSend_rests h
  | setupReadArrival => exact execSetupReadArrival_rests h
  | setupReadFault => exact execSetupReadFault_rests h
  | fetchStart => exact execFetchStart_rests h
  | recordArrival => exact execRecordArrival_rests h
  | fetchFault => exact execFetchFault_rests h
  | overtakenFetchEnd => exact execOvertakenFetchEnd_rests h
  | abortAckPlace => exact execAbortAckPlace_rests h
  | dispatch => exact execDispatch_rests h
  | hostReadData => exact execHostReadData_rests h
  | exportWriteAccepted => exact execExportWriteAccepted_rests h
  | lineComplete => exact execLineComplete_rests h
  | importReadFault => exact execImportReadFault_rests h
  | exportWriteFault => exact execExportWriteFault_rests h
  | loadpalReadFault => exact execLoadpalReadFault_rests h
  | completionWriteIssue => exact execCompletionWriteIssue_rests h
  | completionWriteAccepted => exact execCompletionWriteAccepted_rests h
  | completionWriteFault => exact execCompletionWriteFault_rests h
  | messageWriteFault => exact execMessageWriteFault_rests h
  | coalescingTimerExpiry => exact execCoalescingTimerExpiry_rests h
  | waitExpiry => exact execWaitExpiry_rests h
  | frameStart => exact execFrameStart_rests h
  | pcieConfigurationTurnOff => exact execPcieConfigurationTurnOff_rests h
  | scanPixel => exact execScanPixel_rests h

/-- No step leaves a fetch possible that it has not started, where none was (R47). -/
theorem step_rests {s t : State} (h : step s = .next t) : Rests s t := by
  obtain ⟨c, u, ran, same⟩ | rfl := step_cases h
  · refine .trans ?_ (exec_rests ran)
    rw [same]
    exact .of_same rfl rfl rfl rfl rfl
  · exact .of_same rfl rfl rfl rfl rfl

/-! ## The choice -/

theorem State.eligible_iff {s : State} {q : QueueId} : s.eligible q = true ↔ s.control.deviceState = .running ∧ s.fetch = none ∧
    s.ackOrder = [] ∧ (∃ i, (s.slot i).state = .free) ∧
    ∃ c, s.queue q = some c ∧ c.state = .opened ∧ c.head ≠ c.tail ∧ c.occupied < c.quota := by
  unfold State.eligible State.slotForFetch
  cases s.queue q with
  | none => simp
  | some c =>
    simp only [State.isFree, Bool.and_eq_true, decide_eq_true_eq, List.isEmpty_iff, Option.isNone_iff_eq_none, List.any_eq_true,
      List.mem_finRange, true_and, Option.some.injEq, exists_eq_left']
    tauto

/-- The queue k places after the first one of the search (R47). -/
theorem getElem_searchFrom (last : QueueId) {k : Nat} (h : k < (searchFrom last).length) :
    (searchFrom last)[k] = last + 1 + ⟨k, by simpa [searchFrom] using h⟩ := by
  simp [searchFrom]

/-- The search from the queue last served finds the first queue that follows it, upward and from 7 round to 0 (R47). -/
theorem searchFrom_find {last q : QueueId} {f : QueueId → Bool} :
    (searchFrom last).find? f = some q ↔ f q = true ∧ ∀ p, f p = true → (q - (last + 1)).val ≤ (p - (last + 1)).val := by
  have length : (searchFrom last).length = 8 := by simp [searchFrom]
  have place (p : QueueId) : (searchFrom last)[(p - (last + 1)).val]'((p - (last + 1)).isLt.trans_eq length.symm) = p := by
    rw [getElem_searchFrom]
    exact add_sub_cancel (last + 1) p
  rw [List.find?_eq_some_iff_getElem]
  refine and_congr_right fun _ => ⟨?_, fun first => ⟨_, _, place q, fun j before => ?_⟩⟩
  · rintro ⟨i, inside, rfl, earlier⟩ p hp
    rw [getElem_searchFrom, add_sub_cancel_left]
    refine Nat.le_of_not_lt fun before => ?_
    have none := earlier _ before
    rw [place p, hp] at none
    cases none
  · have inside : j < (searchFrom last).length := (before.trans (q - (last + 1)).isLt).trans_eq length.symm
    cases hj : f (searchFrom last)[j] with
    | false => rfl
    | true =>
      have later := first _ hj
      rw [getElem_searchFrom, add_sub_cancel_left] at later
      exact absurd before (Nat.not_lt.2 later)

theorem State.inClass_iff {s : State} {k : ServiceClass} {q : QueueId} :
    s.inClass k q = true ↔ ∃ c, s.queue q = some c ∧ c.service = k := by
  unfold State.inClass
  cases s.queue q <;> simp

/-- Within its class the choice falls on the first eligible queue that follows the one last served (R47). -/
theorem State.firstEligible_iff {s : State} {k : ServiceClass} {last q : QueueId} : s.firstEligible k last = some q ↔
    (s.eligible q = true ∧ ∃ c, s.queue q = some c ∧ c.service = k) ∧
      ∀ p d, s.queue p = some d → d.service = k → s.eligible p = true → (q - (last + 1)).val ≤ (p - (last + 1)).val := by
  unfold State.firstEligible
  rw [searchFrom_find]
  simp only [Bool.and_eq_true, State.inClass_iff]
  refine and_congr_right fun _ => forall_congr' fun p => ⟨fun first d used service may => first ⟨may, d, used, service⟩, ?_⟩
  rintro first ⟨may, d, used, service⟩
  exact first d used service may

/-- The search of a class finds none where no queue of the class is eligible (R46, R47). -/
theorem State.firstEligible_none {s : State} {k : ServiceClass} {last : QueueId} :
    s.firstEligible k last = none ↔ ∀ p d, s.queue p = some d → d.service = k → s.eligible p = false := by
  unfold State.firstEligible
  simp only [List.find?_eq_none, mem_searchFrom, true_implies, Bool.and_eq_true, State.inClass_iff, not_and]
  refine forall_congr' fun p => ⟨fun none d used service => ?_, fun none may ⟨d, used, service⟩ => ?_⟩
  · exact Bool.eq_false_iff.2 fun may => none may ⟨d, used, service⟩
  · rw [none d used service] at may
    cases may

/-- The arbiter's choice (R47). -/
theorem State.chosenQueue_iff {s : State} {q : QueueId} : s.chosenQueue = some q ↔ s.eligible q = true ∧ ∃ c, s.queue q = some c ∧
    (c.service = .normal → ∀ p d, s.queue p = some d → d.service = .urgent → s.eligible p = false) ∧
    ∀ p d, s.queue p = some d → d.service = c.service → s.eligible p = true →
      (q - ((if c.service = .urgent then s.lastUrgent else s.lastNormal) + 1)).val ≤
        (p - ((if c.service = .urgent then s.lastUrgent else s.lastNormal) + 1)).val := by
  unfold State.chosenQueue
  split
  · next u hu =>
    obtain ⟨⟨mayU, cu, usedU, urgent⟩, firstU⟩ := State.firstEligible_iff.1 hu
    constructor
    · rintro ⟨⟩
      refine ⟨mayU, cu, usedU, fun normal => ?_, ?_⟩
      · rw [urgent] at normal
        cases normal
      · rw [urgent, if_pos rfl]
        exact firstU
    · rintro ⟨may, c, used, before, first⟩
      cases service : c.service with
      | normal =>
        rw [before service u cu usedU urgent] at mayU
        cases mayU
      | urgent =>
        rw [service, if_pos rfl] at first
        exact hu.symm.trans (State.firstEligible_iff.2 ⟨⟨may, c, used, service⟩, first⟩)
  · next noUrgent =>
    have none := State.firstEligible_none.1 noUrgent
    rw [State.firstEligible_iff]
    constructor
    · rintro ⟨⟨may, c, used, normal⟩, first⟩
      refine ⟨may, c, used, fun _ => none, ?_⟩
      rw [normal, if_neg nofun]
      exact first
    · rintro ⟨may, c, used, -, first⟩
      cases service : c.service with
      | urgent =>
        rw [none q c used service] at may
        cases may
      | normal =>
        rw [service, if_neg nofun] at first
        exact ⟨⟨may, c, used, service⟩, first⟩

/-- Settles O33: no command, and so no step, leaves a fetch to start; the rest says what the arbiter's functions compute. -/
theorem arbiterServesByClassAndTurn : Obligations.ArbiterServesByClassAndTurn :=
  ⟨fun _ _ none ran => step_rests ran none, fun _ _ _ none ran => exec_rests ran none, fun _ _ =>
    ⟨State.eligible_iff, State.chosenQueue_iff⟩⟩

end Sys2Proof.Machine
end

section
/-! PROOF. DISABLE in FAULT (R83, R165, R177). -/

namespace Sys2Proof.Machine

open Sys2Proof.Safety

/-- What the discarded slots claim of a surface is given back (R11, R14, R83). -/
theorem State.foldl_releaseClaim_surface (sl : SlotId → Slot) (l : List SlotId) (i : SurfaceId) : ∀ s : State,
    (l.foldl (fun t j => t.releaseClaim (sl j) .aborted) s).surface i =
      (s.surface i).givenBack (l.any fun j => (sl j).claims (.retire i)) (l.countP fun j => (sl j).claims (.present i)) := by
  induction l with
  | nil => exact fun _ => (Surface.givenBack_none _).symm
  | cons j rest ih =>
    intro s
    rw [List.foldl_cons, ih, State.releaseClaim_surface s (sl j) (st := .aborted) (by decide), Surface.givenBack_givenBack,
      List.any_cons, List.countP_cons, Nat.add_comm]

/-- Beside the surface table, giving back claims changes nothing. -/
theorem State.foldl_releaseClaim_same (sl : SlotId → Slot) (l : List SlotId) : ∀ s : State,
    l.foldl (fun t j => t.releaseClaim (sl j) .aborted) s =
      { s with surfaces := (l.foldl (fun t j => t.releaseClaim (sl j) .aborted) s).surfaces } := by
  induction l with
  | nil => exact fun _ => rfl
  | cons j rest ih =>
    intro s
    rw [List.foldl_cons, ih, s.releaseClaim_same (sl j) .aborted]

/-- Discarding the slots empties the window, and changes nothing else but the surface table (R83). -/
theorem State.discardSlots_same (s : State) : s.discardSlots =
    { s with surfaces := s.discardSlots.surfaces, slots := Vector.replicate 32 Slot.freed, order := [] } := by
  unfold State.discardSlots
  rw [State.foldl_releaseClaim_same]

/-- What becomes of a surface that nothing is shown of any more (R14). -/
theorem State.clearShown_surface (s : State) (i : SurfaceId) : s.clearShown.surface i =
    { s.surface i with shown := if s.presentation.shown = some i then false else (s.surface i).shown } := by
  unfold State.clearShown
  split
  · next id shown =>
    rw [State.surface_modifySurface, shown]
    by_cases own : id = i <;> simp [own]
  · next none => simp [none]

theorem State.clearShown_same (s : State) : s.clearShown = { s with surfaces := s.clearShown.surfaces } := by
  unfold State.clearShown
  split <;> rfl

/-- After the slots are discarded and nothing is shown, no claim is left of a surface (R83, R165). -/
theorem State.discardSlots_unclaimed (s : State) (i : SurfaceId) : s.discardSlots.clearShown.surface i = unclaimed s (fun _ => true) i := by
  have released : s.discardSlots.surface i = (s.surface i).givenBack ((List.finRange 32).any fun j => (s.slot j).claims (.retire i))
      ((List.finRange 32).countP fun j => (s.slot j).claims (.present i)) := State.foldl_releaseClaim_surface s.slot _ i s
  have shown : s.discardSlots.presentation.shown = s.presentation.shown := by rw [State.discardSlots_same]
  rw [State.clearShown_surface, released, shown]
  unfold unclaimed Surface.givenBack
  simp [Slot.claims, List.countP_eq_length_filter]

/-- An engine that holds a slot is DETACHED, and any other is untouched (R107). -/
theorem Engine.detach_eq (g : Engine) : g.detach = if g.slot.isSome then { g with state := .detached, slot := none } else g := by
  unfold Engine.detach
  cases g.slot <;> rfl

theorem State.faultToOff_engine (s : State) (e : EngineId) : s.faultToOff.engine e = (s.engine e).detach := by
  have engines : s.discardSlots.clearShown.engines = s.engines := by rw [State.clearShown_same, State.discardSlots_same]
  show (Vector.ofFn fun k => s.discardSlots.clearShown.engines[k].detach)[e.index] = _
  rw [engines]
  simp [State.engine]

/-- Settles O22: the passage from FAULT to OFF, block by block. -/
theorem disableInFaultDiscardsWork : Obligations.DisableInFaultDiscardsWork := by
  intro s up enabled fault
  have leaves : exec .disable s = .next s.faultToOff := by
    show Host.Outcome.next (s.whileUp s.disableWrite) = _
    rw [State.whileUp_up up, State.disableWrite, if_pos enabled, fault]
  have kept : s.discardSlots.clearShown = { s with
      surfaces := s.discardSlots.clearShown.surfaces, slots := Vector.replicate 32 Slot.freed, order := [] } := by
    rw [State.clearShown_same, State.discardSlots_same]
  refine ⟨s.faultToOff, leaves, ?_, ?_, fun i => ?_, fun q => ?_, fun k => ?_, rfl, rfl, rfl, ?_, s.discardSlots_unclaimed,
    fun e => (s.faultToOff_engine e).trans (Engine.detach_eq _), ?_⟩
  all_goals unfold State.faultToOff; dsimp only; rw [kept]
  · rfl
  · rfl
  · simp [State.slot, State.unconfigure]
  · simp [State.queue, State.unconfigure]
  · simp [State.cq, State.unconfigure]
  · rfl
  · exact ⟨rfl, rfl, rfl, rfl, rfl⟩

end Sys2Proof.Machine
end

section
/-! PROOF. The arrival of an engine operation, a PRESENT or a PANEL that is free to run (R64, R66, R77, R157). -/

namespace Sys2Proof.Machine

open Sys2Proof.Safety

/-- An engine operation that writes something waits for DISPATCH (R73). -/
theorem State.execute_engine {s : State} {i : SlotId} {op : Op} (h : (s.slot i).op = some op) (engine : op.isEngine = true)
    (writes : op.emptyClip = false) : s.execute i = (s, []) := by
  unfold State.execute
  rw [h]
  cases op with
  | fill | copy | pattern | expand | importPixels | exportPixels | loadPalette => exact if_neg (Bool.eq_false_iff.1 writes)
  | _ => cases engine

/-- A PRESENT or PANEL is RUNNING and is the held operation (R77, R157). -/
theorem State.execute_presentation {s : State} {i : SlotId} {op : Op} (h : (s.slot i).op = some op) (kind : op.isPresentation = true) :
    s.execute i = (({ s with presentation := { s.presentation with held := some i } } : State).setSlot i
      { s.slot i with state := .running }, []) := by
  unfold State.execute
  rw [h]
  cases op with
  | present | setPanel => rfl
  | _ => cases kind

/-- An operation that is free to run holds no dependency and need not wait for its queue (R64, R68, R70). -/
theorem State.admitted_free {s : State} {f : Fetch} (c : Queue) {r : OpRecord} {op : Op}
    (free : FreeToRun s f.slot f.queue op (r.extractLsb' 8 8)) : s.admitted f c r op =
      { arrived s f r with state := .fetching, op := some op, reads := s.heldReads op, writes := op.heldWrites } := by
  have waits := (s.arrived_free_iff f c r op).2 free
  rw [Bool.and_eq_true, List.isEmpty_iff, Bool.not_eq_true'] at waits
  rw [State.admitted_eq, waits.1, waits.2]
  rfl

/-- The slot of an operation that is free to run, when it is executed. -/
theorem State.readied_free {s : State} {f : Fetch} (c : Queue) {r : OpRecord} {op : Op}
    (free : FreeToRun s f.slot f.queue op (r.extractLsb' 8 8)) : s.readied f c r op =
      { s.holding f c { arrived s f r with
          state := .ready, op := some op, reads := s.heldReads op, writes := op.heldWrites } with
        surfaces := (s.admissionEffect op).surfaces, choices := s.choices + 1 } := by
  rw [State.readied, State.admissionEffect_setSlot, State.admitted_free c free]
  rfl

/-- An engine operation, a PRESENT or a PANEL is no DEFINE, WAIT or RETIRE. -/
theorem handedOver_kind {op : Op} (kind : op.isEngine = true ∨ op.isPresentation = true) :
    (∀ id d, op ≠ .define id d) ∧ (∀ m v n, op ≠ .wait m v n) ∧ ∀ id, op ≠ .retire id := by
  refine ⟨?_, ?_, ?_⟩
  all_goals
    intros
    rintro rfl
    cases kind <;> contradiction

/-- What an operation free to run leaves at its arrival, where its execution ends nothing (R73, R77, R157). -/
theorem State.afterArrival_handedOver {s : State} {f : Fetch} (c : Queue) {r : OpRecord} {op : Op} (ok : s.checkRecord r = .ok op)
    (running : s.control.deviceState = .running) (free : FreeToRun s f.slot f.queue op (r.extractLsb' 8 8))
    (writes : op.emptyClip = false) (kind : op.isEngine = true ∨ op.isPresentation = true) : s.afterArrival f c r =
      { s.holding f c { arrived s f r with
          state := if op.isEngine then .ready else .running, op := some op, reads := s.heldReads op, writes := op.heldWrites } with
        surfaces := (s.admissionEffect op).surfaces, choices := s.choices + 1
        presentation := { s.presentation with held := if op.isEngine then s.presentation.held else some f.slot } } := by
  obtain ⟨notDefine, notWait, -⟩ := handedOver_kind kind
  have holds := s.readied_op f c r op
  have ready := State.readied_free c free
  rw [State.afterArrival_free ok notDefine notWait free]
  cases engine : op.isEngine with
  | true =>
    rw [State.execute_engine holds engine writes, State.endSlots_nil_running (by rw [ready]; exact running), ready]
    rfl
  | false =>
    have presents : op.isPresentation = true := kind.resolve_left (by rw [engine]; nofun)
    rw [State.execute_presentation holds presents, State.endSlots_nil_running (by rw [ready]; exact running), ready]
    simp [State.setSlot, State.holding, State.setQueue, State.slot]

/-- Settles O43: the operation is executed in the step of its arrival, which ends nothing. -/
theorem freeOperationIsHandedOver : Obligations.FreeOperationIsHandedOver := by
  intro s f c r op arriving ok running free writes kind
  rw [clippedAway_eq] at writes
  have after := State.afterArrival_handedOver c ok running free writes kind
  refine ⟨s.afterArrival f c r, s.heldReads op, op.heldWrites, goesTo_of_serve (exec_recordArrival r arriving), ?_,
    mem_heldReads s op, mem_heldWrites op, fun i => ?_⟩
  · rw [after]
    rfl
  · rw [after]
    refine (s.admissionEffect_surface op i).trans ?_
    obtain ⟨notDefine, -, notRetire⟩ := handedOver_kind kind
    cases op with
    | define id d => exact absurd rfl (notDefine id d)
    | retire id => exact absurd rfl (notRetire id)
    | _ => rfl

end Sys2Proof.Machine
end

section
/-! PROOF. An error among several endings that come together halts its queue (R53, R79). -/

namespace Sys2Proof.Machine

open Sys2Proof.Safety

/-- A configured queue under HALT policy that no ABORT is emptying: an error halts it (R53). -/
def Queue.Haltable (c : Queue) : Prop := c.policy = .halt ∧ c.state ≠ .draining

/-- An error of one of its slots halts a queue (R53). -/
theorem Queue.Haltable.halted {c : Queue} (h : c.Haltable) (waited : Bool) {st : Status} (error : st.isError = true) :
    (queueAfter c waited st).state = .halted := by
  obtain ⟨policy, state⟩ := h
  cases now : c.state with
  | opened => exact queueAfter_halted waited error policy (.inl now)
  | waiting => exact queueAfter_halted waited error policy (.inr now)
  | halted =>
    rw [← Queue.afterEnding_eq]
    exact (c.afterEnding_kept waited st).halted now
  | draining => exact absurd now state

/-- No ending takes a queue into DRAINING, and none changes its policy. -/
theorem Lasts.haltable (s : State) (q : QueueId) (i : SlotId) : Lasts s q i True Queue.Haltable where
  ended := by
    rintro - c waited st ⟨policy, state⟩
    refine ⟨(c.afterEnding_kept waited st).policy.trans policy, ?_⟩
    unfold Queue.afterEnding
    split
    · exact nofun
    · split
      · exact nofun
      · exact state
  freed := fun _ _ h => h
  placed := fun _ _ h _ => h
  drained := fun _ _ h draining _ _ => absurd draining h.2

/-- Of several endings, one with an error halts its queue, whatever the others do (R53). -/
theorem State.foldl_endSlot_halted {q : QueueId} {e : Ending} (error : e.status.isError = true) (es : List Ending) :
    ∀ {s : State} {c : Queue}, (es.map Ending.slot).Nodup → e ∈ es → (s.slot e.slot).queue = some q → s.queue q = some c →
      c.Haltable → ∃ d, (es.foldl State.endSlot s).queue q = some d ∧ d.state = .halted := by
  induction es with
  | nil => exact fun _ member => absurd member List.not_mem_nil
  | cons x rest ih =>
    intro s c nodup member inQueue used haltable
    rw [List.map_cons, List.nodup_cons] at nodup
    rcases List.mem_cons.1 member with rfl | later
    · have queue := State.endSlot_queue inQueue used fun both => Status.ne_ok_of_isError error both.1
      obtain ⟨d, after, kept⟩ := (Goes.foldl State.endSlot_goes rest (s.endSlot e)).queues q _ queue
      exact ⟨d, after, kept.halted (haltable.halted _ error)⟩
    · obtain ⟨d, queue, -⟩ := (s.endSlot_goes x).queues q c used
      have context : s.Context q Queue.Haltable := fun b hb => Option.some.inj (used.symm.trans hb) ▸ haltable
      refine ih nodup.2 later ?_ queue (State.endSlot_context context x (Lasts.haltable s q x.slot) (fun _ => trivial) d queue)
      rw [State.endSlot_slot_ne fun same => nodup.1 (same ▸ List.mem_map_of_mem later)]
      exact inQueue

/-- What endings release goes on from where the endings alone leave the queues. -/
theorem State.settle_foldl_goes (n : Nat) (s : State) {es : List Ending} {e : Ending} (member : e ∈ es) :
    Goes ((s.together es).foldl State.endSlot s.choose) (s.settle (n + 1) es) := by
  cases es with
  | nil => exact absurd member List.not_mem_nil
  | cons x rest =>
    exact ((State.removeDependencies_goes _ ((x :: rest).map Ending.slot)).trans (State.retestOrdered_goes _)).trans
      (((State.markReady_goes _ _).trans (State.executeAll_goes _ _)).trans (State.settle_goes n _ _))

/-- Of the endings of one event, one with an error halts its queue, whatever the event releases (R53). -/
theorem State.endSlots_halted {s : State} (running : s.control.deviceState = .running) {es : List Ending} {e : Ending} {q : QueueId}
    {c : Queue} (nodup : (es.map Ending.slot).Nodup) (member : e ∈ es) (error : e.status.isError = true)
    (inQueue : (s.slot e.slot).queue = some q) (used : s.queue q = some c) (haltable : c.Haltable) :
    ∃ d, (s.endSlots es).queue q = some d ∧ d.state = .halted := by
  have perm := s.together_perm es
  obtain ⟨d, queue, halted⟩ := State.foldl_endSlot_halted error (s.together es) (s := s.choose)
    ((perm.map Ending.slot).nodup_iff.2 nodup) (perm.mem_iff.2 member) inQueue used haltable
  obtain ⟨d', after, kept⟩ := (s.settle_foldl_goes 32 member).queues q d queue
  exact ⟨d', ((State.endSlots_running_kept running es).2.2 q).trans after, kept.halted halted⟩

end Sys2Proof.Machine
end

section
/-! PROOF. DISPATCH (R73, R86, R95, R107), and the first reads that are refused at once (R110, R119, R121). -/

namespace Sys2Proof.Machine

open Sys2Proof.Safety

/-! ## What an engine takes -/

theorem Op.lineRead_eq (op : Op) (line : Nat) (busMastering : Bool) : op.lineRead line busMastering = lineReadOf op line busMastering := by
  cases op with
  | importPixels host p dst rect key clip =>
    simp [Op.lineRead, lineReadOf, HostBuffer.pixelAddress, pixelsPerLine_eq]
  | _ => rfl

/-- What an engine takes at dispatch is what R86 says. -/
theorem State.jobFor_taken (s : State) (op : Op) : JobTaken s op (s.jobFor op) := by
  refine ⟨?_, ?_⟩
  · rw [← Op.lineRead_eq]
    rfl
  · rintro src x y phaseX phaseY dst rect rop key clip a rfl fields
    have latch : (s.jobFor (.pattern src x y phaseX phaseY dst rect rop key clip)).latch = patternLatch s.frame a x y := by
      unfold State.jobFor
      simp [Op.src, fields]
    rw [latch]
    refine ⟨by simp [patternLatch], fun k below => ?_⟩
    simp [patternLatch, below]

/-- An engine that has just taken an operation (R86). -/
def Engine.taking (i : SlotId) (j : Job) : Engine := { state := .active, slot := some i, line := 0, job := some j }

/-- The read of the first line is refused when the operation reads host memory and bus mastering is off (R110). -/
theorem State.taking_readRefused (s : State) (i : SlotId) (op : Op) :
    (Engine.taking i (s.jobFor op)).readRefused = (readsHost op && !s.link.busMastering) := by
  cases op <;> rfl

/-! ## A slot is given to an engine -/

theorem State.giveTo_slot (s : State) (e : EngineId) (i k : SlotId) (j : Job) : (s.giveTo e i j).slot k =
    if i = k then { s.slot i with state := .running, engine := some e, linesDone := 0 } else s.slot k := State.slot_setSlot s i k _

theorem State.giveTo_engine (s : State) (e g : EngineId) (i : SlotId) (j : Job) : (s.giveTo e i j).engine g =
    if e = g then Engine.taking i j else s.engine g := State.engine_setEngine _ e g _

/-- A slot that is given is RUNNING, and no longer READY. -/
theorem State.giveTo_ready (s : State) (e : EngineId) (i k : SlotId) (j : Job) :
    ReadyForEngine ((s.giveTo e i j).slot k) ↔ k ≠ i ∧ ReadyForEngine (s.slot k) := by
  rw [State.giveTo_slot]
  by_cases own : i = k
  · rw [if_pos own]
    exact ⟨fun ready => absurd ready.1 nofun, fun both => absurd own.symm both.1⟩
  · rw [if_neg own, and_iff_right (Ne.symm own)]

/-- Slot i, which holds the operation in s, has been given to engine e. -/
structure Handed (s t : State) (e : EngineId) (i : SlotId) (op : Op) : Prop where
  engine : t.engine e = Engine.taking i (s.jobFor op)
  slot : t.slot i = { s.slot i with state := .running, engine := some e, linesDone := 0 }

theorem Handed.of_giveTo {s t : State} (e : EngineId) {i : SlotId} (op : Op) (untouched : t.slot i = s.slot i) :
    Handed s (t.giveTo e i (s.jobFor op)) e i op where
  engine := (State.giveTo_engine t e e i _).trans (if_pos rfl)
  slot := by rw [State.giveTo_slot, if_pos rfl, untouched]

/-- What is given next leaves it. -/
theorem Handed.giveTo {s t : State} {e : EngineId} {i : SlotId} {op : Op} (h : Handed s t e i op) {g : EngineId} {k : SlotId}
    (engines : g ≠ e) (slots : k ≠ i) (j : Job) : Handed s (t.giveTo g k j) e i op where
  engine := by rw [State.giveTo_engine, if_neg engines, h.engine]
  slot := by rw [State.giveTo_slot, if_neg slots, h.slot]

/-! ## The arbiter's choice -/

/-- The earliest READY engine operation has none before it. -/
theorem State.earliestReady_some {s : State} {before after : List SlotId} {i : SlotId} (order : s.order = before ++ i :: after)
    (noneBefore : ∀ j ∈ before, ¬ReadyForEngine (s.slot j)) (ready : ReadyForEngine (s.slot i)) : s.earliestReady = some i := by
  unfold State.earliestReady
  rw [List.find?_eq_some_iff_append]
  refine ⟨Slot.readyForEngine_iff.2 ready, before, after, order, fun j member => ?_⟩
  rw [Bool.not_eq_true', Bool.eq_false_iff]
  exact fun h => noneBefore j member (Slot.readyForEngine_iff.1 h)

theorem State.earliestReady_none {s : State} (noneReady : ∀ j ∈ s.order, ¬ReadyForEngine (s.slot j)) : s.earliestReady = none := by
  unfold State.earliestReady
  rw [List.find?_eq_none]
  exact fun j member h => noneReady j member (Slot.readyForEngine_iff.1 h)

/-- The operation of slot i is the earliest that is READY for an engine, and its pattern region exists. -/
structure State.Offers (s : State) (i : SlotId) (op : Op) : Prop where
  earliest : s.earliestReady = some i
  holds : (s.slot i).op = some op
  latch : (s.jobFor op).latchExists = true

/-- What is offered is given (R73). -/
theorem State.Offers.dispatchTo {s : State} {i : SlotId} {op : Op} (h : s.Offers i op) (e : EngineId) :
    s.dispatchTo e = some (s.giveTo e i (s.jobFor op)) := by
  unfold State.dispatchTo
  rw [h.earliest]
  dsimp only
  rw [h.holds]
  exact if_pos h.latch

/-- With no READY engine operation nothing is given. -/
theorem State.dispatchTo_rest {s : State} (noneReady : s.earliestReady = none) (e : EngineId) : s.dispatchTo e = some s := by
  unfold State.dispatchTo
  rw [noneReady]

/-! ## The engines that are idle -/

/-- The idle engine that is alone (R73). -/
theorem State.idleEngines_alone {s : State} {e : EngineId} (idle : (s.engine e).state = .idle)
    (attached : ∀ g, (s.engine g).state ≠ .detached) (others : ∀ g, g ≠ e → (s.engine g).state ≠ .idle) : s.idleEngines = [e] := by
  unfold State.idleEngines
  rw [if_neg (not_or.2 ⟨attached .re0, attached .re1⟩)]
  cases e with
  | re0 => simp [idle, others .re1 nofun]
  | re1 => simp [idle, others .re0 nofun]

theorem State.idleEngines_both {s : State} (idle : ∀ g, (s.engine g).state = .idle) : s.idleEngines = [.re0, .re1] := by
  simp [State.idleEngines, idle]

/-- In RUNNING, with an engine IDLE and an operation offered, the arbiter acts (R73). -/
theorem exec_dispatch {s t : State} {i : SlotId} {op : Op} {es : List EngineId} (running : s.control.deviceState = .running)
    (offers : s.Offers i op) (idle : s.idleEngines = es) (oneIdle : es ≠ []) (all : s.dispatchAll es = some t) :
    exec .dispatch s = .next (t.refuseReads es) := by
  have may : s.mayDispatch = true := by
    simp [State.mayDispatch, running, idle, oneIdle, offers.earliest]
  show execDispatch s = _
  unfold execDispatch
  rw [if_pos may, idle, all]

/-! ## The reads that are refused -/

/-- Those engines are IDLE again. -/
def State.idled (t : State) (l : List EngineId) : State := l.foldl (fun t e => t.setEngine e Engine.idled) t

theorem State.idled_engine (l : List EngineId) (g : EngineId) : ∀ t : State,
    (t.idled l).engine g = if g ∈ l then Engine.idled else t.engine g := by
  induction l with
  | nil => exact fun _ => rfl
  | cons e rest ih =>
    intro t
    refine (ih _).trans ?_
    rw [State.engine_setEngine]
    by_cases own : e = g
    · simp [own]
    · simp [own, Ne.symm own]

theorem State.idled_same (l : List EngineId) : ∀ t : State, t.idled l = { t with engines := (t.idled l).engines } := by
  induction l with
  | nil => exact fun _ => rfl
  | cons e rest ih => exact fun t => ih (t.setEngine e Engine.idled)

/-- The endings of the transfers whose first read is refused (R119, R121). -/
def State.refusals (t : State) (l : List EngineId) : List Ending := l.filterMap fun e =>
  (t.engine e).slot.map fun i => { slot := i, status := .hostFault, detail := BitVec.ofNat 32 (t.engine e).line }

/-- The engines among those given an operation whose first read is refused. -/
def State.refusedEngines (t : State) (es : List EngineId) : List EngineId := es.filter fun e => (t.engine e).readRefused

/-- What the refused reads leave, before the next fetch: their engines are IDLE and their transfers have ended (R119, R121). -/
def State.afterRefusals (t : State) (es : List EngineId) : State :=
  (t.idled (t.refusedEngines es)).endSlots (t.refusals (t.refusedEngines es))

theorem State.mem_refusedEngines {t : State} {es : List EngineId} {e : EngineId} :
    e ∈ t.refusedEngines es ↔ e ∈ es ∧ (t.engine e).readRefused = true := List.mem_filter

/-- Refused reads end their transfers, and the fetch that is then possible starts (R47, R110). -/
theorem State.refuseReads_some {t : State} {es : List EngineId} {e : EngineId} (refused : e ∈ t.refusedEngines es) :
    t.refuseReads es = (t.afterRefusals es).serveFetch := by
  unfold State.refuseReads
  split
  · next none =>
    rw [State.refusedEngines, none] at refused
    exact absurd refused List.not_mem_nil
  · rfl

/-- The refusals leave the engines whose reads were not refused. -/
theorem State.afterRefusals_engine (t : State) (es : List EngineId) (g : EngineId) : (t.afterRefusals es).engine g =
    if g ∈ t.refusedEngines es then Engine.idled else t.engine g := by
  unfold State.afterRefusals
  rw [State.engine, (State.endSlots_settled _ _).engines]
  exact t.idled_engine _ g

theorem State.refuseReads_none {t : State} {es : List EngineId} (sent : ∀ e ∈ es, (t.engine e).readRefused = false) :
    t.refuseReads es = t := by
  have none : (es.filter fun e => (t.engine e).readRefused) = [] := List.filter_eq_nil_iff.2 fun e member => by
    rw [sent e member]
    exact Bool.false_ne_true
  unfold State.refuseReads
  rw [none]

/-- Engines that hold different slots bring endings of different slots. -/
theorem State.refusals_nodup {t : State} {l : List EngineId} (distinct : l.Pairwise fun d e => (t.engine d).slot ≠ (t.engine e).slot) :
    ((t.refusals l).map Ending.slot).Nodup := by
  unfold State.refusals List.Nodup
  rw [List.pairwise_map, List.pairwise_filterMap]
  refine distinct.imp fun ne x hx y hy same => ne ?_
  obtain ⟨i, hi, rfl⟩ := Option.map_eq_some_iff.1 hx
  obtain ⟨k, hk, rfl⟩ := Option.map_eq_some_iff.1 hy
  rw [hi, hk]
  exact congrArg some same

section
variable {s t : State} {e : EngineId} {i : SlotId} {op : Op}

theorem Handed.readRefused (h : Handed s t e i op) : (t.engine e).readRefused = (readsHost op && !s.link.busMastering) := by
  rw [h.engine, State.taking_readRefused]

theorem Handed.not_readRefused (h : Handed s t e i op) (sent : s.link.busMastering = true ∨ readsHost op = false) :
    (t.engine e).readRefused = false := by
  rw [h.readRefused]
  rcases sent with on | noRead
  · rw [on, Bool.not_true, Bool.and_false]
  · rw [noRead, Bool.false_and]

/-- With bus mastering off, the operations that read host memory are refused (R110). -/
theorem Handed.mem_refusedEngines (h : Handed s t e i op) (off : s.link.busMastering = false) {es : List EngineId} (member : e ∈ es) :
    e ∈ t.refusedEngines es ↔ readsHost op = true := by
  rw [State.mem_refusedEngines, and_iff_right member, h.readRefused, off, Bool.not_false, Bool.and_true]

theorem Handed.refusal_mem (h : Handed s t e i op) {l : List EngineId} (member : e ∈ l) :
    { slot := i, status := .hostFault, detail := 0#32 } ∈ t.refusals l := by
  refine List.mem_filterMap.2 ⟨e, member, ?_⟩
  rw [h.engine]
  rfl

/-- The first read of a slot given to an engine is refused, alone or with another's (R110, R119, R121). -/
theorem Handed.firstReadRefused (h : Handed s t e i op) (same : t = { s with slots := t.slots, engines := t.engines })
    (running : s.control.deviceState = .running) {es : List EngineId} (refused : e ∈ t.refusedEngines es)
    (distinct : (t.refusedEngines es).Pairwise fun d g => (t.engine d).slot ≠ (t.engine g).slot) {q : QueueId} {d : Queue}
    (inQueue : (s.slot i).queue = some q) (used : s.queue q = some d) : FirstReadRefused s (t.afterRefusals es) e i q d := by
  have engine := t.afterRefusals_engine es e
  rw [if_pos refused] at engine
  refine ⟨engine, ?_⟩
  unfold State.afterRefusals
  have nodup := State.refusals_nodup distinct
  have ends := h.refusal_mem refused
  have kept : t.idled (t.refusedEngines es) = { s with slots := t.slots, engines := (t.idled (t.refusedEngines es)).engines } := by
    rw [State.idled_same, same]
  have slot : (t.idled (t.refusedEngines es)).slot i = { s.slot i with state := .running, engine := some e, linesDone := 0 } := by
    rw [State.idled_same]
    exact h.slot
  generalize t.idled (t.refusedEngines es) = v at kept slot ⊢
  have control : v.control = s.control := by rw [kept]
  have queue : v.queue q = some d := by rw [kept]; exact used
  have inQueue : (v.slot i).queue = some q := by rw [slot]; exact inQueue
  have settled := v.endSlots_settled (t.refusals (t.refusedEngines es))
  refine ⟨?_, ?_, fun policy state => ?_, ?_, ?_⟩
  · have answered := State.endSlots_answered nodup ends inQueue
    rw [slot] at answered
    exact answered
  · have posted := (State.endSlots_posted nodup ends inQueue nofun).1
    intro c k hc hk
    have joined := posted c k (by rw [kept]; exact hc) (by rw [kept]; exact hk)
    rw [control] at joined
    exact joined
  · exact State.endSlots_halted (by rw [control]; exact running) nodup ends rfl inQueue queue
      ⟨policy, by rcases state with state | state <;> rw [state] <;> exact nofun⟩
  · rw [settled.frame, kept]
  · rw [settled.palettes, kept]

/-- With bus mastering off, what becomes of an operation that was given to an engine (R86, R110, R119, R121). -/
theorem Handed.outcome (h : Handed s t e i op) (same : t = { s with slots := t.slots, engines := t.engines })
    (running : s.control.deviceState = .running) (off : s.link.busMastering = false) {es : List EngineId} (member : e ∈ es)
    (distinct : (t.refusedEngines es).Pairwise fun d g => (t.engine d).slot ≠ (t.engine g).slot) :
    if readsHost op = true then
      ∀ q d, (s.slot i).queue = some q → s.queue q = some d → FirstReadRefused s (t.afterRefusals es) e i q d
    else ∃ job, JobTaken s op job ∧ (t.afterRefusals es).engine e = { state := .active, slot := some i, line := 0, job := some job } := by
  have chosen := h.mem_refusedEngines off member
  split
  · next reads => exact fun _ _ => h.firstReadRefused same running (chosen.2 reads) distinct
  · next noRead =>
    refine ⟨s.jobFor op, s.jobFor_taken op, ?_⟩
    rw [State.afterRefusals_engine, if_neg (mt chosen.1 noRead)]
    exact h.engine

end

/-! ## The dispatch -/

/-- In RUNNING with nothing to give or no engine to give it to, nothing is given (R73, R107). -/
theorem exec_dispatch_rest {s : State} (impossible : ¬DispatchPossible s) : exec .dispatch s = .next s := by
  show execDispatch s = _
  unfold execDispatch
  rw [if_neg (mt State.mayDispatch_iff.1 impossible)]

section
variable {s : State} {i k : SlotId} {op next : Op} {e : EngineId}

/-- One operation is given: to the engine that alone is IDLE, or to RE0 when there is no other (R73). -/
theorem exec_dispatch_one (running : s.control.deviceState = .running) (offers : s.Offers i op) (idle : (s.engine e).state = .idle)
    (attached : ∀ g, (s.engine g).state ≠ .detached)
    (alone : e = .re0 ∧ (∀ j ∈ s.order, j ≠ i → ¬ReadyForEngine (s.slot j)) ∨ ∀ g, g ≠ e → (s.engine g).state ≠ .idle) :
    ∃ es, es.Nodup ∧ e ∈ es ∧ (∀ g ∈ es, g ≠ e → (s.engine g).state = .idle) ∧
      exec .dispatch s = .next ((s.giveTo e i (s.jobFor op)).refuseReads es) := by
  by_cases others : ∀ g, g ≠ e → (s.engine g).state ≠ .idle
  · refine ⟨[e], List.nodup_singleton e, List.mem_singleton_self e, fun g member other => absurd (List.mem_singleton.1 member) other,
      exec_dispatch running offers (State.idleEngines_alone idle attached others) nofun ?_⟩
    rw [State.dispatchAll, offers.dispatchTo]
    rfl
  · obtain ⟨rfl, noMore⟩ := alone.resolve_right others
    have second : (s.engine .re1).state = .idle := by
      by_contra busy
      refine others fun g other => ?_
      cases g with
      | re0 => exact absurd rfl other
      | re1 => exact busy
    have both : ∀ g, (s.engine g).state = .idle := fun g => by cases g; exacts [idle, second]
    refine ⟨[.re0, .re1], by decide, List.mem_cons_self, fun g _ _ => both g,
      exec_dispatch running offers (State.idleEngines_both both) nofun ?_⟩
    rw [State.dispatchAll, offers.dispatchTo]
    dsimp only
    rw [State.dispatchAll, State.dispatchTo_rest (State.earliestReady_none fun j member ready => ?_)]
    · rfl
    · obtain ⟨other, ready⟩ := (s.giveTo_ready .re0 i j _).1 ready
      exact noMore j member other ready

/-- One operation is given to RE0 and another to RE1. -/
def State.giveBoth (s : State) (i : SlotId) (op : Op) (k : SlotId) (next : Op) : State :=
  (s.giveTo .re0 i (s.jobFor op)).giveTo .re1 k (s.jobFor next)

/-- The two earliest are given, to RE0 and RE1 (R73). -/
theorem exec_dispatch_both (running : s.control.deviceState = .running) (offers : s.Offers i op)
    (more : (s.giveTo .re0 i (s.jobFor op)).Offers k next) (idle : ∀ g, (s.engine g).state = .idle) :
    exec .dispatch s = .next ((s.giveBoth i op k next).refuseReads [.re0, .re1]) := by
  refine exec_dispatch running offers (State.idleEngines_both idle) nofun ?_
  rw [State.dispatchAll, offers.dispatchTo]
  dsimp only
  rw [State.dispatchAll, more.dispatchTo]
  rfl

/-- The next earliest is offered once the earliest is given. -/
theorem State.giveTo_offers {before between beyond : List SlotId} (job : Job) (order : s.order = before ++ i :: (between ++ k :: beyond))
    (noneBefore : ∀ j ∈ before, ¬ReadyForEngine (s.slot j)) (noneBetween : ∀ j ∈ between, j ≠ i → ¬ReadyForEngine (s.slot j))
    (other : k ≠ i) (ready : ReadyForEngine (s.slot k)) (holds : (s.slot k).op = some next) (latch : (s.jobFor next).latchExists = true) :
    (s.giveTo e i job).Offers k next := by
  refine ⟨State.earliestReady_some (before := before ++ i :: between) (after := beyond) (by rw [List.append_assoc]; exact order)
    (fun j member ready => ?_) ((s.giveTo_ready e i k job).2 ⟨other, ready⟩), ?_, latch⟩
  swap
  · rw [State.giveTo_slot, if_neg (Ne.symm other), holds]
  obtain ⟨ne, ready⟩ := (s.giveTo_ready e i j job).1 ready
  rcases List.mem_append.1 member with member | member
  · exact noneBefore j member ready
  · rcases List.mem_cons.1 member with rfl | member
    · exact ne rfl
    · exact noneBetween j member ne ready

end

/-- An IDLE engine has no read outstanding. -/
theorem Engine.readRefused_idle {g : Engine} (idle : g.state = .idle) : g.readRefused = false := by
  simp [Engine.readRefused, idle]

/-- One operation given, with bus mastering on or with nothing to read (R73, R86). -/
theorem dispatch_one_sent {s : State} {e : EngineId} {i : SlotId} {op : Op} {es : List EngineId}
    (quiet : ∀ g ∈ es, g ≠ e → (s.engine g).state = .idle) (sent : s.link.busMastering = true ∨ readsHost op = false) :
    (s.giveTo e i (s.jobFor op)).refuseReads es = s.giveTo e i (s.jobFor op) := by
  refine State.refuseReads_none fun g member => ?_
  by_cases own : g = e
  · rw [own]
    exact (Handed.of_giveTo e op rfl).not_readRefused sent
  · rw [State.giveTo_engine, if_neg (Ne.symm own)]
    exact Engine.readRefused_idle (quiet g member own)

/-- One operation given, whose first read is refused (R110, R119, R121). -/
theorem dispatch_one_refused {s : State} {e : EngineId} {i : SlotId} {op : Op} {es : List EngineId}
    (running : s.control.deviceState = .running) (nodup : es.Nodup) (member : e ∈ es)
    (quiet : ∀ g ∈ es, g ≠ e → (s.engine g).state = .idle) (off : s.link.busMastering = false) (reads : readsHost op = true) :
    ∃ u, (s.giveTo e i (s.jobFor op)).refuseReads es = u.serveFetch ∧
      (∀ q d, (s.slot i).queue = some q → s.queue q = some d → FirstReadRefused s u e i q d) ∧ ∀ g, g ≠ e → u.engine g = s.engine g := by
  have handed : Handed s (s.giveTo e i (s.jobFor op)) e i op := .of_giveTo e op rfl
  have other {g : EngineId} (ne : g ≠ e) : (s.giveTo e i (s.jobFor op)).engine g = s.engine g := by
    rw [State.giveTo_engine, if_neg (Ne.symm ne)]
  have only : ∀ g ∈ (s.giveTo e i (s.jobFor op)).refusedEngines es, g = e := by
    intro g refused
    obtain ⟨given, refused⟩ := State.mem_refusedEngines.1 refused
    by_contra ne
    rw [other ne, Engine.readRefused_idle (quiet g given ne)] at refused
    cases refused
  have distinct : ((s.giveTo e i (s.jobFor op)).refusedEngines es).Pairwise fun d g =>
      ((s.giveTo e i (s.jobFor op)).engine d).slot ≠ ((s.giveTo e i (s.jobFor op)).engine g).slot :=
    (nodup.filter _).imp_of_mem fun hd hg ne => absurd ((only _ hd).trans (only _ hg).symm) ne
  have refused := (handed.mem_refusedEngines off member).2 reads
  refine ⟨_, State.refuseReads_some refused, fun q d => handed.firstReadRefused rfl running refused distinct, fun g ne => ?_⟩
  rw [State.afterRefusals_engine, if_neg fun refused => ne (only g refused), other ne]

section
variable {s : State} {i k : SlotId} (op next : Op) (other : k ≠ i)
include other

theorem State.giveBoth_first : Handed s (s.giveBoth i op k next) .re0 i op :=
  Handed.giveTo (.of_giveTo .re0 op rfl) (by decide) other _

theorem State.giveBoth_second : Handed s (s.giveBoth i op k next) .re1 k next :=
  .of_giveTo .re1 next (by rw [State.giveTo_slot, if_neg (Ne.symm other)])

/-- Two operations given, with bus mastering on or with nothing to read (R73, R86). -/
theorem dispatch_both_sent (sent : s.link.busMastering = true ∨ (readsHost op = false ∧ readsHost next = false)) :
    (s.giveBoth i op k next).refuseReads [.re0, .re1] = s.giveBoth i op k next := by
  refine State.refuseReads_none fun e _ => ?_
  cases e with
  | re0 => exact (State.giveBoth_first op next other).not_readRefused (sent.imp_right And.left)
  | re1 => exact (State.giveBoth_second op next other).not_readRefused (sent.imp_right And.right)

/-- Two operations given, of which one or both have their first read refused (R110, R119, R121). -/
theorem dispatch_both_refused (running : s.control.deviceState = .running) (off : s.link.busMastering = false)
    (reads : readsHost op = true ∨ readsHost next = true) :
    ∃ u, (s.giveBoth i op k next).refuseReads [.re0, .re1] = u.serveFetch ∧
      (if readsHost op = true then ∀ q d, (s.slot i).queue = some q → s.queue q = some d → FirstReadRefused s u .re0 i q d
        else ∃ job, JobTaken s op job ∧ u.engine .re0 = { state := .active, slot := some i, line := 0, job := some job }) ∧
      (if readsHost next = true then ∀ q d, (s.slot k).queue = some q → s.queue q = some d → FirstReadRefused s u .re1 k q d
        else ∃ job, JobTaken s next job ∧ u.engine .re1 = { state := .active, slot := some k, line := 0, job := some job }) := by
  have first := State.giveBoth_first (s := s) op next other
  have second := State.giveBoth_second (s := s) op next other
  have slots : ((s.giveBoth i op k next).engine .re0).slot ≠ ((s.giveBoth i op k next).engine .re1).slot := by
    rw [first.engine, second.engine]
    exact fun equal => other (Option.some.inj equal).symm
  have distinct : ((s.giveBoth i op k next).refusedEngines [.re0, .re1]).Pairwise fun d g =>
      ((s.giveBoth i op k next).engine d).slot ≠ ((s.giveBoth i op k next).engine g).slot :=
    List.Pairwise.filter _ (List.pairwise_pair.2 slots)
  have re0 : EngineId.re0 ∈ [EngineId.re0, EngineId.re1] := List.mem_cons_self
  have re1 : EngineId.re1 ∈ [EngineId.re0, EngineId.re1] := List.mem_cons_of_mem _ List.mem_cons_self
  refine ⟨_, ?_, first.outcome rfl running off re0 distinct, second.outcome rfl running off re1 distinct⟩
  rcases reads with reads | reads
  · exact State.refuseReads_some ((first.mem_refusedEngines off re0).2 reads)
  · exact State.refuseReads_some ((second.mem_refusedEngines off re1).2 reads)

end

/-- Settles O45: one operation or two are offered and given, and of what is given the refused first reads end. -/
theorem dispatchTakesEarliest : Obligations.DispatchTakesEarliest := by
  refine ⟨fun s rests => exec_dispatch_rest ?_, ?_⟩
  · rintro ⟨running, ⟨e, idle⟩, attached, j, member, ready⟩
    rcases rests with stopped | ⟨g, detached⟩ | busy | noneReady
    · exact stopped running
    · exact attached g detached
    · exact busy e idle
    · exact noneReady j member ready
  intro s before after i op running order noneBefore state holds engine latch
  have ready : ReadyForEngine (s.slot i) := ⟨state, op, holds, engine⟩
  have offers : s.Offers i op := ⟨State.earliestReady_some order noneBefore ready, holds, latch⟩
  refine ⟨fun e idle attached alone => ?_, ?_⟩
  · have alone : e = .re0 ∧ (∀ j ∈ s.order, j ≠ i → ¬ReadyForEngine (s.slot j)) ∨ ∀ g, g ≠ e → (s.engine g).state ≠ .idle := by
      refine alone.imp_left fun ⟨first, noneAfter⟩ => ⟨first, fun j member ne => ?_⟩
      rw [order] at member
      rcases List.mem_append.1 member with member | member
      · exact noneBefore j member
      · exact noneAfter j ((List.mem_cons.1 member).resolve_left ne) ne
    obtain ⟨es, nodup, member, quiet, gives⟩ := exec_dispatch_one running offers idle attached alone
    refine ⟨fun sent => ⟨s.jobFor op, ?_, s.jobFor_taken op⟩, fun off reads q d inQueue used => ?_⟩
    · rw [gives, dispatch_one_sent quiet sent]
      rfl
    · obtain ⟨u, refuses, refused, others⟩ := dispatch_one_refused (i := i) running nodup member quiet off reads
      exact ⟨u, goesTo_of_serve (by rw [gives, refuses]), refused q d inQueue used, others⟩
  · rintro between beyond k next idle rfl other noneBetween state' holds' engine' latch'
    have more := State.giveTo_offers (e := .re0) (s.jobFor op) order noneBefore noneBetween other ⟨state', next, holds', engine'⟩ holds' latch'
    have gives := exec_dispatch_both running offers more idle
    refine ⟨fun sent => ⟨s.jobFor op, s.jobFor next, ?_, s.jobFor_taken op, s.jobFor_taken next⟩, fun off reads => ?_⟩
    · rw [gives, dispatch_both_sent op next other sent]
      rfl
    · obtain ⟨u, refuses, outcomes⟩ := dispatch_both_refused op next other running off reads
      exact ⟨u, goesTo_of_serve (by rw [gives, refuses]), outcomes⟩

end Sys2Proof.Machine
end

section
/-! PROOF. The values of the pixel conversions (R24, R94). -/

namespace Sys2Proof.Machine

open Sys2Proof.Safety

/-- A value that fits its format's width is trimmed to itself (R23). -/
theorem Format.trim_of_lt {f : Format} {v : BitVec 32} (fits : v.toNat < 2 ^ valueBits f) : f.trim v = v := by
  refine BitVec.eq_of_getLsbD_eq fun k _ => ?_
  unfold Format.trim
  rw [BitVec.getLsbD_and, mask_bit]
  by_cases inside : k < valueBits f
  · rw [decide_eq_true inside, Bool.and_true]
  · have zero : v.getLsbD k = false := BitVec.testBit_toNat v ▸
      Nat.testBit_lt_two_pow (Nat.lt_of_lt_of_le fits (Nat.pow_le_pow_right (by decide) (Nat.le_of_not_lt inside)))
    rw [zero, Bool.false_and]

/-- The channels of a P16 value, each widened (R94). -/
theorem widen_channels {r g b : Nat} (red : r < 32) (green : g < 64) (blue : b < 32) :
    widen (BitVec.ofNat 32 (r * 2048 + g * 32 + b)) =
      BitVec.ofNat 32 ((8 * r + r / 4) * 65536 + (4 * g + g / 16) * 256 + (8 * b + b / 4)) := by
  have value : (BitVec.ofNat 32 (r * 2048 + g * 32 + b)).toNat = r * 2048 + g * 32 + b := Nat.mod_eq_of_lt (by omega)
  have r_eq : (r * 2048 + g * 32 + b) / 2048 % 32 = r := by omega
  have g_eq : (r * 2048 + g * 32 + b) / 32 % 64 = g := by omega
  have b_eq : (r * 2048 + g * 32 + b) % 32 = b := by omega
  simp only [widen, value, r_eq, g_eq, b_eq]

/-- The channels of a P32 value, each narrowed (R94). -/
theorem narrow_channels {r g b : Nat} (red : r < 256) (green : g < 256) (blue : b < 256) :
    narrow (BitVec.ofNat 32 (r * 65536 + g * 256 + b)) = BitVec.ofNat 32 (r / 8 * 2048 + g / 4 * 32 + b / 8) := by
  have value : (BitVec.ofNat 32 (r * 65536 + g * 256 + b)).toNat = r * 65536 + g * 256 + b := Nat.mod_eq_of_lt (by omega)
  have r_eq : (r * 65536 + g * 256 + b) / 65536 % 256 = r := by omega
  have g_eq : (r * 65536 + g * 256 + b) / 256 % 256 = g := by omega
  have b_eq : (r * 65536 + g * 256 + b) % 256 = b := by omega
  simp only [narrow, value, r_eq, g_eq, b_eq]

/-- The colour that a lookup gives, as a P32 value (R24). -/
theorem lookup_channels {colour : BitVec 8 → BitVec 24} {v : BitVec 8} {r g b : Nat} (red : r < 256) (green : g < 256) (blue : b < 256)
    (entry : colour v = BitVec.ofNat 24 (r * 65536 + g * 256 + b)) :
    (colour ((v.setWidth 32).setWidth 8)).setWidth 32 = BitVec.ofNat 32 (r * 65536 + g * 256 + b) := by
  have index : (v.setWidth 32).setWidth 8 = v := BitVec.setWidth_setWidth_of_le v (by decide) |>.trans v.setWidth_eq
  rw [index, entry]
  refine BitVec.eq_of_toNat_eq ?_
  rw [BitVec.toNat_setWidth, BitVec.toNat_ofNat, BitVec.toNat_ofNat, Nat.mod_eq_of_lt (by omega : _ < 2 ^ 24)]

/-- A value is copied between equal formats (R24). -/
theorem convertPixel_same (colour : BitVec 8 → BitVec 24) (f : Format) (v : BitVec 32) : convertPixel colour f f v = f.trim v := by
  cases f <;> rfl

/-- Settles O59, one pairing of formats after the other. -/
theorem conversionValues : Obligations.ConversionValues := by
  refine ⟨fun _ _ _ _ => widen_channels, fun _ _ _ _ => narrow_channels, fun colour v r g b red green blue entry => ?_,
    fun colour f v fits => (convertPixel_same colour f v).trans (Format.trim_of_lt fits), ?_⟩
  · have looked := lookup_channels red green blue entry
    exact ⟨looked, (congrArg narrow looked).trans (narrow_channels red green blue)⟩
  · intro j palettes m a b src dst sx sy x y rect rop key clip op source
    exact (Job.operand_copy op source palettes m b x y).trans (ite_or ..).symm

end Sys2Proof.Machine
end

section
/-! PROOF. SCAN_PIXEL: what the engines have drawn by then, and what the panel shows (R108, R160 to R162). -/

namespace Sys2Proof.Machine

open Sys2Proof.Safety

/-! ## What the engines have visited -/

/-- However far an engine comes, it comes no further than the end of its line (R90). -/
theorem State.drawOn_visits (s : State) (e : EngineId) (count : Nat) : Visits s (s.drawOn e count) e := by
  unfold Visits State.drawOn
  dsimp only
  cases job : (s.engine e).job with
  | none => exact ⟨0, rfl, fun _ _ none => nomatch none⟩
  | some j =>
    dsimp only
    refine ⟨min count (j.lineWidth - j.drawn), rfl, fun j' r same rect => ?_⟩
    cases same
    have width : j.lineWidth = r.w := by simp only [Job.lineWidth, rect]
    omega

/-- Both engines have visited more of their lines, and nothing but frame memory and the engines has changed. -/
theorem State.visitPixels_visited (s : State) : LinesVisited s s.visitPixels :=
  ⟨s.drawOn .re0 (Config.pixelsVisited s.choices), _, s.drawOn_visits .re0 _, State.drawOn_visits _ .re1 _, rfl⟩

/-! ## What the panel shows -/

/-- The scan takes its next pixel (R160, R161). -/
theorem exec_scanPixel {s : State} {p : PanelParams} {x r : Nat} (running : s.control.deviceState = .running)
    (panel : s.presentation.panel = some p) (column : x < p.width) (row : r < p.height)
    (next : s.presentation.scan = some (r * p.width + x)) (pixelThere : s.scanExists x r = true) : exec (.scanPixel x r) s =
      .next { s.visitPixels with presentation := { s.presentation with
        output := s.visitPixels.scanOutput x r, scan := some (r * p.width + x + 1) } } := by
  have kept : s.visitPixels.presentation = s.presentation := by rw [State.visitPixels_same]
  show execScanPixel x r s = _
  unfold execScanPixel
  rw [panel]
  dsimp only
  rw [if_pos ⟨running, column, row, next⟩, if_pos pixelThere, kept]

/-- No surface is scanned while nothing is shown, nor outside the active rows (R161). -/
theorem State.scannedSurface_none {s : State} {r : Nat} (none : s.presentation.display = false ∨ s.presentation.shown = none ∨
    r < s.presentation.firstRow ∨ ∃ l, s.presentation.lastRow = some l ∧ l < r) : s.scannedSurface r = .none := by
  unfold State.scannedSurface Presentation.activeRow
  rcases none with off | nothing | above | ⟨l, last, below⟩
  · simp [off]
  · simp [nothing]
  · simp [Nat.not_le.2 above]
  · simp [last, Nat.not_le.2 below]

/-- The shown surface is scanned in the active rows while the display is ON (R161). -/
theorem State.scannedSurface_shown {s : State} {r l : Nat} {id : SurfaceId} {d : SurfaceFields} (on : s.presentation.display = true)
    (shown : s.presentation.shown = some id) (fields : (s.surface id).fields = some d) (first : s.presentation.firstRow ≤ r)
    (last : s.presentation.lastRow = some l) (le : r ≤ l) : s.scannedSurface r = some d := by
  simp [State.scannedSurface, Presentation.activeRow, on, shown, fields, first, last, le]

theorem State.scanOutput_off {s : State} (off : s.presentation.display = false) (x r : Nat) : s.scanOutput x r = .blank := by
  rw [State.scanOutput, off]
  rfl

theorem State.scanOutput_border {s : State} {r : Nat} (on : s.presentation.display = true) (none : s.scannedSurface r = .none) (x : Nat) :
    s.scanOutput x r = .colour s.presentation.border := by
  rw [State.scanOutput, on, none]
  rfl

theorem State.scanOutput_surface {s : State} {r : Nat} {d : SurfaceFields} (on : s.presentation.display = true)
    (surface : s.scannedSurface r = some d) (x : Nat) : s.scanOutput x r =
      .colour (panelColour d.format (Palette.read s.palettes d.palette) (readPhysical s.frame d x (s.scanRow d r))) := by
  rw [State.scanOutput, on, surface]
  rfl

theorem State.scanExists_none {s : State} {r : Nat} (none : s.scannedSurface r = .none) (x : Nat) : s.scanExists x r = true := by
  rw [State.scanExists, none]

/-- What the engines draw changes neither which surface is scanned, nor in which row, nor the palettes. -/
theorem State.visitPixels_scan (s : State) (r : Nat) : s.visitPixels.scannedSurface r = s.scannedSurface r ∧
    (∀ d, s.visitPixels.scanRow d r = s.scanRow d r) ∧ s.visitPixels.palettes = s.palettes ∧
    s.visitPixels.presentation = s.presentation := by
  rw [State.visitPixels_same]
  exact ⟨rfl, fun _ => rfl, rfl, rfl⟩

/-- A P32 pixel shows its colour bits (R161). -/
theorem panelColour_p32 (colours : BitVec 8 → BitVec 24) (v : BitVec 32) : panelColour .p32 colours v = v.setWidth 24 := by
  refine BitVec.eq_of_getLsbD_eq fun k lt => ?_
  simp [panelColour, convertPixel, Format.trim, mask_bit, valueBits, lt]

/-- A P16 pixel shows widened (R161). -/
theorem panelColour_p16 (colours : BitVec 8 → BitVec 24) (v : BitVec 32) : panelColour .p16 colours v = (widen v).setWidth 24 := rfl

/-- An I8 pixel shows the colour of its palette entry (R161). -/
theorem panelColour_i8 (colours : BitVec 8 → BitVec 24) (v : BitVec 32) : panelColour .i8 colours v = colours (v.setWidth 8) :=
  (BitVec.setWidth_setWidth_of_le _ (by decide)).trans (BitVec.setWidth_eq _)

/-- Settles O58: the scan's pixel is shown by the display, the rows, and the surface that the engines have left by then. -/
theorem scanShowsSurface : Obligations.ScanShowsSurface := by
  intro s p x r running panel column row next
  have scans := exec_scanPixel running panel column row next
  obtain ⟨scanned, place, palettes, presented⟩ := s.visitPixels_scan r
  refine ⟨s.visitPixels, s.visitPixels_visited, fun off => ?_, fun on nothing => ?_, ?_⟩
  · rw [scans (State.scanExists_none (State.scannedSurface_none (.inl off)) x), State.scanOutput_off (by rw [presented, off])]
  · have none := State.scannedSurface_none (.inr nothing)
    rw [scans (State.scanExists_none none x), State.scanOutput_border (by rw [presented, on]) (by rw [scanned, none]), presented]
  · rintro id d l _ on shown fields first last le rfl present notM1
    have surface := State.scannedSurface_shown on shown fields first last le
    have pixelThere : s.scanExists x r = true := by
      rw [State.scanExists, surface]
      exact present
    have shows := State.scanOutput_surface (s := s.visitPixels) (by rw [presented, on]) (by rw [scanned, surface]) x
    rw [place, palettes] at shows
    rw [scans pixelThere, shows]
    cases format : d.format with
    | i8 => rw [panelColour_i8]; rfl
    | p16 => rw [panelColour_p16]; rfl
    | p32 => rw [panelColour_p32]; rfl
    | m1 => exact absurd format notM1

end Sys2Proof.Machine
end

section
/-! PROOF. The line of a FILL (R90 to R92, R108): what each pixel of its surface holds when the line is visited, in part or whole. -/

namespace Sys2Proof.Machine

open Sys2Proof.Safety

/-! ## The pixels visited -/

/-- The pixels that a line visits from the start-th on are those of the rectangle at these places (R90, R98, R99). -/
theorem Plan.mem_visited {p : Plan} {r : Rect} {start count x : Nat} : x ∈ ((p.columns r).drop start).take count ↔
    r.x ≤ x ∧ x < r.x + r.w ∧ start ≤ visitPlace p r x ∧ visitPlace p r x < start + count := by
  simp only [List.mem_iff_getElem?, List.getElem?_take, List.getElem?_drop]
  constructor
  · rintro ⟨k, at_k⟩
    split at at_k
    · next lt =>
      obtain ⟨low, high, place⟩ := Plan.columns_getElem at_k
      exact ⟨low, high, by omega, by omega⟩
    · cases at_k
  · rintro ⟨low, high, from_start, before_end⟩
    obtain ⟨k, at_k⟩ := List.mem_iff_getElem?.1 (Plan.mem_columns.2 ⟨low, high⟩)
    obtain ⟨_, _, place⟩ : r.x ≤ x ∧ x < r.x + r.w ∧ visitPlace p r x = k := Plan.columns_getElem at_k
    refine ⟨k - start, ?_⟩
    rw [if_pos (by omega), Nat.add_sub_cancel' (by omega), at_k]

/-- No pixel is visited twice in a line (R98, R99). -/
theorem Plan.visited_pairwise (p : Plan) (r : Rect) (start count y : Nat) :
    ((((p.columns r).drop start).take count).map fun x => (x, y)).Pairwise (· ≠ ·) := by
  have sub : (((p.columns r).drop start).take count).Sublist (p.columns r) := (List.take_sublist ..).trans (List.drop_sublist ..)
  rw [List.pairwise_map]
  refine ((p.columns_pairwise r).sublist sub).imp fun {x x'} before same => ?_
  cases same
  split at before <;> omega

/-! ## The operand and the value of a FILL -/

/-- A FILL's operand is its colour, wherever the pixel is not clipped (R92). -/
theorem Job.operand_fill {j : Job} {id : SurfaceId} {rect : Rect} {colour : BitVec 32} {rop : BitVec 4} {clip : Option Rect}
    (op : j.op = .fill id rect colour rop clip) (palettes : List (Nat × BitVec 24)) (m : FrameMemory) (d : SurfaceFields) (x y : Nat) :
    j.operand palettes m d x y = if outside clip x y = true then none else some (d.format.trim colour) := by
  unfold Job.operand
  simp only [op, Op.clip, outside_eq]

/-- Each bit of a raster operation's result is the bit of the code that source and destination choose (R23, R91). -/
theorem ropCombine_bit (rop : BitVec 4) (f : Format) (src dst : BitVec 32) (k : Nat) : (ropCombine rop f src dst).getLsbD k =
    (decide (k < valueBits f) && rop.getLsbD ((src.getLsbD k).toNat + 2 * (dst.getLsbD k).toNat)) := by
  by_cases width : k < valueBits f
  · have word : k < 32 := Nat.lt_of_lt_of_le width (by cases f <;> decide)
    have term (n : Nat) : (ropTerm rop n).getLsbD k = rop.getLsbD n := by
      unfold ropTerm
      cases rop.getLsbD n with
      | false => exact BitVec.getLsbD_zero
      | true => exact BitVec.getLsbD_allOnes.trans (decide_eq_true word)
    unfold ropCombine Format.trim
    simp only [BitVec.getLsbD_and, BitVec.getLsbD_or, BitVec.getLsbD_not, mask_bit, term, width, word, decide_true]
    cases src.getLsbD k <;> cases dst.getLsbD k <;> simp
  · unfold ropCombine Format.trim
    rw [BitVec.getLsbD_and, mask_bit, decide_eq_false width, Bool.and_false, Bool.false_and]

/-- What a raster operation writes over a pixel of the format (R23, R92). -/
theorem filled_ropCombine {f : Format} (rop : BitVec 4) (colour : BitVec 32) {a : BitVec 32} (fits : f.trim a = a) :
    Filled f rop colour a (ropCombine rop f colour a) := by
  have bits := ropCombine_bit rop f colour a
  have kept (k : Nat) : (a.getLsbD k && decide (k < valueBits f)) = a.getLsbD k := by
    rw [← mask_bit, ← BitVec.getLsbD_and]
    exact congrArg (BitVec.getLsbD · k) fits
  refine ⟨bits, ?_, ?_, ?_, ?_⟩ <;> rintro rfl <;> refine BitVec.eq_of_getLsbD_eq fun k _ => ?_ <;> rw [bits]
  · rw [BitVec.getLsbD_and, mask_bit]
    cases colour.getLsbD k <;> cases a.getLsbD k <;> simp
  · rw [BitVec.getLsbD_xor, BitVec.getLsbD_and, mask_bit]
    have fit := kept k
    cases colour.getLsbD k <;> cases held : a.getLsbD k <;> simp_all
  · cases colour.getLsbD k <;> cases a.getLsbD k <;> simp
  · rw [mask_bit]
    cases colour.getLsbD k <;> cases a.getLsbD k <;> simp

/-! ## The pixels of a line -/

theorem Job.drawSome_eq {j : Job} {rect : Rect} {d : SurfaceFields} (palettes : List (Nat × BitVec 24)) (hr : j.op.rect = some rect)
    (hd : j.dst = some d) (m : FrameMemory) (k start count : Nat) : j.drawSome palettes m k start count =
      ((((j.plan.columns rect).drop start).take count).map fun x => (x, j.plan.row rect k)).foldl
        (fun m p => j.drawPixel palettes d p.2 m p.1) m := by
  simp only [Job.drawSome, hr, hd, List.foldl_map]

theorem Plan.row_lt (p : Plan) {r : Rect} {d : SurfaceFields} {k : Nat} (inside : r.inside d = true) (line : k < r.h) :
    p.row r k < d.height := by
  unfold Rect.inside at inside
  simp only [Bool.and_eq_true, decide_eq_true_eq] at inside
  unfold Plan.row
  split <;> omega

/-- Whatever number of its next pixels the line of a FILL visits, those inside the clip are filled, and no other changes (R90, R92). -/
theorem Job.readPixel_fillSome {j : Job} {id : SurfaceId} {rect : Rect} {colour : BitVec 32} {rop : BitVec 4} {clip : Option Rect}
    {d : SurfaceFields} (op : j.op = .fill id rect colour rop clip) (dst : j.dst = some d) (sound : SoundFields d)
    (inside : rect.inside d = true) {k : Nat} (line : k < rect.h) (palettes : List (Nat × BitVec 24)) {m : FrameMemory}
    (h : Memory.wf m) (count : Nat) {x y : Nat} (column : x < d.width) :
    if y = j.plan.row rect k ∧ rect.x ≤ x ∧ x < rect.x + rect.w ∧ outside clip x y = false ∧ j.drawn ≤ visitPlace j.plan rect x ∧
      visitPlace j.plan rect x < j.drawn + count
    then Filled d.format rop colour (readPixel m d x y) (readPixel (j.drawSome palettes m k j.drawn count) d x y)
    else readPixel (j.drawSome palettes m k j.drawn count) d x y = readPixel m d x y := by
  have row := j.plan.row_lt inside line
  unfold Rect.inside at inside
  simp only [Bool.and_eq_true, decide_eq_true_eq] at inside
  have operand := Job.operand_fill op palettes
  rw [Job.drawSome_eq palettes (by rw [op]; rfl) dst]
  generalize pixels_eq : ((((j.plan.columns rect).drop j.drawn).take count).map fun x => (x, j.plan.row rect k)) = pixels
  have mem : (x, y) ∈ pixels ↔ y = j.plan.row rect k ∧ rect.x ≤ x ∧ x < rect.x + rect.w ∧ j.drawn ≤ visitPlace j.plan rect x ∧
      visitPlace j.plan rect x < j.drawn + count := by
    rw [← pixels_eq, List.mem_map]
    constructor
    · rintro ⟨x', visited, same⟩
      cases same
      exact ⟨rfl, Plan.mem_visited.1 visited⟩
    · rintro ⟨rfl, visited⟩
      exact ⟨x, Plan.mem_visited.2 visited, rfl⟩
  have within : ∀ p ∈ pixels, p.1 < d.width ∧ p.2 < d.height := by
    rw [← pixels_eq]
    simp only [List.mem_map]
    rintro _ ⟨x', visited, rfl⟩
    have := Plan.mem_visited.1 visited
    exact ⟨by omega, row⟩
  have order : pixels.Pairwise fun q p => q ≠ p ∧ j.Undisturbed palettes d q p := by
    rw [← pixels_eq]
    exact (j.plan.visited_pairwise rect _ _ _).imp fun ne => ⟨ne, fun m' _ => by rw [operand, operand]⟩
  by_cases visited : (x, y) ∈ pixels
  · rw [j.readPixel_foldl palettes sound pixels within order (x, y) visited m h]
    obtain ⟨at_row, low, high, place⟩ := mem.1 visited
    cases clipped : outside clip x y with
    | true =>
      rw [if_neg (by simp), Job.drawnValue_none (by rw [operand, if_pos clipped])]
    | false =>
      rw [if_pos ⟨at_row, low, high, rfl, place⟩,
        Job.drawnValue_some (by rw [operand, if_neg (by rw [clipped]; exact Bool.false_ne_true)]), ropCombine_trim,
        show j.op.rop = rop by rw [op]; rfl]
      exact filled_ropCombine rop colour (readPixel_trim m d x y)
  · rw [if_neg fun ⟨at_row, low, high, _, place⟩ => visited (mem.2 ⟨at_row, low, high, place⟩),
      j.readPixel_foldl_other palettes sound column pixels h within visited]

/-! ## The line in hand -/

/-- The line of a FILL touches only bytes that exist (R1, R4). -/
theorem Job.lineExists_fill {j : Job} {id : SurfaceId} {rect : Rect} {colour : BitVec 32} {rop : BitVec 4} {clip : Option Rect}
    {d : SurfaceFields} (op : j.op = .fill id rect colour rop clip) (dst : j.dst = some d) (sound : SoundFields d)
    (inside : rect.inside d = true) {k : Nat} (line : k < rect.h) : j.lineExists k = true := by
  have row := j.plan.row_lt inside line
  unfold Rect.inside at inside
  simp only [Bool.and_eq_true, decide_eq_true_eq] at inside
  have width : 0 < d.width := sound.1
  simp only [Job.lineExists, op, Op.rect, dst, SurfaceFields.rowExists, Bool.and_true]
  exact sound_pixelExists sound (by omega) row

/-- A FILL's line in hand completes whatever of it is left (R87, R90). -/
theorem exec_lineComplete_fill {s : State} {e : EngineId} {j : Job} {id : SurfaceId} {rect : Rect} {colour : BitVec 32} {rop : BitVec 4}
    {clip : Option Rect} (busy : (s.engine e).state ≠ .idle) (job : (s.engine e).job = some j) (op : j.op = .fill id rect colour rop clip)
    (there : j.lineExists (s.engine e).line = true) : exec (.lineComplete e) s = .next (s.completeLine e j) ∧
      (s.completeLine e j).frame = j.drawSome s.palettes s.frame (s.engine e).line j.drawn rect.w := by
  have ready : j.lineReady = true := by simp only [Job.lineReady, op]
  refine ⟨?_, ?_⟩
  · show execLineComplete e s = _
    unfold execLineComplete
    simp only [job]
    rw [if_pos ⟨busy, ready⟩, if_pos (by rw [there, Bool.true_or])]
  · rw [(s.completeLine_keeps e j).frame]
    simp only [State.lineMemory, op, Op.isDrawing, if_true, Job.drawRest, Job.lineWidth, Op.rect]

/-- A FILL that visits more pixels has drawn them, and no other. -/
theorem visits_fill {s t : State} {e : EngineId} {j : Job} {id : SurfaceId} {rect : Rect} {colour : BitVec 32} {rop : BitVec 4}
    {clip : Option Rect} (visits : Visits s t e) (busy : (s.engine e).state ≠ .idle) (job : (s.engine e).job = some j)
    (op : j.op = .fill id rect colour rop clip) (there : j.lineExists (s.engine e).line = true) :
    ∃ n, (t.engine e).job = some { j with drawn := j.drawn + n } ∧
      t.frame = j.drawSome s.palettes s.frame (s.engine e).line j.drawn n := by
  obtain ⟨n, rfl, _⟩ := visits
  refine ⟨n, ?_⟩
  rw [job]
  dsimp only
  rw [if_pos ⟨busy, by rw [op]; rfl, there⟩, State.engine_setEngine_self]
  exact ⟨rfl, rfl⟩

/-- Settles O48: the line of a FILL, whole at its completion and in part before, is the same walk over its pixels. -/
theorem fillLineWritesEveryPixel : Obligations.FillLineWritesEveryPixel := by
  intro s e j id rect colour rop clip d canonical busy job op dst sound inside line
  have there := Job.lineExists_fill op dst sound inside line
  have fills (count : Nat) {x y : Nat} (column : x < d.width) :=
    Job.readPixel_fillSome op dst sound inside line s.palettes canonical.1 count (y := y) column
  refine ⟨?_, fun t visits => ?_⟩
  · obtain ⟨completes, frame⟩ := exec_lineComplete_fill busy job op there
    refine ⟨_, completes, fun x y column _ => ?_⟩
    have filled := fills rect.w (y := y) column
    rw [frame]
    have whole (low : rect.x ≤ x) (high : x < rect.x + rect.w) : visitPlace j.plan rect x < j.drawn + rect.w := by
      unfold visitPlace
      split <;> omega
    split
    · next inLine =>
      obtain ⟨at_row, low, high, unclipped, place⟩ := inLine
      rwa [if_pos ⟨at_row, low, high, unclipped, place, whole low high⟩] at filled
    · next notIn =>
      rwa [if_neg fun ⟨at_row, low, high, unclipped, place, _⟩ => notIn ⟨at_row, low, high, unclipped, place⟩] at filled
  · obtain ⟨n, drawn, frame⟩ := visits_fill visits busy job op there
    exact ⟨n, drawn, fun x y column _ => by rw [frame]; exact fills n column⟩

end Sys2Proof.Machine
end

section
/-! PROOF. The rounds of endings, releases and executions that one step settles (R69, R70, R75 to R77, R130), followed for the slots and
operations that they can reach. -/

namespace Sys2Proof.Machine

open Sys2Proof.Safety

/-! ## Released slots are executed one after another -/

/-- The slots of a list are executed in turn: what that leaves, and the endings that it brings. -/
def State.runAll (s : State) : List SlotId → State × List Ending
  | [] => (s, [])
  | i :: rest => (((s.execute i).1.runAll rest).1, (s.execute i).2 ++ ((s.execute i).1.runAll rest).2)

theorem State.executeAll_eq (s : State) (ready : List SlotId) : s.executeAll ready = s.choose.runAll (s.together ready) := by
  unfold State.executeAll
  suffices h : ∀ (l : List SlotId) (t : State) (es : List Ending), l.foldl (fun (p : State × List Ending) i =>
      let r := p.1.execute i
      (r.1, p.2 ++ r.2)) (t, es) = ((t.runAll l).1, es ++ (t.runAll l).2) from h _ _ []
  intro l
  induction l with
  | nil => exact fun t es => by simp [State.runAll]
  | cons i rest ih => exact fun t es => by simp [State.runAll, ih]

theorem State.runAll_append (l l' : List SlotId) : ∀ s : State, s.runAll (l ++ l') =
    (((s.runAll l).1.runAll l').1, (s.runAll l).2 ++ ((s.runAll l).1.runAll l').2) := by
  induction l with
  | nil => exact fun _ => rfl
  | cons i rest ih => exact fun s => by simp [State.runAll, ih]

theorem State.runAll_goes (l : List SlotId) : ∀ s : State, Goes s (s.runAll l).1 := by
  induction l with
  | nil => exact fun s => .refl s
  | cons i rest ih => exact fun s => (s.execute_goes i).trans (ih _)

theorem State.runAll_settled (l : List SlotId) : ∀ s : State, Settled s (s.runAll l).1 := by
  induction l with
  | nil => exact fun s => .refl s
  | cons i rest ih => exact fun s => (s.execute_settled i).trans (ih _)

theorem State.runAll_slot_ne {i : SlotId} (l : List SlotId) : ∀ {s : State}, i ∉ l → (s.runAll l).1.slot i = s.slot i := by
  induction l with
  | nil => exact fun _ => rfl
  | cons j rest ih =>
    intro s notIn
    obtain ⟨other, later⟩ := not_or.1 (mt List.mem_cons.2 notIn)
    exact (ih later).trans (State.execute_slot_ne (Ne.symm other))

/-- The operation is neither a PRESENT nor a PANEL. -/
def LeavesHeld (op : Option Op) : Prop := ∀ o, op = some o → o.isPresentation = false

/-- No other operation executes into the presentation unit (R77). -/
theorem State.execute_kept {s : State} {i : SlotId} (kind : LeavesHeld (s.slot i).op) :
    (s.execute i).1.slots = s.slots ∧ (s.execute i).1.presentation = s.presentation := by
  unfold LeavesHeld at kind
  unfold State.execute State.executeSignal
  split
  case h_5 op => cases kind _ op
  case h_6 op => cases kind _ op
  all_goals
    repeat' split
    all_goals exact ⟨rfl, rfl⟩

/-- A slot that is executed stays as it is, or is RUNNING (R77). -/
theorem State.execute_slot (s : State) (i j : SlotId) :
    (s.execute i).1.slot j = s.slot j ∨ (s.execute i).1.slot j = { s.slot j with state := .running } := by
  by_cases presents : ∃ o, (s.slot i).op = some o ∧ o.isPresentation = true
  · obtain ⟨o, op, kind⟩ := presents
    rw [State.execute_presentation op kind]
    by_cases own : i = j
    · subst own
      exact .inr (State.slot_setSlot_self _ i _)
    · exact .inl ((State.slot_setSlot _ i j _).trans (if_neg own))
  · have kind : LeavesHeld (s.slot i).op := fun o op => Bool.eq_false_iff.2 fun kind => presents ⟨o, op, kind⟩
    exact .inl (by rw [State.slot, (State.execute_kept kind).1, State.slot])

theorem State.execute_slot_op (s : State) (i j : SlotId) : ((s.execute i).1.slot j).op = (s.slot j).op := by
  rcases s.execute_slot i j with same | running
  · rw [same]
  · rw [running]

/-- A slot that has been through its end is closed, or was no slot of a queue. -/
theorem State.endSlot_slot_own (s : State) (e : Ending) : (s.endSlot e).slot e.slot = s.slot e.slot ∨
    (((s.endSlot e).slot e.slot).state = .ended ∨ ((s.endSlot e).slot e.slot).state = .free) ∧
      ((s.endSlot e).slot e.slot).deps = [] ∧ ((s.endSlot e).slot e.slot).orderedPending = false := by
  cases inQueue : (s.slot e.slot).queue with
  | none => exact .inl (by rw [State.endSlot, inQueue])
  | some q =>
    have closed := Closed.of_answered (State.endSlot_answered inQueue) fun w hw => by
      rw [State.endSlot_waiting inQueue] at hw
      simpa using (List.mem_filter.1 hw).2
    exact .inr ⟨closed.state, closed.deps, closed.orderedPending⟩

/-! ## How far endings reach -/

/-- The endings still to come are of the slots Q, and what they release are operations R: a slot outside Q is not BLOCKED and the waiting
list does not name it, and a BLOCKED slot depends on one outside Q or holds one of these operations. -/
structure Within (Q : SlotId → Prop) (R : Option Op → Prop) (s : State) : Prop where
  barred : ∀ i, ¬Q i → (s.slot i).state ≠ .blocked ∧ (s.slot i).deps = [] ∧ (s.slot i).orderedPending = false
  blocked : ∀ j, (s.slot j).state = .blocked → (∃ d ∈ (s.slot j).deps, ¬Q d) ∨ R (s.slot j).op
  waiting : ∀ w ∈ s.waiting, Q w.slot

section
variable {Q : SlotId → Prop} {R : Option Op → Prop} {s t : State}

theorem Within.of_step (h : Within Q R s)
    (barred : ∀ i, ¬Q i → (t.slot i).state ≠ .blocked ∧ (t.slot i).deps = [] ∧ (t.slot i).orderedPending = false)
    (blocked : ∀ j, (t.slot j).state = .blocked → (s.slot j).state = .blocked ∧ (t.slot j).op = (s.slot j).op ∧
      ∀ d ∈ (s.slot j).deps, ¬Q d → d ∈ (t.slot j).deps)
    (waiting : ∀ w ∈ t.waiting, w ∈ s.waiting) : Within Q R t where
  barred := barred
  blocked := fun j now => by
    obtain ⟨before, op, deps⟩ := blocked j now
    rw [op]
    exact (h.blocked j before).imp_left fun ⟨d, member, outside⟩ => ⟨d, deps d member outside, outside⟩
  waiting := fun w member => h.waiting w (waiting w member)

theorem Within.choose (h : Within Q R s) : Within Q R s.choose := ⟨h.barred, h.blocked, h.waiting⟩

theorem Within.endSlot (h : Within Q R s) (e : Ending) : Within Q R (s.endSlot e) := by
  have slot (j : SlotId) : (s.endSlot e).slot j = s.slot j ∨ ((s.endSlot e).slot j).state ≠ .blocked ∧
      ((s.endSlot e).slot j).deps = [] ∧ ((s.endSlot e).slot j).orderedPending = false := by
    by_cases own : e.slot = j
    · subst own
      refine (s.endSlot_slot_own e).imp_right fun ⟨state, rest⟩ => ⟨?_, rest⟩
      rcases state with state | state <;> rw [state] <;> exact nofun
    · exact .inl (State.endSlot_slot_ne own)
  refine h.of_step (fun i outside => ?_) (fun j now => ?_) (s.endSlot_goes e).waiting
  · rcases slot i with same | closed
    · rw [same]
      exact h.barred i outside
    · exact closed
  · rcases slot j with same | closed
    · rw [same] at now ⊢
      exact ⟨now, rfl, fun _ member _ => member⟩
    · exact absurd now closed.1

theorem Within.execute (h : Within Q R s) (i : SlotId) : Within Q R (s.execute i).1 := by
  refine h.of_step (fun j outside => ?_) (fun j now => ?_) (s.execute_goes i).waiting
  · rcases s.execute_slot i j with same | running
    · rw [same]
      exact h.barred j outside
    · rw [running]
      exact ⟨nofun, (h.barred j outside).2⟩
  · rcases s.execute_slot i j with same | running
    · rw [same] at now ⊢
      exact ⟨now, rfl, fun _ member _ => member⟩
    · rw [running] at now
      cases now

theorem Within.removeDependencies (h : Within Q R s) {gone : List SlotId} (among : ∀ i ∈ gone, Q i) :
    Within Q R (s.removeDependencies gone) := by
  refine h.of_step (fun i outside => ?_) (fun j now => ?_) (s.removeDependencies_goes gone).waiting
  · obtain ⟨state, deps, ordered⟩ := h.barred i outside
    rw [State.removeDependencies_slot]
    exact ⟨state, by rw [deps]; rfl, ordered⟩
  · rw [State.removeDependencies_slot] at now ⊢
    exact ⟨now, rfl, fun d member outside => List.mem_filter.2 ⟨member, by simpa using fun ends => outside (among d ends)⟩⟩

theorem Within.retestOrdered (h : Within Q R s) : Within Q R s.retestOrdered := by
  refine h.of_step (fun i outside => ?_) (fun j now => ?_) (State.retestOrdered_goes s).waiting
  · obtain ⟨state, deps, ordered⟩ := h.barred i outside
    rw [State.retestOrdered_slot]
    exact ⟨state, deps, by rw [ordered]; rfl⟩
  · rw [State.retestOrdered_slot] at now ⊢
    exact ⟨now, rfl, fun _ member _ => member⟩

theorem Within.markReady (h : Within Q R s) (l : List SlotId) : Within Q R (s.markReady l) := by
  refine h.of_step (fun i outside => ?_) (fun j now => ?_) (s.markReady_goes l).waiting
  · obtain ⟨state, deps, ordered⟩ := h.barred i outside
    rw [State.markReady_slot]
    split
    · exact ⟨nofun, deps, ordered⟩
    · exact ⟨state, deps, ordered⟩
  · rw [State.markReady_slot] at now ⊢
    split at now
    · cases now
    · next other =>
      rw [if_neg other]
      exact ⟨now, rfl, fun _ member _ => member⟩

/-- A slot that becomes READY was BLOCKED, depends on none, and is no WAIT (R69). -/
theorem State.mem_releasableSlots {j : SlotId} (h : j ∈ s.releasableSlots) : (s.slot j).state = .blocked ∧ (s.slot j).deps = [] := by
  unfold State.releasableSlots at h
  split at h
  · have releasable := (List.mem_filter.1 h).2
    simp only [Slot.releasable, Bool.and_eq_true, decide_eq_true_eq, List.isEmpty_iff] at releasable
    exact releasable.1.1
  · exact absurd h List.not_mem_nil

/-- What becomes READY is among Q and R. -/
theorem Within.released (h : Within Q R s) {j : SlotId} (ready : j ∈ s.releasableSlots) : Q j ∧ R (s.slot j).op := by
  obtain ⟨state, deps⟩ := State.mem_releasableSlots ready
  refine ⟨Classical.byContradiction fun outside => (h.barred j outside).1 state, (h.blocked j state).resolve_left ?_⟩
  rintro ⟨d, member, -⟩
  rw [deps] at member
  exact List.not_mem_nil member

theorem Within.execute_endings (h : Within Q R s) {i : SlotId} (may : Q i) : ∀ e ∈ (s.execute i).2, Q e.slot := by
  intro e member
  rcases State.execute_endings member with own | ⟨w, waits, names⟩
  · exact own ▸ may
  · exact names ▸ h.waiting w waits

/-- Endings and executions of these slots and operations keep P, and so does every change outside the surfaces, the presentation and the
slots that are not among Q. -/
structure Carried (Q : SlotId → Prop) (R : Option Op → Prop) (P : State → Prop) : Prop where
  same : ∀ s t : State, P s → t.surfaces = s.surfaces → t.presentation = s.presentation → (∀ i, ¬Q i → t.slot i = s.slot i) → P t
  ends : ∀ s e, P s → Q e.slot → P (s.endSlot e)
  runs : ∀ s i, P s → Q i → R (s.slot i).op → P (s.execute i).1

variable {P : State → Prop}

theorem Carried.runAll (carried : Carried Q R P) (l : List SlotId) : ∀ {s : State}, P s → (∀ j ∈ l, Q j ∧ R (s.slot j).op) →
    P (s.runAll l).1 := by
  induction l with
  | nil => exact fun holds _ => holds
  | cons i rest ih =>
    intro s holds all
    obtain ⟨may, kind⟩ := all i List.mem_cons_self
    refine ih (carried.runs s i holds may kind) fun j member => ?_
    rw [State.execute_slot_op]
    exact all j (List.mem_cons_of_mem i member)

theorem Within.runAll (l : List SlotId) : ∀ {s : State}, Within Q R s → (∀ j ∈ l, Q j) →
    Within Q R (s.runAll l).1 ∧ ∀ e ∈ (s.runAll l).2, Q e.slot := by
  induction l with
  | nil => exact fun h _ => ⟨h, nofun⟩
  | cons i rest ih =>
    intro s h may
    obtain ⟨after, later⟩ := ih (h.execute i) fun j member => may j (List.mem_cons_of_mem i member)
    refine ⟨after, fun e member => ?_⟩
    rcases List.mem_append.1 member with own | member
    · exact h.execute_endings (may i List.mem_cons_self) e own
    · exact later e member

/-- The slots named are removed from every dependency set, and ordered pending is tested again (R69, R70). -/
def State.loosen (u : State) (gone : List SlotId) : State := (u.removeDependencies gone).retestOrdered

/-- What the end of the slots named releases, once they have ended, and the endings that it brings (R69, R70, R75 to R77). -/
def State.letGo (u : State) (gone : List SlotId) : State × List Ending :=
  ((u.loosen gone).markReady (u.loosen gone).releasableSlots).executeAll (u.loosen gone).releasableSlots

theorem State.released_eq (s : State) (es : List Ending) :
    s.released es = ((s.together es).foldl State.endSlot s.choose).letGo (es.map Ending.slot) := rfl

theorem Within.letGo (h : Within Q R s) {gone : List SlotId} (among : ∀ i ∈ gone, Q i) :
    Within Q R (s.letGo gone).1 ∧ ∀ e ∈ (s.letGo gone).2, Q e.slot := by
  have tested : Within Q R (s.loosen gone) := (h.removeDependencies among).retestOrdered
  rw [State.letGo, State.executeAll_eq]
  exact Within.runAll _ (tested.markReady _).choose fun j member =>
    (tested.released ((State.together_perm _ _).mem_iff.1 member)).1

theorem State.removeDependencies_held (s : State) (gone : List SlotId) : (s.removeDependencies gone).surfaces = s.surfaces ∧
    (s.removeDependencies gone).presentation = s.presentation := by
  unfold State.removeDependencies
  exact ⟨rfl, rfl⟩

theorem State.retestOrdered_held (s : State) : s.retestOrdered.surfaces = s.surfaces ∧
    s.retestOrdered.presentation = s.presentation := by
  unfold State.retestOrdered
  exact ⟨rfl, rfl⟩

theorem State.markReady_held (s : State) (l : List SlotId) : (s.markReady l).surfaces = s.surfaces ∧
    (s.markReady l).presentation = s.presentation := by
  unfold State.markReady
  exact ⟨rfl, rfl⟩

theorem Carried.removeDependencies (carried : Carried Q R P) (h : Within Q R s) (gone : List SlotId) (holds : P s) :
    P (s.removeDependencies gone) := by
  obtain ⟨surfaces, presentation⟩ := s.removeDependencies_held gone
  refine carried.same s _ holds surfaces presentation fun i outside => ?_
  obtain ⟨-, deps, -⟩ := h.barred i outside
  rw [State.removeDependencies_slot, deps, List.filter_nil, ← deps]

theorem Carried.retestOrdered (carried : Carried Q R P) (h : Within Q R s) (holds : P s) : P s.retestOrdered := by
  obtain ⟨surfaces, presentation⟩ := s.retestOrdered_held
  refine carried.same s _ holds surfaces presentation fun i outside => ?_
  obtain ⟨-, -, ordered⟩ := h.barred i outside
  rw [State.retestOrdered_slot, ordered, Bool.false_and, ← ordered]

theorem Carried.choose (carried : Carried Q R P) (holds : P s) : P s.choose :=
  carried.same s _ holds rfl rfl fun _ _ => rfl

/-- What becomes READY is executed (R69). -/
theorem Carried.readied (carried : Carried Q R P) (h : Within Q R s) (holds : P s) :
    P ((s.markReady s.releasableSlots).executeAll s.releasableSlots).1 := by
  obtain ⟨surfaces, presentation⟩ := s.markReady_held s.releasableSlots
  have readied : P (s.markReady s.releasableSlots) := by
    refine carried.same s _ holds surfaces presentation fun i outside => (State.markReady_slot s _ i).trans (if_neg ?_)
    simpa using fun ready => outside (h.released ready).1
  rw [State.executeAll_eq]
  refine carried.runAll _ (carried.choose readied) fun j member => ?_
  obtain ⟨may, kind⟩ := h.released ((State.together_perm _ _).mem_iff.1 member)
  refine ⟨may, ?_⟩
  rw [State.choose_slot, State.markReady_slot]
  split <;> exact kind

theorem Carried.letGo (carried : Carried Q R P) (h : Within Q R s) {gone : List SlotId} (among : ∀ i ∈ gone, Q i) (holds : P s) :
    P (s.letGo gone).1 :=
  carried.readied (h.removeDependencies among).retestOrdered
    (carried.retestOrdered (h.removeDependencies among) (carried.removeDependencies h gone holds))

theorem Within.foldl_endSlot (es : List Ending) : ∀ {s : State}, Within Q R s → Within Q R (es.foldl State.endSlot s) := by
  induction es with
  | nil => exact fun h => h
  | cons e rest ih => exact fun h => ih (h.endSlot e)

theorem Carried.foldl_endSlot (carried : Carried Q R P) (es : List Ending) : ∀ {s : State}, P s → (∀ e ∈ es, Q e.slot) →
    P (es.foldl State.endSlot s) := by
  induction es with
  | nil => exact fun holds _ => holds
  | cons e rest ih =>
    exact fun holds all => ih (carried.ends _ e holds (all e List.mem_cons_self)) fun x member => all x (List.mem_cons_of_mem e member)

/-- What is carried holds once all is settled. -/
theorem Carried.settle (carried : Carried Q R P) (n : Nat) : ∀ {s : State} {es : List Ending}, Within Q R s → P s →
    (∀ e ∈ es, Q e.slot) → P (s.settle n es) := by
  induction n with
  | zero =>
    intro s es _ holds _
    cases es <;> exact holds
  | succ n ih =>
    intro s es h holds among
    cases es with
    | nil => exact holds
    | cons e rest =>
      have ended : Within Q R ((s.together (e :: rest)).foldl State.endSlot s.choose) := h.choose.foldl_endSlot _
      have gone : ∀ i ∈ (e :: rest).map Ending.slot, Q i := fun i member => by
        obtain ⟨x, mem, rfl⟩ := List.mem_map.1 member
        exact among x mem
      obtain ⟨after, later⟩ := ended.letGo gone
      rw [State.settle_released, State.released_eq]
      refine ih after (carried.letGo ended gone ?_) later
      refine carried.foldl_endSlot _ (carried.choose holds) fun x member => ?_
      exact among x ((s.together_perm _).mem_iff.1 member)

end

end Sys2Proof.Machine
end

section
/-! PROOF. The slots that waited for one ending alone (R69, R70, R75 to R77). -/

namespace Sys2Proof.Machine

open Sys2Proof.Safety

/-! ## One ending among several -/

/-- The endings hold exactly one of its slot. -/
def Ending.Once (e : Ending) (es : List Ending) : Prop := (es.filter fun x => x.slot = e.slot) = [e]

theorem Ending.Once.perm {e : Ending} {es es' : List Ending} (h : e.Once es) (perm : es'.Perm es) : e.Once es' :=
  List.perm_singleton.1 (h ▸ perm.filter _)

/-- The one ending of a slot answers it, whatever else ends (R79). -/
theorem State.foldl_endSlot_once {s : State} {es : List Ending} {e : Ending} {q : QueueId} (once : e.Once es)
    (inQueue : (s.slot e.slot).queue = some q) :
    Answered (es.foldl State.endSlot s) e.slot (s.slot e.slot) e.status e.detail ∧ Closed (es.foldl State.endSlot s) e.slot := by
  obtain ⟨before, after, rfl, others, -, rest⟩ := List.filter_eq_cons_iff.1 once
  simp only [decide_eq_true_eq] at others
  have later : ∀ x ∈ after, x.slot ≠ e.slot := by simpa [List.filter_eq_nil_iff] using rest
  rw [List.foldl_append, List.foldl_cons]
  have same := State.foldl_endSlot_slot (s := s) others
  generalize before.foldl State.endSlot s = u at same
  rw [← same] at inQueue ⊢
  have answered := State.endSlot_answered inQueue
  have closed := Closed.of_answered answered fun w hw => by
    rw [State.endSlot_waiting inQueue] at hw
    simpa using (List.mem_filter.1 hw).2
  have kept := State.foldl_endSlot_slot (s := u.endSlot e) later
  exact ⟨Answered.of_slot answered kept, closed.of_same kept (Goes.foldl State.endSlot_goes after _).waiting⟩

/-- What the end of slots releases leaves a closed slot, and brings no ending of it. -/
theorem Closed.letGo {u : State} {k : SlotId} (h : Closed u k) (gone : List SlotId) :
    Closed (u.letGo gone).1 k ∧ (u.letGo gone).1.slot k = u.slot k ∧ ∀ e ∈ (u.letGo gone).2, e.slot ≠ k := by
  have loosed := h.of_same (h.removeDependencies gone) (u.removeDependencies_goes gone).waiting
  have tested := loosed.of_same loosed.retestOrdered (State.retestOrdered_goes _).waiting
  have slot := loosed.retestOrdered.trans (h.removeDependencies gone)
  unfold State.letGo State.loosen
  generalize (u.removeDependencies gone).retestOrdered = v at tested slot
  have notReady := tested.not_releasable
  have readied : (v.markReady v.releasableSlots).slot k = v.slot k := by
    rw [State.markReady_slot, if_neg (by simpa using notReady)]
  have ready := tested.of_same readied (v.markReady_goes _).waiting
  obtain ⟨executed, ends⟩ := State.executeAll_closed ready notReady
  exact ⟨ready.of_same executed (State.executeAll_goes _ _).waiting, (executed.trans readied).trans slot, ends⟩

/-- The one ending of a slot answers it for good. -/
theorem State.settle_answered_once {s : State} {es : List Ending} {e : Ending} {q : QueueId} (n : Nat) (once : e.Once es)
    (inQueue : (s.slot e.slot).queue = some q) : Answered (s.settle (n + 1) es) e.slot (s.slot e.slot) e.status e.detail := by
  cases es with
  | nil => cases once
  | cons x rest =>
    obtain ⟨answered, closed⟩ := State.foldl_endSlot_once (s := s.choose) (once.perm (s.together_perm (x :: rest))) inQueue
    obtain ⟨still, slot, others⟩ := closed.letGo ((x :: rest).map Ending.slot)
    rw [State.settle_released, State.released_eq]
    exact Answered.of_slot answered ((State.settle_closed still others).trans slot)

/-! ## The slot that is released -/

/-- A slot before another in what is left of a list was before it. -/
theorem mem_takeWhile_of_filter {i j k : SlotId} (l : List SlotId) (other : k ≠ i)
    (h : j ∈ (l.filter (· ≠ i)).takeWhile (· ≠ k)) : j ∈ l.takeWhile (· ≠ k) := by
  induction l with
  | nil => exact h
  | cons x rest ih =>
    by_cases out : x = i
    · rw [List.filter_cons_of_neg (by simp [out])] at h
      rw [List.takeWhile_cons, if_pos (by simpa [out] using Ne.symm other)]
      exact List.mem_cons_of_mem x (ih h)
    · rw [List.filter_cons_of_pos (by simpa using out), List.takeWhile_cons] at h
      rw [List.takeWhile_cons]
      split at h
      · next before =>
        rw [if_pos before]
        exact (List.mem_cons.1 h).elim (fun own => own ▸ List.mem_cons_self) fun later => List.mem_cons_of_mem x (ih later)
      · exact absurd h List.not_mem_nil

section
variable {v : State} {x : Ending} {k : SlotId} {q : QueueId}

/-- A slot before another after an ending was before it. -/
theorem State.mem_before_of_endSlot {j : SlotId} (other : k ≠ x.slot) (h : j ∈ (v.endSlot x).order.takeWhile (· ≠ k)) :
    j ∈ v.order.takeWhile (· ≠ k) := by
  rcases v.endSlot_order x with same | filtered
  · rwa [same] at h
  · rw [filtered] at h
    exact mem_takeWhile_of_filter v.order other h

/-- What is left in place of a slot that has ended is unended no more. -/
theorem State.endSlot_not_unended (inQueue : (v.slot x.slot).queue = some q) : ((v.endSlot x).slot x.slot).unended = false := by
  have closed := Closed.of_answered (State.endSlot_answered inQueue) fun w hw => by
    rw [State.endSlot_waiting inQueue] at hw
    simpa using (List.mem_filter.1 hw).2
  unfold Slot.unended
  rcases closed.state with state | state <;> rw [state] <;> rfl

/-- A slot that waited for the ended one alone has no earlier unended operation to wait for (R70). -/
theorem State.endSlot_ordered (inQueue : (v.slot x.slot).queue = some q) (waits : WaitsOnlyFor v x.slot k) :
    ((v.slot k).orderedPending && ((v.endSlot x).removeDependencies [x.slot]).earlierUnended k) = false := by
  obtain ⟨other, -, -, -, -, ordered⟩ := waits
  rw [Bool.and_eq_false_iff]
  refine (Bool.eq_false_or_eq_true _).symm.imp_right fun pending => ?_
  unfold State.earlierUnended
  rw [List.any_eq_false, State.removeDependencies_order]
  intro j before held
  rw [State.removeDependencies_slot, State.removeDependencies_slot, Bool.and_eq_true, decide_eq_true_eq] at held
  obtain ⟨queue, unended⟩ := held
  by_cases own : j = x.slot
  · rw [own] at unended
    exact Bool.false_ne_true ((State.endSlot_not_unended inQueue).symm.trans unended)
  · rw [State.endSlot_slot_ne (Ne.symm own)] at queue unended
    rw [State.endSlot_slot_ne (Ne.symm other)] at queue
    exact own (ordered pending j (State.mem_before_of_endSlot other before) queue unended)

/-- With the ending out of the dependency sets and ordered pending tested again, the slot that waited for it alone waits for nothing. -/
theorem State.endSlot_loosened (inQueue : (v.slot x.slot).queue = some q) (waits : WaitsOnlyFor v x.slot k) :
    ((v.endSlot x).loosen [x.slot]).slot k = { v.slot k with deps := [], orderedPending := false } := by
  have ordered := State.endSlot_ordered inQueue waits
  obtain ⟨other, -, -, -, deps, -⟩ := waits
  have none : ((v.slot k).deps.filter fun d => !([x.slot].contains d)) = [] :=
    List.filter_eq_nil_iff.2 fun d member => by simp [deps d member]
  rw [State.loosen, State.retestOrdered_slot, State.removeDependencies_slot, State.endSlot_slot_ne (Ne.symm other), none]
  exact congrArg (fun b => ({ v.slot k with deps := [], orderedPending := b } : Slot)) ordered

/-- Another slot than the ended one depends on it no more, and is otherwise as it was but for its ordered pending. -/
theorem State.endSlot_loosened_other {j : SlotId} (other : j ≠ x.slot) :
    (((v.endSlot x).loosen [x.slot]).slot j).state = (v.slot j).state ∧ (((v.endSlot x).loosen [x.slot]).slot j).op = (v.slot j).op ∧
      ∀ d ∈ (v.slot j).deps, d ≠ x.slot → d ∈ (((v.endSlot x).loosen [x.slot]).slot j).deps := by
  rw [State.loosen, State.retestOrdered_slot, State.removeDependencies_slot, State.endSlot_slot_ne (Ne.symm other)]
  exact ⟨rfl, rfl, fun d member stays => List.mem_filter.2 ⟨member, by simpa using stays⟩⟩

/-- The slot that has ended is not BLOCKED. -/
theorem State.endSlot_loosened_own (inQueue : (v.slot x.slot).queue = some q) :
    (((v.endSlot x).loosen [x.slot]).slot x.slot).state ≠ .blocked := by
  have unended := State.endSlot_not_unended inQueue
  rw [State.loosen, State.retestOrdered_slot, State.removeDependencies_slot]
  intro blocked
  have blocked : ((v.endSlot x).slot x.slot).state = .blocked := blocked
  rw [Slot.unended, blocked] at unended
  cases unended

theorem State.endSlot_loosened_order : ((v.endSlot x).loosen [x.slot]).order = (v.endSlot x).order := by
  unfold State.loosen State.retestOrdered State.removeDependencies
  rfl

theorem State.endSlot_loosened_goes : Goes v ((v.endSlot x).loosen [x.slot]) :=
  ((v.endSlot_goes x).trans (State.removeDependencies_goes _ _)).trans (State.retestOrdered_goes _)

/-- It becomes READY (R69), and once. -/
theorem State.endSlot_releases (running : v.control.deviceState = .running) (distinct : v.order.Nodup)
    (inQueue : (v.slot x.slot).queue = some q) (waits : WaitsOnlyFor v x.slot k) :
    k ∈ ((v.endSlot x).loosen [x.slot]).releasableSlots ∧ ((v.endSlot x).loosen [x.slot]).releasableSlots.Nodup := by
  have slot := State.endSlot_loosened inQueue waits
  obtain ⟨other, member, blocked, notWait, -, -⟩ := waits
  unfold State.releasableSlots
  rw [State.endSlot_loosened_goes.control, if_pos running, State.endSlot_loosened_order]
  have order : k ∈ (v.endSlot x).order ∧ (v.endSlot x).order.Nodup := by
    rcases v.endSlot_order x with same | filtered
    · exact ⟨same ▸ member, same ▸ distinct⟩
    · exact filtered ▸ ⟨List.mem_filter.2 ⟨member, by simpa using other⟩, distinct.filter _⟩
  refine ⟨List.mem_filter.2 ⟨order.1, ?_⟩, order.2.filter _⟩
  rw [slot]
  show (decide ((v.slot k).state = .blocked) && true && true && !(v.slot k).isWaiting) = true
  rw [notWait, decide_eq_true blocked]
  rfl

/-- What an ending does to a surface record (R79): a PRESENT leaves it, or a RETIRE that did not execute returns it to DEFINED. -/
theorem State.endSlot_surface (s : State) (e : Ending) (id : SurfaceId) : (s.endSlot e).surface id = s.surface id ∨
    (s.endSlot e).surface id = { s.surface id with presentRefs := (s.surface id).presentRefs - 1 } ∨
    ((s.surface id).state = .retiring ∧ (s.endSlot e).surface id = { s.surface id with state := .defined }) := by
  cases inQueue : (s.slot e.slot).queue with
  | none => exact .inl (by rw [State.endSlot, inQueue])
  | some q =>
    have claim : (s.endSlot e).surface id = (s.releaseClaim (s.slot e.slot) e.status).surface id := by
      rw [State.surface, State.surface, (State.endSlot_surfaces inQueue).1]
    rw [claim]
    unfold State.releaseClaim
    split
    · split
      · next own _ =>
        rw [State.dropPresent, State.surface_modifySurface]
        split
        · next same => exact .inr (.inl (by rw [same]))
        · exact .inl rfl
      · next own _ =>
        split
        · exact .inl rfl
        · rw [State.returnRetiring, State.surface_modifySurface]
          split
          · next same =>
            rw [same]
            split
            · next retiring => exact .inr (.inr ⟨retiring, rfl⟩)
            · exact .inl rfl
          · exact .inl rfl
      · exact .inl rfl
    · exact .inl rfl

/-- An ending leaves the fields of every surface record. -/
theorem State.endSlot_fields (s : State) (e : Ending) (id : SurfaceId) : ((s.endSlot e).surface id).fields = (s.surface id).fields := by
  rcases s.endSlot_surface e id with same | dropped | ⟨-, returned⟩
  · rw [same]
  · rw [dropped]
  · rw [returned]

/-- An ending leaves a surface record that is freed. -/
theorem State.endSlot_freed {s : State} {id : SurfaceId} (freed : s.surface id = Surface.freed) (e : Ending) :
    (s.endSlot e).surface id = Surface.freed := by
  rcases s.endSlot_surface e id with same | dropped | ⟨retiring, -⟩
  · rw [same, freed]
  · rw [dropped, freed]
    rfl
  · rw [freed] at retiring
    cases retiring

/-- Slot k, which held its operation in v, is released together with those of two lists, and is executed between them, from state a on. -/
structure ReleasedIn (v a : State) (k : SlotId) (before after : List SlotId) : Prop where
  alone : k ∉ before ++ after
  slot : a.slot k = { v.slot k with state := .ready, deps := [], orderedPending := false }
  waiting : ∀ w ∈ a.waiting, w ∈ v.waiting
  ready : ∀ j, j ∈ before ++ after ∨ (a.slot j).state = .blocked → j ≠ k ∧ (v.slot j).state = .blocked ∧ (a.slot j).op = (v.slot j).op
  waits : ∀ j, k ∈ (v.slot j).deps → j ∉ before ++ after ∧ ((a.slot j).state = .blocked → k ∈ (a.slot j).deps)
  fields : ∀ id, (a.surface id).fields = (v.surface id).fields

/-- The slots that become READY, split at one of them. -/
theorem ReleasedIn.of_loosened {w : State} {i : SlotId} {before after : List SlotId}
    (perm : (before ++ k :: after).Perm w.releasableSlots) (nodup : w.releasableSlots.Nodup) (other : k ≠ i)
    (slot : w.slot k = { v.slot k with deps := [], orderedPending := false }) (own : (w.slot i).state ≠ .blocked)
    (others : ∀ j, j ≠ i → (w.slot j).state = (v.slot j).state ∧ (w.slot j).op = (v.slot j).op ∧
      ∀ d ∈ (v.slot j).deps, d ≠ i → d ∈ (w.slot j).deps)
    (waiting : ∀ x ∈ w.waiting, x ∈ v.waiting) (fields : ∀ id, (w.surface id).fields = (v.surface id).fields) :
    ReleasedIn v (w.markReady w.releasableSlots).choose k before after := by
  have readied (j : SlotId) : ((w.markReady w.releasableSlots).choose.slot j) =
      if w.releasableSlots.contains j then { w.slot j with state := .ready } else w.slot j := by
    rw [State.choose_slot, State.markReady_slot]
  have waiting : ∀ x ∈ (w.markReady w.releasableSlots).choose.waiting, x ∈ v.waiting :=
    fun x member => waiting x (((w.markReady_goes _).trans (State.choose_goes _)).waiting x member)
  have fields (id : SurfaceId) : ((w.markReady w.releasableSlots).choose.surface id).fields = (v.surface id).fields := by
    rw [State.choose_surface, State.surface, (w.markReady_held _).1]
    exact fields id
  generalize (w.markReady w.releasableSlots).choose = a at readied waiting fields ⊢
  have among {j : SlotId} (h : j ∈ before ++ after) : j ∈ w.releasableSlots :=
    perm.mem_iff.1 (List.perm_middle.mem_iff.2 (List.mem_cons_of_mem k h))
  have ready : k ∈ w.releasableSlots := perm.mem_iff.1 (List.mem_append_right before List.mem_cons_self)
  have alone : k ∉ before ++ after := (List.nodup_cons.1 (List.perm_middle.nodup_iff.1 (perm.nodup_iff.2 nodup))).1
  have stays {j : SlotId} (h : (a.slot j).state = .blocked) :
      j ∉ w.releasableSlots ∧ a.slot j = w.slot j := by
    rw [readied] at h ⊢
    split at h
    · cases h
    · next out =>
      rw [if_neg out]
      exact ⟨by simpa using out, rfl⟩
  refine ⟨alone, ?_, waiting, ?_, ?_, fields⟩
  · rw [readied, if_pos (by simpa using ready), slot]
  · intro j h
    have blocked : (w.slot j).state = .blocked := by
      rcases h with member | still
      · exact (State.mem_releasableSlots (among member)).1
      · rwa [(stays still).2] at still
    obtain ⟨state, op, -⟩ := others j fun ended => own (ended ▸ blocked)
    refine ⟨?_, state ▸ blocked, ?_⟩
    · rintro rfl
      rcases h with member | still
      · exact alone member
      · exact (stays still).1 ready
    · rw [readied, ← op]
      split <;> rfl
  · intro j depends
    have kept (blocked : (w.slot j).state = .blocked) : k ∈ (w.slot j).deps :=
      (others j fun ended => own (ended ▸ blocked)).2.2 k depends other
    refine ⟨fun member => ?_, fun still => ?_⟩
    · obtain ⟨blocked, none⟩ := State.mem_releasableSlots (among member)
      have depends := kept blocked
      rw [none] at depends
      exact List.not_mem_nil depends
    · obtain ⟨-, same⟩ := stays still
      rw [same] at still ⊢
      exact kept still

/-- What an ending releases holds every slot that waited for it alone (R69). -/
theorem State.released_waiting (running : v.control.deviceState = .running) (distinct : v.order.Nodup)
    (inQueue : (v.slot x.slot).queue = some q) (waits : WaitsOnlyFor v x.slot k) : ∃ a before after,
      v.released [x] = a.runAll (before ++ k :: after) ∧ ReleasedIn v a k before after := by
  obtain ⟨member, nodup⟩ := State.endSlot_releases (v := v.choose) running distinct inQueue waits
  have slot := State.endSlot_loosened (v := v.choose) inQueue waits
  have own := State.endSlot_loosened_own (v := v.choose) inQueue
  have others := fun (j : SlotId) (h : j ≠ x.slot) => State.endSlot_loosened_other (v := v.choose) h
  have goes := State.endSlot_loosened_goes (v := v.choose) (x := x)
  have fields : ∀ id, (((v.choose.endSlot x).loosen [x.slot]).surface id).fields = (v.surface id).fields := fun id => by
    refine Eq.trans ?_ (State.endSlot_fields v.choose x id)
    rw [State.surface, State.loosen, (State.retestOrdered_held _).1, (State.removeDependencies_held _ _).1]
    rfl
  have released : v.released [x] = (v.choose.endSlot x).letGo [x.slot] := rfl
  rw [State.letGo, State.executeAll_eq] at released
  obtain ⟨before, after, split⟩ := List.append_of_mem ((State.together_perm _ _).mem_iff.2 member)
  rw [split] at released
  exact ⟨_, before, after, released, .of_loosened (split ▸ State.together_perm _ _) nodup waits.1 slot own others goes.waiting fields⟩

end

/-- Slots that are READY are executed in turn, and all that they end and release is settled. -/
def State.carryOut (a : State) (l : List SlotId) : State := (a.runAll l).1.settle 32 (a.runAll l).2

theorem State.runAll_slot_op (l : List SlotId) (j : SlotId) : ∀ s : State, ((s.runAll l).1.slot j).op = (s.slot j).op := by
  induction l with
  | nil => exact fun _ => rfl
  | cons i rest ih => exact fun s => (ih _).trans (s.execute_slot_op i j)

section
variable {v a : State} {k : SlotId} {before after : List SlotId} {q : QueueId} {Q : SlotId → Prop} {R : Option Op → Prop}
  {P : State → Prop}

/-- Endings reach no further than the slots Q and the operations R, where every other slot that is BLOCKED in v waits for slot k, which is
not among Q, or holds one of these operations. -/
structure Bounded (v : State) (k : SlotId) (Q : SlotId → Prop) (R : Option Op → Prop) : Prop where
  only : ∀ i, ¬Q i → i = k
  blocked : ∀ j, j ≠ k → (v.slot j).state = .blocked → (k ∈ (v.slot j).deps ∧ ¬Q k) ∨ R (v.slot j).op
  waiting : ∀ w ∈ v.waiting, w.slot ≠ k

theorem Bounded.others (h : Bounded v k Q R) {j : SlotId} (other : j ≠ k) : Q j :=
  Classical.byContradiction fun outside => other (h.only j outside)

theorem ReleasedIn.within (h : ReleasedIn v a k before after) (bounded : Bounded v k Q R) : Within Q R a where
  barred := fun i outside => by
    rw [bounded.only i outside, h.slot]
    exact ⟨nofun, rfl, rfl⟩
  blocked := fun j now => by
    obtain ⟨other, blocked, op⟩ := h.ready j (.inr now)
    rw [op]
    exact (bounded.blocked j other blocked).imp_left fun ⟨depends, outside⟩ => ⟨k, (h.waits j depends).2 now, outside⟩
  waiting := fun w member => bounded.others (bounded.waiting w (h.waiting w member))

theorem ReleasedIn.reached (h : ReleasedIn v a k before after) (bounded : Bounded v k Q R) {j : SlotId} (member : j ∈ before ++ after) :
    Q j ∧ R (a.slot j).op := by
  obtain ⟨other, blocked, op⟩ := h.ready j (.inl member)
  rw [op]
  exact ⟨bounded.others other, (bounded.blocked j other blocked).resolve_left fun waits => (h.waits j waits.1).1 member⟩

theorem ReleasedIn.slot_before (h : ReleasedIn v a k before after) :
    (a.runAll before).1.slot k = { v.slot k with state := .ready, deps := [], orderedPending := false } :=
  (State.runAll_slot_ne before fun member => h.alone (List.mem_append_left after member)).trans h.slot

theorem ReleasedIn.op_before (h : ReleasedIn v a k before after) : ((a.runAll before).1.slot k).op = (v.slot k).op := by
  rw [h.slot_before]

/-- What holds once slot k is executed, and is carried on, holds in the end. -/
theorem ReleasedIn.settled (h : ReleasedIn v a k before after) (bounded : Bounded v k Q R) (carried : Carried Q R P)
    (own : ∀ e ∈ ((a.runAll before).1.execute k).2, Q e.slot) (holds : P ((a.runAll before).1.execute k).1) :
    P (a.carryOut (before ++ k :: after)) := by
  have reached := fun j => h.reached bounded (j := j)
  obtain ⟨within, early⟩ := (h.within bounded).runAll before fun j member => (reached j (List.mem_append_left after member)).1
  obtain ⟨last, late⟩ := (within.execute k).runAll after fun j member => (reached j (List.mem_append_right before member)).1
  unfold State.carryOut
  rw [State.runAll_append]
  refine carried.settle 32 last (carried.runAll after holds fun j member => ?_) fun e member => ?_
  · rw [State.execute_slot_op, State.runAll_slot_op]
    exact reached j (List.mem_append_right before member)
  · rcases List.mem_append.1 member with member | member
    · exact early e member
    · exact (List.mem_append.1 member).elim (own e) (late e)

/-- Whatever a slot does that is executed, its one ending answers it. -/
theorem ReleasedIn.answered (h : ReleasedIn v a k before after) (free : ∀ w ∈ v.waiting, w.slot ≠ k)
    (inQueue : (v.slot k).queue = some q) {st : Status} {detail : BitVec 32}
    (own : Ending.Once { slot := k, status := st, detail := detail } ((a.runAll before).1.execute k).2)
    (kept : ((a.runAll before).1.execute k).1.slot k = (a.runAll before).1.slot k) :
    Answered (a.carryOut (before ++ k :: after)) k (v.slot k) st detail := by
  have bounded : Bounded v k (· ≠ k) fun _ => True := ⟨fun _ => not_not.1, fun _ _ _ => .inr trivial, free⟩
  have reached := fun j => h.reached bounded (j := j)
  obtain ⟨within, early⟩ := (h.within bounded).runAll before fun j member => (reached j (List.mem_append_left after member)).1
  obtain ⟨-, late⟩ := (within.execute k).runAll after fun j member => (reached j (List.mem_append_right before member)).1
  have none {es : List Ending} (others : ∀ e ∈ es, e.slot ≠ k) : es.filter (fun e => e.slot = k) = [] :=
    List.filter_eq_nil_iff.2 fun e member => by simpa using others e member
  have slot : (a.runAll (before ++ k :: after)).1.slot k = { v.slot k with state := .ready, deps := [], orderedPending := false } := by
    rw [State.runAll_append]
    refine (State.runAll_slot_ne after fun member => h.alone (List.mem_append_right before member)).trans ?_
    rw [kept, h.slot_before]
  have once : Ending.Once { slot := k, status := st, detail := detail } (a.runAll (before ++ k :: after)).2 := by
    rw [State.runAll_append]
    unfold Ending.Once at own ⊢
    simp only [State.runAll, List.filter_append, own, none early, none late]
    rfl
  have answered := State.settle_answered_once 31 once (by rw [slot]; exact inQueue)
  rw [slot] at answered
  exact answered

/-! ## The kinds -/

/-- What an execution does to a surface record: only a RETIRE or a SCROLL of it changes it (R10, R13). -/
theorem State.execute_surface (s : State) (i : SlotId) (id : SurfaceId) : (s.execute i).1.surface id = s.surface id ∨
    ((s.slot i).op = some (.retire id) ∧ (s.execute i).1.surface id = Surface.freed) ∨
    ∃ o, (s.slot i).op = some (.scroll id o) ∧ (s.execute i).1.surface id = (s.surface id).withOrigin o := by
  unfold State.execute State.executeSignal
  split
  · next other op =>
    rw [op, State.surface_setSurface]
    split
    · next same => exact .inr (.inl ⟨by rw [same], rfl⟩)
    · exact .inl rfl
  · next other o op =>
    rw [op, State.surface_modifySurface]
    split
    · next same => exact .inr (.inr ⟨o, by rw [same], by rw [same]⟩)
    · exact .inl rfl
  all_goals
    refine .inl ?_
    repeat' split
    all_goals rfl

/-- A surface that is freed stays so (R10). -/
theorem Carried.freed (Q : SlotId → Prop) (R : Option Op → Prop) (id : SurfaceId) : Carried Q R fun s => s.surface id = Surface.freed where
  same := fun s t holds surfaces _ _ => by rw [State.surface, surfaces]; exact holds
  ends := fun _ e holds _ => State.endSlot_freed holds e
  runs := fun s i holds _ _ => by
    rcases s.execute_surface i id with same | ⟨-, freed⟩ | ⟨o, -, scrolled⟩
    · rw [same, holds]
    · exact freed
    · rw [scrolled, holds]
      rfl

/-- A slot that is not reached stays as it is. -/
theorem Carried.slot (k : SlotId) (R : Option Op → Prop) (sl : Slot) : Carried (· ≠ k) R fun s => s.slot k = sl where
  same := fun _ _ holds _ _ slots => (slots k (not_not.2 rfl)).trans holds
  ends := fun _ _ holds other => (State.endSlot_slot_ne other).trans holds
  runs := fun _ _ holds other _ => (State.execute_slot_ne other).trans holds

/-- The operation is neither a RETIRE nor a SCROLL of the surface. -/
def LeavesFields (id : SurfaceId) (op : Option Op) : Prop := op ≠ some (.retire id) ∧ ∀ o, op ≠ some (.scroll id o)

/-- Such operations leave the fields of the surface. -/
theorem Carried.fields (Q : SlotId → Prop) (id : SurfaceId) (f : Option SurfaceFields) :
    Carried Q (LeavesFields id) fun s => (s.surface id).fields = f where
  same := fun s t holds surfaces _ _ => by rw [State.surface, surfaces]; exact holds
  ends := fun s e holds _ => (s.endSlot_fields e id).trans holds
  runs := fun s i holds _ kind => by
    rcases s.execute_surface i id with same | ⟨retire, -⟩ | ⟨o, scroll, -⟩
    · rw [same, holds]
    · exact absurd retire kind.1
    · exact absurd scroll (kind.2 o)

theorem State.endSlot_held {s : State} {e : Ending} {k : SlotId} (holds : s.presentation.held = some k) (other : e.slot ≠ k) :
    (s.endSlot e).presentation.held = some k := by
  cases inQueue : (s.slot e.slot).queue with
  | none => rw [State.endSlot, inQueue]; exact holds
  | some q =>
    rw [(State.endSlot_surfaces inQueue).2.2]
    exact (if_neg (by simpa [holds] using Ne.symm other)).trans holds

/-- A held operation stays held while others than PRESENT and PANEL are executed (R157). -/
theorem Carried.held (k : SlotId) : Carried (· ≠ k) LeavesHeld fun s => s.presentation.held = some k where
  same := fun s t holds _ presentation _ => by rw [presentation]; exact holds
  ends := fun _ _ holds other => State.endSlot_held holds other
  runs := fun s i holds _ kind => by rw [(State.execute_kept kind).2]; exact holds

/-- A SIGNAL below its mark changes nothing and ends MARK_REGRESS (R130). -/
theorem State.execute_regress {s : State} {m : MarkId} {n : BitVec 32} (op : (s.slot k).op = some (.signal m n))
    (below : n.toNat < (s.mark m).toNat) : s.execute k = (s, [{ slot := k, status := .markRegress, detail := s.mark m }]) := by
  unfold State.execute State.executeSignal
  rw [op]
  exact if_pos below

/-- A SIGNAL at or above its mark sets it and satisfies the WAITs at or below its value (R129, R130). -/
theorem State.execute_signal {s : State} {m : MarkId} {n : BitVec 32} (op : (s.slot k).op = some (.signal m n))
    (above : ¬n.toNat < (s.mark m).toNat) : s.execute k =
      ({ s.setMark m n with waiting := s.waiting.filter fun w => !(w.mark = m && w.value.toNat ≤ n.toNat) },
        { slot := k, status := .ok, detail := n } ::
          (s.waiting.filter fun w => w.mark = m && w.value.toNat ≤ n.toNat).map fun w =>
            { slot := w.slot, status := .ok, detail := n }) := by
  unfold State.execute State.executeSignal
  rw [op]
  exact if_neg above

theorem State.carryOut_settled (a : State) (before after : List SlotId) (k : SlotId) :
    Settled ((a.runAll before).1.execute k).1 (a.carryOut (before ++ k :: after)) := by
  unfold State.carryOut
  rw [State.runAll_append]
  exact (State.runAll_settled after _).trans (State.settle_settled 32 _ _)

theorem State.carryOut_goes (a : State) (before after : List SlotId) (k : SlotId) :
    Goes ((a.runAll before).1.execute k).1 (a.carryOut (before ++ k :: after)) := by
  unfold State.carryOut
  rw [State.runAll_append]
  exact (State.runAll_goes after _).trans (State.settle_goes 32 _ _)

section
variable (h : ReleasedIn v a k before after) (free : ∀ w ∈ v.waiting, w.slot ≠ k)
include h free

/-- An engine operation that writes something is READY (R73). -/
theorem ReleasedIn.engine {op : Op} (holds : (v.slot k).op = some op) (kind : op.isEngine = true) (writes : op.emptyClip = false) :
    (a.carryOut (before ++ k :: after)).slot k = { v.slot k with state := .ready, deps := [], orderedPending := false } := by
  have bounded : Bounded v k (· ≠ k) fun _ => True := ⟨fun _ => not_not.1, fun _ _ _ => .inr trivial, free⟩
  have executed := State.execute_engine (h.op_before.trans holds) kind writes
  refine h.settled bounded (Carried.slot k _ _) (by rw [executed]; exact nofun) ?_
  rw [executed]
  exact h.slot_before

/-- What executes into nothing but its own OK ending is answered (R75, R76). -/
theorem ReleasedIn.ended (inQueue : (v.slot k).queue = some q) {u : State} {st : Status} {detail : BitVec 32}
    (executed : (a.runAll before).1.execute k = (u, [{ slot := k, status := st, detail := detail }]))
    (slots : u.slots = (a.runAll before).1.slots) : Answered (a.carryOut (before ++ k :: after)) k (v.slot k) st detail := by
  refine h.answered free inQueue ?_ ?_
  · rw [executed]
    simp [Ending.Once]
  · rw [executed, State.slot, slots, State.slot]

/-- A RETIRE frees its surface (R10). -/
theorem ReleasedIn.retires {id : SurfaceId} (op : (v.slot k).op = some (.retire id)) :
    (a.carryOut (before ++ k :: after)).surface id = Surface.freed := by
  have bounded : Bounded v k (fun _ => True) fun _ => True := ⟨fun _ outside => absurd trivial outside, fun _ _ _ => .inr trivial, free⟩
  refine h.settled bounded (Carried.freed _ _ id) (fun _ _ => trivial) ?_
  rw [State.execute_retire (h.op_before.trans op)]
  exact State.surface_setSurface_self _ id _

/-- A SCROLL replaces the band origin of its surface, where no other BLOCKED slot retires or scrolls it (R13). -/
theorem ReleasedIn.scrolls {id : SurfaceId} {o : Nat} (op : (v.slot k).op = some (.scroll id o))
    (others : ∀ j, j ≠ k → (v.slot j).state = .blocked → LeavesFields id (v.slot j).op) {d : SurfaceFields} {b : Band}
    (fields : (v.surface id).fields = some d) (band : d.band = some b) (below : o < b.rows) :
    ((a.carryOut (before ++ k :: after)).surface id).fields = some { d with band := some { b with origin := o } } := by
  have bounded : Bounded v k (fun _ => True) (LeavesFields id) :=
    ⟨fun _ outside => absurd trivial outside, fun j other blocked => .inr (others j other blocked), free⟩
  have start : ((a.runAll before).1.surface id).fields = some d :=
    (Carried.fields (fun _ => True) id (some d)).runAll before ((h.fields id).trans fields)
      fun j member => h.reached bounded (List.mem_append_left after member)
  refine h.settled bounded (Carried.fields _ id _) (fun _ _ => trivial) ?_
  rw [State.execute_scroll (h.op_before.trans op), State.surface_modifySurface, if_pos rfl]
  simp [Surface.withOrigin, Band.withOrigin, start, band, below]

/-- A PRESENT or PANEL is RUNNING (R77). -/
theorem ReleasedIn.runs {op : Op} (holds : (v.slot k).op = some op) (kind : op.isPresentation = true) :
    (a.carryOut (before ++ k :: after)).slot k = { v.slot k with state := .running, deps := [], orderedPending := false } := by
  have bounded : Bounded v k (· ≠ k) fun _ => True := ⟨fun _ => not_not.1, fun _ _ _ => .inr trivial, free⟩
  have executed := State.execute_presentation (h.op_before.trans holds) kind
  refine h.settled bounded (Carried.slot k _ _) (by rw [executed]; exact nofun) ?_
  rw [executed, State.slot_setSlot_self, h.slot_before]

/-- It is the held operation, where every other BLOCKED one waits for it (R157). -/
theorem ReleasedIn.held {op : Op} (holds : (v.slot k).op = some op) (kind : op.isPresentation = true)
    (others : ∀ j, j ≠ k → (v.slot j).state = .blocked → (∃ o, (v.slot j).op = some o ∧ o.isPresentation = true) → k ∈ (v.slot j).deps) :
    (a.carryOut (before ++ k :: after)).presentation.held = some k := by
  have bounded : Bounded v k (· ≠ k) LeavesHeld := ⟨fun _ => not_not.1, fun j other blocked => ?_, free⟩
  · have executed := State.execute_presentation (h.op_before.trans holds) kind
    refine h.settled bounded (Carried.held k) (by rw [executed]; exact nofun) ?_
    rw [executed]
    rfl
  · by_cases depends : k ∈ (v.slot j).deps
    · exact .inl ⟨depends, not_not.2 rfl⟩
    · exact .inr fun o op => Bool.eq_false_iff.2 fun presents => depends (others j other blocked ⟨o, op, presents⟩)

/-- A SIGNAL ends OK with its value on its mark and no satisfied WAIT left, or MARK_REGRESS (R129, R130). -/
theorem ReleasedIn.signals {m : MarkId} {n : BitVec 32} (op : (v.slot k).op = some (.signal m n)) (inQueue : (v.slot k).queue = some q) :
    (Answered (a.carryOut (before ++ k :: after)) k (v.slot k) .ok n ∧ n.toNat ≤ ((a.carryOut (before ++ k :: after)).mark m).toNat ∧
      ∀ w ∈ (a.carryOut (before ++ k :: after)).waiting, w.mark = m → n.toNat < w.value.toNat) ∨
    ∃ y, n.toNat < y.toNat ∧ y.toNat ≤ ((a.carryOut (before ++ k :: after)).mark m).toNat ∧
      Answered (a.carryOut (before ++ k :: after)) k (v.slot k) .markRegress y := by
  have holds := h.op_before.trans op
  have settled := a.carryOut_settled before after k
  have goes := a.carryOut_goes before after k
  by_cases below : n.toNat < ((a.runAll before).1.mark m).toNat
  · have executed := State.execute_regress holds below
    have marks := settled.marks m
    rw [executed] at marks
    exact .inr ⟨_, below, marks, h.ended free inQueue executed rfl⟩
  · have executed := State.execute_signal holds below
    have marks := settled.marks m
    rw [executed] at marks
    refine .inl ⟨h.answered free inQueue ?_ ?_, ?_, fun w member mark => ?_⟩
    · rw [executed]
      have others : ∀ w ∈ (a.runAll before).1.waiting, w.slot ≠ k := fun w member =>
        free w (h.waiting w ((State.runAll_goes before a).waiting w member))
      simpa [Ending.Once, List.filter_map, List.filter_eq_nil_iff] using fun w member own => absurd own (others w member)
    · rw [executed]
      rfl
    · exact (congrArg BitVec.toNat (State.mark_setMark_self _ m n)).symm.le.trans marks
    · have left := goes.waiting w member
      rw [executed] at left
      have unsatisfied := (List.mem_filter.1 left).2
      simp only [mark, decide_true, Bool.true_and, Bool.not_eq_true', decide_eq_false_iff_not, Nat.not_le] at unsatisfied
      exact unsatisfied

end

/-- Slot k, which waited in v for an ending alone, went where its kind goes (R69, R70, R75 to R77). -/
theorem ReleasedIn.released (h : ReleasedIn v a k before after) (free : ∀ w ∈ v.waiting, w.slot ≠ k) :
    Released v (a.carryOut (before ++ k :: after)) k := by
  intro op q holds inQueue
  refine ⟨fun kind writes => h.engine free holds kind (clippedAway_eq op ▸ writes), fun nothing => ?_, ?_, ?_, ?_, fun kind =>
    ⟨h.runs free holds kind, h.held free holds kind⟩⟩
  · rcases nothing with clipped | rfl
    · exact h.ended free inQueue (State.execute_clipped (h.op_before.trans holds) (clippedAway_eq op ▸ clipped)) rfl
    · exact h.ended free inQueue (State.execute_note (h.op_before.trans holds)) rfl
  · rintro id rfl
    exact ⟨h.ended free inQueue (State.execute_retire (h.op_before.trans holds)) rfl, h.retires free holds⟩
  · rintro id o rfl
    exact ⟨h.ended free inQueue (State.execute_scroll (h.op_before.trans holds)) rfl, fun others d b => h.scrolls free holds others⟩
  · rintro m n rfl
    exact h.signals free holds inQueue

end

/-- In RUNNING, one ending releases every slot that waited for it alone, in the same step (R69). -/
theorem State.endSlots_releases {v : State} {x : Ending} {k : SlotId} {q : QueueId} (running : v.control.deviceState = .running)
    (orderly : WindowOrderly v) (inQueue : (v.slot x.slot).queue = some q) (waits : WaitsOnlyFor v x.slot k) :
    Released v (v.endSlots [x]) k := by
  obtain ⟨distinct, waiting⟩ := orderly
  have free : ∀ w ∈ v.waiting, w.slot ≠ k := by
    rintro w member rfl
    obtain ⟨-, -, -, notWait, -⟩ := waits
    exact Bool.false_ne_true (notWait.symm.trans (waiting w member))
  obtain ⟨a, before, after, released, readied⟩ := State.released_waiting running distinct inQueue waits
  have settled : v.settle 33 [x] = a.carryOut (before ++ k :: after) := by
    rw [State.settle_released, released, State.carryOut]
  have single : v.endSlots [x] = (v.settle 33 [x]).issueWrites :=
    (State.endSlots_eq (List.mem_singleton.2 rfl)).trans (State.conclude_running fun stopping => by
      rw [(v.settle_goes settleRounds [x]).control, running] at stopping
      cases stopping)
  rw [single, settled, State.issueWrites_same]
  exact readied.released free

/-- What was released is seen from the slots as they were before, but for their place in the work of an engine. -/
theorem Released.of_start {s v t : State} {k : SlotId} (h : Released v t k) (slot : v.slot k = s.slot k)
    (others : ∀ j, (v.slot j).state = (s.slot j).state ∧ (v.slot j).op = (s.slot j).op ∧ (v.slot j).deps = (s.slot j).deps)
    (surfaces : v.surfaces = s.surfaces) : Released s t k := by
  intro op q holds inQueue
  obtain ⟨engine, ends, retires, scrolls, signals, presents⟩ := h op q (slot ▸ holds) (slot ▸ inQueue)
  rw [slot] at engine ends retires scrolls signals presents
  refine ⟨engine, ends, retires, fun id o kind => ?_, signals, fun kind => ?_⟩
  · obtain ⟨answered, replaces⟩ := scrolls id o kind
    refine ⟨answered, fun alone d b fields => replaces (fun j other blocked => ?_) d b (by rw [State.surface, surfaces]; exact fields)⟩
    obtain ⟨state, op, -⟩ := others j
    rw [op]
    exact alone j other (state ▸ blocked)
  · obtain ⟨runs, held⟩ := presents kind
    refine ⟨runs, fun alone => held fun j other blocked presents => ?_⟩
    obtain ⟨state, op, deps⟩ := others j
    rw [deps]
    exact alone j other (state ▸ blocked) (op ▸ presents)

end Sys2Proof.Machine
end

section
/-! PROOF. LINE_COMPLETE (R87, R101, R103, R104, R107, R111): the next line, its refused read, and the end of the operation. -/

namespace Sys2Proof.Machine

open Sys2Proof.Safety

/-! ## The line in hand -/

/-- The line in hand that has every answer is completed (R87, R111). -/
theorem exec_lineComplete {s : State} {e : EngineId} {j : Job} (job : (s.engine e).job = some j) (answered : LineAnswered j)
    (there : j.op.isDrawing = true → j.lineExists (s.engine e).line = true) (busy : (s.engine e).state ≠ .idle) :
    exec (.lineComplete e) s = .next (s.completeLine e j) := by
  have touches : (j.lineExists (s.engine e).line || !j.op.isDrawing) = true := by
    cases drawing : j.op.isDrawing with
    | true => rw [there drawing, Bool.true_or]
    | false => rw [Bool.not_false, Bool.or_true]
  show execLineComplete e s = _
  unfold execLineComplete
  simp only [job]
  rw [if_pos ⟨busy, (lineAnswered_iff j).1 answered⟩, if_pos touches]

/-- The line in hand of an engine on slot i has left frame memory m, and is counted in the slot (R87). -/
def State.lineCounted (s : State) (e : EngineId) (i : SlotId) (m : FrameMemory) : State :=
  ({ s with frame := m } : State).setSlot i { s.slot i with linesDone := (s.engine e).line + 1 }

section
variable {s : State} {e : EngineId} {j : Job} {i : SlotId}

theorem State.lineCounted_own (s : State) (e : EngineId) (i : SlotId) (m : FrameMemory) :
    (s.lineCounted e i m).slot i = { s.slot i with linesDone := (s.engine e).line + 1 } :=
  State.slot_setSlot_self { s with frame := m } i _

/-- Beside the lines done the counting leaves every slot. -/
theorem State.lineCounted_slot (s : State) (e : EngineId) (i : SlotId) (m : FrameMemory) (k : SlotId) :
    ∃ n, (s.lineCounted e i m).slot k = { s.slot k with linesDone := n } := by
  by_cases own : i = k
  · subst own
    exact ⟨_, s.lineCounted_own e i m⟩
  · exact ⟨(s.slot k).linesDone, (State.slot_setSlot { s with frame := m } i k _).trans (if_neg own)⟩

/-- An ACTIVE engine goes on to the next line, or ends OK after the last (R87, R101). -/
theorem State.completeLine_active (slot : (s.engine e).slot = some i) (active : (s.engine e).state = .active) : s.completeLine e j =
    if (s.engine e).line + 1 = j.op.lines then
      (s.lineCounted e i (s.lineMemory j (s.engine e).line)).reportEnd e .ok ((s.engine e).line + 1)
    else (s.lineCounted e i (s.lineMemory j (s.engine e).line)).beginLine e := by
  have engine : ({ s with frame := s.lineMemory j (s.engine e).line } : State).engine e = s.engine e := rfl
  simp only [State.completeLine, State.afterLine, engine, active, State.countLine, slot]
  rfl

/-- A STOP_REQUESTED one ends ABORTED where ends are reported, and else drops its slot (R103, R104). -/
theorem State.completeLine_stopped (slot : (s.engine e).slot = some i) (stopped : (s.engine e).state = .stopRequested) :
    s.completeLine e j = if s.control.reports = true then
      (s.lineCounted e i (s.lineMemory j (s.engine e).line)).reportEnd e .aborted ((s.engine e).line + 1)
    else (s.lineCounted e i (s.lineMemory j (s.engine e).line)).dropEngine e := by
  have engine : ({ s with frame := s.lineMemory j (s.engine e).line } : State).engine e = s.engine e := rfl
  simp only [State.completeLine, State.afterLine, engine, stopped, State.countLine, slot]
  rfl

/-- A DETACHED one reports nothing (R107). -/
theorem State.completeLine_detached (slot : (s.engine e).slot = none) (detached : (s.engine e).state = .detached) :
    s.completeLine e j = ({ s with frame := s.lineMemory j (s.engine e).line } : State).setEngine e Engine.idled := by
  have engine : ({ s with frame := s.lineMemory j (s.engine e).line } : State).engine e = s.engine e := rfl
  simp only [State.completeLine, State.afterLine, engine, detached, State.countLine, slot, State.dropEngine, State.leaveSlot]

/-- In FAULT the slot of an engine that stops stays RUNNING with no engine (R104). -/
theorem State.lineCounted_drop (slot : (s.engine e).slot = some i) (m : FrameMemory) : (s.lineCounted e i m).dropEngine e =
    (({ s with frame := m } : State).setSlot i { s.slot i with linesDone := (s.engine e).line + 1, engine := none }).setEngine e
      Engine.idled := by
  have engine : (s.lineCounted e i m).engine e = s.engine e := rfl
  have own := s.lineCounted_own e i m
  simp only [State.dropEngine, State.leaveSlot, engine, slot]
  rw [own]
  simp only [State.lineCounted, State.setSlot, Vector.set_set]

/-- The end of an engine's operation is the ending of its slot, and the fetch that is then possible (R47, R74). -/
theorem State.reportEnd_eq {t : State} (slot : (t.engine e).slot = some i) (st : Status) (lines : Nat) : t.reportEnd e st lines =
    ((t.setEngine e Engine.idled).endSlots [{ slot := i, status := st, detail := BitVec.ofNat 32 lines }]).serveFetch := by
  simp only [State.reportEnd, slot]

/-! ## The next line -/

/-- An engine at the beginning of its next line (R87, R110). -/
theorem Engine.nextLine_eq {g : Engine} (job : g.job = some j) (busMastering : Bool) (choices : Nat) : g.nextLine busMastering choices =
    { g with
      line := g.line + 1
      job := some { j with
        arrived := [], accepted := 0, drawn := 0, begun := choices, read := lineReadOf j.op (g.line + 1) busMastering } } := by
  rw [Engine.nextLine, job, ← Op.lineRead_eq]
  rfl

/-- Its read is refused when the operation reads host memory and bus mastering is off (R110). -/
theorem Engine.nextLine_readRefused {g : Engine} (active : g.state = .active) (job : g.job = some j) (busMastering : Bool) (choices : Nat) :
    (g.nextLine busMastering choices).readRefused = (readsHost j.op && !busMastering) := by
  rw [Engine.nextLine_eq job]
  simp only [Engine.readRefused, active, decide_true, Bool.true_and, Option.bind_some]
  cases j.op <;> rfl

/-- The next line's read is issued, or it reads nothing (R87, R110). -/
theorem State.beginLine_sent {t : State} (active : (t.engine e).state = .active) (job : (t.engine e).job = some j)
    (sent : t.link.busMastering = true ∨ readsHost j.op = false) :
    t.beginLine e = t.setEngine e ((t.engine e).nextLine t.link.busMastering t.choices) := by
  unfold State.beginLine
  dsimp only
  rw [State.engine_setEngine_self, Engine.nextLine_readRefused active job, if_neg]
  rcases sent with on | noRead
  · simp [on]
  · simp [noRead]

/-- A host fault of an engine that holds a slot ends it where ends are reported (R119, R121, R122). -/
theorem State.hostFault_eq {t : State} (slot : (t.engine e).slot = some i) (attached : (t.engine e).state ≠ .detached)
    (reports : t.control.reports = true) : t.hostFault e = ((t.setEngine e Engine.idled).endSlots
      [{ slot := i, status := .hostFault, detail := BitVec.ofNat 32 (t.engine e).line }]).serveFetch := by
  rw [State.hostFault, if_pos (by simp [reports, attached]), State.reportEnd_eq slot]

/-- With bus mastering off the next line's read is refused at once, and the operation ends with HOST_FAULT (R110, R119, R121). -/
theorem State.beginLine_refused {t : State} (active : (t.engine e).state = .active) (job : (t.engine e).job = some j)
    (slot : (t.engine e).slot = some i) (off : t.link.busMastering = false) (reads : readsHost j.op = true)
    (reports : t.control.reports = true) : t.beginLine e = ((t.setEngine e Engine.idled).endSlots
      [{ slot := i, status := .hostFault, detail := BitVec.ofNat 32 ((t.engine e).line + 1) }]).serveFetch := by
  have refused := Engine.nextLine_readRefused active job t.link.busMastering t.choices
  rw [reads, off] at refused
  have next : ((t.engine e).nextLine false t.choices).slot = some i ∧ ((t.engine e).nextLine false t.choices).state ≠ .detached ∧
      ((t.engine e).nextLine false t.choices).line = (t.engine e).line + 1 := ⟨slot, by rw [Engine.nextLine, active]; exact nofun, rfl⟩
  obtain ⟨slot, attached, line⟩ := next
  unfold State.beginLine
  dsimp only
  rw [off]
  generalize (t.engine e).nextLine false t.choices = g at *
  rw [State.engine_setEngine_self, if_pos (by rw [refused]; rfl),
    State.hostFault_eq (t := t.setEngine e g) (i := i) (by rw [State.engine_setEngine_self, slot])
      (by rwa [State.engine_setEngine_self]) reports, State.engine_setEngine_self, line]
  simp only [State.setEngine, Vector.set_set]

end

/-! ## The end of the operation -/

/-- The operation of engine e on slot i has ended with a status after the line in hand, which left frame memory m (R74, R79, R87), in the
step from s to t. -/
structure LineEnds (s t : State) (e : EngineId) (i : SlotId) (q : QueueId) (m : FrameMemory) (st : Status) : Prop where
  idle : t.engine e = Engine.idled
  others : ∀ d, d ≠ e → t.engine d = s.engine d
  answered : Answered t i { s.slot i with linesDone := (s.engine e).line + 1 } st (BitVec.ofNat 32 ((s.engine e).line + 1))
  posted : ¬(st = .ok ∧ (s.slot i).flags.getLsbD 0 = true) → Posted s t q i
  frame : t.frame = m
  palettes : t.palettes = s.palettes
  halted : st.isError = true → ∀ d, s.queue q = some d → d.policy = .halt → d.state = .opened ∨ d.state = .waiting →
    ∃ d', t.queue q = some d' ∧ d'.state = .halted
  released : s.control.deviceState = .running → WindowOrderly s → ∀ k, WaitsOnlyFor s i k → Released s t k

section
variable {s : State} {e : EngineId} {i : SlotId} {q : QueueId} {m : FrameMemory} {st : Status}

/-- The state in which the slot of an engine ends after a line. -/
def State.lineEnding (s : State) (e : EngineId) (i : SlotId) (m : FrameMemory) : State := (s.lineCounted e i m).setEngine e Engine.idled

theorem State.lineEnding_slot (s : State) (e : EngineId) (i : SlotId) (m : FrameMemory) (k : SlotId) :
    ∃ n, (s.lineEnding e i m).slot k = { s.slot k with linesDone := n } := s.lineCounted_slot e i m k

/-- The slots that wait for the slot of the engine do so still as it ends. -/
theorem State.lineEnding_waits {k : SlotId} (h : WaitsOnlyFor s i k) : WaitsOnlyFor (s.lineEnding e i m) i k := by
  obtain ⟨other, member, blocked, notWait, deps, ordered⟩ := h
  have slots := s.lineEnding_slot e i m
  obtain ⟨n, slot⟩ := slots k
  refine ⟨other, member, ?_⟩
  rw [slot]
  refine ⟨blocked, notWait, deps, fun pending j before queue unended => ?_⟩
  obtain ⟨n', slot'⟩ := slots j
  rw [slot'] at queue unended
  exact ordered pending j before queue unended

theorem State.lineEnding_orderly (h : WindowOrderly s) : WindowOrderly (s.lineEnding e i m) := by
  refine ⟨h.1, fun w member => ?_⟩
  obtain ⟨n, slot⟩ := s.lineEnding_slot e i m w.slot
  rw [slot]
  exact h.2 w member

/-- The ending of its slot ends the operation of an engine. -/
theorem lineEnds (inQueue : (s.slot i).queue = some q) : LineEnds s ((s.lineEnding e i m).endSlots
    [{ slot := i, status := st, detail := BitVec.ofNat 32 ((s.engine e).line + 1) }]) e i q m st := by
  have own : (s.lineEnding e i m).slot i = { s.slot i with linesDone := (s.engine e).line + 1 } := s.lineCounted_own e i m
  have engines (d : EngineId) : (s.lineEnding e i m).engine d = if e = d then Engine.idled else s.engine d := State.engine_setEngine ..
  have ends : ((s.lineEnding e i m).slot i).queue = some q := by rw [own]; exact inQueue
  have settled := (s.lineEnding e i m).endSlots_settled [{ slot := i, status := st, detail := BitVec.ofNat 32 ((s.engine e).line + 1) }]
  refine ⟨?_, fun d other => ?_, ?_, fun loud => ?_, settled.frame, settled.palettes, fun error d used policy state => ?_,
    fun running orderly k waits => ?_⟩
  · rw [State.engine, settled.engines]
    exact (engines e).trans (if_pos rfl)
  · rw [State.engine, settled.engines]
    exact (engines d).trans (if_neg (Ne.symm other))
  · have answered := State.endSlots_answered (e := { slot := i, status := st, detail := BitVec.ofNat 32 ((s.engine e).line + 1) })
      (by simp) (List.mem_singleton.2 rfl) ends
    rw [own] at answered
    exact answered
  · have posted := (State.endSlots_posted (e := { slot := i, status := st, detail := BitVec.ofNat 32 ((s.engine e).line + 1) })
      (by simp) (List.mem_singleton.2 rfl) ends (by rw [own]; exact loud)).1
    exact fun c k used cq => posted c k used cq
  · obtain ⟨⟨d', queue, kept⟩, -⟩ := State.endSlots_failed (s := s.lineEnding e i m) ends used (Status.ne_ok_of_isError error)
      (BitVec.ofNat 32 ((s.engine e).line + 1))
    exact ⟨d', queue, kept.halted (queueAfter_halted _ error policy state)⟩
  · have released := State.endSlots_releases (v := s.lineEnding e i m)
      (x := { slot := i, status := st, detail := BitVec.ofNat 32 ((s.engine e).line + 1) }) running
      (State.lineEnding_orderly orderly) ends (State.lineEnding_waits waits)
    refine Released.of_start released ?_ (fun j => ?_) rfl
    · exact (State.slot_setSlot { s with frame := m } i k _).trans (if_neg (Ne.symm waits.1))
    · obtain ⟨n, slot⟩ := s.lineEnding_slot e i m j
      rw [slot]
      exact ⟨rfl, rfl, rfl⟩

end

/-- Settles O46, by the state of the engine whose line is complete. -/
theorem lineCompleteOutcomes : Obligations.LineCompleteOutcomes := by
  intro s e j m job answered there memory
  have memory : m = s.lineMemory j (s.engine e).line := memory
  have completes := fun busy => exec_lineComplete job answered there busy
  have lines := linesOf_eq j.op
  have reports (state : s.control.deviceState = .running ∨ s.control.deviceState = .stopping) : s.control.reports = true := by
    rcases state with state | state <;> simp [Control.reports, state]
  refine ⟨fun i active slot more sent => ?_, fun i q slot inQueue => ⟨fun active more off reads state => ?_, fun active last => ?_,
    fun stopped state => ?_⟩, fun i stopped slot fault => ?_, fun detached slot => ?_⟩
  · rw [completes (by rw [active]; nofun), State.completeLine_active slot active, if_neg (by rwa [← lines]), ← memory,
      State.beginLine_sent (t := s.lineCounted e i m) active job sent,
      Engine.nextLine_eq (g := (s.lineCounted e i m).engine e) job]
    rfl
  · have goes := completes (by rw [active]; nofun)
    rw [State.completeLine_active slot active, if_neg (by rwa [← lines]), ← memory,
      State.beginLine_refused (t := s.lineCounted e i m) active job slot off reads (reports state)] at goes
    have ends := lineEnds (e := e) (m := m) (st := .hostFault) inQueue
    exact ⟨_, goesTo_of_serve goes, ends.idle, ends.others, ends.answered, ends.posted nofun, ends.frame, ends.palettes, ends.halted rfl⟩
  · have goes := completes (by rw [active]; nofun)
    rw [State.completeLine_active slot active, if_pos (by rwa [← lines]), ← memory,
      State.reportEnd_eq (t := s.lineCounted e i m) slot] at goes
    have ends := lineEnds (e := e) (m := m) (st := .ok) inQueue
    exact ⟨_, goesTo_of_serve goes, ends.idle, ends.others, ends.answered,
      fun loud => ends.posted fun quiet => Bool.false_ne_true (loud.symm.trans quiet.2), ends.frame, ends.palettes, ends.released⟩
  · have goes := completes (by rw [stopped]; nofun)
    rw [State.completeLine_stopped slot stopped, if_pos (reports state), ← memory,
      State.reportEnd_eq (t := s.lineCounted e i m) slot] at goes
    have ends := lineEnds (e := e) (m := m) (st := .aborted) inQueue
    exact ⟨_, goesTo_of_serve goes, ends.idle, ends.others, ends.answered, ends.posted nofun, ends.frame, ends.palettes, ends.released⟩
  · rw [completes (by rw [stopped]; nofun), State.completeLine_stopped slot stopped, if_neg (by simp [Control.reports, fault]), ← memory,
      State.lineCounted_drop slot]
  · rw [completes (by rw [detached]; nofun), State.completeLine_detached slot detached, ← memory]

end Sys2Proof.Machine
end

section
/-! PROOF. The answers to the line in hand of a transfer: the last completes the line in its step, any other leaves it in hand (R111). -/

namespace Sys2Proof.Machine

open Sys2Proof.Safety

section
variable {s : State} {e : EngineId} {j : Job}

/-- An engine that is not IDLE works on its job. -/
theorem State.workingJob_of_busy (busy : (s.engine e).state ≠ .idle) (job : (s.engine e).job = some j) : s.workingJob e = some j :=
  (if_neg busy).trans job

/-- The last answer of a transfer's line completes it as LINE_COMPLETE does (R111, R118). -/
theorem State.lineComplete_answered (transfer : j.op.isDrawing = false) (busy : (s.engine e).state ≠ .idle) (last : LineAnswered j) :
    exec (.lineComplete e) (s.setJob e j) = .next (s.answered e j) := by
  have engine : (s.setJob e j).engine e = { s.engine e with job := some j } := State.engine_setEngine_self ..
  rw [exec_lineComplete (j := j) (by rw [engine]) last (by rw [transfer]; nofun) (by rwa [engine]), State.answered,
    if_pos ((lineAnswered_iff j).1 last)]

/-- An answer that is not the last leaves the line in hand. -/
theorem State.answered_more (more : ¬LineAnswered j) : s.answered e j = s.setJob e j := if_neg (mt (lineAnswered_iff j).2 more)

end

end Sys2Proof.Machine
end

section
/-! PROOF. The host faults on the line in hand of a transfer (R119 to R122). -/

namespace Sys2Proof.Machine

open Sys2Proof.Safety

section
variable {s : State} {e : EngineId} {j : Job} {i : SlotId}

/-- The command that reports a host fault on a line of an operation: a transfer kind has one of its own (R119 to R121). -/
def Op.faultCommand (op : Op) (e : EngineId) : Option Instr :=
  match op with
  | .importPixels _ _ _ _ _ _ => some (.importReadFault e)
  | .exportPixels _ _ _ => some (.exportWriteFault e)
  | .loadPalette _ _ _ _ => some (.loadpalReadFault e)
  | _ => none

/-- It is a host fault of the engine while the line in hand has not had every answer. -/
theorem exec_faultCommand {c : Instr} (busy : (s.engine e).state ≠ .idle) (job : (s.engine e).job = some j) (more : ¬LineAnswered j)
    (fault : j.op.faultCommand e = some c) : exec c s = .next (s.hostFault e) := by
  have working := State.workingJob_of_busy busy job
  have unready := mt (lineAnswered_iff j).2 more
  unfold Op.faultCommand at fault
  split at fault
  · next op =>
    cases fault
    show execImportReadFault e s = _
    simp only [execImportReadFault, working, op, if_neg unready]
  · next op =>
    cases fault
    show execExportWriteFault e s = _
    simp only [execExportWriteFault, working, op, if_neg unready]
  · next op =>
    cases fault
    show execLoadpalReadFault e s = _
    simp only [execLoadpalReadFault, working, op, if_neg unready]
  · cases fault

/-- In FAULT the slot of an engine that meets a host fault stays RUNNING with no engine (R122). -/
theorem State.hostFault_inFault (fault : s.control.deviceState = .fault) (slot : (s.engine e).slot = some i) :
    s.hostFault e = (s.setSlot i { s.slot i with engine := none }).setEngine e Engine.idled := by
  rw [State.hostFault, if_neg (by simp [Control.reports, fault])]
  simp only [State.dropEngine, State.leaveSlot, slot]

/-- A DETACHED engine reports no host fault (R122). -/
theorem State.hostFault_detached (detached : (s.engine e).state = .detached) (slot : (s.engine e).slot = none) :
    s.hostFault e = s.setEngine e Engine.idled := by
  rw [State.hostFault, if_neg (by simp [detached])]
  simp only [State.dropEngine, State.leaveSlot, slot]

end

/-- Settles O52, by the device state and the state of the engine at the fault. -/
theorem hostFaultEndsTransfer : Obligations.HostFaultEndsTransfer := by
  intro s e j c busy job more fault
  have faults := exec_faultCommand busy job more fault
  refine ⟨fun i q d state attached slot inQueue used => ?_, fun i state slot => ?_, fun detached slot => ?_⟩
  · have reports : s.control.reports = true := by
      rcases state with state | state <;> simp [Control.reports, state]
    rw [State.hostFault_eq slot attached reports] at faults
    obtain ⟨⟨d', queue, kept⟩, -, ended, posted⟩ := State.endSlots_failed (s := s.setEngine e Engine.idled) (st := .hostFault)
      inQueue used nofun (BitVec.ofNat 32 (s.engine e).line)
    have settled := (s.setEngine e Engine.idled).endSlots_settled
      [{ slot := i, status := .hostFault, detail := BitVec.ofNat 32 (s.engine e).line }]
    refine ⟨_, goesTo_of_serve faults, ?_, fun g other => ?_, ?_, posted, fun policy live => ?_, settled.frame, settled.palettes⟩
    · rw [State.engine, settled.engines]
      exact State.engine_setEngine_self ..
    · rw [State.engine, settled.engines]
      exact (State.engine_setEngine ..).trans (if_neg (Ne.symm other))
    · rw [Answered, if_neg nofun]
      exact ended
    · exact ⟨d', queue, kept.halted (queueAfter_halted _ rfl policy live)⟩
  · rw [faults, State.hostFault_inFault state slot]
  · rw [faults, State.hostFault_detached detached slot]

end Sys2Proof.Machine
end

section
/-! PROOF. EXPORT_WRITE_ACCEPTED (R110, R112, R115, R116, R141). -/

namespace Sys2Proof.Machine

open Sys2Proof.Safety

section
variable {s : State} {e : EngineId} {j : Job} {id : SurfaceId} {rect : Rect} {host : HostBuffer} {n : Nat}

/-- The bytes of exported pixels are those of their converted values (R115). -/
theorem Job.exportRun_eq {a : SurfaceFields} (op : j.op = .exportPixels id rect host) (src : j.src = some a)
    (palettes : List (Nat × BitVec 24)) (m : FrameMemory) (line first n : Nat) : j.exportRun palettes m line first n =
    (List.range n).flatMap fun k => bytesOf host.format (convertPixel (Palette.read palettes a.palette) a.format host.format
      (readPixel m a (placeOf host.orientation rect line (first + k)).1 (placeOf host.orientation rect line (first + k)).2)) := by
  simp only [Job.exportRun, Job.exportPixel, Job.colours, op, src, bytesOf_eq, placeOf_eq]

/-- Pixels of the line that may come are accepted with bus mastering on, and when no write issued before the line is still to be taken
(R110, R141). -/
theorem exec_exportWriteAccepted (busy : (s.engine e).state ≠ .idle) (job : (s.engine e).job = some j)
    (op : j.op = .exportPixels id rect host) (any : 1 ≤ n) (fits : j.accepted + n ≤ pixelsPerLine host.orientation rect)
    (there : j.pixelsExist (s.engine e).line j.accepted n = true) : exec (.exportWriteAccepted e n) s =
    .next (if (s.link.busMastering && s.takesLine j) = true then s.exportAccepted e j host n else s) := by
  rw [pixelsPerLine_eq] at fits
  show execExportWriteAccepted e n s = _
  simp only [execExportWriteAccepted, State.workingJob_of_busy busy job, op, any, fits, there, decide_true, Bool.and_true, if_true]
  split <;> rfl

end

/-- Settles O51: the accepted write is put among the part's writes, and is an answer to the line. -/
theorem exportedPixelsGoToHost : Obligations.ExportedPixelsGoToHost := by
  intro s e j id rect host a n busy job op src any fits there
  have accepts := exec_exportWriteAccepted busy job op any fits there
  refine ⟨fun refused => ?_, fun on free => ?_⟩
  · rw [accepts, if_neg]
    rw [Bool.and_eq_true, State.takesLine_iff, not_and_not_right]
    rcases refused with off | ahead
    · exact fun on => absurd (off.symm.trans on) Bool.false_ne_true
    · exact fun _ => ahead
  · rw [if_pos (by rw [Bool.and_eq_true]; exact ⟨on, (s.takesLine_iff j).2 free⟩)] at accepts
    refine ⟨acceptBytes (host.pixelAddress (s.engine e).line j.accepted)
      (j.exportRun s.palettes s.frame (s.engine e).line j.accepted n) s.link.written, _, ?_, rfl, ?_⟩
    · rw [← Job.exportRun_eq op src]
      exact acceptBytes_spec ..
    have last : LineAnswered { j with accepted := j.accepted + n } ↔ j.accepted + n = pixelsPerLine host.orientation rect := by
      simp only [LineAnswered, op]
    split
    · next whole =>
      exact ⟨_, accepts, State.lineComplete_answered (s := s.accept _ _) (by rw [op]; rfl) busy (last.2 whole)⟩
    · next part =>
      rw [accepts, State.exportAccepted, State.answered_more (mt last.1 part)]
      rfl

end Sys2Proof.Machine
end

section
/-! PROOF. HOST_READ_DATA (R112, R113, R118). -/

namespace Sys2Proof.Machine

open Sys2Proof.Safety

/-! ## The data of a line -/

section
variable {j : Job} {host : HostBuffer} {p : PaletteId} {id : SurfaceId} {rect : Rect} {key : Option (BitVec 32)} {clip : Option Rect}
  {d : SurfaceFields}

/-- An imported pixel is converted and written at its place, unless it is clipped or keyed (R113). -/
theorem Job.importPixel_eq (op : j.op = .importPixels host p id rect key clip) (dst : j.dst = some d) (palettes : List (Nat × BitVec 24))
    (line k : Nat) (v : BitVec 32) (m : FrameMemory) : j.importPixel palettes line k v m =
    if outside clip (placeOf host.orientation rect line k).1 (placeOf host.orientation rect line k).2 = true ∨
        equalsKey key host.format v = true then m
    else writePixel m d (placeOf host.orientation rect line k).1 (placeOf host.orientation rect line k).2
      (convertPixel (Palette.read palettes p) host.format d.format v) := by
  simp only [Job.importPixel, Job.colours, op, dst, outside_eq, equalsKey_eq, placeOf_eq, ite_or]

/-- It leaves every byte that does not hold it (R1). -/
theorem Job.read_importPixel (op : j.op = .importPixels host p id rect key clip) (dst : j.dst = some d)
    (palettes : List (Nat × BitVec 24)) {line k a : Nat} (v : BitVec 32) (m : FrameMemory)
    (apart : ¬HoldsPixel d (placeOf host.orientation rect line k).1 (placeOf host.orientation rect line k).2 a) :
    Memory.read (j.importPixel palettes line k v m) a = Memory.read m a := by
  rw [Job.importPixel_eq op dst]
  split
  · rfl
  · refine read_writePixel_other m d _ _ _ ?_
    by_contra touched
    exact apart (holdsPixel_of_touched (by omega) (by omega))

/-- The pixels of some data are written one after another (R113). -/
theorem Job.importRun_append (j : Job) (palettes : List (Nat × BitVec 24)) (line : Nat) (vs ws : List (BitVec 32)) :
    ∀ (first : Nat) (m : FrameMemory), j.importRun palettes line first (vs ++ ws) m =
      j.importRun palettes line (first + vs.length) ws (j.importRun palettes line first vs m) := by
  induction vs with
  | nil => exact fun _ _ => rfl
  | cons v vs ih =>
    intro first m
    rw [List.cons_append, Job.importRun, ih, Job.importRun, List.length_cons, Nat.add_right_comm, Nat.add_assoc]

theorem Job.importRun_map (j : Job) (palettes : List (Nat × BitVec 24)) (line first : Nat) (value : Nat → BitVec 32) (m : FrameMemory)
    (n : Nat) : j.importRun palettes line first ((List.range n).map value) m =
      (List.range n).foldl (fun m k => j.importPixel palettes line (first + k) (value k) m) m := by
  induction n with
  | zero => rfl
  | succ n ih =>
    rw [List.range_succ, List.map_append, Job.importRun_append, ih, List.foldl_append, List.length_map, List.length_range]
    rfl

/-- They leave every byte that holds none of them (R1). -/
theorem Job.read_importRun (op : j.op = .importPixels host p id rect key clip) (dst : j.dst = some d)
    (palettes : List (Nat × BitVec 24)) {line a : Nat} (vs : List (BitVec 32)) : ∀ (first : Nat) (m : FrameMemory),
    (∀ k, k < vs.length → ¬HoldsPixel d (placeOf host.orientation rect line (first + k)).1
      (placeOf host.orientation rect line (first + k)).2 a) →
    Memory.read (j.importRun palettes line first vs m) a = Memory.read m a := by
  induction vs with
  | nil => exact fun _ _ _ => rfl
  | cons v vs ih =>
    intro first m apart
    rw [Job.importRun, ih (first + 1) _ fun k below => ?_]
    · exact Job.read_importPixel op dst palettes v m (apart 0 (Nat.zero_lt_succ _))
    · rw [Nat.add_right_comm]
      exact apart (k + 1) (Nat.succ_lt_succ below)

/-- A host pixel has bytes: a host buffer is never M1 (R29). -/
theorem Format.bytes_pos (f : Format) (sized : f ≠ .m1) : 0 < f.bytes := by
  cases f with
  | m1 => exact absurd rfl sized
  | i8 | p16 | p32 => decide

/-- Whole pixels are cut into as many values (R112). -/
theorem Format.decodeRun_eq {f : Format} {data : List Byte} {n : Nat} (sized : f ≠ .m1) (length : data.length = n * f.bytes) :
    f.decodeRun data = (List.range n).map fun k => valueOf f ((data.drop (k * f.bytes)).take f.bytes) := by
  simp only [Format.decodeRun, length, Nat.mul_div_cancel n (f.bytes_pos sized), valueOf_eq]

/-- A palette entry takes blue, green and red from the first three bytes of its data (R118). -/
theorem decode_p32_colour (data : List Byte) :
    (Format.p32.decode data).setWidth 24 = data.getD 2 0#8 ++ data.getD 1 0#8 ++ data.getD 0 0#8 := by
  rw [← valueOf_eq]
  refine BitVec.eq_of_toNat_eq ?_
  simp only [valueOf, BitVec.toNat_setWidth, BitVec.toNat_ofNat, BitVec.toNat_append]
  have byte (k : Nat) : (data.getD k 0#8).toNat < 2 ^ 8 := (data.getD k 0#8).isLt
  rw [← Nat.shiftLeft_add_eq_or_of_lt (byte 1), ← Nat.shiftLeft_add_eq_or_of_lt (byte 0), Nat.shiftLeft_eq, Nat.shiftLeft_eq]
  have := byte 0
  have := byte 1
  have := byte 2
  omega

/-- The pixel of a host address in the read that was sent for the line (R112). -/
theorem Job.pixelAt_sent {r : HostRead} (read : j.read = some r) (sent : r.sent = true) {bytes pixel address : Nat} (positive : 0 < bytes)
    (place : address = r.address + pixel * bytes) : j.pixelAt bytes address = some pixel := by
  simp only [Job.pixelAt, read, sent, place, Nat.le_add_right, Nat.add_sub_cancel_left, Nat.mul_mod_left, Nat.mul_div_cancel _ positive,
    decide_true, Bool.and_self, if_true]

/-- Whole pixels of the read fit when none of them has come before (R113, log 18). -/
theorem Job.dataFits_whole {r : HostRead} (read : j.read = some r) {bytes pixel n : Nat} {data : List Byte} (positive : 0 < bytes)
    (any : 1 ≤ n) (length : data.length = n * bytes) (inside : (pixel + n) * bytes ≤ r.length)
    (fresh : ∀ k, k < n → pixel + k ∉ j.arrived) : j.dataFits bytes pixel data = true := by
  simp only [Job.dataFits, read, length, Nat.mul_mod_left, Nat.mul_div_cancel n positive, any, inside, decide_true, Bool.true_and,
    List.all_eq_true, List.mem_range, Bool.not_eq_true', List.contains_eq_mem, decide_eq_false_iff_not]
  exact fresh

end

/-- The entry of a palette reads as it was written, and every other entry as before (R16, R18). -/
theorem Palette.read_write {m : List (Nat × BitVec 24)} (canonical : Store.Wf 0#24 m) (p q : PaletteId) {entry : Nat}
    (below : entry < 256) (c : BitVec 24) (x : BitVec 8) :
    Palette.read (Palette.write m p entry c) q x = if q = p ∧ x.toNat = entry then c else Palette.read m q x := by
  have number : (BitVec.ofNat 8 entry).toNat = entry := Nat.mod_eq_of_lt below
  split
  · next own =>
    obtain ⟨rfl, rfl⟩ := own
    exact Palette.read_write_self canonical q x c
  · next other =>
    rw [← number]
    refine Palette.read_write_other m p q _ x c (or_iff_not_imp_left.2 fun same entries => other ⟨not_not.1 same, ?_⟩)
    rw [entries, number]

/-! ## The command -/

section
variable {s : State} {e : EngineId} {j : Job} {address : BitVec 64} {data : List Byte}

section
variable {host : HostBuffer} {p : PaletteId} {id : SurfaceId} {rect : Rect} {key : Option (BitVec 32)} {clip : Option Rect} {pixel n : Nat}

/-- Whole pixels of an IMPORT line, none of which has come before, are an answer to the line (R112, R113, log 18). -/
theorem exec_hostReadData_import (busy : (s.engine e).state ≠ .idle) (job : (s.engine e).job = some j)
    (op : j.op = .importPixels host p id rect key clip) (read : j.read = lineReadOf j.op (s.engine e).line true)
    (place : address.toNat = host.address.toNat + (s.engine e).line * host.pitch + pixel * host.format.bytes)
    (sized : host.format ≠ .m1) (any : 1 ≤ n) (length : data.length = n * host.format.bytes)
    (inside : pixel + n ≤ pixelsPerLine host.orientation rect) (fresh : ∀ k, k < n → pixel + k ∉ j.arrived)
    (there : j.pixelsExist (s.engine e).line pixel n = true) : exec (.hostReadData e address data) s =
    .next (({ s with frame := j.importRun s.palettes (s.engine e).line pixel (host.format.decodeRun data) s.frame } : State).answered e
      (j.arrive pixel n)) := by
  have positive := host.format.bytes_pos sized
  rw [op] at read
  have at_ := Job.pixelAt_sent read rfl positive place
  have fits := Job.dataFits_whole read positive any length (Nat.mul_le_mul_right _ inside) fresh
  have pixels : data.length / host.format.bytes = n := by rw [length, Nat.mul_div_cancel n positive]
  have values : (host.format.decodeRun data).length = n := by rw [Format.decodeRun_eq sized length, List.length_map, List.length_range]
  show execHostReadData e address data s = _
  simp only [execHostReadData, State.workingJob_of_busy busy job, op, at_, fits, pixels, there, if_true, State.importData, values]

/-- The line has every answer when each of its pixels came before or comes now (R111). -/
theorem Job.lineAnswered_arrive (op : j.op = .importPixels host p id rect key clip) : LineAnswered (j.arrive pixel n) ↔
    ∀ k, k < pixelsPerLine host.orientation rect → k ∈ j.arrived ∨ (pixel ≤ k ∧ k < pixel + n) := by
  have comes (k : Nat) : k ∈ (List.range n).map (pixel + ·) ↔ pixel ≤ k ∧ k < pixel + n := by
    simp only [List.mem_map, List.mem_range]
    exact ⟨fun ⟨i, below, place⟩ => by omega, fun _ => ⟨k - pixel, by omega⟩⟩
  simp only [LineAnswered, Job.arrive, op, List.mem_append, comes]

end

/-- The data of a LOADPAL's entry is the answer to its line (R112, R118). -/
theorem exec_hostReadData_entry {p : PaletteId} {first count : Nat} {start : BitVec 64} (busy : (s.engine e).state ≠ .idle)
    (job : (s.engine e).job = some j) (op : j.op = .loadPalette p first count start)
    (read : j.read = lineReadOf j.op (s.engine e).line true) (place : address.toNat = start.toNat + 4 * (s.engine e).line)
    (length : data.length = 4) (fresh : 0 ∉ j.arrived) :
    exec (.hostReadData e address data) s = .next (s.entryData e j p first data) := by
  rw [op] at read
  have at_ : j.pixelAt 4 address.toNat = some 0 := Job.pixelAt_sent read rfl (by decide) place
  have fits : j.dataFits 4 0 data = true := Job.dataFits_whole (n := 1) read (by decide) (by decide) length le_rfl fun k below => by
    obtain rfl := Nat.lt_one_iff.1 below
    exact fresh
  show execHostReadData e address data s = _
  simp only [execHostReadData, State.workingJob_of_busy busy job, op, at_, fits, if_true]

end

/-- Settles O50: the data of either kind is written, and is an answer to the line. -/
theorem readDataIsWritten : Obligations.ReadDataIsWritten := by
  intro s e j address data busy job
  refine ⟨fun host p id rect key clip d pixel n op dst read place sized any length inside fresh there => ?_,
    fun p first count start op read place length fresh below canonical => ?_⟩
  · have goes := exec_hostReadData_import busy job op read place sized any length inside fresh there
    refine ⟨({ s with frame := j.importRun s.palettes (s.engine e).line pixel (host.format.decodeRun data) s.frame } : State).setJob e
      (j.arrive pixel n), rfl, ?_, fun a apart => ?_, ?_⟩
    · split
      · next whole =>
        exact ⟨_, goes, State.lineComplete_answered (by rw [Job.arrive, op]; rfl) busy ((Job.lineAnswered_arrive op).2 whole)⟩
      · next part =>
        rw [goes, State.answered_more (mt (Job.lineAnswered_arrive op).1 part)]
    · refine Job.read_importRun op dst s.palettes _ pixel s.frame ?_
      rwa [Format.decodeRun_eq sized length, List.length_map, List.length_range]
    · show j.importRun s.palettes (s.engine e).line pixel (host.format.decodeRun data) s.frame = _
      rw [Format.decodeRun_eq sized length, Job.importRun_map]
      simp only [Job.importPixel_eq op dst]
  · have goes := exec_hostReadData_entry busy job op read place length fresh
    have last : LineAnswered (j.arrive 0 1) := by
      simp only [LineAnswered, Job.arrive, op]
      exact List.mem_append_right _ (List.mem_singleton.2 rfl)
    refine ⟨_, _, goes, State.lineComplete_answered (by rw [Job.arrive, op]; rfl) busy last, rfl, fun q x => ?_⟩
    exact (Palette.read_write canonical p q below _ x).trans (by rw [decode_p32_colour])

end Sys2Proof.Machine
end

section
/-! PROOF. The marks (R125, R136): only a SIGNAL changes one, which raises it, and a reset sets every one to 0. -/

namespace Sys2Proof.Machine

open Sys2Proof.Safety

/-! ## The relation -/

/-- No mark is lower in t than in s. -/
def MarksRise (s t : State) : Prop := ∀ m, (s.mark m).toNat ≤ (t.mark m).toNat

namespace MarksRise

theorem of_same {s t : State} (marks : t.marks = s.marks) : MarksRise s t := fun m => by rw [State.mark, State.mark, marks]

theorem refl (s : State) : MarksRise s s := of_same rfl

theorem trans {s t u : State} (h : MarksRise s t) (g : MarksRise t u) : MarksRise s u := fun m => (h m).trans (g m)

theorem of_keeps {s t : State} (h : Keeps s t) : MarksRise s t := h.marks

theorem of_settled {s t : State} (h : Settled s t) : MarksRise s t := h.marks

/-- What is kept from a state that has the same marks. -/
theorem of_keeps_from {s u t : State} (h : Keeps u t) (marks : u.marks = s.marks) : MarksRise s t := (of_same marks).trans (of_keeps h)

/-- Whatever is done only while the link is up. -/
theorem whileUp {s t : State} (h : MarksRise s t) : MarksRise s (s.whileUp t) := by
  unfold State.whileUp
  split
  · exact h
  · exact refl s

end MarksRise

/-! ## The register writes -/

theorem State.submitWrite_marksRise (s : State) (q : QueueId) (tail : BitVec 12) : MarksRise s (s.submitWrite q tail) := by
  unfold State.submitWrite
  split
  · exact .of_same rfl
  · split
    · exact .of_keeps_from (State.serveFetch_keeps _) rfl
    · exact .of_same rfl

theorem State.consumeWrite_marksRise (s : State) (k : CqId) (head : BitVec 12) : MarksRise s (s.consumeWrite k head) := by
  unfold State.consumeWrite
  split
  · exact .of_same rfl
  · dsimp only
    split
    · exact .of_keeps_from (.of_settled (State.issueWrites_settled _)) rfl
    · exact .of_same rfl

theorem State.resumeAction_marksRise (s : State) (q : QueueId) : MarksRise s (s.resumeAction q) := by
  unfold State.resumeAction
  split
  · exact .of_same rfl
  · split
    · exact .of_keeps_from (State.serveFetch_keeps _) rfl
    · exact .of_same rfl

theorem State.abortAction_marksRise (s : State) (q : QueueId) : MarksRise s (s.abortAction q) := by
  unfold State.abortAction
  split
  · exact .of_same rfl
  · split
    · exact .of_keeps ((s.abort_keeps q _).trans (State.serveFetch_keeps _))
    · exact .of_same rfl

theorem State.qctlWrite_marksRise (s : State) (value : BitVec 32) : MarksRise s (s.qctlWrite value) := by
  unfold State.qctlWrite
  dsimp only
  split
  · exact s.resumeAction_marksRise _
  · exact s.abortAction_marksRise _
  · exact .of_same rfl

theorem State.enableWrite_marksRise (s : State) : MarksRise s s.enableWrite := by
  unfold State.enableWrite
  split
  · exact .refl s
  · split
    · exact .of_keeps s.beginLoad_keeps
    · exact .of_same rfl
    · exact .of_same rfl
    · exact .refl s
    · exact .refl s

/-- A register write that is no reset (R167). -/
theorem State.wordWrite_marksRise (s : State) {offset : BitVec 12} {value : BitVec 32}
    (noReset : offset = 0x0C#12 → value.getLsbD 1 = false) : MarksRise s (s.wordWrite offset value) := by
  unfold State.wordWrite
  split
  · exact .of_same rfl
  · exact .of_same rfl
  · next at12 =>
    unfold State.controlWrite
    rw [noReset (BitVec.eq_of_toNat_eq at12), if_neg Bool.false_ne_true]
    split
    · exact s.enableWrite_marksRise
    · exact .of_keeps s.disableWrite_keeps
  · exact .of_same rfl
  · exact s.submitWrite_marksRise _ _
  · exact s.consumeWrite_marksRise _ _
  · exact s.qctlWrite_marksRise _
  · exact .refl s

/-! ## Loading, completion writes and records -/

theorem execSetupReadArrival_marksRise {s t : State} {r : SetupRecord} (h : execSetupReadArrival r s = .next t) : MarksRise s t := by
  have vector : (s.takeDeviceVector r).marks = s.marks := by
    unfold State.takeDeviceVector
    split <;> rfl
  unfold execSetupReadArrival at h
  split at h
  · split at h <;> cases h
    · unfold State.setupArrived
      dsimp only
      split
      · refine (MarksRise.of_same vector).trans ?_
        exact .of_keeps_from (.of_settled (State.interrupt_settled _ _)) rfl
      · exact .of_keeps_from (State.enterFault_keeps _ _) vector
    · exact .refl s
  · cases h
    exact .refl s

theorem State.issue_marks (s : State) (k : CqId) : (s.issue k).marks = s.marks := by
  unfold State.issue State.putInFlight
  split
  · rfl
  · split
    · rfl
    · split
      · dsimp only
        split <;> rfl
      · rfl

theorem execCompletionWriteIssue_marksRise {s t : State} {k : CqId} (h : execCompletionWriteIssue k s = .next t) : MarksRise s t := by
  unfold execCompletionWriteIssue at h
  split at h <;> cases h
  · exact .of_same (State.issue_marks _ k)
  · exact .refl s

theorem State.writeAccepted_marksRise (s : State) (k : CqId) (c : CompletionQueue) (w : CompletionWrite) :
    MarksRise s (s.writeAccepted k c w) := by
  unfold State.writeAccepted
  dsimp only
  generalize ht : ((s.accept w.address w.entry.bytes).dropIssued k).setCq k
    (some ((c.advance w.slot).countEntry s.control.timer)) = t
  have marks : t.marks = s.marks := by rw [← ht]; rfl
  refine .of_keeps_from (.trans (.of_settled (.trans (t.freeSlot_settled w.slot) (.trans ?_ (State.conclude_settled _))))
    (State.serveFetch_keeps _)) marks
  split
  · exact State.interrupt_settled _ _
  · exact .refl _

theorem execCompletionWriteAccepted_marksRise {s t : State} {k : CqId} (h : execCompletionWriteAccepted k s = .next t) :
    MarksRise s t := by
  unfold execCompletionWriteAccepted at h
  split at h
  · cases h; exact .refl s
  · split at h
    · cases h; exact .refl s
    · split at h <;> cases h
      · exact s.writeAccepted_marksRise k _ _
      · exact .refl s

theorem execRecordArrival_marksRise {r : OpRecord} {s t : State} (h : execRecordArrival r s = .next t) : MarksRise s t := by
  rcases execRecordArrival_cases h with rfl | ⟨f, c, _, rfl⟩
  · exact .refl t
  · refine .trans ?_ (.of_keeps (State.serveFetch_keeps _))
    cases hr : s.checkRecord r with
    | error st =>
      rw [State.afterArrival_refused hr]
      exact .of_keeps_from (.of_settled (State.endSlots_settled _ _)) rfl
    | ok op =>
      rw [State.afterArrival_admitted hr]
      exact .of_keeps_from (State.firstState_keeps _ _ _ _ _) (by rw [State.admissionEffect_same]; rfl)

/-! ## Resets -/

theorem State.resetBlocks_mark (s : State) (m : MarkId) : s.resetBlocks.mark m = 0#32 := by simp [State.mark, State.resetBlocks]

/-- A reset sets every mark to 0 (R178, R179); with the link down a register write is no reset (log 22). -/
theorem exec_reset_marks {c : Instr} {s t : State} (h : exec c s = .next t) (reset : isReset c = true) :
    t = s ∨ ∀ m, t.mark m = 0#32 := by
  have blocks {u : State} (hu : u = s.whileUp s.resetBlocks) : u = s ∨ ∀ m, u.mark m = 0#32 := by
    rw [hu, State.whileUp]
    split
    · exact .inr s.resetBlocks_mark
    · exact .inl rfl
  cases c with
  | coldReset => cases h; exact .inr s.resetBlocks_mark
  | linkReset => cases h; exact .inr s.resetBlocks_mark
  | functionReset => cases h; exact blocks rfl
  | registerWrite offset size value =>
    simp only [isReset, Bool.and_eq_true, decide_eq_true_eq] at reset
    obtain ⟨⟨rfl, rfl⟩, bit⟩ := reset
    cases h
    refine blocks ?_
    rw [if_pos rfl, show s.wordWrite 0x0C#12 value = s.controlWrite value from rfl, State.controlWrite, if_pos bit]
  | _ => cases reset

/-! ## Every command -/

/-- A command that is no reset lowers no mark. -/
theorem exec_marksRise {c : Instr} {s t : State} (h : exec c s = .next t) (noReset : isReset c = false) : MarksRise s t := by
  cases c with
  | submit q tail => cases h; exact (s.submitWrite_marksRise q tail).whileUp
  | consume k head => cases h; exact (s.consumeWrite_marksRise k head).whileUp
  | resume q => cases h; exact (s.resumeAction_marksRise q).whileUp
  | abort q => cases h; exact (s.abortAction_marksRise q).whileUp
  | enable => cases h; exact s.enableWrite_marksRise.whileUp
  | disable => exact .of_keeps (execDisable_keeps h)
  | functionReset => cases noReset
  | statusClear v => cases h; exact .whileUp (.of_same rfl)
  | setupAddressWrite half v => exact .of_keeps (execSetupAddressWrite_keeps h)
  | registerWrite offset size v =>
    cases h
    refine MarksRise.whileUp ?_
    split
    · next size4 =>
      refine s.wordWrite_marksRise fun at12 => ?_
      simpa [isReset, at12, size4] using noReset
    · exact .refl s
  | coldReset => cases noReset
  | linkReset => cases noReset
  | pendingMessageSend a b l => exact .of_keeps (execPendingMessageSend_keeps h)
  | setupReadArrival r => exact execSetupReadArrival_marksRise h
  | setupReadFault => exact .of_keeps (execSetupReadFault_keeps h)
  | abandonedReadAnswer => cases h; exact .refl s
  | fetchStart i => exact .of_keeps (execFetchStart_keeps h)
  | recordArrival r => exact execRecordArrival_marksRise h
  | fetchFault => exact .of_keeps (execFetchFault_keeps h)
  | overtakenFetchEnd => exact .of_keeps (execOvertakenFetchEnd_keeps h)
  | abortAckPlace q i => exact .of_keeps (execAbortAckPlace_keeps h)
  | dispatch => exact .of_keeps (execDispatch_keeps h)
  | hostReadData e a d =>
    rcases execHostReadData_cases h with rfl | ⟨j, _, ⟨pixel, host, _, _, _, _, _, hop, rfl⟩ | ⟨p, first, _, _, hop, rfl⟩⟩
    · exact .refl t
    · exact .of_keeps_from (s.importData_keeps e (by rw [hop]; rfl) pixel d host) rfl
    · exact .of_keeps_from (s.entryData_keeps e (by rw [hop]; rfl) p first d) rfl
  | exportWriteAccepted e n => exact .of_keeps (execExportWriteAccepted_keeps h)
  | lineComplete e =>
    rcases execLineComplete_cases h with rfl | ⟨j, _, rfl⟩
    · exact .refl t
    · exact .of_keeps_from (s.completeLine_keeps e j) rfl
  | importReadFault e => exact .of_keeps (execImportReadFault_keeps h)
  | exportWriteFault e => exact .of_keeps (execExportWriteFault_keeps h)
  | loadpalReadFault e => exact .of_keeps (execLoadpalReadFault_keeps h)
  | completionWriteIssue k => exact execCompletionWriteIssue_marksRise h
  | completionWriteAccepted k => exact execCompletionWriteAccepted_marksRise h
  | completionWriteFault k => exact .of_keeps (execCompletionWriteFault_keeps h)
  | abandonedWriteAnswer r => exact .of_keeps (execAbandonedWriteAnswer_keeps h)
  | messageWriteFault n => exact .of_keeps (execMessageWriteFault_keeps h)
  | coalescingTimerExpiry k => exact .of_keeps (execCoalescingTimerExpiry_keeps h)
  | waitExpiry i => exact .of_keeps (execWaitExpiry_keeps h)
  | frameStart => exact .of_keeps (execFrameStart_keeps h)
  | pcieConfigurationTurnOff a b l => exact .of_keeps (execPcieConfigurationTurnOff_keeps h)
  | linkUp => exact .of_keeps (execLinkUp_keeps h)
  | scanPixel x r => exact .of_keeps_from (execScanPixel_keeps h).1 rfl
  | abandonedFetchAnswer => cases h; exact .refl s
  | abandonedEngineAccessAnswer => cases h; exact .refl s

/-- Settles O10: a reset clears the marks, and no other command lowers one. -/
theorem marksNeverDecrease : Obligations.MarksNeverDecrease := by
  intro c s t h
  cases reset : isReset c with
  | false => exact .inl (exec_marksRise h reset)
  | true =>
    rcases exec_reset_marks h reset with rfl | cleared
    · exact .inl fun m => Nat.le_refl (t.mark m).toNat
    · exact .inr ⟨rfl, cleared⟩

end Sys2Proof.Machine
end

section
/-! PROOF. A WAITING queue whose WAIT ends among several endings (R54): OPEN, unless an error halts it (R53). -/

namespace Sys2Proof.Machine

open Sys2Proof.Safety

/-! ## The state of a queue while a slot is freed -/

section
variable {s : State} {q : QueueId} {x : QueueState}

/-- A queue that no ABORT is emptying keeps its state as DRAINING of any queue ends (R59). -/
theorem State.endDraining_queueState (h : s.Context q fun c => c.state = x) (live : x ≠ .draining) (p : QueueId) :
    (s.endDraining p).Context q fun c => c.state = x := by
  unfold State.endDraining
  split
  · exact h
  · next c hp =>
    split
    · next ends =>
      refine State.setQueue_context h p _ fun same => absurd ?_ live
      rw [State.drained, Bool.and_eq_true, decide_eq_true_iff] at ends
      exact (h c (same ▸ hp)).symm.trans ends.1
    · exact h

/-- A queue that no ABORT is emptying keeps its state as an acknowledgement is placed (R58). -/
theorem State.placeAck_queueState (h : s.Context q fun c => c.state = x) (live : x ≠ .draining) {p : QueueId} {c : Queue}
    (hp : s.queue p = some c) (n : Nat) (i : SlotId) : (s.placeAck p c n i).Context q fun c => c.state = x := by
  unfold State.placeAck
  refine State.endDraining_queueState (State.Context.of_queues ?_ (State.post_queue _ i p q)) live p
  exact State.setQueue_context (s := s.setSlot i (acknowledgementSlot p n)) h p _ fun same => h c (same ▸ hp)

/-- A queue that no ABORT is emptying keeps its state as a slot is freed (R80). -/
theorem State.freeSlot_queueState (h : s.Context q fun c => c.state = x) (live : x ≠ .draining) (i : SlotId) :
    (s.freeSlot i).Context q fun c => c.state = x := by
  unfold State.freeSlot
  split
  · exact h
  · next p _ =>
    have freed := State.modifyQueue_context (s := { s.setSlot i Slot.freed with order := s.order.filter (· ≠ i) }) h p
      (fun c => { c with occupied := c.occupied - 1 }) fun _ _ same => same
    dsimp only
    generalize State.modifyQueue _ p _ = u at freed
    have drained := State.endDraining_queueState freed live p
    unfold State.claimFreed
    split
    · exact freed
    · split
      · exact freed
      · next hp =>
        split
        · exact State.placeAck_queueState freed live hp _ i
        · unfold State.serveWaiting
          repeat' split
          · exact drained
          · exact drained
          · next hc _ _ _ => exact State.placeAck_queueState drained live hc _ i
          · exact drained

end

/-! ## The state of a queue while slots end -/

/-- The end of a slot takes its queue where R53 and R54 do, and leaves the state of every other queue that no ABORT is emptying. -/
theorem State.endSlot_queueState {s : State} {e : Ending} {q : QueueId} {c : Queue} {x : QueueState} (used : s.queue q = some c)
    (after : (if (s.slot e.slot).queue = some q then c.afterEnding (s.slot e.slot).isWaiting e.status else c).state = x)
    (live : x ≠ .draining) : (s.endSlot e).Context q fun c => c.state = x := by
  unfold State.endSlot
  dsimp only
  split
  · next none =>
    rw [none, if_neg nofun] at after
    exact fun d hd => Option.some.inj (used.symm.trans hd) ▸ after
  · next p hp =>
    have unclaimed : (s.releaseClaim (s.slot e.slot) e.status).queue q = some c := by
      rw [s.releaseClaim_same (s.slot e.slot) e.status]
      exact used
    generalize s.releaseClaim (s.slot e.slot) e.status = w at unclaimed
    have ended : (State.modifyQueue { w.setSlot e.slot ((s.slot e.slot).endedWith e.status e.detail) with
        waiting := w.waiting.filter fun x => x.slot ≠ e.slot
        presentation := { w.presentation with held := if w.presentation.held = some e.slot then none else w.presentation.held } } p
        fun c => c.afterEnding (s.slot e.slot).isWaiting e.status).Context q fun c => c.state = x := by
      intro d hd
      rw [State.queue_modifyQueue] at hd
      rw [hp] at after
      by_cases own : p = q
      · subst own
        rw [if_pos rfl] at hd after
        obtain ⟨c', hc', rfl⟩ := Option.map_eq_some_iff.1 hd
        exact Option.some.inj (unclaimed.symm.trans hc') ▸ after
      · rw [if_neg own] at hd
        rw [if_neg fun same => own (Option.some.inj same)] at after
        exact Option.some.inj (unclaimed.symm.trans hd) ▸ after
    split
    · exact State.freeSlot_queueState ended live e.slot
    · exact ended.of_queues (State.post_queue _ _ _ _)

/-- Where no error halts the queue, an ending changes its state only as the end of its WAIT makes it OPEN (R53, R54). -/
theorem Queue.afterEnding_calm {c : Queue} {st : Status} (calm : st.isError = true → c.policy ≠ .halt) (waited : Bool) :
    (c.afterEnding waited st).state = if waited = true ∧ c.state = .waiting then .opened else c.state := by
  unfold Queue.afterEnding
  rw [if_neg]
  · simp only [Bool.and_eq_true, decide_eq_true_eq]
    split <;> rfl
  · simp only [Bool.and_eq_true, decide_eq_true_eq]
    exact fun halts => calm halts.1.1 halts.1.2

/-- A queue that is OPEN, or WAITING with its WAIT among the endings, is OPEN after them, where none of them halts it (R53, R54). -/
theorem State.foldl_endSlot_opened {q : QueueId} (es : List Ending) : ∀ {s : State} {c : Queue}, (es.map Ending.slot).Nodup →
    s.queue q = some c → (∀ e ∈ es, e.status.isError = true → c.policy ≠ .halt) →
    (c.state = .opened ∨ c.state = .waiting ∧
      ∃ e ∈ es, (s.slot e.slot).queue = some q ∧ (s.slot e.slot).isWaiting = true) →
    ∃ d, (es.foldl State.endSlot s).queue q = some d ∧ d.state = .opened := by
  induction es with
  | nil =>
    rintro s c - used - (opened | ⟨-, e, none, -⟩)
    · exact ⟨c, used, opened⟩
    · exact absurd none List.not_mem_nil
  | cons e rest ih =>
    intro s c nodup used calm state
    rw [List.map_cons, List.nodup_cons] at nodup
    obtain ⟨d, queue, kept⟩ := (s.endSlot_goes e).queues q c used
    have calmly := Queue.afterEnding_calm (calm e List.mem_cons_self) (s.slot e.slot).isWaiting
    have live : c.state ≠ .draining := by rcases state with now | ⟨now, -⟩ <;> rw [now] <;> exact nofun
    refine ih nodup.2 queue (fun x member => kept.policy ▸ calm x (List.mem_cons_of_mem e member)) ?_
    by_cases ends : (s.slot e.slot).queue = some q ∧ (s.slot e.slot).isWaiting = true
    · refine .inl (State.endSlot_queueState used (x := .opened) ?_ nofun d queue)
      rw [if_pos ends.1, calmly]
      rcases state with now | ⟨now, -⟩ <;> simp [now, ends.2]
    · have stays : d.state = c.state := by
        refine State.endSlot_queueState used ?_ live d queue
        split
        · next own => exact calmly.trans (if_neg fun both => ends ⟨own, both.1⟩)
        · rfl
      rw [stays]
      refine state.imp_right fun ⟨waits, x, member, own, waiting⟩ => ⟨waits, x, ?_⟩
      have later : x ∈ rest := (List.mem_cons.1 member).resolve_left fun same => ends (same ▸ ⟨own, waiting⟩)
      rw [State.endSlot_slot_ne fun same => nodup.1 (same ▸ List.mem_map_of_mem later)]
      exact ⟨later, own, waiting⟩

end Sys2Proof.Machine
end

section
/-! PROOF. The expiries of coalescing timers and of WAITs (R131, R146, R180). -/

namespace Sys2Proof.Machine

open Sys2Proof.Safety

/-! ## The coalescing timer -/

/-- An interrupt is a message, or sets the vector's pending flag (R147). -/
theorem State.interrupt_signalled (s : State) (v : VectorId) : Signalled s.link (s.interrupt v).link v := by
  have allows : s.link.allows v = true ↔
      s.link.messageInterrupts = true ∧ s.link.busMastering = true ∧ s.link.masked[v] = false := by
    simp [HostLink.allows, and_assoc]
  unfold Signalled State.interrupt
  simp only [allows]
  split <;> rfl

/-- The expiry of a coalescing timer touches its queue's count and timer, the device timer, and the link by one interrupt at most (R146). -/
theorem State.coalesce_spec (s : State) (k : CqId) (c : CompletionQueue) (d : Time) :
    s.coalesce k c d = { s.setCq k (some { c with count := 0, deadline := none }) with
      control := { s.control with timer := laterTime s.control.timer d }, link := (s.coalesce k c d).link } ∧
    (1 ≤ c.count → Signalled s.link (s.coalesce k c d).link c.vector) ∧ (c.count = 0 → (s.coalesce k c d).link = s.link) := by
  unfold State.coalesce
  dsimp only
  by_cases counted : 1 ≤ c.count
  · rw [if_pos counted]
    refine ⟨?_, fun _ => State.interrupt_signalled _ _, fun none => by omega⟩
    rw [State.interrupt_same]
    rfl
  · rw [if_neg counted]
    exact ⟨rfl, fun some => absurd some counted, fun _ => rfl⟩

/-- COALESCING_TIMER_EXPIRY of a timer that runs, with none before it (R146, R180). -/
theorem exec_coalescingTimerExpiry {s : State} {k : CqId} {c : CompletionQueue} {d : Time} (h : s.cq k = some c)
    (runs : c.deadline = some d) (first : NoEarlierDeadline s d) :
    exec (.coalescingTimerExpiry k) s = .next (s.coalesce k c d) := by
  show execCoalescingTimerExpiry k s = _
  simp only [execCoalescingTimerExpiry, h, runs, State.mayReach_iff.2 first, if_true]

/-! ## Several endings -/

/-- A slot that ends leaves the waiting list, whatever its end releases (R79). -/
theorem State.endSlots_unlisted {s : State} {es : List Ending} {e : Ending} {q : QueueId} (nodup : (es.map Ending.slot).Nodup)
    (member : e ∈ es) (inQueue : (s.slot e.slot).queue = some q) : ∀ w ∈ (s.endSlots es).waiting, w.slot ≠ e.slot := by
  rw [State.endSlots_eq member, State.conclude_waiting]
  exact (State.settle_answered (n := 32) nodup member inQueue).2.1

/-- In RUNNING a WAITING queue whose WAIT ends is OPEN under another policy than HALT, whatever the endings release (R53, R54). -/
theorem State.endSlots_opened {s : State} (running : s.control.deviceState = .running) {es : List Ending} {e : Ending} {q : QueueId}
    {c : Queue} (nodup : (es.map Ending.slot).Nodup) (member : e ∈ es) (inQueue : (s.slot e.slot).queue = some q)
    (waiting : (s.slot e.slot).isWaiting = true) (used : s.queue q = some c) (waits : c.state = .waiting) (goOn : c.policy ≠ .halt) :
    ∃ d, (s.endSlots es).queue q = some d ∧ d.state = .opened := by
  have perm := s.together_perm es
  obtain ⟨d, queue, kept⟩ := (s.choose_goes.trans (Goes.foldl State.endSlot_goes (s.together es) _)).queues q c used
  obtain ⟨d', queue', opened⟩ := State.foldl_endSlot_opened (s.together es) (s := s.choose)
    ((perm.map Ending.slot).nodup_iff.2 nodup) used (fun _ _ _ => goOn) (.inr ⟨waits, e, perm.mem_iff.2 member, inQueue, waiting⟩)
  cases queue.symm.trans queue'
  obtain ⟨b, after, still⟩ := (s.settle_foldl_goes 32 member).queues q d queue
  exact ⟨b, ((State.endSlots_running_kept running es).2.2 q).trans after, still.opened opened (kept.policy ▸ goOn)⟩

/-! ## The WAITs that expire together -/

theorem State.mem_timeouts {s : State} {d : Time} {e : Ending} : e ∈ s.timeouts d ↔
    ∃ x ∈ s.waiting, x.deadline = some d ∧ e = { slot := x.slot, status := .waitTimeout, detail := s.mark x.mark } := by
  unfold State.timeouts
  simp only [List.mem_map, List.mem_filter, decide_eq_true_iff, and_assoc, eq_comm (b := e)]

/-- No slot times out twice (R126). -/
theorem State.timeouts_nodup {s : State} (distinct : (s.waiting.map WaitEntry.slot).Nodup) (d : Time) :
    ((s.timeouts d).map Ending.slot).Nodup := by
  unfold State.timeouts
  rw [List.map_map]
  exact distinct.sublist (List.filter_sublist.map WaitEntry.slot)

/-- WAIT_EXPIRY of a timer that runs, with none before it (R131, R180). -/
theorem exec_waitExpiry {s : State} {i : SlotId} {w : WaitEntry} {d : Time} (running : s.control.deviceState = .running)
    (entry : s.waiting.find? (fun w => w.slot = i) = some w) (deadline : w.deadline = some d) (first : NoEarlierDeadline s d) :
    exec (.waitExpiry i) s = .next ((s.reach d).endSlots (s.timeouts d)).serveFetch := by
  show execWaitExpiry i s = _
  simp only [execWaitExpiry, entry, deadline, running, State.mayReach_iff.2 first, and_self, if_true]

/-- The slots of the WAITs whose deadline is this reading. -/
def State.timesOut (s : State) (d : Time) (j : SlotId) : Bool := s.waiting.any fun x => decide (x.slot = j ∧ x.deadline = some d)

theorem State.timesOut_iff {s : State} {d : Time} {j : SlotId} : s.timesOut d j = true ↔ j ∈ (s.timeouts d).map Ending.slot := by
  unfold State.timesOut State.timeouts
  simp only [List.any_eq_true, decide_eq_true_iff, List.map_map, List.mem_map, List.mem_filter, Function.comp_apply]
  exact exists_congr fun x => ⟨fun ⟨mem, slot, due⟩ => ⟨⟨mem, due⟩, slot⟩, fun ⟨⟨mem, due⟩, slot⟩ => ⟨mem, slot, due⟩⟩

theorem State.timesOut_slot {s : State} (distinct : (s.waiting.map WaitEntry.slot).Nodup) {x : WaitEntry} (hx : x ∈ s.waiting) (d : Time) :
    s.timesOut d x.slot = true ↔ x.deadline = some d := by
  unfold State.timesOut
  rw [List.any_eq_true]
  constructor
  · rintro ⟨y, hy, same⟩
    obtain ⟨slot, due⟩ := of_decide_eq_true same
    exact List.inj_on_of_nodup_map distinct hy hx slot ▸ due
  · exact fun due => ⟨x, hx, decide_eq_true ⟨rfl, due⟩⟩

/-- WAITs that expire together and release nothing leave marks, surfaces and the entries of every other deadline (R131). -/
theorem State.timeouts_releaseNone {s : State} {d : Time} {x : WaitEntry} (hx : x ∈ s.waiting) (due : x.deadline = some d)
    (waits : ∀ x ∈ s.waiting, (s.slot x.slot).isWaiting = true ∧ (s.slot x.slot).queue = some x.queue)
    (distinct : (s.waiting.map WaitEntry.slot).Nodup) (nothing : ReleasesNone s (s.timesOut d)) :
    ((s.reach d).endSlots (s.timeouts d)).marks = s.marks ∧ ((s.reach d).endSlots (s.timeouts d)).surfaces = s.surfaces ∧
      ((s.reach d).endSlots (s.timeouts d)).waiting = s.waiting.filter fun x => x.deadline ≠ some d := by
  have nodup := State.timeouts_nodup distinct d
  have among := fun j => State.timesOut_iff (s := s) (d := d) (j := j)
  have each : ∀ e ∈ s.timeouts d, (s.slot e.slot).queue.isSome = true ∧ (s.slot e.slot).isWaiting = true := by
    intro e member
    obtain ⟨y, hy, -, rfl⟩ := State.mem_timeouts.1 member
    exact ⟨Option.isSome_of_mem (waits y hy).2, (waits y hy).1⟩
  obtain ⟨e, rest, eq⟩ := List.exists_cons_of_ne_nil (List.ne_nil_of_mem (State.mem_timeouts.2 ⟨x, hx, due, rfl⟩))
  rw [eq] at nodup among each ⊢
  obtain ⟨marks, waiting, surfaces⟩ := State.endSlots_releasesNone_kept (s := s.reach d) nodup (fun y hy => (each y hy).1) among nothing
  refine ⟨marks, surfaces fun y hy => (each y hy).2, waiting.trans (List.filter_congr fun y hy => ?_)⟩
  rw [Bool.eq_iff_iff, Bool.not_eq_true', ← Bool.not_eq_true, State.timesOut_slot distinct hy, decide_eq_true_iff]

/-- Settles O56: a coalescing timer interrupts at most once, and the WAITs of one deadline are the endings of one event. -/
theorem expiriesAreTaken : Obligations.ExpiriesAreTaken := by
  refine ⟨fun s k c d configured runs first => ⟨_, exec_coalescingTimerExpiry configured runs first, s.coalesce_spec k c d⟩, ?_⟩
  intro s i w d running entry deadline first waits distinct
  have nodup := State.timeouts_nodup distinct d
  have ends {x : WaitEntry} (hx : x ∈ s.waiting) (due : x.deadline = some d) :
      { slot := x.slot, status := .waitTimeout, detail := s.mark x.mark } ∈ s.timeouts d := State.mem_timeouts.2 ⟨x, hx, due, rfl⟩
  have settled := (s.reach d).endSlots_settled (s.timeouts d)
  refine ⟨(s.reach d).endSlots (s.timeouts d), goesTo_of_serve (exec_waitExpiry running entry deadline first),
    (State.endSlots_running_kept (s := s.reach d) running _).1, fun x hx due => ?_, settled.frame, settled.palettes, settled.engines,
    fun nothing => ?_⟩
  · obtain ⟨waiting, inQueue⟩ := waits x hx
    refine ⟨State.endSlots_answered (s := s.reach d) nodup (ends hx due) inQueue,
      (State.endSlots_posted (s := s.reach d) nodup (ends hx due) inQueue nofun).1,
      State.endSlots_unlisted (s := s.reach d) nodup (ends hx due) inQueue, fun c used now => ?_⟩
    split
    · next policy =>
      exact State.endSlots_halted (s := s.reach d) running nodup (ends hx due) rfl inQueue used ⟨policy, by rw [now]; nofun⟩
    · next policy => exact State.endSlots_opened (s := s.reach d) running nodup (ends hx due) inQueue waiting used now policy
  · exact State.timeouts_releaseNone (List.mem_of_find?_eq_some entry) deadline waits distinct nothing

end Sys2Proof.Machine
end

section
/-! PROOF. The arrival of a SIGNAL that need not wait (R54, R129, R130). -/

namespace Sys2Proof.Machine

open Sys2Proof.Safety

/-! ## Endings that release nothing -/

/-- Whatever the window gains behind an arrived slot that ends too, endings that released nothing release nothing (R69, R70). -/
theorem releasesNone_of_window {s t : State} {i : SlotId} {gone : SlotId → Bool} (h : ReleasesNone s gone) (own : gone i = true)
    (slots : ∀ j, j ≠ i → t.slot j = s.slot j) (order : t.order = s.order ++ [i]) : ReleasesNone t gone := by
  have other {j : SlotId} (stays : gone j = false) : t.slot j = s.slot j := slots j fun same => by
    rw [same, own] at stays
    cases stays
  intro j stays blocked
  rw [other stays] at blocked ⊢
  rcases h j stays blocked with waiting | dep | ⟨pending, k, earlier, kept, queue, unended⟩
  · exact .inl waiting
  · exact .inr (.inl dep)
  · refine .inr (.inr ⟨pending, k, ?_, kept, ?_⟩)
    · rw [order]
      exact mem_takeWhile_append earlier
    · rw [other kept]
      exact ⟨queue, unended⟩

/-- Where some of the slots that end nothing are WAITs, the end of one slot alone releases nothing either (R69). -/
theorem releasesNothing_of_releasesNone {s : State} {i : SlotId} {gone : SlotId → Bool} (h : ReleasesNone s gone) (own : gone i = true)
    (others : ∀ j, gone j = true → j ≠ i → (s.slot j).isWaiting = true) : ReleasesNothing s i := by
  have other {k : SlotId} (stays : gone k = false) : k ≠ i := fun same => by
    rw [same, own] at stays
    cases stays
  intro j ne blocked
  cases ends : gone j with
  | true => exact .inl (others j ends ne)
  | false =>
    rcases h j ends blocked with waiting | ⟨k, dep, stays⟩ | ⟨pending, k, earlier, stays, rest⟩
    · exact .inl waiting
    · exact .inr (.inl ⟨k, dep, other stays⟩)
    · exact .inr (.inr ⟨pending, k, earlier, other stays, rest⟩)

theorem State.retested_queues (u : State) (gone : List SlotId) :
    (u.removeDependencies gone).retestOrdered.choose.queues = u.queues := by
  unfold State.removeDependencies State.retestOrdered State.choose
  rfl

/-- In RUNNING endings that release nothing leave surfaces and queues as the ends of the slots alone do. -/
theorem State.endSlots_releasesNone_left {s : State} {es : List Ending} {e : Ending} {gone : SlotId → Bool}
    (running : s.control.deviceState = .running) (member : e ∈ es) (nodup : (es.map Ending.slot).Nodup)
    (used : ∀ x ∈ es, (s.slot x.slot).queue.isSome = true) (among : ∀ j, gone j = true ↔ j ∈ es.map Ending.slot)
    (nothing : ReleasesNone s gone) :
    (s.endSlots es).surfaces = ((s.together es).foldl State.endSlot s.choose).surfaces ∧
      ∀ q, (s.endSlots es).queue q = ((s.together es).foldl State.endSlot s.choose).queue q := by
  obtain ⟨x, rest, rfl⟩ := List.exists_cons_of_ne_nil (List.ne_nil_of_mem member)
  refine ⟨?_, fun q => ?_⟩
  · rw [State.endSlots_releasesNone nodup used among nothing]
    exact (State.conclude_marks _).1.trans (State.retested_surfaces _ _).1
  · rw [(State.endSlots_running_kept running _).2.2 q, State.settle_once (State.endTogether_releasesNone nodup used among nothing)]
    exact congrArg (·[q]) (State.retested_queues _ _)

/-- Endings with OK of operations that are no PRESENT leave the surface table (R79). -/
theorem State.foldl_endSlot_ok_surfaces (es : List Ending) : ∀ {s : State}, (es.map Ending.slot).Nodup →
    (∀ e ∈ es, (s.slot e.slot).queue.isSome = true ∧ e.status = .ok ∧ ∀ id, (s.slot e.slot).op ≠ some (.present id)) →
    (es.foldl State.endSlot s).surfaces = s.surfaces := by
  induction es with
  | nil => exact fun _ _ => rfl
  | cons e rest ih =>
    intro s nodup all
    rw [List.map_cons, List.nodup_cons] at nodup
    obtain ⟨used, ok, notPresent⟩ := all e List.mem_cons_self
    obtain ⟨q, inQueue⟩ := Option.isSome_iff_exists.1 used
    have other : ∀ x ∈ rest, (s.endSlot e).slot x.slot = s.slot x.slot := fun x hx =>
      State.endSlot_slot_ne fun same => nodup.1 (same ▸ List.mem_map_of_mem hx)
    refine (ih nodup.2 fun x hx => other x hx ▸ all x (List.mem_cons_of_mem e hx)).trans ?_
    rw [(State.endSlot_surfaces inQueue).1, ok, State.releaseClaim_ok s notPresent]

theorem Slot.isWaiting_op {sl : Slot} (h : sl.isWaiting = true) : sl.unended = true ∧ ∃ m v n, sl.op = some (.wait m v n) := by
  unfold Slot.isWaiting at h
  rw [Bool.and_eq_true] at h
  refine h.imp_right fun kind => ?_
  split at kind
  · next op holds =>
    rw [holds]
    cases op with
    | wait m v n => exact ⟨m, v, n, rfl⟩
    | _ => cases kind
  · cases kind

/-! ## The execution of an arrived SIGNAL -/

/-- A SIGNAL conflicts with nothing (R66, R68). -/
theorem not_conflicts_signal (s : State) (m : MarkId) (v : BitVec 32) (j : SlotId) : ¬Conflicts s (.signal m v) j := by
  rintro ⟨_, ⟨_, _, _, region | region, _⟩ | ⟨_, _, _, region, _⟩ | ⟨_, _, settled | ⟨_, settled⟩, _⟩⟩
  · exact region.2
  · exact region.2
  · exact region.2
  · cases settled
  · cases settled

/-- The state in which the endings of an arrived SIGNAL are settled, with these marks and this waiting list. -/
def State.signalling (s : State) (f : Fetch) (c : Queue) (r : OpRecord) (m : MarkId) (v : BitVec 32) (marks : Vector (BitVec 32) 16)
    (waiting : List WaitEntry) : State :=
  { s.holding f c { arrived s f r with state := .ready, op := some (.signal m v) } with
    choices := s.choices + 1, marks := marks, waiting := waiting }

/-- A SIGNAL of the mark with this value satisfies the entry (R130). -/
def WaitEntry.satisfiedBy (w : WaitEntry) (m : MarkId) (v : BitVec 32) : Bool := w.mark = m && w.value.toNat ≤ v.toNat

theorem WaitEntry.satisfiedBy_iff {w : WaitEntry} {m : MarkId} {v : BitVec 32} :
    w.satisfiedBy m v = true ↔ w.mark = m ∧ w.value.toNat ≤ v.toNat := by
  rw [WaitEntry.satisfiedBy, Bool.and_eq_true, decide_eq_true_iff, decide_eq_true_iff]

/-- The endings that a SIGNAL at or above its mark brings: its own and those of the WAITs that it satisfies (R130). -/
def State.signalEndings (s : State) (i : SlotId) (m : MarkId) (v : BitVec 32) : List Ending :=
  { slot := i, status := .ok, detail := v } ::
    (s.waiting.filter fun w => w.satisfiedBy m v).map fun w => { slot := w.slot, status := .ok, detail := v }

/-- The state in which they are settled: the mark is raised, and the WAITs satisfied have left the waiting list. -/
def State.raised (s : State) (f : Fetch) (c : Queue) (r : OpRecord) (m : MarkId) (v : BitVec 32) : State :=
  s.signalling f c r m v (s.marks.set m v) (s.waiting.filter fun w => !w.satisfiedBy m v)

section
variable {s : State} {f : Fetch} {c : Queue} {r : OpRecord} {m : MarkId} {v : BitVec 32} {marks : Vector (BitVec 32) 16}
  {waiting : List WaitEntry}

/-- A SIGNAL that need not wait is executed at once (R64, R70). -/
theorem State.readied_signal (unordered : ¬MustWait s f.slot f.queue (.signal m v) (r.extractLsb' 8 8)) :
    s.readied f c r (.signal m v) = s.signalling f c r m v s.marks s.waiting :=
  State.readied_free c ⟨fun j _ => not_conflicts_signal s m v j, unordered⟩

/-- Below its mark a SIGNAL ends MARK_REGRESS (R129). -/
theorem State.afterArrival_regress (ok : s.checkRecord r = .ok (.signal m v))
    (unordered : ¬MustWait s f.slot f.queue (.signal m v) (r.extractLsb' 8 8)) (below : v.toNat < (s.mark m).toNat) :
    s.afterArrival f c r = (s.signalling f c r m v s.marks s.waiting).endSlots
      [{ slot := f.slot, status := .markRegress, detail := s.mark m }] := by
  rw [State.afterArrival_free ok nofun nofun ⟨fun j _ => not_conflicts_signal s m v j, unordered⟩,
    State.execute_regress (s.readied_op f c r (.signal m v)) (by exact below), State.readied_signal unordered]
  rfl

/-- At or above its mark a SIGNAL raises the mark and satisfies WAITs (R130). -/
theorem State.afterArrival_raised (ok : s.checkRecord r = .ok (.signal m v))
    (unordered : ¬MustWait s f.slot f.queue (.signal m v) (r.extractLsb' 8 8)) (reached : (s.mark m).toNat ≤ v.toNat) :
    s.afterArrival f c r = (s.raised f c r m v).endSlots (s.signalEndings f.slot m v) := by
  rw [State.afterArrival_free ok nofun nofun ⟨fun j _ => not_conflicts_signal s m v j, unordered⟩,
    State.execute_signal (s.readied_op f c r (.signal m v)) (Nat.not_lt.2 (by exact reached)), State.readied_signal unordered]
  rfl

/-! ## The window at its endings -/

theorem State.signalling_own_slot : (s.signalling f c r m v marks waiting).slot f.slot =
    { arrived s f r with state := .ready, op := some (.signal m v) } := State.slot_setSlot_self s f.slot _

theorem State.signalling_slot {j : SlotId} (other : j ≠ f.slot) : (s.signalling f c r m v marks waiting).slot j = s.slot j :=
  (State.slot_setSlot s f.slot j _).trans (if_neg (Ne.symm other))

theorem State.signalling_queue (used : s.queue f.queue = some c) {q : QueueId} {d : Queue} (h : s.queue q = some d) :
    ∃ d', (s.signalling f c r m v marks waiting).queue q = some d' ∧ d'.cq = d.cq ∧ d'.state = d.state := by
  have queue := State.queue_setQueue s f.queue q (some { c with head := (c.head + 1) % c.size })
  by_cases own : f.queue = q
  · subst own
    cases used.symm.trans h
    exact ⟨_, queue.trans (if_pos rfl), rfl, rfl⟩
  · exact ⟨d, (queue.trans (if_neg own)).trans h, rfl, rfl⟩

/-- What is posted at its endings is posted in the step of the arrival. -/
theorem State.signalling_posted (used : s.queue f.queue = some c) {t : State} {q : QueueId} {i : SlotId}
    (h : Posted (s.signalling f c r m v marks waiting) t q i) : Posted s t q i := by
  intro d k hd hk
  obtain ⟨d', queue, bound, -⟩ := State.signalling_queue (r := r) (m := m) (v := v) (marks := marks) (waiting := waiting) used hd
  have joined := h d' k queue (bound.symm ▸ hk)
  rwa [bound] at joined

/-- Endings in the step of an arrival leave what every arrival leaves (R49, R63), and no mark lower. -/
theorem State.signalling_advanced (running : s.control.deviceState = .running) {es : List Ending} {e : Ending} (member : e ∈ es)
    {t : State} (ends : t = (s.signalling f c r m v marks waiting).endSlots es) :
    Advanced s t f.queue c ∧ MarksRise (s.signalling f c r m v marks waiting) t ∧
      t.frame = s.frame ∧ t.palettes = s.palettes ∧ t.engines = s.engines := by
  have settled := (s.signalling f c r m v marks waiting).endSlots_settled es
  obtain ⟨u, goes, issued⟩ := State.endSlots_goes (s := s.signalling f c r m v marks waiting) member
    (by rw [show (s.signalling f c r m v marks waiting).control = s.control from rfl, running]; nofun)
  obtain ⟨d, queue, kept⟩ := goes.queues f.queue _ (State.queue_setQueue_self _ f.queue _)
  rw [← ends] at settled issued
  exact ⟨⟨settled.sequence, settled.fetch, d, by rw [issued, State.issueWrites_queue, queue], kept.head, kept.tail⟩, settled.marks,
    settled.frame, settled.palettes, settled.engines⟩

/-- No entry of the waiting list names a slot whose record has not arrived (R126). -/
theorem not_waiting_of_fetching (fetching : (s.slot f.slot).state = .fetching)
    (waits : ∀ w ∈ s.waiting, (s.slot w.slot).isWaiting = true ∧ (s.slot w.slot).queue = some w.queue) :
    ∀ w ∈ s.waiting, w.slot ≠ f.slot := by
  intro w member same
  have unended := (Slot.isWaiting_op (waits w member).1).1
  rw [same, Slot.unended, fetching] at unended
  cases unended

/-! ## The slots that end -/

theorem State.mem_signalEndings {i : SlotId} {e : Ending} : e ∈ s.signalEndings i m v ↔
    (e.slot = i ∨ ∃ w ∈ s.waiting, w.satisfiedBy m v = true ∧ w.slot = e.slot) ∧ e.status = .ok ∧ e.detail = v := by
  unfold State.signalEndings
  simp only [List.mem_cons, List.mem_map, List.mem_filter, and_assoc]
  constructor
  · rintro (rfl | ⟨w, member, satisfied, rfl⟩)
    · exact ⟨.inl rfl, rfl, rfl⟩
    · exact ⟨.inr ⟨w, member, satisfied, rfl⟩, rfl, rfl⟩
  · obtain ⟨slot, status, detail⟩ := e
    rintro ⟨rfl | ⟨w, member, satisfied, rfl⟩, rfl, rfl⟩
    · exact .inl rfl
    · exact .inr ⟨w, member, satisfied, rfl⟩

/-- The SIGNAL itself is among the slots that end. -/
theorem State.own_mem_signalEndings {i : SlotId} : { slot := i, status := .ok, detail := v } ∈ s.signalEndings i m v :=
  State.mem_signalEndings.2 ⟨.inl rfl, rfl, rfl⟩

/-- So is each WAIT that it satisfies (R130). -/
theorem State.wait_mem_signalEndings {i : SlotId} {w : WaitEntry} (listed : w ∈ s.waiting) (satisfied : w.satisfiedBy m v = true) :
    { slot := w.slot, status := .ok, detail := v } ∈ s.signalEndings i m v :=
  State.mem_signalEndings.2 ⟨.inr ⟨w, listed, satisfied, rfl⟩, rfl, rfl⟩

theorem State.signalEndings_nodup {i : SlotId} (distinct : (s.waiting.map WaitEntry.slot).Nodup)
    (others : ∀ w ∈ s.waiting, w.slot ≠ i) : ((s.signalEndings i m v).map Ending.slot).Nodup := by
  unfold State.signalEndings
  rw [List.map_cons, List.nodup_cons, List.map_map]
  refine ⟨fun member => ?_, distinct.sublist (List.filter_sublist.map WaitEntry.slot)⟩
  obtain ⟨w, listed, same⟩ := List.mem_map.1 member
  exact others w (List.mem_filter.1 listed).1 same

/-- The slots that end with a SIGNAL in slot i at or above its mark. -/
def State.signalEnds (s : State) (i : SlotId) (m : MarkId) (v : BitVec 32) (j : SlotId) : Bool :=
  decide (j = i) || s.waiting.any fun w => decide (w.slot = j ∧ w.mark = m ∧ w.value.toNat ≤ v.toNat)

theorem State.signalEnds_iff {i j : SlotId} : s.signalEnds i m v j = true ↔
    j = i ∨ ∃ w ∈ s.waiting, w.satisfiedBy m v = true ∧ w.slot = j := by
  unfold State.signalEnds
  simp only [Bool.or_eq_true, decide_eq_true_iff, List.any_eq_true, WaitEntry.satisfiedBy_iff]
  exact or_congr_right (exists_congr fun w => and_congr_right fun _ => and_comm)

theorem State.signalEnds_endings {i j : SlotId} : s.signalEnds i m v j = true ↔ j ∈ (s.signalEndings i m v).map Ending.slot := by
  rw [State.signalEnds_iff, List.mem_map]
  constructor
  · exact fun ends => ⟨{ slot := j, status := .ok, detail := v }, State.mem_signalEndings.2 ⟨ends, rfl, rfl⟩, rfl⟩
  · rintro ⟨e, member, rfl⟩
    exact (State.mem_signalEndings.1 member).1

/-! ## Below the mark -/

/-- A SIGNAL below its mark ends MARK_REGRESS, and under HALT policy halts its OPEN or WAITING queue (R53, R129). -/
theorem State.regress_ends (used : s.queue f.queue = some c) {t : State} {x : BitVec 32}
    (ends : t = (s.signalling f c r m v s.marks s.waiting).endSlots [{ slot := f.slot, status := .markRegress, detail := x }]) :
    Answered t f.slot { arrived s f r with op := some (.signal m v) } .markRegress x ∧ Posted s t f.queue f.slot ∧
      (c.policy = .halt → c.state = .opened ∨ c.state = .waiting → ∃ d, t.queue f.queue = some d ∧ d.state = .halted) := by
  have slot := State.signalling_own_slot (s := s) (f := f) (c := c) (r := r) (m := m) (v := v) (marks := s.marks) (waiting := s.waiting)
  obtain ⟨⟨d, queue, kept⟩, -, ended, posted⟩ := State.endSlots_failed (s := s.signalling f c r m v s.marks s.waiting) (i := f.slot)
    (by rw [slot]; rfl) (State.queue_setQueue_self _ f.queue _) (st := .markRegress) nofun x
  rw [← ends] at queue ended posted
  refine ⟨?_, State.signalling_posted used posted, fun policy state => ⟨d, queue, kept.halted (queueAfter_halted _ rfl policy state)⟩⟩
  rw [slot] at ended
  unfold Answered
  rw [if_neg nofun]
  exact ended

/-- A SIGNAL below its mark that releases nothing leaves marks, surfaces and the waiting list (R129). -/
theorem State.regress_releasesNone (others : ∀ w ∈ s.waiting, w.slot ≠ f.slot)
    (waits : ∀ w ∈ s.waiting, (s.slot w.slot).isWaiting = true ∧ (s.slot w.slot).queue = some w.queue)
    (nothing : ReleasesNone s (s.signalEnds f.slot m v)) {t : State} {x : BitVec 32}
    (ends : t = (s.signalling f c r m v s.marks s.waiting).endSlots [{ slot := f.slot, status := .markRegress, detail := x }]) :
    t.marks = s.marks ∧ t.surfaces = s.surfaces ∧ t.waiting = s.waiting := by
  have slot := State.signalling_own_slot (s := s) (f := f) (c := c) (r := r) (m := m) (v := v) (marks := s.marks) (waiting := s.waiting)
  have single : ReleasesNothing s f.slot := releasesNothing_of_releasesNone nothing (State.signalEnds_iff.2 (.inl rfl)) fun j ends ne => by
    obtain ⟨w, member, -, rfl⟩ := (State.signalEnds_iff.1 ends).resolve_left ne
    exact (waits w member).1
  have alone := State.endSlots_alone (s := s.signalling f c r m v s.marks s.waiting)
    (e := { slot := f.slot, status := .markRegress, detail := x }) (q := f.queue) (by rw [slot]; rfl)
    (State.queue_setQueue_self _ f.queue _) (releasesNothing_of_window single (fun j => State.signalling_slot) rfl) (.inr nofun)
  have claims : (s.signalling f c r m v s.marks s.waiting).releaseClaim
      ((s.signalling f c r m v s.marks s.waiting).slot f.slot) .markRegress = s.signalling f c r m v s.marks s.waiting := by
    rw [slot]
    rfl
  rw [claims, ← ends] at alone
  rw [EndsAlone.same alone nofun]
  refine ⟨rfl, rfl, ?_⟩
  show s.waiting.filter (fun w => w.slot ≠ f.slot) = s.waiting
  exact List.filter_eq_self.2 fun w member => decide_eq_true (others w member)

/-! ## At or above the mark -/

theorem State.raised_mark (n : MarkId) : (s.raised f c r m v).mark n = if m = n then v else s.mark n := State.mark_setMark s m n v

/-- No mark is lower once the SIGNAL has raised its mark (R129). -/
theorem State.raised_marksRise (reached : (s.mark m).toNat ≤ v.toNat) : MarksRise s (s.raised f c r m v) := by
  intro n
  rw [State.raised_mark]
  split
  · next same => exact same ▸ reached
  · exact le_rfl

/-- Each slot that ends with the SIGNAL holds a queue's operation (R61). -/
theorem State.signalEndings_used (others : ∀ w ∈ s.waiting, w.slot ≠ f.slot)
    (waits : ∀ w ∈ s.waiting, (s.slot w.slot).isWaiting = true ∧ (s.slot w.slot).queue = some w.queue) :
    ∀ e ∈ s.signalEndings f.slot m v, ((s.raised f c r m v).slot e.slot).queue.isSome = true ∧ e.status = .ok ∧
      ∀ id, ((s.raised f c r m v).slot e.slot).op ≠ some (.present id) := by
  intro e member
  obtain ⟨own | ⟨w, listed, -, own⟩, ok, -⟩ := State.mem_signalEndings.1 member
  · rw [own, State.raised, State.signalling_own_slot]
    exact ⟨rfl, ok, nofun⟩
  · obtain ⟨-, _, _, _, wait⟩ := Slot.isWaiting_op (waits w listed).1
    rw [← own, State.raised, State.signalling_slot (others w listed), (waits w listed).2, wait]
    exact ⟨rfl, ok, nofun⟩

/-- A SIGNAL at or above its mark ends OK with its value, and is posted unless QUIET (R79, R129). -/
theorem State.raised_own (used : s.queue f.queue = some c) (nodup : ((s.signalEndings f.slot m v).map Ending.slot).Nodup) {t : State}
    (ends : t = (s.raised f c r m v).endSlots (s.signalEndings f.slot m v)) :
    Answered t f.slot { arrived s f r with op := some (.signal m v) } .ok v ∧
      ((r.extractLsb' 8 8).getLsbD 0 = false → Posted s t f.queue f.slot) := by
  have slot : (s.raised f c r m v).slot f.slot = { arrived s f r with state := .ready, op := some (.signal m v) } :=
    State.signalling_own_slot
  have member := s.own_mem_signalEndings (i := f.slot) (m := m) (v := v)
  have inQueue : ((s.raised f c r m v).slot f.slot).queue = some f.queue := by rw [slot]; rfl
  have answered := State.endSlots_answered nodup member inQueue
  have posted := State.endSlots_posted nodup member inQueue
  rw [← ends] at answered posted
  refine ⟨?_, fun loud => State.signalling_posted used (posted ?_).1⟩
  · rw [slot] at answered
    exact answered
  · rw [slot]
    exact fun quiet => Bool.false_ne_true (loud.symm.trans quiet.2)

/-- A WAIT that the SIGNAL satisfies ends OK with its value, is posted unless QUIET, and leaves the waiting list (R79, R130). -/
theorem State.raised_wait (used : s.queue f.queue = some c) (nodup : ((s.signalEndings f.slot m v).map Ending.slot).Nodup)
    {w : WaitEntry} (listed : w ∈ s.waiting) (satisfied : w.satisfiedBy m v = true) (other : w.slot ≠ f.slot)
    (held : (s.slot w.slot).queue = some w.queue) {t : State}
    (ends : t = (s.raised f c r m v).endSlots (s.signalEndings f.slot m v)) :
    Answered t w.slot (s.slot w.slot) .ok v ∧ ((s.slot w.slot).flags.getLsbD 0 = false → Posted s t w.queue w.slot) ∧
      ∀ x ∈ t.waiting, x.slot ≠ w.slot := by
  have slot : (s.raised f c r m v).slot w.slot = s.slot w.slot := State.signalling_slot other
  have member := State.wait_mem_signalEndings (i := f.slot) listed satisfied
  have inQueue : ((s.raised f c r m v).slot w.slot).queue = some w.queue := by rw [slot, held]
  have answered := State.endSlots_answered nodup member inQueue
  have posted := State.endSlots_posted nodup member inQueue
  have unlisted := State.endSlots_unlisted nodup member inQueue
  rw [← ends] at answered posted unlisted
  rw [slot] at answered posted
  exact ⟨answered, fun loud => State.signalling_posted used (posted fun quiet => Bool.false_ne_true (loud.symm.trans quiet.2)).1,
    unlisted⟩

/-- Of the entries of the waiting list, those that the SIGNAL satisfies are those whose slot ends with it (R130). -/
theorem State.signalEnds_entry (distinct : (s.waiting.map WaitEntry.slot).Nodup) (others : ∀ w ∈ s.waiting, w.slot ≠ f.slot)
    {w : WaitEntry} (listed : w ∈ s.waiting) : s.signalEnds f.slot m v w.slot = w.satisfiedBy m v := by
  rw [Bool.eq_iff_iff, State.signalEnds_iff]
  constructor
  · rintro (own | ⟨x, hx, satisfied, same⟩)
    · exact absurd own (others w listed)
    · exact List.inj_on_of_nodup_map distinct hx listed same ▸ satisfied
  · exact fun satisfied => .inr ⟨w, listed, satisfied, rfl⟩

/-- The endings of a SIGNAL that release nothing raise its mark, and leave the others, the surfaces and the other entries (R129, R130). -/
theorem State.raised_releasesNone (others : ∀ w ∈ s.waiting, w.slot ≠ f.slot)
    (waits : ∀ w ∈ s.waiting, (s.slot w.slot).isWaiting = true ∧ (s.slot w.slot).queue = some w.queue)
    (distinct : (s.waiting.map WaitEntry.slot).Nodup) (nothing : ReleasesNone (s.raised f c r m v) (s.signalEnds f.slot m v)) {t : State}
    (running : s.control.deviceState = .running) (ends : t = (s.raised f c r m v).endSlots (s.signalEndings f.slot m v)) :
    t.marks = s.marks.set m v ∧ t.surfaces = s.surfaces ∧ t.waiting = s.waiting.filter fun w => !w.satisfiedBy m v := by
  have nodup := State.signalEndings_nodup (m := m) (v := v) distinct others
  have used := State.signalEndings_used (c := c) (r := r) (m := m) (v := v) others waits
  have perm := (s.raised f c r m v).together_perm (s.signalEndings f.slot m v)
  have left := State.endSlots_releasesNone_left (s := s.raised f c r m v) running State.own_mem_signalEndings nodup (fun x hx => (used x hx).1)
    (fun j => State.signalEnds_endings) nothing
  have kept := State.endSlots_releasesNone_kept nodup (fun x hx => (used x hx).1) (fun j => State.signalEnds_endings) nothing
  rw [← State.signalEndings, ← ends] at kept
  rw [← ends] at left
  refine ⟨kept.1, left.1.trans ?_, kept.2.1.trans (List.filter_eq_self.2 fun w member => ?_)⟩
  · exact State.foldl_endSlot_ok_surfaces _ ((perm.map Ending.slot).nodup_iff.2 nodup) fun e he => used e (perm.mem_iff.1 he)
  · obtain ⟨listed, unsatisfied⟩ := List.mem_filter.1 member
    rwa [State.signalEnds_entry distinct others listed]

/-- Where the endings release nothing, the WAITING queue of a WAIT that the SIGNAL satisfies becomes OPEN (R54). -/
theorem State.raised_opened (used : s.queue f.queue = some c) (others : ∀ w ∈ s.waiting, w.slot ≠ f.slot)
    (waits : ∀ w ∈ s.waiting, (s.slot w.slot).isWaiting = true ∧ (s.slot w.slot).queue = some w.queue)
    (distinct : (s.waiting.map WaitEntry.slot).Nodup) (nothing : ReleasesNone (s.raised f c r m v) (s.signalEnds f.slot m v)) {t : State}
    (running : s.control.deviceState = .running) (ends : t = (s.raised f c r m v).endSlots (s.signalEndings f.slot m v))
    {w : WaitEntry} (listed : w ∈ s.waiting) (satisfied : w.satisfiedBy m v = true) {d : Queue} (queue : s.queue w.queue = some d)
    (state : d.state = .waiting) : ∃ d', t.queue w.queue = some d' ∧ d'.state = .opened := by
  have nodup := State.signalEndings_nodup (m := m) (v := v) distinct others
  have inUse := State.signalEndings_used (c := c) (r := r) (m := m) (v := v) others waits
  have perm := (s.raised f c r m v).together_perm (s.signalEndings f.slot m v)
  have slot : (s.raised f c r m v).slot w.slot = s.slot w.slot := State.signalling_slot (others w listed)
  have member := State.wait_mem_signalEndings (i := f.slot) listed satisfied
  obtain ⟨b, before, -, same⟩ := State.signalling_queue (r := r) (m := m) (v := v) (marks := s.marks.set m v)
    (waiting := s.waiting.filter fun w => !w.satisfiedBy m v) used queue
  have left := State.endSlots_releasesNone_left (s := s.raised f c r m v) running State.own_mem_signalEndings nodup (fun x hx => (inUse x hx).1)
    (fun j => State.signalEnds_endings) nothing
  rw [ends, left.2]
  refine State.foldl_endSlot_opened _ (s := (s.raised f c r m v).choose) ((perm.map Ending.slot).nodup_iff.2 nodup) before
    (fun e he failed => ?_) (.inr ⟨same.trans state, _, perm.mem_iff.2 member, ?_⟩)
  · rw [(inUse e (perm.mem_iff.1 he)).2.1] at failed
    cases failed
  · show ((s.raised f c r m v).slot w.slot).queue = _ ∧ ((s.raised f c r m v).slot w.slot).isWaiting = true
    rw [slot]
    exact ⟨(waits w listed).2, (waits w listed).1⟩

end

/-- Settles O44: the endings of the SIGNAL are one event, from the state in which the mark is raised or, below it, left. -/
theorem signalRaisesMark : Obligations.SignalRaisesMark := by
  intro s f c r m v arriving ok running fetching unordered waits distinct
  have used := arriving.2.2.2
  have others := not_waiting_of_fetching fetching waits
  have nodup := State.signalEndings_nodup (m := m) (v := v) distinct others
  refine ⟨s.afterArrival f c r, goesTo_of_serve (exec_recordArrival r arriving), ?_⟩
  obtain below | reached := Nat.lt_or_ge v.toNat (s.mark m).toNat
  · have ends := State.afterArrival_regress (c := c) ok unordered below
    have unreached : ¬(s.mark m).toNat ≤ v.toNat := Nat.not_le.2 below
    obtain ⟨advanced, rise, frame, palettes, engines⟩ := State.signalling_advanced running List.mem_cons_self ends
    refine ⟨advanced, rise, frame, palettes, engines, fun h => absurd h unreached,
      fun _ => State.regress_ends used ends, fun nothing => ?_⟩
    obtain ⟨marks, surfaces, waiting⟩ := State.regress_releasesNone others waits nothing ends
    refine ⟨fun n => ?_, surfaces, by rw [waiting, if_neg unreached], fun h => absurd h unreached⟩
    rw [if_neg fun both => unreached both.2, State.mark, State.mark, marks]
  · have ends := State.afterArrival_raised (c := c) ok unordered reached
    obtain ⟨advanced, rise, frame, palettes, engines⟩ := State.signalling_advanced running State.own_mem_signalEndings ends
    refine ⟨advanced, (State.raised_marksRise reached).trans rise, frame, palettes, engines, fun _ => ⟨?_, ?_⟩,
      fun below => absurd reached (Nat.not_le.2 below), fun nothing => ?_⟩
    · have raised : ((s.raised f c r m v).mark m).toNat ≤ _ := rise m
      rwa [State.raised_mark, if_pos rfl] at raised
    · obtain ⟨answered, posted⟩ := State.raised_own used nodup ends
      exact ⟨answered, posted, fun w listed mark value => State.raised_wait used nodup listed (WaitEntry.satisfiedBy_iff.2 ⟨mark, value⟩)
        (others w listed) (waits w listed).2 ends⟩
    · have none : ReleasesNone (s.raised f c r m v) (s.signalEnds f.slot m v) :=
        releasesNone_of_window nothing (State.signalEnds_iff.2 (.inl rfl)) (fun j => State.signalling_slot) rfl
      obtain ⟨marks, surfaces, waiting⟩ := State.raised_releasesNone others waits distinct none running ends
      refine ⟨fun n => ?_, surfaces, waiting.trans (if_pos reached).symm, fun _ w listed mark value d queue state =>
        State.raised_opened used others waits distinct none running ends listed (WaitEntry.satisfiedBy_iff.2 ⟨mark, value⟩) queue state⟩
      rw [State.mark, marks]
      exact (State.mark_setMark s m n v).trans (if_congr (by simp [reached, eq_comm]) rfl rfl)

end Sys2Proof.Machine
end

section
/-! PROOF. The commands of the completion unit: the issue of one write (R138, R141), the step that accepts one (R142, R145, R146), and what
they keep. -/

namespace Sys2Proof.Machine

open Sys2Proof.Safety

/-! ## COMPLETION_WRITE_ISSUE -/

theorem State.mayIssue_iff {s : State} {c : CompletionQueue} : s.mayIssue c = true ↔
    (s.control.deviceState = .running ∨ s.control.deviceState = .stopping) ∧ c.inFlight = none ∧ c.outstanding + 1 < c.size := by
  simp [State.mayIssue, and_assoc]

/-- A completion queue that may issue puts the write of its oldest member in flight. -/
theorem State.issue_oldest {s : State} {k : CqId} {c : CompletionQueue} {i : SlotId} {rest : List SlotId} (h : s.cq k = some c)
    (oldest : c.posting = i :: rest) (may : s.mayIssue c = true) : s.issue k = s.putInFlight k c (s.completionWrite c i) := by
  simp only [State.issue, h, oldest, may, if_true]

theorem exec_completionWriteIssue {s : State} {k : CqId} {c : CompletionQueue} {i : SlotId} {rest : List SlotId} (h : s.cq k = some c)
    (oldest : c.posting = i :: rest) (may : s.mayIssue c = true) :
    exec (.completionWriteIssue k) s = .next (s.choose.putInFlight k c (s.choose.completionWrite c i)) := by
  have due : s.writesDue.contains k = true := by simp [State.writesDue, h, oldest, may]
  show execCompletionWriteIssue k s = _
  rw [execCompletionWriteIssue, if_pos due, State.issue_oldest (s := s.choose) h oldest may]

/-- Settles O53: the conditions of R141 hold, so the write of the oldest member goes in flight. -/
theorem oldestMemberIsWritten : Obligations.OldestMemberIsWritten := by
  intro s k c i rest q d st h oldest alive idle room inQueue used status
  refine ⟨s.choose.completionWrite c i, st.code, ?_, rfl, by cases st <;> rfl, rfl, rfl, ?_⟩
  · rw [exec_completionWriteIssue h oldest (State.mayIssue_iff.2 ⟨alive, idle, room⟩), State.putInFlight]
    show Host.Outcome.next (if s.link.busMastering = true then _ else _) = _
    by_cases on : s.link.busMastering = true
    · simp only [if_pos on]; rfl
    · simp only [if_neg on]; rfl
  · have inQueue' : (s.choose.slot i).queue = some q := inQueue
    have status' : (s.choose.slot i).status = some st := status
    have used' : s.choose.queue q = some d := used
    simp only [State.completionWrite, State.completionEntry, CompletionEntry.bytes, inQueue', status', used', Option.bind_some,
      Option.getD_some]
    rfl

/-! ## COMPLETION_WRITE_ACCEPTED -/

/-- The context of a completion queue once its entry in slot i is accepted at this reading of the device timer (steps 1 to 4 of R142). -/
def CompletionQueue.taken (c : CompletionQueue) (i : SlotId) (now : Time) : CompletionQueue := (c.advance i).countEntry now

/-- The accepted entry stands among the part's writes, and its completion queue has counted it. -/
def State.entryTaken (s : State) (k : CqId) (c : CompletionQueue) (w : CompletionWrite) : State :=
  ((s.accept w.address w.entry.bytes).dropIssued k).setCq k (some (c.taken w.slot s.control.timer))

/-- The vector is signalled when the count has reached the threshold (R145). -/
def State.signalCount (s : State) (c : CompletionQueue) : State := if c.threshold ≤ c.count + 1 then s.interrupt c.vector else s

theorem State.writeAccepted_eq (s : State) (k : CqId) (c : CompletionQueue) (w : CompletionWrite) :
    s.writeAccepted k c w = (((s.entryTaken k c w).freeSlot w.slot).signalCount c).conclude.serveFetch := rfl

/-- The write that the link takes next is accepted (R141, R142). -/
theorem exec_completionWriteAccepted {s : State} {k : CqId} {c : CompletionQueue} {w : CompletionWrite} (h : s.cq k = some c)
    (inFlight : c.inFlight = some w) (sent : w.sent = true) (first : TakenNext s k) :
    exec (.completionWriteAccepted k) s = .next (((s.entryTaken k c w).freeSlot w.slot).signalCount c).conclude.serveFetch := by
  show execCompletionWriteAccepted k s = _
  simp only [execCompletionWriteAccepted, h, inFlight, sent, (s.takesNext_iff k).2 first, Bool.and_self, if_true,
    State.writeAccepted_eq]

/-- COMPLETION_WRITE_ACCEPTED accepts the write in flight or does nothing. -/
theorem execCompletionWriteAccepted_cases {s t : State} {k : CqId} (h : execCompletionWriteAccepted k s = .next t) : t = s ∨
    ∃ c w, s.cq k = some c ∧ c.inFlight = some w ∧ TakenNext s k ∧
      t = (((s.entryTaken k c w).freeSlot w.slot).signalCount c).conclude.serveFetch := by
  unfold execCompletionWriteAccepted at h
  split at h
  · cases h; exact .inl rfl
  · next c hc =>
    split at h
    · cases h; exact .inl rfl
    · next w hw =>
      split at h <;> cases h
      · next taken => exact .inr ⟨c, w, hc, hw, (s.takesNext_iff k).1 (Bool.and_eq_true_iff.1 taken).2, s.writeAccepted_eq k c w⟩
      · exact .inl rfl

/-! ## What the commands keep (R141) -/

/-- A write goes in flight where the ring has room for it. -/
theorem State.issue_keeps (s : State) (k : CqId) : Keeps s (s.issue k) := by
  unfold State.issue
  split
  · exact .refl s
  · next c hc =>
    split
    · exact .refl s
    · next i _ _ =>
      split
      · next may =>
        obtain ⟨-, idle, room⟩ := State.mayIssue_iff.1 may
        have inFlight := State.setCq_keeps (d := { c with inFlight := some (s.completionWrite c i) }) hc rfl (.inr room)
        unfold State.putInFlight
        dsimp only
        split
        · exact inFlight.trans (State.emit_keeps _ _)
        · exact inFlight
      · exact .refl s

theorem execCompletionWriteIssue_keeps {s t : State} {k : CqId} (h : execCompletionWriteIssue k s = .next t) : Keeps s t := by
  unfold execCompletionWriteIssue at h
  split at h <;> cases h
  · exact (Keeps.of_settled s.choose_settled).trans (State.issue_keeps _ k)
  · exact .refl s

theorem CompletionQueue.taken_ring (c : CompletionQueue) (i : SlotId) (now : Time) : (c.taken i now).size = c.size ∧
    (c.taken i now).outstanding = c.outstanding + 1 ∧ (c.taken i now).inFlight = none := by
  unfold CompletionQueue.taken CompletionQueue.countEntry
  split <;> exact ⟨rfl, rfl, rfl⟩

/-- An accepted entry takes the place in the ring that its write in flight held. -/
theorem State.entryTaken_keeps {s : State} {k : CqId} {c : CompletionQueue} {w : CompletionWrite} (h : s.cq k = some c)
    (inFlight : c.inFlight = some w) : Keeps s (s.entryTaken k c w) := by
  obtain ⟨size, outstanding, answered⟩ := c.taken_ring w.slot s.control.timer
  refine ((s.accept_keeps _ _).trans (State.dropIssued_keeps _ k)).trans (State.setCq_keeps h size (.inl ?_))
  simp [CompletionQueue.load, outstanding, answered, inFlight]

theorem State.signalCount_settled (s : State) (c : CompletionQueue) : Settled s (s.signalCount c) := by
  unfold State.signalCount
  split
  · exact s.interrupt_settled _
  · exact .refl s

theorem execCompletionWriteAccepted_keeps {s t : State} {k : CqId} (h : execCompletionWriteAccepted k s = .next t) : Keeps s t := by
  rcases execCompletionWriteAccepted_cases h with rfl | ⟨c, w, hc, inFlight, -, rfl⟩
  · exact .refl t
  · exact ((State.entryTaken_keeps hc inFlight).trans (.of_settled (((State.freeSlot_settled _ _).trans
      (State.signalCount_settled _ c)).trans (State.conclude_settled _)))).trans (State.serveFetch_keeps _)

end Sys2Proof.Machine
end

section
/-! PROOF. The ring law (R141, R143): no command overruns a completion ring. -/

namespace Sys2Proof.Machine

open Sys2Proof.Safety

/-! ## The relation -/

/-- If no completion ring is overrun in s, none is in t. -/
def RingsLast (s t : State) : Prop := RingsBounded s → RingsBounded t

namespace RingsLast

variable {s t u : State}

theorem refl (s : State) : RingsLast s s := id

theorem trans (h : RingsLast s t) (g : RingsLast t u) : RingsLast s u := g ∘ h

theorem of_same (cqs : t.cqs = s.cqs) : RingsLast s t := fun bounded k c h => bounded k c (by rwa [State.cq, cqs] at h)

/-- With no completion queue configured there is no ring. -/
theorem of_none (cleared : ∀ k, t.cq k = none) : RingsLast s t := fun _ k _ h => absurd ((cleared k).symm.trans h) nofun

theorem of_keeps (h : Keeps s t) : RingsLast s t := fun bounded k d hd => by
  obtain ⟨c, hc, size, load⟩ := h.cqs k d hd
  have before : c.load + 1 ≤ c.size := bounded k c hc
  show d.load + 1 ≤ d.size
  omega

/-- What is kept from a state that has the same completion queues. -/
theorem of_keeps_from (h : Keeps u t) (cqs : u.cqs = s.cqs) : RingsLast s t := (of_same cqs).trans (of_keeps h)

/-- Whatever is done only while the link is up. -/
theorem whileUp (h : RingsLast s t) : RingsLast s (s.whileUp t) := by
  unfold State.whileUp
  split
  · exact h
  · exact refl s

end RingsLast

/-! ## The register writes -/

theorem State.submitWrite_rings (s : State) (q : QueueId) (tail : BitVec 12) : RingsLast s (s.submitWrite q tail) := by
  unfold State.submitWrite
  split
  · exact .of_same rfl
  · split
    · exact .of_keeps_from (State.serveFetch_keeps _) rfl
    · exact .of_same rfl

/-- A CONSUME that is taken lowers outstanding, and a write is issued only into the room that is then in the ring (R143). -/
theorem State.consumeWrite_rings (s : State) (k : CqId) (head : BitVec 12) : RingsLast s (s.consumeWrite k head) := by
  unfold State.consumeWrite
  split
  · exact .of_same rfl
  · next c hc =>
    dsimp only
    split
    · refine .of_keeps (.trans (State.setCq_keeps hc ?_ (.inl ?_)) (.of_settled (State.issueWrites_settled _)))
      · rfl
      · exact Nat.add_le_add_right (Nat.sub_le _ _) _
    · exact .of_same rfl

theorem State.resumeAction_rings (s : State) (q : QueueId) : RingsLast s (s.resumeAction q) := by
  unfold State.resumeAction
  split
  · exact .of_same rfl
  · split
    · exact .of_keeps_from (State.serveFetch_keeps _) rfl
    · exact .of_same rfl

theorem State.abortAction_rings (s : State) (q : QueueId) : RingsLast s (s.abortAction q) := by
  unfold State.abortAction
  split
  · exact .of_same rfl
  · split
    · exact .of_keeps ((s.abort_keeps q _).trans (State.serveFetch_keeps _))
    · exact .of_same rfl

theorem State.qctlWrite_rings (s : State) (value : BitVec 32) : RingsLast s (s.qctlWrite value) := by
  unfold State.qctlWrite
  dsimp only
  split
  · exact s.resumeAction_rings _
  · exact s.abortAction_rings _
  · exact .of_same rfl

theorem State.enableWrite_rings (s : State) : RingsLast s s.enableWrite := by
  unfold State.enableWrite
  split
  · exact .refl s
  · split
    · exact .of_keeps s.beginLoad_keeps
    · exact .of_same rfl
    · exact .of_same rfl
    · exact .refl s
    · exact .refl s

theorem State.resetBlocks_cq (s : State) (k : CqId) : s.resetBlocks.cq k = none := by simp [State.cq, State.resetBlocks]

theorem State.controlWrite_rings (s : State) (value : BitVec 32) : RingsLast s (s.controlWrite value) := by
  unfold State.controlWrite
  split
  · exact .of_none s.resetBlocks_cq
  · split
    · exact s.enableWrite_rings
    · exact .of_keeps s.disableWrite_keeps

theorem State.wordWrite_rings (s : State) (offset : BitVec 12) (value : BitVec 32) : RingsLast s (s.wordWrite offset value) := by
  unfold State.wordWrite
  split
  · exact .of_same rfl
  · exact .of_same rfl
  · exact s.controlWrite_rings value
  · exact .of_same rfl
  · exact s.submitWrite_rings _ _
  · exact s.consumeWrite_rings _ _
  · exact s.qctlWrite_rings value
  · exact .refl s

/-! ## Loading and records -/

/-- A completion queue has written nothing as the setup record configures it, and its ring is not empty (R137, R171). -/
theorem setupCq_load {r : SetupRecord} {k : CqId} {c : CompletionQueue} (h : setupCq r k = some c) : c.load + 1 ≤ c.size := by
  obtain ⟨accepted, given, -⟩ := setupCq_eq_some.1 h
  have size : c.size = field r (0x90 + 16 * k.val + 8) 2 := by
    rw [given, show 0x90 + 16 * k.val + 8 = 0x98 + 16 * k.val by omega]
  have positive : c.size ≠ 0 := fun empty => accepted (.inl (.inr (.inl fun n _ _ power => by
    have := Nat.two_pow_pos n
    omega)))
  have unused : c.load = 0 := by rw [given]; rfl
  omega

theorem State.enterRunning_rings (s : State) (r : SetupRecord) : RingsLast s (s.enterRunning r) := by
  intro _ k c h
  have configured : (setupCqs r)[k] = some c := by
    unfold State.enterRunning State.signalDevice at h
    rw [State.interrupt_same] at h
    exact h
  unfold setupCqs at configured
  simp only [Fin.getElem_fin, Vector.getElem_ofFn] at configured
  split at configured
  · exact setupCq_load configured
  · cases configured

theorem execSetupReadArrival_rings {s t : State} {r : SetupRecord} (h : execSetupReadArrival r s = .next t) : RingsLast s t := by
  have vector : (s.takeDeviceVector r).cqs = s.cqs := by
    unfold State.takeDeviceVector
    split <;> rfl
  unfold execSetupReadArrival at h
  split at h
  · split at h <;> cases h
    · unfold State.setupArrived
      dsimp only
      split
      · exact (RingsLast.of_same vector).trans (State.enterRunning_rings _ r)
      · exact .of_keeps_from (State.enterFault_keeps _ _) vector
    · exact .refl s
  · cases h
    exact .refl s

theorem execRecordArrival_rings {s t : State} {r : OpRecord} (h : execRecordArrival r s = .next t) : RingsLast s t := by
  rcases execRecordArrival_cases h with rfl | ⟨f, c, _, rfl⟩
  · exact .refl t
  · refine .trans ?_ (.of_keeps (State.serveFetch_keeps _))
    cases judged : s.checkRecord r with
    | error st =>
      rw [State.afterArrival_refused judged]
      exact .of_keeps_from (.of_settled (State.endSlots_settled _ _)) rfl
    | ok op =>
      rw [State.afterArrival_admitted judged]
      exact .of_keeps_from (State.firstState_keeps _ _ _ _ _) (by rw [State.admissionEffect_same]; rfl)

/-! ## Every command -/

theorem exec_rings {c : Instr} {s t : State} (h : exec c s = .next t) : RingsLast s t := by
  cases c with
  | submit q tail => cases h; exact (s.submitWrite_rings q tail).whileUp
  | consume k head => cases h; exact (s.consumeWrite_rings k head).whileUp
  | resume q => cases h; exact (s.resumeAction_rings q).whileUp
  | abort q => cases h; exact (s.abortAction_rings q).whileUp
  | enable => cases h; exact s.enableWrite_rings.whileUp
  | disable => exact .of_keeps (execDisable_keeps h)
  | functionReset => cases h; exact (RingsLast.of_none s.resetBlocks_cq).whileUp
  | statusClear v => cases h; exact RingsLast.whileUp (.of_same rfl)
  | setupAddressWrite half v => exact .of_keeps (execSetupAddressWrite_keeps h)
  | registerWrite offset size v =>
    cases h
    refine RingsLast.whileUp ?_
    split
    · exact s.wordWrite_rings offset v
    · exact .refl s
  | coldReset => cases h; exact .of_none s.resetBlocks_cq
  | linkReset => cases h; exact .of_none s.resetBlocks_cq
  | pendingMessageSend a b l => exact .of_keeps (execPendingMessageSend_keeps h)
  | setupReadArrival r => exact execSetupReadArrival_rings h
  | setupReadFault => exact .of_keeps (execSetupReadFault_keeps h)
  | abandonedReadAnswer => cases h; exact .refl s
  | fetchStart i => exact .of_keeps (execFetchStart_keeps h)
  | recordArrival r => exact execRecordArrival_rings h
  | fetchFault => exact .of_keeps (execFetchFault_keeps h)
  | overtakenFetchEnd => exact .of_keeps (execOvertakenFetchEnd_keeps h)
  | abortAckPlace q i => exact .of_keeps (execAbortAckPlace_keeps h)
  | dispatch => exact .of_keeps (execDispatch_keeps h)
  | hostReadData e a d =>
    rcases execHostReadData_cases h with rfl | ⟨j, _, ⟨pixel, host, _, _, _, _, _, hop, rfl⟩ | ⟨p, first, _, _, hop, rfl⟩⟩
    · exact .refl t
    · exact .of_keeps_from (s.importData_keeps e (by rw [hop]; rfl) pixel d host) rfl
    · exact .of_keeps_from (s.entryData_keeps e (by rw [hop]; rfl) p first d) rfl
  | exportWriteAccepted e n => exact .of_keeps (execExportWriteAccepted_keeps h)
  | lineComplete e =>
    rcases execLineComplete_cases h with rfl | ⟨j, _, rfl⟩
    · exact .refl t
    · exact .of_keeps_from (s.completeLine_keeps e j) rfl
  | importReadFault e => exact .of_keeps (execImportReadFault_keeps h)
  | exportWriteFault e => exact .of_keeps (execExportWriteFault_keeps h)
  | loadpalReadFault e => exact .of_keeps (execLoadpalReadFault_keeps h)
  | completionWriteIssue k => exact .of_keeps (execCompletionWriteIssue_keeps h)
  | completionWriteAccepted k => exact .of_keeps (execCompletionWriteAccepted_keeps h)
  | completionWriteFault k => exact .of_keeps (execCompletionWriteFault_keeps h)
  | abandonedWriteAnswer r => exact .of_keeps (execAbandonedWriteAnswer_keeps h)
  | messageWriteFault n => exact .of_keeps (execMessageWriteFault_keeps h)
  | coalescingTimerExpiry k => exact .of_keeps (execCoalescingTimerExpiry_keeps h)
  | waitExpiry i => exact .of_keeps (execWaitExpiry_keeps h)
  | frameStart => exact .of_keeps (execFrameStart_keeps h)
  | pcieConfigurationTurnOff a b l => exact .of_keeps (execPcieConfigurationTurnOff_keeps h)
  | linkUp => exact .of_keeps (execLinkUp_keeps h)
  | scanPixel x r => exact .of_keeps_from (execScanPixel_keeps h).1 rfl
  | abandonedFetchAnswer => cases h; exact .refl s
  | abandonedEngineAccessAnswer => cases h; exact .refl s

/-- Settles O9: a step runs a command on a state with the same completion queues, or counts one µs. -/
theorem ringsStayBounded : Obligations.RingsStayBounded := fun s t bounded h => by
  rcases step_cases h with ⟨c, u, ran, agree⟩ | rfl
  · exact exec_rings ran (RingsLast.of_same (by rw [agree]) bounded)
  · exact bounded

end Sys2Proof.Machine
end

section
/-! PROOF. The commands of the host link: LINK_UP, the PCIe configuration turned off and on, the messages that go when it is turned on, and a
message that is dropped (R147, R179). -/

namespace Sys2Proof.Machine

open Sys2Proof.Safety

/-! ## The configuration -/

theorem HostLink.allows_iff (l : HostLink) (v : VectorId) : l.allows v = true ↔
    l.messageInterrupts = true ∧ l.busMastering = true ∧ l.masked[v] = false := by
  simp [HostLink.allows, and_assoc]

theorem HostLink.turnOff_masked (l : HostLink) (bm mi : Bool) (mask : List VectorId) (v : VectorId) :
    (l.turnOff bm mi mask).masked[v] = if v ∈ mask then true else l.masked[v] := by
  by_cases named : v ∈ mask <;> simp [HostLink.turnOff, named]

theorem HostLink.turnOn_masked (l : HostLink) (bm mi : Bool) (unmask : List VectorId) (v : VectorId) :
    (l.turnOn bm mi unmask).masked[v] = if v ∈ unmask then false else l.masked[v] := by
  by_cases named : v ∈ unmask <;> simp [HostLink.turnOn, named]

/-- An enable that is turned off. -/
theorem and_not_eq_ite (on off : Bool) : (on && !off) = if off then false else on := by cases off <;> simp

/-- Settles O28: what the configuration is left with is read off enable by enable and vector by vector. -/
theorem linkCommands : Obligations.LinkCommands := by
  refine ⟨fun s => rfl, fun s bm mi mask up => ?_, fun s n v message => ?_⟩
  · refine ⟨{ s with link := s.link.turnOff bm mi mask }, ?_, rfl, and_not_eq_ite _ _, and_not_eq_ite _ _,
      s.link.turnOff_masked bm mi mask⟩
    show execPcieConfigurationTurnOff bm mi mask s = _
    rw [execPcieConfigurationTurnOff, if_pos up]
  · show execMessageWriteFault n s = _
    simp only [execMessageWriteFault, message, LinkWrite.isMessage, if_true]

/-! ## The messages that go -/

theorem HostLink.mem_sendable (l : HostLink) (v : VectorId) : v ∈ l.sendable ↔ l.pendingFlags[v] = true ∧
    l.messageInterrupts = true ∧ l.busMastering = true ∧ l.masked[v] = false := by
  rw [HostLink.sendable, List.mem_filter, Bool.and_eq_true, HostLink.allows_iff]
  exact and_iff_right (List.mem_finRange v)

/-- Messages go out behind every earlier write, in the order of the list. -/
theorem State.foldl_emit_messages (l : List VectorId) (s : State) : l.foldl (fun t v => t.emit (.message v)) s =
    { s with link := { s.link with written := s.link.written ++ l.map LinkWrite.message } } := by
  induction l generalizing s with
  | nil => simp
  | cons v rest ih => rw [List.foldl_cons, ih]; simp [State.emit]

theorem State.sendPending_eq (s : State) : s.sendPending = { s with
    link := { s.link with
      pendingFlags := Vector.ofFn fun v => s.link.pendingFlags[v] && !s.link.sendable.contains v
      written := s.link.written ++ (s.together s.link.sendable).map LinkWrite.message }
    choices := s.choices + 1 } := State.foldl_emit_messages _ _

/-- Settles O29: the vectors that may send are those that are sendable once the configuration is on, in a free order. -/
theorem pendingMessagesGoOnce : Obligations.PendingMessagesGoOnce := by
  intro s bm mi unmask up
  generalize on : ({ s with link := s.link.turnOn bm mi unmask } : State) = u
  have order := u.together_perm u.link.sendable
  have masked (v : VectorId) : u.link.masked[v] = if v ∈ unmask then false else s.link.masked[v] := by
    rw [← on]; exact s.link.turnOn_masked bm mi unmask v
  have flags : u.link.pendingFlags = s.link.pendingFlags := by rw [← on]; rfl
  have sends : exec (.pendingMessageSend bm mi unmask) s = .next u.sendPending := by
    show execPendingMessageSend bm mi unmask s = _
    rw [execPendingMessageSend, if_pos up, ← on]
  refine ⟨u.sendPending, u.together u.link.sendable, sends, ?_, ?_, fun v => ?_, ?_,
    order.nodup_iff.2 ((List.nodup_finRange 32).filter _), fun v => ?_, fun v => ?_, ?_⟩
  all_goals rw [State.sendPending_eq]
  · rw [← on]; rfl
  · rw [← on]; rfl
  · exact masked v
  · rw [← on]; rfl
  · rw [order.mem_iff, ← flags]
    exact u.link.mem_sendable v
  · by_cases goes : v ∈ u.link.sendable <;> simp [order.mem_iff, goes, flags]
  · rw [← on]; rfl

end Sys2Proof.Machine
end

section
/-! PROOF. The accepted completion write (R80, R141, R142, R145, R146, R151). -/

namespace Sys2Proof.Machine

open Sys2Proof.Safety

/-! ## The entry is counted -/

/-- The accepted entry in the terms of R142, R145 and R146: the model's two steps on the context are one record, and its writes are those
that the link has taken. -/
theorem State.entryTaken_eq (s : State) (k : CqId) (c : CompletionQueue) (w : CompletionWrite) : s.entryTaken k c w =
    { s.setCq k (some { c with
        tail := (c.tail + 1) % c.size
        lap := if c.tail + 1 = c.size then if c.lap = 255#8 then 1#8 else c.lap + 1#8 else c.lap
        outstanding := c.outstanding + 1
        posting := c.posting.filter (· ≠ w.slot)
        inFlight := none
        count := if c.threshold ≤ c.count + 1 then 0 else c.count + 1
        deadline :=
          if c.threshold ≤ c.count + 1 then none
          else if c.count = 0 ∧ c.timer ≠ 0 then some (s.control.timer + BitVec.ofNat 64 (c.timer * 10))
          else c.deadline }) with
      link := { s.link with
        written := (acceptBytes w.address w.entry.bytes s.link.written).filter fun x => !x.isIssuedBy k } } := by
  unfold State.entryTaken CompletionQueue.taken CompletionQueue.countEntry CompletionQueue.advance
  by_cases full : c.threshold ≤ c.count + 1
  · simp only [if_pos full]; rfl
  · simp only [if_neg full]; rfl

/-! ## The step while the device goes on -/

theorem State.signalCount_same (s : State) (c : CompletionQueue) : s.signalCount c = { s with link := (s.signalCount c).link } := by
  unfold State.signalCount
  split
  · exact s.interrupt_same _
  · rfl

/-- The vector is signalled at the threshold, and the link stays as it is below it (R145). -/
theorem State.signalCount_link (s : State) (c : CompletionQueue) :
    if c.threshold ≤ c.count + 1 then Signalled s.link (s.signalCount c).link c.vector else (s.signalCount c).link = s.link := by
  unfold State.signalCount
  split
  · exact s.interrupt_signalled _
  · rfl

/-- A command for a write that the link cannot take now changes nothing (R141, log 1). -/
theorem exec_completionWriteAccepted_early {s : State} {k : CqId} (early : ¬TakenNext s k) :
    exec (.completionWriteAccepted k) s = .next s := by
  have waits : s.link.takesNext k = false := by rw [← Bool.not_eq_true, s.takesNext_iff]; exact early
  show execCompletionWriteAccepted k s = _
  unfold execCompletionWriteAccepted
  split
  · rfl
  · split
    · rfl
    · rw [waits, Bool.and_false, if_neg Bool.false_ne_true]

/-- No stop ends with a step after which the device runs or a slot is held (R175). -/
theorem State.conclude_goesOn {s u : State} (control : u.control = s.control) {i : SlotId} (others : ∀ j, j ≠ i → u.slot j = s.slot j)
    (goesOn : s.control.deviceState = .running ∨ s.control.deviceState = .stopping ∧ ∃ j, j ≠ i ∧ (s.slot j).state ≠ .free) :
    u.conclude = u.issueWrites := by
  rcases goesOn with running | ⟨-, j, other, held⟩
  · exact State.conclude_running (by rw [control, running]; exact nofun)
  · exact State.conclude_held (i := j) (by rwa [others j other])

/-- Settles O54: the entry is counted, the slot freed, the vector signalled, and the writes that are then due are issued. -/
theorem acceptedWriteFreesSlot : Obligations.AcceptedWriteFreesSlot := by
  refine ⟨fun s k early => exec_completionWriteAccepted_early early, fun s k c w q d goesOn h inFlight sent first inQueue used => ?_⟩
  generalize hu : (s.entryTaken k c w).freeSlot w.slot = u
  have freed : SlotFreed (s.entryTaken k c w) u w.slot q d := hu ▸ State.freeSlot_spec (s := s.entryTaken k c w) inQueue used
  have control : (u.signalCount c).control = s.control := by
    rw [State.signalCount_same, ← hu]
    exact (State.freeSlot_goes (s.entryTaken k c w) w.slot).control
  have others (j : SlotId) (other : j ≠ w.slot) : (u.signalCount c).slot j = s.slot j := by
    rw [State.signalCount_same, ← hu]
    exact State.freeSlot_slot_ne (s := s.entryTaken k c w) (Ne.symm other)
  have issued := (u.signalCount c).issueWrites_spec
  rw [← State.conclude_goesOn control others goesOn] at issued
  have accepted := exec_completionWriteAccepted h inFlight sent first
  rw [hu] at accepted
  rw [State.entryTaken_eq] at freed
  have signalled := u.signalCount_same c
  exact ⟨u, (u.signalCount c).link, _, _, goesTo_of_serve accepted, acceptBytes_spec _ _ _, freed, u.signalCount_link c,
    signalled ▸ issued⟩

end Sys2Proof.Machine
end

section
/-! PROOF. The completion write that ends a stop: what the part tells the host in its step, and what the device is left with (R141, R147,
R148, R175). -/

namespace Sys2Proof.Machine

open Sys2Proof.Safety

/-! ## What the part has told the host -/

/-- From link l to link m the part has issued the writes x, behind every earlier one; the configuration stays, and so does every flag that is
pending. -/
structure Issues (l m : HostLink) (x : List LinkWrite) : Prop where
  written : m.written = l.written ++ x
  allows : ∀ v, m.allows v = l.allows v
  flags : ∀ v : VectorId, l.pendingFlags[v] = true → m.pendingFlags[v] = true

/-- Among the writes x that lead to link m there is the message of the vector; where the configuration does not let it go, the vector is pending
there (R147). -/
def Told (m : HostLink) (x : List LinkWrite) (v : VectorId) : Prop :=
  (m.allows v = true → .message v ∈ x) ∧ (m.allows v = false → m.pendingFlags[v] = true)

namespace Issues

variable {l m n : HostLink} {x y : List LinkWrite}

theorem refl (l : HostLink) : Issues l l [] := ⟨(List.append_nil _).symm, fun _ => rfl, fun _ => id⟩

theorem trans (h : Issues l m x) (g : Issues m n y) : Issues l n (x ++ y) where
  written := by rw [g.written, h.written, List.append_assoc]
  allows := fun v => (g.allows v).trans (h.allows v)
  flags := fun v pending => g.flags v (h.flags v pending)

/-- What the host has been told stays told. -/
theorem told_before (h : Issues m n y) {v : VectorId} (told : Told m x v) : Told n (x ++ y) v :=
  ⟨fun may => List.mem_append_left y (told.1 ((h.allows v).symm.trans may)),
    fun barred => h.flags v (told.2 ((h.allows v).symm.trans barred))⟩

end Issues

theorem Told.after {m : HostLink} {x : List LinkWrite} {v : VectorId} (h : Told m x v) (y : List LinkWrite) : Told m (y ++ x) v :=
  ⟨fun may => List.mem_append_right y (h.1 may), h.2⟩

/-- The message of a vector, where the configuration lets it go. -/
def HostLink.messages (l : HostLink) (v : VectorId) : List LinkWrite := if l.allows v then [.message v] else []

theorem State.interrupt_issues (s : State) (v : VectorId) : Issues s.link (s.interrupt v).link (s.link.messages v) ∧
    Told (s.interrupt v).link (s.link.messages v) v := by
  unfold State.interrupt HostLink.messages
  split
  · next may =>
    exact ⟨⟨rfl, fun _ => rfl, fun _ => id⟩, fun _ => List.mem_singleton_self _, fun barred => absurd (may.symm.trans barred) nofun⟩
  · next barred =>
    refine ⟨⟨(List.append_nil _).symm, fun _ => rfl, fun p pending => ?_⟩, fun may => absurd may barred, fun _ => ?_⟩
    · simp only [Fin.getElem_fin, Vector.getElem_set] at pending ⊢
      split
      · rfl
      · exact pending
    · simp

/-- Every vector of a list is signalled in its turn. -/
theorem State.foldl_interrupt_issues (vs : List VectorId) : ∀ s : State, ∃ x, Issues s.link (vs.foldl State.interrupt s).link x ∧
    ∀ v ∈ vs, Told (vs.foldl State.interrupt s).link x v := by
  induction vs with
  | nil => exact fun s => ⟨[], .refl _, nofun⟩
  | cons v rest ih =>
    intro s
    obtain ⟨first, told⟩ := s.interrupt_issues v
    obtain ⟨x, others, toldOthers⟩ := ih (s.interrupt v)
    refine ⟨s.link.messages v ++ x, first.trans others, fun p member => ?_⟩
    rcases List.mem_cons.1 member with rfl | member
    · exact others.told_before told
    · exact (toldOthers p member).after _

/-- The issue of what is due tells the host of no interrupt, and takes none back. -/
theorem State.issueWrites_issues (s : State) : ∃ x, Issues s.link s.issueWrites.link x := by
  obtain ⟨l, -, -, same, -⟩ := s.issueWrites_spec
  rw [same]
  exact ⟨l.filterMap (nextIssued s), rfl, fun _ => rfl, fun _ => id⟩

theorem State.signalCount_issues (s : State) (c : CompletionQueue) : ∃ x, Issues s.link (s.signalCount c).link x ∧
    (c.threshold ≤ c.count + 1 → Told (s.signalCount c).link x c.vector) := by
  unfold State.signalCount
  split
  · exact ⟨_, (s.interrupt_issues c.vector).1, fun _ => (s.interrupt_issues c.vector).2⟩
  · next below => exact ⟨[], .refl _, fun full => absurd full below⟩

/-! ## The end of a stop -/

/-- The completion queues' interrupts have gone and everything is unconfigured: the device enters OFF (R148, R175). -/
def State.atOff (s : State) : State :=
  { s.stopInterrupts.unconfigure with control := { s.control with deviceState := .off } }

/-- The passage from STOPPING to OFF signals the device vector last (R148). -/
theorem State.finishStop_eq {s : State} (stopping : s.control.deviceState = .stopping) (free : ∀ i, (s.slot i).state = .free) :
    s.finishStop = s.atOff.interrupt s.control.deviceVector := by
  have window : s.windowFree = true := List.all_eq_true.2 fun i _ => decide_eq_true (free i)
  have control : s.stopInterrupts.control = s.control := by rw [s.stopInterrupts_same]
  unfold State.finishStop State.atOff
  rw [if_pos ⟨stopping, window⟩, ← control]
  rfl

/-- The vectors of the completion queues whose count is at least 1 are signalled (R148). -/
theorem State.stopInterrupts_issues (s : State) : ∃ x, Issues s.link s.stopInterrupts.link x ∧
    ∀ p b, s.cq p = some b → 1 ≤ b.count → Told s.stopInterrupts.link x b.vector := by
  obtain ⟨x, queues, told⟩ := State.foldl_interrupt_issues _ s.choose
  refine ⟨x, queues, fun p b h counted => told b.vector ?_⟩
  rw [(s.together_perm _).mem_iff, List.mem_filterMap]
  exact ⟨p, List.mem_finRange p, by simp [h, counted]⟩

theorem HostLink.messages_congr {l m : HostLink} {v : VectorId} (allows : m.allows v = l.allows v) : m.messages v = l.messages v := by
  unfold HostLink.messages
  rw [allows]

/-- The interrupts at the end of a stop (R148): the completion queues' first, the device vector's the last. -/
theorem State.finishStop_issues {s : State} (stopping : s.control.deviceState = .stopping) (free : ∀ i, (s.slot i).state = .free) :
    ∃ x, Issues s.link s.finishStop.link (x ++ s.link.messages s.control.deviceVector) ∧
      Told s.finishStop.link (s.link.messages s.control.deviceVector) s.control.deviceVector ∧
      ∀ p b, s.cq p = some b → 1 ≤ b.count → Told s.finishStop.link (x ++ s.link.messages s.control.deviceVector) b.vector := by
  obtain ⟨x, queues, told⟩ := s.stopInterrupts_issues
  obtain ⟨device, toldDevice⟩ := s.atOff.interrupt_issues s.control.deviceVector
  rw [← State.finishStop_eq stopping free, show s.atOff.link = s.stopInterrupts.link from rfl,
    HostLink.messages_congr (queues.allows _)] at device
  rw [← State.finishStop_eq stopping free, show s.atOff.link = s.stopInterrupts.link from rfl,
    HostLink.messages_congr (queues.allows _)] at toldDevice
  exact ⟨x, queues.trans device, toldDevice, fun p b h counted => device.told_before (told p b h counted)⟩

/-- The interrupts of a step that ends a stop, behind the completion writes that it may issue (R141, R148). -/
theorem State.conclude_issues {s : State} (stopping : s.control.deviceState = .stopping) (free : ∀ i, (s.slot i).state = .free) :
    ∃ x, Issues s.link s.conclude.link (x ++ s.link.messages s.control.deviceVector) ∧
      Told s.conclude.link (s.link.messages s.control.deviceVector) s.control.deviceVector ∧
      ∀ p b, s.cq p = some b → 1 ≤ b.count → Told s.conclude.link (x ++ s.link.messages s.control.deviceVector) b.vector := by
  have control : s.issueWrites.control = s.control := by rw [s.issueWrites_same]
  obtain ⟨x, issued⟩ := s.issueWrites_issues
  obtain ⟨y, ended, toldDevice, told⟩ := State.finishStop_issues (s := s.issueWrites) (by rw [control, stopping])
    (fun i => by rw [State.issueWrites_slot, free i])
  rw [control, HostLink.messages_congr (issued.allows _)] at ended toldDevice told
  refine ⟨x ++ y, by rw [List.append_assoc]; exact issued.trans ended, toldDevice, fun p b h counted => ?_⟩
  have kept := s.issueWrites_cq p
  rw [h] at kept
  rw [List.append_assoc]
  exact (told p _ kept counted).after x

/-- A step that ends a stop leaves the device in OFF, with every queue, every completion queue and the panel unconfigured (R60, R151, R175). -/
theorem State.conclude_stops {s : State} (stopping : s.control.deviceState = .stopping) (free : ∀ i, (s.slot i).state = .free) :
    s.conclude.serveFetch = s.conclude ∧ s.conclude.control = { s.control with deviceState := .off } ∧
      (∀ q, s.conclude.queue q = none) ∧ (∀ k, s.conclude.cq k = none) ∧ (∀ i, (s.conclude.slot i).state = .free) ∧
      s.conclude.presentation = { s.presentation with panel := none } := by
  have same := s.issueWrites_same
  have control : s.issueWrites.control = s.control := by rw [same]
  have presentation : s.issueWrites.presentation = s.presentation := by rw [same]
  obtain ⟨off, queues, cqs, panel, -⟩ := State.finishStop_stopped (s := s.issueWrites) (by rw [control, stopping])
    (fun i => by rw [State.issueWrites_slot, free i])
  rw [control] at off
  rw [presentation] at panel
  have resting : ¬FetchPossible s.conclude := fun possible => by
    have running := possible.1
    rw [State.conclude, off] at running
    cases running
  exact ⟨State.serveFetch_rest resting, off, queues, cqs, fun i => by rw [State.conclude_slot, free i], panel⟩

/-! ## The last completion write -/

/-- The context of a completion queue keeps its vector, and is signalled at the threshold or counts an entry that is not (R145, R148). -/
theorem CompletionQueue.taken_count (c : CompletionQueue) (i : SlotId) (now : Time) :
    (c.taken i now).vector = c.vector ∧ (c.threshold ≤ c.count + 1 ∨ 1 ≤ (c.taken i now).count) := by
  unfold CompletionQueue.taken CompletionQueue.countEntry
  split
  · next full => exact ⟨rfl, .inl full⟩
  · exact ⟨rfl, .inr (Nat.le_add_left 1 _)⟩

/-- Queue k, whose context is c, has counted the entry of write w, and the slot of the entry, the last that was held, is FREE: this takes s to
u (steps 1 to 4 of R142). -/
structure LastFreed (s u : State) (k : CqId) (c : CompletionQueue) (w : CompletionWrite) : Prop where
  control : u.control = s.control
  link : u.link = (s.entryTaken k c w).link
  cqs : ∀ p, u.cq p = if k = p then some (c.taken w.slot s.control.timer) else s.cq p
  free : ∀ i, (u.slot i).state = .free
  kept : u.presentation = s.presentation ∧ u.surfaces = s.surfaces ∧ u.palettes = s.palettes ∧ u.marks = s.marks ∧ u.frame = s.frame

/-- No acknowledgement takes the slot, so that it stays FREE (R58, R80). -/
theorem State.freeSlot_last {s : State} (k : CqId) (c : CompletionQueue) {w : CompletionWrite} {q : QueueId} {d : Queue}
    (inQueue : (s.slot w.slot).queue = some q) (used : s.queue q = some d) (alive : s.control.deviceState ≠ .fault)
    (unowed : ∀ n, d.abort ≠ .owed n .firstFreed) (none : s.ackOrder = []) (others : ∀ j, j ≠ w.slot → (s.slot j).state = .free) :
    LastFreed s ((s.entryTaken k c w).freeSlot w.slot) k c w := by
  have own := State.freeSlot_unclaimed (s := s.entryTaken k c w) inQueue used alive unowed none
  have settled := (s.entryTaken k c w).freeSlot_settled w.slot
  obtain ⟨surfaces, marks, presentation⟩ := (s.entryTaken k c w).freeSlot_surfaces w.slot
  obtain ⟨s0, begun, _, taken⟩ := State.freeSlot_spec (s := s.entryTaken k c w) inQueue used
  obtain ⟨s1, drained, last, _⟩ := (taken alive).2 unowed
  have freed := last none
  refine ⟨((s.entryTaken k c w).freeSlot_goes w.slot).control, by rw [freed, drained, begun]; rfl, fun p => ?_, fun j => ?_,
    presentation, surfaces, settled.palettes, marks, settled.frame⟩
  · rw [freed, drained, begun]
    exact State.cq_setCq _ _ _ _
  · by_cases same : j = w.slot
    · rw [same, own]; rfl
    · rw [State.freeSlot_slot_ne (Ne.symm same)]
      exact others j same

/-- The interrupts of the step that ends a stop with a completion write: at the threshold the queue's own, then one for each completion queue
whose count is at least 1, the device vector's the last (R145, R148). -/
theorem LastFreed.issues {s u : State} {k : CqId} {c : CompletionQueue} {w : CompletionWrite} (h : LastFreed s u k c w)
    (stopping : s.control.deviceState = .stopping) (used : s.cq k = some c) :
    ∃ x, Issues u.link (u.signalCount c).conclude.link (x ++ u.link.messages s.control.deviceVector) ∧
      Told (u.signalCount c).conclude.link (u.link.messages s.control.deviceVector) s.control.deviceVector ∧
      ∀ p b, s.cq p = some b → p = k ∨ 1 ≤ b.count →
        Told (u.signalCount c).conclude.link (x ++ u.link.messages s.control.deviceVector) b.vector := by
  have same := u.signalCount_same c
  have control : (u.signalCount c).control = s.control := by rw [same, h.control]
  have cqs (p : CqId) : (u.signalCount c).cq p = u.cq p := by rw [same]; rfl
  obtain ⟨x, counted, toldCount⟩ := u.signalCount_issues c
  obtain ⟨y, ended, toldDevice, told⟩ := State.conclude_issues (s := u.signalCount c) (by rw [control, stopping])
    (fun i => by rw [same]; exact h.free i)
  rw [control, HostLink.messages_congr (counted.allows _)] at ended toldDevice told
  refine ⟨x ++ y, by rw [List.append_assoc]; exact counted.trans ended, toldDevice, fun p b configured due => ?_⟩
  rw [List.append_assoc]
  by_cases own : k = p
  · obtain rfl : c = b := Option.some.inj (used.symm.trans (own ▸ configured))
    obtain ⟨vector, full | below⟩ := c.taken_count w.slot s.control.timer
    · exact ended.told_before (toldCount full)
    · rw [← vector]
      exact (told p _ ((cqs p).trans ((h.cqs p).trans (if_pos own))) below).after x
  · exact (told p b ((cqs p).trans ((h.cqs p).trans ((if_neg own).trans configured)))
      (due.resolve_left (Ne.symm own))).after x

/-- What has been told, in the terms of the configuration before (R147). -/
theorem Told.of_configuration {l m : HostLink} {x : List LinkWrite} {v : VectorId} (h : Told m x v) (allows : m.allows v = l.allows v) :
    if l.messageInterrupts = true ∧ l.busMastering = true ∧ l.masked[v] = false then .message v ∈ x else m.pendingFlags[v] = true := by
  split
  · next may => exact h.1 (allows.trans ((l.allows_iff v).2 may))
  · next barred => exact h.2 (allows.trans (Bool.eq_false_iff.2 fun may => barred ((l.allows_iff v).1 may)))

/-- A message that goes last is the last of the writes. -/
theorem Told.last {l m : HostLink} {v : VectorId} (h : Told m (l.messages v) v) (allows : m.allows v = l.allows v) (x : List LinkWrite) :
    if l.messageInterrupts = true ∧ l.busMastering = true ∧ l.masked[v] = false
    then (x ++ l.messages v).getLast? = some (.message v) else m.pendingFlags[v] = true := by
  have told := h.of_configuration allows
  split at told
  · next may =>
    rw [if_pos may, HostLink.messages, if_pos ((l.allows_iff v).2 may)]
    exact List.getLast?_concat
  · next barred => rwa [if_neg barred]

/-- Settles O55: the entry is counted and its slot freed, then the stop ends. -/
theorem lastSlotEndsStop : Obligations.LastSlotEndsStop := by
  intro s k c w q d stopping h inFlight sent first inQueue used unowed none others
  have accepted := exec_completionWriteAccepted h inFlight sent first
  have last := State.freeSlot_last k c inQueue used (by rw [stopping]; exact nofun) unowed none others
  generalize (s.entryTaken k c w).freeSlot w.slot = u at accepted last
  have same := u.signalCount_same c
  have control : (u.signalCount c).control = s.control := by rw [same, last.control]
  obtain ⟨rest, off, queues, cqs, slots, panel⟩ := State.conclude_stops (s := u.signalCount c) (by rw [control, stopping])
    (fun i => by rw [same]; exact last.free i)
  obtain ⟨presentation, surfaces, palettes, marks, frame⟩ := last.kept
  obtain ⟨concludedSurfaces, concludedMarks⟩ := (u.signalCount c).conclude_marks
  have concluded := (u.signalCount_settled c).trans (u.signalCount c).conclude_settled
  obtain ⟨x, issues, toldDevice, told⟩ := last.issues stopping h
  have before (v : VectorId) : u.link.allows v = s.link.allows v := by rw [last.link]; rfl
  have allows (v : VectorId) := (issues.allows v).trans (before v)
  rw [HostLink.messages_congr (before _)] at issues toldDevice told
  rw [rest] at accepted
  refine ⟨_, x ++ s.link.messages s.control.deviceVector, _, accepted, by rw [off, control], queues, cqs, slots, ?_, ?_,
    concluded.palettes.trans palettes, ?_, concluded.frame.trans frame, acceptBytes_spec _ _ _, ?_,
    fun p b configured due => (told p b configured due).of_configuration (allows _), toldDevice.last (allows _) x⟩
  · rw [panel, same]
    exact congrArg (fun p : Presentation => { p with panel := Option.none }) presentation
  · rw [concludedSurfaces, same]
    exact surfaces
  · rw [concludedMarks, same]
    exact marks
  · rw [issues.written, last.link]
    rfl

end Sys2Proof.Machine
end

section
/-! PROOF. The entries to FAULT (R110, R149, R150, R171 to R173, R176, R179). -/

namespace Sys2Proof.Machine

open Sys2Proof.Safety

/-! ## The entry -/

/-- At the entry to FAULT every engine that holds a slot is asked to stop (R102, R176). -/
theorem State.askEngines_all (s : State) (e : EngineId) : (s.askEngines fun _ => true).engine e =
    if (s.engine e).slot.isSome then stopAsked (s.engine e) else s.engine e := by
  rw [State.askEngines_engine]
  cases (s.engine e).slot <;> rfl

/-- What device control hands to the blocks at the entry to FAULT, before the device vector is signalled (R150, R176). -/
def State.faulting (s : State) (cause : FaultCause) : State :=
  ({ s with
    control := { s.control with deviceState := .fault, cause := cause, setupRead := none }
    link := { s.link with written := s.link.written.map LinkWrite.abandon }
    fetch := s.fetch.map fun (f : Fetch) => { f with discard := true }
    presentation := s.presentation.stopped
    cqs := Vector.ofFn fun k => s.cqs[k].map CompletionQueue.frozen } : State).askEngines fun _ => true

theorem State.enterFault_eq (s : State) (cause : FaultCause) :
    s.enterFault cause = (s.faulting cause).interrupt s.control.deviceVector := rfl

/-- The entry to FAULT: beside what the blocks are handed, the device vector is signalled, which touches the link alone. -/
theorem State.enterFault_signals (s : State) (cause : FaultCause) : ∃ l, s.enterFault cause = { s.faulting cause with link := l } ∧
    Signalled { s.link with written := s.link.written.map givenUp } l s.control.deviceVector := by
  refine ⟨_, State.interrupt_same _ _, ?_⟩
  rw [← LinkWrite.abandon_eq]
  exact State.interrupt_signalled (s.faulting cause) _

/-- Whatever state it finds, the entry to FAULT is that of R176. -/
theorem State.enterFault_entry (s : State) (cause : FaultCause) : FaultEntry s (s.enterFault cause) cause := by
  have queues (k : CqId) : (s.faulting cause).cq k = (s.cq k).map CompletionQueue.frozen := by
    simp [State.cq, State.faulting, State.askEngines]
  obtain ⟨l, entered, signalled⟩ := s.enterFault_signals cause
  rw [entered]
  exact ⟨rfl, signalled, rfl, rfl, queues, State.askEngines_all _, rfl, rfl, rfl, rfl, rfl, rfl, rfl, rfl, rfl, rfl⟩

/-! ## The commands that enter it -/

/-- ENABLE in OFF enters LOADING (R169, R172). -/
theorem exec_enable_off {s : State} (up : s.link.up = true) (disabled : s.control.enable = false) (off : s.control.deviceState = .off) :
    exec .enable s = .next s.beginLoad := by
  show Host.Outcome.next (s.whileUp s.enableWrite) = _
  simp only [State.whileUp_up up, State.enableWrite, disabled, off, Bool.false_eq_true, if_false]

/-- LOADING, with no read issued (R172). -/
def State.atLoading (s : State) : State :=
  { s with control := { s.control with deviceState := .loading, enable := true, cause := .none } }

/-- A load address that R172 refuses enters FAULT without a read. -/
theorem State.beginLoad_invalid {s : State} (invalid : (s.control.setupHi ++ s.control.setupLo).toNat % 64 ≠ 0 ∨
    2 ^ 64 ≤ (s.control.setupHi ++ s.control.setupLo).toNat + 255) : s.beginLoad = s.atLoading.enterFault .setupInvalid :=
  if_pos (invalid.imp_right Nat.lt_succ_of_le)

/-- The read of a good load address is refused with bus mastering off (R110, R179). -/
theorem State.beginLoad_refused {s : State} (aligned : (s.control.setupHi ++ s.control.setupLo).toNat % 64 = 0)
    (below : (s.control.setupHi ++ s.control.setupLo).toNat + 255 < 2 ^ 64) (off : s.link.busMastering = false) :
    s.beginLoad = s.atLoading.enterFault .setupRead := by
  have good : ¬(s.control.loadAddress.toNat % 64 ≠ 0 ∨ Config.hostBytes < s.control.loadAddress.toNat + 256) := by
    rintro (misaligned | past)
    · exact misaligned aligned
    · exact absurd past (Nat.not_lt.2 below)
  exact (if_neg good).trans (if_neg (Bool.eq_false_iff.1 off))

/-- The device vector of a setup record is taken when it lies in 0..31 (R173). -/
theorem State.takeDeviceVector_eq (s : State) (r : SetupRecord) : s.takeDeviceVector r = { s with control := { s.control with
    deviceVector := if h : field r 2 1 < 32 then ⟨field r 2 1, h⟩ else s.control.deviceVector } } := by
  unfold State.takeDeviceVector setupDeviceVector below
  rw [byteAt_toNat]
  by_cases h : field r 2 1 < 32 <;> simp only [h, dite_true, dite_false]

/-- A setup record that is refused enters FAULT, on its own device vector where it has one (R173). -/
theorem exec_setupReadArrival_refused {s : State} {r : SetupRecord} {rd : SetupRead} (loading : s.control.deviceState = .loading)
    (read : s.control.setupRead = some rd) (refused : SetupRefused r) :
    exec (.setupReadArrival r) s = .next ((s.takeDeviceVector r).enterFault .setupInvalid) := by
  have invalid : ¬setupValid r = true := fun valid => (setupValid_iff r).1 valid refused
  show execSetupReadArrival r s = _
  simp only [execSetupReadArrival, read, loading, State.setupArrived, if_neg invalid, if_true]

theorem exec_setupReadFault {s : State} {rd : SetupRead} (loading : s.control.deviceState = .loading)
    (read : s.control.setupRead = some rd) : exec .setupReadFault s = .next (s.enterFault .setupRead) := by
  show execSetupReadFault s = _
  simp only [execSetupReadFault, read, loading, if_true]

/-- A faulted completion write was not sent, and is in flight no longer (R149). -/
theorem exec_completionWriteFault {s : State} {k : CqId} {c : CompletionQueue} {w : CompletionWrite} (h : s.cq k = some c)
    (inFlight : c.inFlight = some w) : exec (.completionWriteFault k) s =
      .next (((s.dropIssued k).setCq k (some { c with inFlight := none })).enterFault .completionWrite) := by
  show execCompletionWriteFault k s = _
  simp only [execCompletionWriteFault, h, inFlight]

/-- Settles O31: each of the five commands is the entry to FAULT from the state that it names. -/
theorem faultsStopDevice : Obligations.FaultsStopDevice := by
  refine ⟨fun s up disabled off invalid => ⟨_, exec_enable_off up disabled off, ?_⟩,
    fun s up disabled off aligned below mastering => ⟨_, exec_enable_off up disabled off, ?_⟩,
    fun s r a loading read refused => ⟨_, exec_setupReadArrival_refused loading read refused, ?_⟩,
    fun s rd loading read => ⟨_, exec_setupReadFault loading read, s.enterFault_entry _⟩,
    fun s k c w h inFlight => ⟨_, exec_completionWriteFault h inFlight, State.enterFault_entry _ _⟩⟩
  · rw [State.beginLoad_invalid invalid]
    exact s.atLoading.enterFault_entry _
  · rw [State.beginLoad_refused aligned below mastering]
    exact s.atLoading.enterFault_entry _
  · rw [State.takeDeviceVector_eq]
    exact State.enterFault_entry _ _

end Sys2Proof.Machine
end

section
/-! PROOF. What endings, and all that they release, leave of the shown flag and present_refs of a surface that they neither present nor
retire (R10, R13, R14, R79). -/

namespace Sys2Proof.Machine

open Sys2Proof.Safety

/-! ## The window grows older -/

/-- Slots keep their operation or lose it, no slot becomes BLOCKED, and the waiting list only shrinks. -/
structure Ages (s t : State) : Prop where
  op : ∀ j, (t.slot j).op = (s.slot j).op ∨ (t.slot j).op = none
  blocked : ∀ j, (t.slot j).state = .blocked → (s.slot j).state = .blocked
  waiting : ∀ w ∈ t.waiting, w ∈ s.waiting

namespace Ages
variable {s t u : State}

theorem of_slots (slots : ∀ j, (t.slot j).op = (s.slot j).op ∧ ((t.slot j).state = .blocked → (s.slot j).state = .blocked))
    (waiting : ∀ w ∈ t.waiting, w ∈ s.waiting) : Ages s t := ⟨fun j => .inl (slots j).1, fun j => (slots j).2, waiting⟩

theorem refl (s : State) : Ages s s := of_slots (fun _ => ⟨rfl, id⟩) fun _ => id

theorem trans (h : Ages s t) (g : Ages t u) : Ages s u where
  op := fun j => (g.op j).elim (fun same => same ▸ h.op j) .inr
  blocked := fun j now => h.blocked j (g.blocked j now)
  waiting := fun w member => h.waiting w (g.waiting w member)

end Ages

/-- The slot of an ending keeps its operation, or is FREE or an acknowledgement's, which hold none (R58, R79, R80). -/
theorem State.endSlot_ages (s : State) (e : Ending) : Ages s (s.endSlot e) := by
  have own : s.endSlot e = s ∨ ((s.endSlot e).slot e.slot).state ≠ .blocked ∧ (((s.endSlot e).slot e.slot).op = (s.slot e.slot).op ∨
      ((s.endSlot e).slot e.slot).op = none) := by
    cases inQueue : (s.slot e.slot).queue with
    | none => exact .inl (by rw [State.endSlot, inQueue])
    | some q =>
      have answered := State.endSlot_answered (e := e) inQueue
      unfold Answered at answered
      split at answered
      · rcases answered with freed | ⟨p, n, ack⟩
        · rw [freed]
          exact .inr ⟨nofun, .inr rfl⟩
        · rw [ack]
          exact .inr ⟨nofun, .inr rfl⟩
      · rw [answered]
        exact .inr ⟨nofun, .inl rfl⟩
  rcases own with same | ⟨state, op⟩
  · rw [same]
    exact .refl s
  · refine ⟨fun j => ?_, fun j now => ?_, (s.endSlot_goes e).waiting⟩ <;> by_cases other : e.slot = j
    · exact other ▸ op
    · rw [State.endSlot_slot_ne other]
      exact .inl rfl
    · exact absurd (other ▸ now) state
    · rwa [State.endSlot_slot_ne other] at now

theorem State.foldl_endSlot_ages (es : List Ending) : ∀ s : State, Ages s (es.foldl State.endSlot s) := by
  induction es with
  | nil => exact .refl
  | cons e rest ih => exact fun s => (s.endSlot_ages e).trans (ih _)

theorem State.loosen_ages (s : State) (gone : List SlotId) : Ages s (s.loosen gone) := by
  refine .of_slots (fun j => ?_) ((s.removeDependencies_goes gone).trans (State.retestOrdered_goes _)).waiting
  rw [State.loosen, State.retestOrdered_slot, State.removeDependencies_slot]
  exact ⟨rfl, id⟩

theorem State.markReady_ages (s : State) (l : List SlotId) : Ages s (s.markReady l) := by
  refine .of_slots (fun j => ?_) (s.markReady_goes l).waiting
  rw [State.markReady_slot]
  split
  · exact ⟨rfl, nofun⟩
  · exact ⟨rfl, id⟩

theorem State.execute_ages (s : State) (i : SlotId) : Ages s (s.execute i).1 := by
  refine .of_slots (fun j => ⟨s.execute_slot_op i j, fun now => ?_⟩) (s.execute_goes i).waiting
  rcases s.execute_slot i j with same | running
  · rwa [same] at now
  · rw [running] at now
    cases now

theorem State.choose_ages (s : State) : Ages s s.choose := .of_slots (fun _ => ⟨rfl, id⟩) fun _ => id

/-! ## A surface that is neither presented nor retired -/

/-- The shown flag and present_refs of a surface record (R3, R14). -/
def Surface.counts (r : Surface) : Bool × Nat := (r.shown, r.presentRefs)

/-- Only the end of a PRESENT of the surface changes them (step 3 of R79). -/
theorem State.endSlot_counts {s : State} {e : Ending} {x : SurfaceId} (other : (s.slot e.slot).op ≠ some (.present x)) :
    ((s.endSlot e).surface x).counts = (s.surface x).counts := by
  cases inQueue : (s.slot e.slot).queue with
  | none => rw [State.endSlot, inQueue]
  | some q =>
    rw [State.surface, (State.endSlot_surfaces inQueue).1]
    show ((s.releaseClaim _ _).surface x).counts = _
    by_cases ok : e.status = .ok
    · by_cases present : ∃ id, (s.slot e.slot).op = some (.present id)
      · obtain ⟨id, op⟩ := present
        rw [State.releaseClaim, op]
        split
        · have apart : id ≠ x := fun same => other (same ▸ op)
          dsimp only
          rw [State.dropPresent, State.surface_modifySurface, if_neg apart]
        · rfl
      · rw [ok, State.releaseClaim_ok s fun id op => present ⟨id, op⟩]
    · rw [State.releaseClaim_surface s _ ok]
      simp [Surface.givenBack, Surface.counts, Slot.claims, other]

/-- Only the execution of a RETIRE of the surface changes them (R10). -/
theorem State.execute_counts {s : State} {i : SlotId} {x : SurfaceId} (other : (s.slot i).op ≠ some (.retire x)) :
    ((s.execute i).1.surface x).counts = (s.surface x).counts := by
  rcases s.execute_surface i x with same | ⟨retire, -⟩ | ⟨o, -, scrolled⟩
  · rw [same]
  · exact absurd retire other
  · rw [scrolled]
    rfl

/-- No operation that may yet be released or satisfied retires the surface or ends a PRESENT of it. -/
structure Spares (x : SurfaceId) (s : State) : Prop where
  retires : ∀ j, (s.slot j).state = .blocked → (s.slot j).op ≠ some (.retire x)
  waits : ∀ w ∈ s.waiting, (s.slot w.slot).op ≠ some (.present x)

section
variable {x : SurfaceId} {s t : State}

theorem Ages.op_ne (h : Ages s t) {j : SlotId} {op : Op} (before : (s.slot j).op ≠ some op) : (t.slot j).op ≠ some op := by
  rcases h.op j with same | none
  · rwa [same]
  · rw [none]
    exact nofun

theorem Spares.of_ages (spares : Spares x s) (h : Ages s t) : Spares x t :=
  ⟨fun j now => h.op_ne (spares.retires j (h.blocked j now)), fun w member => h.op_ne (spares.waits w (h.waiting w member))⟩

/-- A PRESENT is held, and does not end, when it is executed (R77). -/
theorem Spares.execute_endings (spares : Spares x s) (i : SlotId) : ∀ e ∈ (s.execute i).2, (s.slot e.slot).op ≠ some (.present x) := by
  intro e member
  rcases State.execute_endings member with own | ⟨w, listed, names⟩
  · rw [own]
    intro op
    rw [State.execute_presentation op rfl] at member
    exact List.not_mem_nil member
  · exact names ▸ spares.waits w listed

theorem State.foldl_endSlot_counts (es : List Ending) : ∀ {s : State}, (∀ e ∈ es, (s.slot e.slot).op ≠ some (.present x)) →
    ((es.foldl State.endSlot s).surface x).counts = (s.surface x).counts := by
  induction es with
  | nil => exact fun _ => rfl
  | cons e rest ih =>
    intro s others
    refine (ih fun y member => (s.endSlot_ages e).op_ne (others y (List.mem_cons_of_mem e member))).trans ?_
    exact State.endSlot_counts (others e List.mem_cons_self)

/-- Released operations that do not retire the surface are executed in turn. -/
theorem Spares.runAll (l : List SlotId) : ∀ {s : State}, Spares x s → (∀ i ∈ l, (s.slot i).op ≠ some (.retire x)) →
    ((s.runAll l).1.surface x).counts = (s.surface x).counts ∧ Ages s (s.runAll l).1 ∧
      ∀ e ∈ (s.runAll l).2, ((s.runAll l).1.slot e.slot).op ≠ some (.present x) := by
  induction l with
  | nil => exact fun {s} _ _ => ⟨rfl, .refl s, nofun⟩
  | cons i rest ih =>
    intro s spares others
    have ages := s.execute_ages i
    obtain ⟨counts, later, ends⟩ := ih (spares.of_ages ages) fun j member => ages.op_ne (others j (List.mem_cons_of_mem i member))
    refine ⟨counts.trans (State.execute_counts (others i List.mem_cons_self)), ages.trans later, fun e member => ?_⟩
    rcases List.mem_append.1 member with first | member
    · exact (ages.trans later).op_ne (spares.execute_endings i e first)
    · exact ends e member

/-- What the end of the slots named releases. -/
theorem Spares.letGo (spares : Spares x s) (gone : List SlotId) : ((s.letGo gone).1.surface x).counts = (s.surface x).counts ∧
    Ages s (s.letGo gone).1 ∧ ∀ e ∈ (s.letGo gone).2, ((s.letGo gone).1.slot e.slot).op ≠ some (.present x) := by
  have surfaces : (s.loosen gone).surfaces = s.surfaces := (State.retestOrdered_held _).1.trans (State.removeDependencies_held s gone).1
  have loose := s.loosen_ages gone
  have spared := spares.of_ages loose
  rw [State.letGo, State.executeAll_eq]
  generalize s.loosen gone = v at loose surfaces spared ⊢
  have readied := (v.markReady_ages v.releasableSlots).trans (State.choose_ages _)
  have held : (v.markReady v.releasableSlots).choose.surfaces = s.surfaces := by
    rw [State.choose_surfaces, (v.markReady_held _).1, surfaces]
  have among : ∀ i ∈ (v.markReady v.releasableSlots).together v.releasableSlots, (v.slot i).op ≠ some (.retire x) := fun i member =>
    spared.retires i (State.mem_releasableSlots ((State.together_perm _ _).mem_iff.1 member)).1
  generalize (v.markReady v.releasableSlots).together v.releasableSlots = l at among ⊢
  generalize (v.markReady v.releasableSlots).choose = a at readied held ⊢
  obtain ⟨counts, ages, ends⟩ := (spared.of_ages readied).runAll l fun i member => readied.op_ne (among i member)
  exact ⟨counts.trans (by rw [State.surface, State.surface, held]), loose.trans (readied.trans ages), ends⟩

/-- Endings, and all that they release, leave the counts of a surface that they spare. -/
theorem Spares.settle (n : Nat) : ∀ {s : State} {es : List Ending}, Spares x s → (∀ e ∈ es, (s.slot e.slot).op ≠ some (.present x)) →
    ((s.settle n es).surface x).counts = (s.surface x).counts := by
  induction n with
  | zero =>
    intro s es _ _
    cases es <;> rfl
  | succ n ih =>
    intro s es spares others
    cases es with
    | nil => rfl
    | cons e rest =>
      have counts := State.foldl_endSlot_counts (x := x) (s.together (e :: rest)) (s := s.choose) fun y member =>
        others y ((s.together_perm _).mem_iff.1 member)
      have ended := spares.of_ages (s.choose_ages.trans (State.foldl_endSlot_ages (s.together (e :: rest)) s.choose))
      obtain ⟨released, ages, ends⟩ := ended.letGo ((e :: rest).map Ending.slot)
      rw [State.settle_released, State.released_eq]
      exact (ih (ended.of_ages ages) ends).trans (released.trans counts)

/-- One ending: its own effect on the counts is all. -/
theorem Spares.settle_single (spares : Spares x s) (n : Nat) (e : Ending) :
    ((s.settle (n + 1) [e]).surface x).counts = ((s.choose.endSlot e).surface x).counts := by
  have ended := spares.of_ages (s.choose_ages.trans (s.choose.endSlot_ages e))
  obtain ⟨released, ages, ends⟩ := ended.letGo [e.slot]
  exact ((ended.of_ages ages).settle n ends).trans released

end

end Sys2Proof.Machine
end

section
/-! PROOF. FRAME_START (R154 to R159, R181): the held operation takes effect, the frame is latched, and the operation ends. -/

namespace Sys2Proof.Machine

open Sys2Proof.Safety

/-! ## The held operation takes effect -/

/-- A surface becomes the one shown, and the one shown before no longer is (R14, R157). -/
def State.showing (s : State) (id : SurfaceId) : State :=
  (if s.presentation.shown = some id then s else s.clearShown).modifySurface id fun r => { r with shown := true }

theorem State.showing_same (s : State) (id : SurfaceId) : s.showing id = { s with surfaces := (s.showing id).surfaces } := by
  unfold State.showing
  split
  · rfl
  · rw [State.clearShown_same]
    rfl

theorem State.showing_surface (s : State) (id x : SurfaceId) : (s.showing id).surface x = { s.surface x with
    shown := if id = x then true else if s.presentation.shown = some x then false else (s.surface x).shown } := by
  unfold State.showing
  rw [State.surface_modifySurface]
  by_cases own : id = x
  · subst own
    by_cases already : s.presentation.shown = some id <;> simp [already, State.clearShown_surface]
  · by_cases already : s.presentation.shown = some id <;> simp [already, own, State.clearShown_surface]

/-- A PRESENT takes effect (R157). -/
theorem State.takeEffect_present (s : State) (id : SurfaceId) : s.takeEffect (.present id) =
    { s with surfaces := (s.showing id).surfaces, presentation := { s.presentation with shown := some id } } := by
  show { s.showing id with presentation := { (s.showing id).presentation with shown := some id } } = _
  rw [State.showing_same]

/-- The frame has begun, but the held operation has not ended (R154 to R158, R181). -/
def State.frameBegun (s : State) (p : PanelParams) (d : Time) : State := (s.countFrame d).applyHeld.latchFrame p d

/-- The band origin of a surface, absent for no surface and without a band (R156). -/
def State.bandOrigin (s : State) : Option SurfaceId → Option Nat
  | some id => ((s.surface id).fields.bind SurfaceFields.band).map Band.origin
  | none => none

theorem State.originToLatch_eq (s : State) : s.originToLatch = s.bandOrigin s.presentation.shown := by
  unfold State.originToLatch State.bandOrigin
  cases s.presentation.shown <;> rfl

theorem State.applyHeld_some {s : State} {i : SlotId} {op : Op} (held : s.presentation.held = some i) (holds : (s.slot i).op = some op) :
    s.applyHeld = s.takeEffect op := by
  simp only [State.applyHeld, held, Option.bind_some, holds]

section
variable {s : State} {p : PanelParams} {d : Time} {i : SlotId}

theorem State.frameBegun_none (held : s.presentation.held = none) : s.frameBegun p d = { s with
    control := { s.control with timer := laterTime s.control.timer d }
    presentation := { s.presentation with
      frameCounter := nextFrame s.presentation.frameCounter
      latchedOrigin := s.bandOrigin s.presentation.shown
      frameDeadline := some (d + BitVec.ofNat 64 p.period)
      scan := some 0
      output := if s.presentation.display then s.presentation.output else .blank } } := by
  have rest : (s.countFrame d).applyHeld = s.countFrame d := by
    unfold State.applyHeld
    rw [show (s.countFrame d).presentation.held = none from held]
    rfl
  rw [State.frameBegun, rest, State.latchFrame, State.originToLatch_eq]
  rfl

theorem State.frameBegun_present {id : SurfaceId} (held : s.presentation.held = some i) (holds : (s.slot i).op = some (.present id)) :
    s.frameBegun p d = { s with
      control := { s.control with timer := laterTime s.control.timer d }
      surfaces := ((s.countFrame d).showing id).surfaces
      presentation := { s.presentation with
        frameCounter := nextFrame s.presentation.frameCounter
        shown := some id
        latchedOrigin := s.bandOrigin (some id)
        frameDeadline := some (d + BitVec.ofNat 64 p.period)
        scan := some 0
        output := if s.presentation.display then s.presentation.output else .blank } } := by
  have applied : (s.countFrame d).applyHeld = (s.countFrame d).takeEffect (.present id) := State.applyHeld_some held holds
  have origin : ((s.countFrame d).takeEffect (.present id)).originToLatch = s.bandOrigin (some id) := by
    rw [State.originToLatch_eq, State.takeEffect_present]
    show (((((s.countFrame d).showing id).surface id).fields).bind SurfaceFields.band).map Band.origin = _
    rw [State.showing_surface]
    rfl
  rw [State.frameBegun, applied, State.latchFrame, origin, State.takeEffect_present]
  rfl

theorem State.frameBegun_panel {display : Bool} {first last : Nat} {border : BitVec 24} (held : s.presentation.held = some i)
    (holds : (s.slot i).op = some (.setPanel display first last border)) : s.frameBegun p d = { s with
      control := { s.control with timer := laterTime s.control.timer d }
      presentation := { s.presentation with
        frameCounter := nextFrame s.presentation.frameCounter
        display := display
        firstRow := first
        lastRow := some last
        border := border
        latchedOrigin := s.bandOrigin s.presentation.shown
        frameDeadline := some (d + BitVec.ofNat 64 p.period)
        scan := some 0
        output := if display then s.presentation.output else .blank } } := by
  rw [State.frameBegun, State.applyHeld_some (s := s.countFrame d) held holds, State.latchFrame, State.originToLatch_eq]
  rfl

/-- The frame timer has reached deadline d in RUNNING, with no earlier deadline and the last frame's scan ended (R154, R160, R180). -/
structure FrameDue (s : State) (p : PanelParams) (d : Time) : Prop where
  running : s.control.deviceState = .running
  panel : s.presentation.panel = some p
  deadline : s.presentation.frameDeadline = some d
  first : NoEarlierDeadline s d
  scanned : ∀ k, s.presentation.scan = some k → p.width * p.height ≤ k

theorem FrameDue.exec (due : FrameDue s p d) : exec .frameStart s = .next ((s.frameBegun p d).endHeld s.presentation.held) := by
  have ended : s.presentation.scanEnded p = true := by
    unfold Presentation.scanEnded
    split
    · rfl
    · next k scan => exact decide_eq_true (due.scanned k scan)
  show execFrameStart s = _
  simp only [execFrameStart, due.panel, due.deadline, due.running, State.mayReach_iff.2 due.first, ended, and_self, if_true]
  rfl

/-! ## Its ending -/

/-- The operation of slot i has taken effect and has not ended: v differs from s in device control, the presentation unit and the surface
table, whose records keep their fields. -/
structure TakenEffect (s v : State) (i : SlotId) : Prop where
  same : v = { s with control := v.control, presentation := v.presentation, surfaces := v.surfaces }
  running : v.control.deviceState = s.control.deviceState
  held : v.presentation.held = some i
  fields : ∀ x, (v.surface x).fields = (s.surface x).fields

section
variable {op : Op} (held : s.presentation.held = some i) (holds : (s.slot i).op = some op) (kind : op.isPresentation = true)
include held holds kind

theorem State.frameBegun_takenEffect : TakenEffect s (s.frameBegun p d) i := by
  cases op with
  | present id =>
    rw [State.frameBegun_present held holds]
    exact ⟨rfl, rfl, held, fun x => (congrArg Surface.fields ((s.countFrame d).showing_surface id x) :)⟩
  | setPanel =>
    rw [State.frameBegun_panel held holds]
    exact ⟨rfl, rfl, held, fun _ => rfl⟩
  | _ => cases kind

/-- Whatever the operation, the reading is the deadline's or a later one, and the frame is counted (R154, R155). -/
theorem State.frameBegun_counted : (s.frameBegun p d).control = { s.control with timer := laterTime s.control.timer d } ∧
    (s.frameBegun p d).presentation.frameCounter = nextFrame s.presentation.frameCounter := by
  cases op with
  | present =>
    rw [State.frameBegun_present held holds]
    exact ⟨rfl, rfl⟩
  | setPanel =>
    rw [State.frameBegun_panel held holds]
    exact ⟨rfl, rfl⟩
  | _ => cases kind

end

end

/-- Joining a posting list is seen from the queues and the device state alone. -/
theorem Posted.of_queues {s v t : State} {q : QueueId} {i : SlotId} (h : Posted v t q i) (queues : ∀ p, v.queue p = s.queue p)
    (cqs : ∀ k, v.cq k = s.cq k) (device : v.control.deviceState = s.control.deviceState) : Posted s t q i := by
  simpa only [Posted, queues, cqs, device] using h

/-- What was released is seen from the slots as they were before the operation took effect. -/
theorem Released.of_fields {s v t : State} {k : SlotId} (h : Released v t k) (slots : ∀ j, v.slot j = s.slot j)
    (fields : ∀ x, (v.surface x).fields = (s.surface x).fields) : Released s t k := by
  simpa only [Released, slots, fields] using h

/-- In RUNNING the one ending that releases nothing leaves of the presentation unit all but what it held. -/
theorem State.endSlots_unheld {s : State} {e : Ending} {q : QueueId} (running : s.control.deviceState = .running)
    (inQueue : (s.slot e.slot).queue = some q) (nothing : ReleasesNothing s e.slot) :
    (s.endSlots [e]).presentation = { s.presentation with
      held := if s.presentation.held = some e.slot then none else s.presentation.held } := by
  have ended := (State.endSlot_surfaces (s := s.choose) inQueue).2.2
  have control := (s.choose.endSlot_goes e).control
  rw [State.endSlots_releasesNothing inQueue nothing]
  generalize s.choose.endSlot e = u at ended control
  have left : (u.removeDependencies [e.slot]).retestOrdered.choose.presentation = u.presentation := by
    rw [State.choose_presentation, (State.retestOrdered_held _).2, (State.removeDependencies_held _ _).2]
  have still := (((u.removeDependencies_goes [e.slot]).trans (State.retestOrdered_goes _)).trans (State.choose_goes _)).control
  generalize (u.removeDependencies [e.slot]).retestOrdered.choose = z at left still
  have goesOn : z.control.deviceState ≠ .stopping := by
    rw [still, control, State.choose_control, running]
    exact nofun
  rw [State.conclude_running goesOn, State.issueWrites_same]
  exact left.trans ended

/-- What the ending of a held operation brings, whatever it releases (R69, R79, R157, R159, R181). -/
structure HeldEnds (s v t : State) (i : SlotId) (q : QueueId) (n : BitVec 32) : Prop where
  answered : Answered t i (s.slot i) .ok n
  posted : (s.slot i).flags.getLsbD 0 = false → Posted s t q i
  control : t.control = v.control
  presentation : t.presentation = { v.presentation with held := t.presentation.held }
  frame : t.frame = s.frame
  palettes : t.palettes = s.palettes
  engines : t.engines = s.engines
  released : WindowOrderly s → ∀ k, WaitsOnlyFor s i k → Released s t k
  counts : WindowOrderly s → ∀ x, (∀ k, (s.slot k).state = .blocked → (s.slot k).op ≠ some (.retire x)) →
    (t.surface x).counts = ((v.releaseClaim (s.slot i) .ok).surface x).counts

section
variable {s v : State} {i : SlotId} {q : QueueId} {n : BitVec 32}

theorem TakenEffect.slot (h : TakenEffect s v i) (j : SlotId) : v.slot j = s.slot j := by
  rw [h.same]
  rfl

theorem TakenEffect.heldEnds (h : TakenEffect s v i) (running : s.control.deviceState = .running)
    (inQueue : (s.slot i).queue = some q) : HeldEnds s v (v.endSlots [{ slot := i, status := .ok, detail := n }]) i q n := by
  have slots := h.slot
  have runs : v.control.deviceState = .running := h.running.trans running
  have ends : (v.slot i).queue = some q := by rw [slots, inQueue]
  have settled := v.endSlots_settled [{ slot := i, status := .ok, detail := n }]
  obtain ⟨control, presentation, -⟩ := State.endSlots_running_kept runs [{ slot := i, status := .ok, detail := n }]
  have orderly (o : WindowOrderly s) : WindowOrderly v := by
    rw [h.same]
    exact o
  refine ⟨?_, fun loud => ?_, control, presentation, ?_, ?_, ?_, fun o k waits => ?_, fun o x spared => ?_⟩
  · rw [← slots]
    exact State.endSlots_answered (e := { slot := i, status := .ok, detail := n }) (by simp) (List.mem_singleton.2 rfl) ends
  · have posted := (State.endSlots_posted (e := { slot := i, status := .ok, detail := n }) (by simp) (List.mem_singleton.2 rfl) ends
      (by rw [slots]; exact fun quiet => Bool.false_ne_true (loud.symm.trans quiet.2))).1
    exact Posted.of_queues posted (fun p => by rw [h.same]; rfl) (fun k => by rw [h.same]; rfl) h.running
  · rw [settled.frame, h.same]
  · rw [settled.palettes, h.same]
  · rw [settled.engines, h.same]
  · have waits : WaitsOnlyFor v i k := by
      rw [h.same]
      exact waits
    exact Released.of_fields (State.endSlots_releases (x := { slot := i, status := .ok, detail := n }) runs (orderly o) ends waits)
      slots h.fields
  · have spares : Spares x v := ⟨fun k => by rw [slots]; exact spared k, fun w member => by
      obtain ⟨-, m, value, timeout, op⟩ := Slot.isWaiting_op ((orderly o).2 w member)
      rw [op]
      exact nofun⟩
    have claim : ((v.choose.endSlot { slot := i, status := .ok, detail := n }).surfaces) = (v.releaseClaim (s.slot i) .ok).surfaces := by
      rw [(State.endSlot_surfaces (s := v.choose) (e := { slot := i, status := .ok, detail := n }) ends).1, State.choose_slot,
        State.choose_releaseClaim, slots]
    rw [State.surface, State.endSlots_eq (List.mem_singleton.2 rfl), (State.conclude_marks _).1]
    refine (spares.settle_single 32 _).trans ?_
    rw [State.surface, claim]
    rfl

/-- What the ending of a held operation brings that releases nothing (R79, R181). -/
structure HeldEndsAlone (s v t : State) (i : SlotId) (q : QueueId) (n : BitVec 32) : Prop where
  presentation : t.presentation = { v.presentation with held := none }
  surfaces : t.surfaces = (v.releaseClaim (s.slot i) .ok).surfaces
  marks : t.marks = s.marks
  alone : ∀ c, s.queue q = some c → EndsAlone { s with
    control := v.control, presentation := { t.presentation with held := some i }, surfaces := t.surfaces } t i q c .ok n

theorem TakenEffect.heldEndsAlone (h : TakenEffect s v i) (running : s.control.deviceState = .running)
    (inQueue : (s.slot i).queue = some q) (nothing : ReleasesNothing s i) :
    HeldEndsAlone s v (v.endSlots [{ slot := i, status := .ok, detail := n }]) i q n := by
  have slots := h.slot
  have runs : v.control.deviceState = .running := h.running.trans running
  have ends : (v.slot i).queue = some q := by rw [slots, inQueue]
  have releases : ReleasesNothing v i := by
    rw [h.same]
    exact nothing
  obtain ⟨surfaces, marks⟩ := State.endSlots_surfaces (e := { slot := i, status := .ok, detail := n }) ends releases
  have presentation := State.endSlots_unheld (e := { slot := i, status := .ok, detail := n }) runs ends releases
  rw [slots] at surfaces
  rw [if_pos h.held] at presentation
  refine ⟨presentation, surfaces, marks.trans (by rw [h.same]), fun c used => ?_⟩
  have alone := State.endSlots_alone (e := { slot := i, status := .ok, detail := n }) (c := c) ends (by rw [h.same]; exact used) releases
    (.inl (by rw [runs]; exact nofun))
  have held : ({ v.presentation with held := some i } : Presentation) = v.presentation := by rw [← h.held]
  rw [slots, State.releaseClaim_same, ← surfaces] at alone
  rw [presentation]
  generalize v.endSlots [{ slot := i, status := .ok, detail := n }] = t at alone ⊢
  dsimp only at alone ⊢
  rw [held]
  rw [h.same] at alone
  exact alone

end

/-! ## FRAME_START as a whole -/

section
variable {s : State} {p : PanelParams} {d : Time} {i : SlotId} {q : QueueId}

/-- A held operation takes effect and ends in the step, with the counter as detail (R157, R158, R181). -/
theorem FrameDue.heldEnds {op : Op} (due : FrameDue s p d) (held : s.presentation.held = some i) (holds : (s.slot i).op = some op)
    (kind : op.isPresentation = true) (inQueue : (s.slot i).queue = some q) : ∃ t, GoesTo .frameStart s t ∧
      HeldEnds s (s.frameBegun p d) t i q (nextFrame s.presentation.frameCounter) ∧
      (ReleasesNothing s i → HeldEndsAlone s (s.frameBegun p d) t i q (nextFrame s.presentation.frameCounter)) := by
  have effect := State.frameBegun_takenEffect (p := p) (d := d) held holds kind
  have goes := due.exec
  rw [held, State.endHeld, (State.frameBegun_counted held holds kind).2] at goes
  exact ⟨_, goesTo_of_serve goes, effect.heldEnds due.running inQueue, effect.heldEndsAlone due.running inQueue⟩

/-- A PRESENT that ends leaves its surface the one shown, and counted once less (R14, R157). -/
theorem State.frameBegun_present_claim {id : SurfaceId} (held : s.presentation.held = some i) (holds : (s.slot i).op = some (.present id))
    (state : (s.slot i).state = .running) (x : SurfaceId) : ((s.frameBegun p d).releaseClaim (s.slot i) .ok).surface x = { s.surface x with
      shown := if id = x then true else if s.presentation.shown = some x then false else (s.surface x).shown
      presentRefs := (s.surface x).presentRefs - if id = x then 1 else 0 } := by
  have unended : (s.slot i).unended = true := by simp [Slot.unended, state]
  have shows : (s.frameBegun p d).surface x = ((s.countFrame d).showing id).surface x := by
    rw [State.frameBegun_present held holds]
    rfl
  rw [State.showing_surface] at shows
  rw [State.releaseClaim, if_pos unended, holds]
  dsimp only
  rw [State.dropPresent, State.surface_modifySurface]
  by_cases own : id = x
  · subst own
    rw [if_pos rfl, shows, if_pos rfl, if_pos rfl, if_pos rfl]
    rfl
  · rw [if_neg own, shows, if_neg own, if_neg own, if_neg own]
    rfl

/-- A PANEL claims no surface. -/
theorem State.frameBegun_panel_claim {display : Bool} {first last : Nat} {border : BitVec 24} (held : s.presentation.held = some i)
    (holds : (s.slot i).op = some (.setPanel display first last border)) :
    ((s.frameBegun p d).releaseClaim (s.slot i) .ok).surfaces = s.surfaces := by
  rw [State.releaseClaim_ok _ (by rw [holds]; exact nofun), State.frameBegun_panel held holds]

end

/-- Settles O57: the frame begins with the held operation, which then ends as any other and brings what it releases. -/
theorem frameStartAppliesHeld : Obligations.FrameStartAppliesHeld := by
  intro s p d n now running panel deadline counter reading first scanned
  have due : FrameDue s p d := ⟨running, panel, deadline, first, scanned⟩
  obtain rfl : n = nextFrame s.presentation.frameCounter := counter
  obtain rfl : now = laterTime s.control.timer d := reading
  refine ⟨fun held => ?_, fun i id q c held holds state inQueue used nothing => ?_,
    fun i q c display firstRow last border held holds _ inQueue used nothing => ?_, fun i q op held holds kind state inQueue => ?_⟩
  · rw [due.exec, held, State.frameBegun_none held]
    rfl
  · obtain ⟨t, goes, ends, alone⟩ := due.heldEnds held holds rfl inQueue
    obtain ⟨presentation, surfaces, marks, alone⟩ := alone nothing
    obtain ⟨control, -⟩ := State.frameBegun_counted (p := p) (d := d) held holds rfl
    have claim (x : SurfaceId) := (congrArg (·[x]) surfaces).trans (State.frameBegun_present_claim held holds state x)
    refine ⟨t, goes, ends.answered, ends.posted, control ▸ alone c used, ends.control.trans control, ?_, ?_, fun x other => ?_, marks,
      ends.frame, ends.palettes, ends.engines⟩
    · rw [presentation, State.frameBegun_present held holds]
      rfl
    · exact (claim id).trans (by rw [if_pos rfl, if_pos rfl])
    · refine (claim x).trans ?_
      rw [if_neg (Ne.symm other), if_neg (Ne.symm other)]
      split <;> rfl
  · obtain ⟨t, goes, ends, alone⟩ := due.heldEnds held holds rfl inQueue
    obtain ⟨presentation, surfaces, marks, alone⟩ := alone nothing
    obtain ⟨control, -⟩ := State.frameBegun_counted (p := p) (d := d) held holds rfl
    have surfaces := surfaces.trans (State.frameBegun_panel_claim held holds)
    have alone := alone c used
    rw [control, surfaces] at alone
    refine ⟨t, goes, ends.answered, ends.posted, alone, ends.control.trans control, ?_, surfaces, marks, ends.frame, ends.palettes,
      ends.engines⟩
    rw [presentation, State.frameBegun_panel held holds]
    rfl
  · obtain ⟨t, goes, ends, -⟩ := due.heldEnds held holds kind inQueue
    obtain ⟨control, -⟩ := State.frameBegun_counted (p := p) (d := d) held holds kind
    refine ⟨t, goes, ends.answered, ends.posted, ends.control.trans control, ends.presentation.trans ?_, ends.frame, ends.palettes,
      ends.engines, fun orderly => ⟨ends.released orderly, fun x spared => ?_⟩⟩
    · cases op with
      | present =>
        rw [State.frameBegun_present held holds]
        rfl
      | setPanel =>
        rw [State.frameBegun_panel held holds]
        rfl
      | _ => cases kind
    · have counts := ends.counts orderly x spared
      cases op with
      | present =>
        rw [State.frameBegun_present_claim held holds state] at counts
        simpa [Surface.counts] using counts
      | setPanel =>
        have claim : ((s.frameBegun p d).releaseClaim (s.slot i) .ok).surface x = s.surface x :=
          congrArg (·[x]) (State.frameBegun_panel_claim held holds)
        rw [claim] at counts
        simpa [Surface.counts] using counts
      | _ => cases kind

end Sys2Proof.Machine
end

section
/-! PROOF. ENABLE and DISABLE, the writes of STATUS and of the setup address, and what a REGISTER_WRITE is to the registers (R167 to R170,
R172, R173, R179, R184). -/

namespace Sys2Proof.Machine

open Sys2Proof.Safety

/-! ## ENABLE and DISABLE -/

/-- A good load address, with bus mastering on: LOADING, and the read of the setup record is issued (R172). -/
theorem State.beginLoad_reads {s : State} (aligned : (s.control.setupHi ++ s.control.setupLo).toNat % 64 = 0)
    (below : (s.control.setupHi ++ s.control.setupLo).toNat + 255 < 2 ^ 64) (on : s.link.busMastering = true) :
    s.beginLoad = { s with control := { s.control with
      deviceState := .loading, enable := true, cause := .none,
      setupRead := some { address := s.control.setupHi ++ s.control.setupLo } } } := by
  have good : ¬(s.control.loadAddress.toNat % 64 ≠ 0 ∨ Config.hostBytes < s.control.loadAddress.toNat + 256) := by
    rintro (misaligned | past)
    · exact misaligned aligned
    · exact absurd past (Nat.not_lt.2 below)
  exact (if_neg good).trans (if_pos on)

/-- ENABLE while the field is 1 changes nothing (R169). -/
theorem State.enableWrite_enabled {s : State} (enabled : s.control.enable = true) : s.enableWrite = s := if_pos enabled

/-- ENABLE in STOPPING or FAULT is ignored, which sets its flag (R169). -/
theorem State.enableWrite_ignored {s : State} (disabled : s.control.enable = false)
    (state : s.control.deviceState = .stopping ∨ s.control.deviceState = .fault) :
    s.enableWrite = { s with control := { s.control with enableIgnored := true } } := by
  unfold State.enableWrite
  rw [if_neg (Bool.eq_false_iff.1 disabled)]
  rcases state with now | now <;> rw [now]

/-- DISABLE while the field is 0 changes nothing (R169). -/
theorem State.disableWrite_disabled {s : State} (disabled : s.control.enable = false) : s.disableWrite = s :=
  if_neg (Bool.eq_false_iff.1 disabled)

/-- DISABLE in LOADING abandons the read (R173). -/
theorem State.disableWrite_loading {s : State} (enabled : s.control.enable = true) (loading : s.control.deviceState = .loading) :
    s.disableWrite = { s with control := { s.control with deviceState := .off, enable := false, setupRead := none } } := by
  unfold State.disableWrite
  rw [if_pos enabled, loading]

theorem exec_enable {s : State} (up : s.link.up = true) : exec .enable s = .next s.enableWrite :=
  congrArg Host.Outcome.next (State.whileUp_up up _)

theorem exec_disable {s : State} (up : s.link.up = true) : exec .disable s = .next s.disableWrite :=
  congrArg Host.Outcome.next (State.whileUp_up up _)

/-- Settles O20, row by row of the table of R169. -/
theorem enableFollowsTable : Obligations.EnableFollowsTable := by
  intro s up
  refine ⟨fun disabled off aligned below mastering => ?_, fun enabled => ?_, fun disabled => ?_, fun disabled state => ?_,
    fun enabled loading => ?_⟩
  · rw [exec_enable_off up disabled off, State.beginLoad_reads aligned below mastering]
  · rw [exec_enable up, State.enableWrite_enabled enabled]
  · rw [exec_disable up, State.disableWrite_disabled disabled]
  · rw [exec_enable up, State.enableWrite_ignored disabled state]
  · rw [exec_disable up, State.disableWrite_loading enabled loading]

/-! ## STATUS and the setup address -/

/-- A flag written as 1 is cleared, and one written as 0 is left (R170). -/
theorem Control.clearFlags_eq (c : Control) (v : BitVec 32) : c.clearFlags v = { c with
    submitIgnored := if v.getLsbD 8 then false else c.submitIgnored
    consumeIgnored := if v.getLsbD 9 then false else c.consumeIgnored
    qctlIgnored := if v.getLsbD 10 then false else c.qctlIgnored
    enableIgnored := if v.getLsbD 11 then false else c.enableIgnored } := by
  simp only [Control.clearFlags, and_not_eq_ite]

theorem exec_statusClear {s : State} (up : s.link.up = true) (v : BitVec 32) :
    exec (.statusClear v) s = .next { s with control := s.control.clearFlags v } :=
  congrArg Host.Outcome.next (State.whileUp_up up _)

theorem exec_setupAddressWrite_lo {s : State} (up : s.link.up = true) (v : BitVec 32) :
    exec (.setupAddressWrite .lo v) s = .next { s with control := { s.control with setupLo := v } } :=
  congrArg Host.Outcome.next (State.whileUp_up up _)

theorem exec_setupAddressWrite_hi {s : State} (up : s.link.up = true) (v : BitVec 32) :
    exec (.setupAddressWrite .hi v) s = .next { s with control := { s.control with setupHi := v } } :=
  congrArg Host.Outcome.next (State.whileUp_up up _)

/-- Settles O24: each of the two writes replaces what it names, and the half that was written is read back. -/
theorem statusAndSetupWrites : Obligations.StatusAndSetupWrites := by
  intro s v up
  refine ⟨by rw [exec_statusClear up, Control.clearFlags_eq], exec_setupAddressWrite_lo up v, exec_setupAddressWrite_hi up v,
    fun t next => ?_, fun t next => ?_⟩
  · rw [exec_setupAddressWrite_lo up] at next
    obtain rfl := Host.Outcome.next.inj next
    exact ⟨rfl, rfl⟩
  · rw [exec_setupAddressWrite_hi up] at next
    obtain rfl := Host.Outcome.next.inj next
    exact ⟨rfl, rfl⟩

/-! ## REGISTER_WRITE -/

/-- A full write is taken by the register at its offset while the link is up (R167, R179). -/
theorem exec_registerWrite_full (offset : BitVec 12) (v : BitVec 32) (s : State) :
    exec (.registerWrite offset 4 v) s = .next (s.whileUp (s.wordWrite offset v)) := rfl

/-- A write to CONTROL is the command that its bits spell: RESET before ENABLE (R169, R184). -/
theorem State.controlWrite_eq (s : State) (v : BitVec 32) : s.controlWrite v =
    if v.getLsbD 1 = true then s.resetBlocks else if v.getLsbD 0 = true then s.enableWrite else s.disableWrite := rfl

/-- The action code of a write to QCTL (R184). -/
theorem State.qctlWrite_resume (s : State) {v : BitVec 32} (code : v.extractLsb' 8 2 = 1#2) :
    s.qctlWrite v = s.resumeAction (v.extractLsb' 0 3).toFin := by
  unfold State.qctlWrite
  rw [code]
  rfl

theorem State.qctlWrite_abort (s : State) {v : BitVec 32} (code : v.extractLsb' 8 2 = 2#2) :
    s.qctlWrite v = s.abortAction (v.extractLsb' 0 3).toFin := by
  unfold State.qctlWrite
  rw [code]
  rfl

/-- Settles O25: a full write is that of its register, which is also what the command of that register does. -/
theorem registerWriteTakesFields : Obligations.RegisterWriteTakesFields := by
  intro s v
  have control : exec (.registerWrite 0x0C#12 4 v) s = .next (s.whileUp (s.controlWrite v)) := exec_registerWrite_full _ v s
  have qctl : exec (.registerWrite 0x1C#12 4 v) s = .next (s.whileUp (s.qctlWrite v)) := exec_registerWrite_full _ v s
  refine ⟨fun offset size => ⟨_, rfl⟩, fun up => ⟨exec_setupAddressWrite_lo up v, exec_setupAddressWrite_hi up v, ?_⟩, rfl, rfl,
    fun reset => ?_, fun noReset enable => ?_, fun noReset disable => ?_, rfl, rfl, rfl, fun code => ?_, fun code => ?_⟩
  · exact (exec_statusClear up v).trans (by rw [Control.clearFlags_eq])
  · rw [control, State.controlWrite_eq, if_pos reset]
    rfl
  · rw [control, State.controlWrite_eq, if_neg (Bool.eq_false_iff.1 noReset), if_pos enable]
    rfl
  · rw [control, State.controlWrite_eq, if_neg (Bool.eq_false_iff.1 noReset), if_neg (Bool.eq_false_iff.1 disable)]
    rfl
  · rw [qctl, State.qctlWrite_resume s code]
    rfl
  · rw [qctl, State.qctlWrite_abort s code]
    rfl

/-- A write to IDENT or at or above 20h is taken by no register (R167). -/
theorem State.wordWrite_ignored (s : State) {offset : BitVec 12} (none : offset = 0#12 ∨ 0x20 ≤ offset.toNat) (v : BitVec 32) :
    s.wordWrite offset v = s := by
  have outside : offset.toNat = 0 ∨ 0x20 ≤ offset.toNat := none.imp_left fun ident => congrArg BitVec.toNat ident
  unfold State.wordWrite
  split
  case h_8 => rfl
  all_goals omega

/-- A register write has no effect while the link is down (R179, log 22). -/
theorem State.whileUp_down {s : State} (down : s.link.up = false) (t : State) : s.whileUp t = s := if_neg (Bool.eq_false_iff.1 down)

/-- Settles O26: what is ignored leaves the state, and so does every register write with the link down. -/
theorem registerWritesIgnored : Obligations.RegisterWritesIgnored := by
  refine ⟨fun s offset size v ignored => ?_, fun c s down register => ?_⟩
  · have same : (if size = 4 then s.wordWrite offset v else s) = s := by
      split
      · next full => exact s.wordWrite_ignored (ignored.resolve_left (by omega)) v
      · rfl
    show Host.Outcome.next (s.whileUp (if size = 4 then s.wordWrite offset v else s)) = _
    rw [same, State.whileUp, ite_self]
  · have noEffect (t : State) : Host.Outcome.next (s.whileUp t) = (.next s : Host.Outcome State Fault Refusal) :=
      congrArg Host.Outcome.next (State.whileUp_down down t)
    cases c with
    | submit q tail => exact noEffect _
    | consume k head => exact noEffect _
    | resume q => exact noEffect _
    | abort q => exact noEffect _
    | enable => exact noEffect _
    | disable => exact noEffect _
    | functionReset => exact noEffect _
    | statusClear v => exact noEffect _
    | setupAddressWrite half v => exact noEffect _
    | registerWrite offset size v => exact noEffect _
    | _ => cases register

end Sys2Proof.Machine
end

section
/-! PROOF. What the registers read (R167, R184, sections 10.1 and 12.1). -/

namespace Sys2Proof.Machine

/-! ## Fields of a word -/

/-- Bit i of a word that holds a value from bit k on. -/
theorem getLsbD_placed {w : Nat} (x : BitVec w) (k i : Nat) :
    (x.setWidth 32 <<< k).getLsbD i = (decide (i < 32) && (decide (k ≤ i) && x.getLsbD (i - k))) := by
  rw [BitVec.getLsbD_shiftLeft, BitVec.getLsbD_setWidth]
  by_cases inside : i < 32
  · have shifted : i - k < 32 := by omega
    by_cases above : k ≤ i
    · simp [inside, shifted, above, Nat.not_lt.2 above]
    · simp [inside, above, Nat.not_le.1 above]
  · simp [inside]

/-- A bit of a flag's value is the flag at 0, and clear above. -/
theorem getLsbD_flag (b : Bool) (i : Nat) : (BitVec.ofBool b).getLsbD i = (decide (i = 0) && b) := by
  rw [BitVec.getLsbD_ofBool]

/-! ## STATUS -/

/-- A bit of the STATUS word: the device state from bit 0 on, the fault cause from bit 4 on, the sticky flags at bits 8 to 11 (section 12.1). -/
theorem Control.statusWord_getLsbD (c : Control) {i : Nat} (inside : i < 32) : c.statusWord.getLsbD i =
    (c.deviceState.code.getLsbD i || (decide (4 ≤ i) && c.cause.code.getLsbD (i - 4)) || (decide (i = 8) && c.submitIgnored) ||
      (decide (i = 9) && c.consumeIgnored) || (decide (i = 10) && c.qctlIgnored) || (decide (i = 11) && c.enableIgnored)) := by
  have flag (b : Bool) (k : Nat) : (decide (k ≤ i) && (decide (i - k = 0) && b)) = (decide (i = k) && b) := by
    rw [← Bool.and_assoc, ← Bool.decide_and]
    congr 2
    exact propext ⟨fun h => by omega, fun h => by omega⟩
  simp only [Control.statusWord, BitVec.getLsbD_or, getLsbD_placed, getLsbD_flag, flag, inside, decide_true, Bool.true_and,
    BitVec.getLsbD_setWidth]

theorem DeviceState.code_getLsbD (d : DeviceState) {i : Nat} (above : 3 ≤ i) : d.code.getLsbD i = false :=
  BitVec.getLsbD_of_ge _ _ above

theorem FaultCause.code_getLsbD (f : FaultCause) {i : Nat} (above : 2 ≤ i) : f.code.getLsbD i = false :=
  BitVec.getLsbD_of_ge _ _ above

/-- Bits 2 to 0 of STATUS are the device state's code. -/
theorem Control.statusWord_state (c : Control) : c.statusWord.extractLsb' 0 3 = c.deviceState.code := by
  refine BitVec.eq_of_getLsbD_eq fun i inside => ?_
  rw [BitVec.getLsbD_extractLsb', Nat.zero_add, c.statusWord_getLsbD (by omega)]
  have apart : ¬4 ≤ i ∧ i ≠ 8 ∧ i ≠ 9 ∧ i ≠ 10 ∧ i ≠ 11 := by omega
  simp [apart, inside]

/-- Bits 5 and 4 of STATUS are the fault cause's code. -/
theorem Control.statusWord_cause (c : Control) : c.statusWord.extractLsb' 4 2 = c.cause.code := by
  refine BitVec.eq_of_getLsbD_eq fun i inside => ?_
  rw [BitVec.getLsbD_extractLsb', c.statusWord_getLsbD (by omega), DeviceState.code_getLsbD _ (by omega)]
  have apart : 4 + i ≠ 8 ∧ 4 + i ≠ 9 ∧ 4 + i ≠ 10 ∧ 4 + i ≠ 11 := by omega
  simp [apart, inside]

/-- Bits 8 to 11 of STATUS are the sticky flags. -/
theorem Control.statusWord_flags (c : Control) : c.statusWord.getLsbD 8 = c.submitIgnored ∧ c.statusWord.getLsbD 9 = c.consumeIgnored ∧
    c.statusWord.getLsbD 10 = c.qctlIgnored ∧ c.statusWord.getLsbD 11 = c.enableIgnored := by
  have codes {i : Nat} (above : 8 ≤ i) : c.deviceState.code.getLsbD i = false ∧ c.cause.code.getLsbD (i - 4) = false :=
    ⟨DeviceState.code_getLsbD _ (by omega), FaultCause.code_getLsbD _ (by omega)⟩
  refine ⟨?_, ?_, ?_, ?_⟩ <;> rw [c.statusWord_getLsbD (by decide), (codes (by decide)).1, (codes (by decide)).2] <;> simp

/-- Every other bit of STATUS is 0. -/
theorem Control.statusWord_rest (c : Control) : c.statusWord &&& 0xFFFFF0C8#32 = 0#32 := by
  have other : ∀ i, i < 32 → (0xFFFFF0C8#32).getLsbD i = true → i = 3 ∨ i = 6 ∨ i = 7 ∨ 12 ≤ i := by decide
  refine BitVec.eq_of_getLsbD_eq fun i inside => ?_
  rw [BitVec.getLsbD_and, BitVec.getLsbD_zero]
  cases set : (0xFFFFF0C8#32).getLsbD i with
  | false => rw [Bool.and_false]
  | true =>
    have place := other i inside set
    have apart : i ≠ 8 ∧ i ≠ 9 ∧ i ≠ 10 ∧ i ≠ 11 := by omega
    have cause : (decide (4 ≤ i) && c.cause.code.getLsbD (i - 4)) = false := by
      rw [Bool.and_eq_false_imp, decide_eq_true_iff]
      exact fun _ => FaultCause.code_getLsbD _ (by omega)
    rw [c.statusWord_getLsbD inside, DeviceState.code_getLsbD _ (by omega), cause]
    simp [apart]

/-! ## QCTL -/

/-- A bit of several words joined by OR. -/
theorem getLsbD_foldl_or {α : Type} {w : Nat} (f : α → BitVec w) (l : List α) (i : Nat) : ∀ x : BitVec w,
    (l.foldl (fun y n => y ||| f n) x).getLsbD i = (x.getLsbD i || l.any fun n => (f n).getLsbD i) := by
  induction l with
  | nil => simp
  | cons n rest ih => intro x; rw [List.foldl_cons, ih, BitVec.getLsbD_or, List.any_cons, Bool.or_assoc]

/-- A bit of the QCTL word belongs to the code of one queue, or to none (section 12.1). -/
theorem State.qctlWord_getLsbD (s : State) {i : Nat} (inside : i < 32) : s.qctlWord.getLsbD i =
    (List.finRange 8).any fun q => decide (3 * q.val ≤ i) && (queueCode (s.queue q)).getLsbD (i - 3 * q.val) := by
  rw [State.qctlWord, getLsbD_foldl_or, BitVec.getLsbD_zero, Bool.false_or]
  simp only [getLsbD_placed, inside, decide_true, Bool.true_and]

/-- Queue q's three bits of QCTL are the code of its state. -/
theorem State.qctlWord_queue (s : State) (q : QueueId) : s.qctlWord.extractLsb' (3 * q.val) 3 = queueCode (s.queue q) := by
  refine BitVec.eq_of_getLsbD_eq fun i inside => ?_
  have low := q.isLt
  rw [BitVec.getLsbD_extractLsb', s.qctlWord_getLsbD (by omega), decide_eq_true inside, Bool.true_and, Bool.eq_iff_iff, List.any_eq_true]
  constructor
  · rintro ⟨p, -, set⟩
    rw [Bool.and_eq_true, decide_eq_true_iff] at set
    have width := BitVec.lt_of_getLsbD set.2
    obtain rfl : p = q := Fin.ext (by omega)
    rw [Nat.add_sub_cancel_left] at set
    exact set.2
  · intro set
    exact ⟨q, List.mem_finRange q, by simpa using set⟩

/-- The top byte of QCTL is 0. -/
theorem State.qctlWord_top (s : State) : s.qctlWord.extractLsb' 24 8 = 0#8 := by
  refine BitVec.eq_of_getLsbD_eq fun i inside => ?_
  rw [BitVec.getLsbD_extractLsb', s.qctlWord_getLsbD (by omega), BitVec.getLsbD_zero, decide_eq_true inside, Bool.true_and,
    List.any_eq_false]
  intro q _ set
  rw [Bool.and_eq_true, decide_eq_true_iff] at set
  have width := BitVec.lt_of_getLsbD set.2
  have low := q.isLt
  omega

/-! ## The window -/

/-- From 20h on every register reads 0 (R167). -/
theorem State.readRegister_above (s : State) {offset : BitVec 12} (above : 0x20 ≤ offset.toNat) : s.readRegister offset = 0#32 := by
  unfold State.readRegister
  split
  case h_7 => rfl
  all_goals omega

/-- A byte of a word is read at the word's offset plus the byte's place (R167). -/
theorem State.readRegisterByte_word (s : State) {word : BitVec 12} {k : Nat} (aligned : word.toNat % 4 = 0) (inside : k < 4) :
    s.readRegisterByte (word + BitVec.ofNat 12 k) = (s.readRegister word).extractLsb' (8 * k) 8 := by
  have place : (word + BitVec.ofNat 12 k).toNat = word.toNat + k := by
    have := word.isLt
    rw [BitVec.toNat_add, BitVec.toNat_ofNat]
    omega
  have register : (word.toNat + k) / 4 = word.toNat / 4 := by omega
  have byte : (word.toNat + k) % 4 = k := by omega
  unfold State.readRegisterByte State.readRegister
  rw [place, register, byte]

/-- Settles O27, register by register. -/
theorem registerReads : Obligations.RegisterReads := by
  intro s
  obtain ⟨submit, consume, qctl, enable⟩ := s.control.statusWord_flags
  refine ⟨rfl, rfl, rfl, ?_, ?_, ?_, submit, consume, qctl, enable, s.control.statusWord_rest, rfl, rfl, fun q => ?_,
    s.qctlWord_top, fun offset above => ⟨s.readRegister_above above, ?_⟩, fun word k i aligned inside bit => ?_⟩
  · show (BitVec.ofBool s.control.enable).setWidth 32 = _
    cases s.control.enable <;> rfl
  · show s.control.statusWord.extractLsb' 0 3 = _
    rw [Control.statusWord_state]
    cases s.control.deviceState <;> rfl
  · show s.control.statusWord.extractLsb' 4 2 = _
    rw [Control.statusWord_cause]
    cases s.control.cause <;> rfl
  · show s.qctlWord.extractLsb' (3 * q.val) 3 = _
    rw [State.qctlWord_queue]
    cases s.queue q with
    | none => rfl
    | some c =>
      obtain ⟨state, _⟩ := c
      cases state <;> rfl
  · rw [State.readRegisterByte, s.readRegister_above above]
    simp
  · rw [State.readRegisterByte_word s aligned inside, BitVec.getLsbD_extractLsb', decide_eq_true bit, Bool.true_and]

end Sys2Proof.Machine
end

section
/-! PROOF. The arrival of a valid setup record (R42, R137, R152 to R154, R171, R173, R174, R186). -/

namespace Sys2Proof.Machine

open Sys2Proof.Safety

/-- The panel parameters of a record that is not refused (R152). -/
theorem setupPanel_valid {r : SetupRecord} (valid : ¬SetupRefused r) :
    setupPanel r = some { width := field r 0xD0 2, height := field r 0xD2 2, period := field r 0xD4 4 } := by
  unfold SetupRefused at valid
  simp only [setupPanel, when_eq_some, Bool.and_eq_true, decide_eq_true_eq]
  simp only [half16At_toNat, word32At_toNat]
  exact ⟨by omega, trivial⟩

/-- What the entry to RUNNING hands to the blocks, before the device vector is signalled (R174). -/
def State.configured (s : State) (r : SetupRecord) : State :=
  { s with
    control := { s.control with deviceState := .running, setupRead := none }
    queues := setupQueues r
    lastUrgent := 7
    lastNormal := 7
    cqs := setupCqs r
    sequence := 0#32
    presentation := { s.presentation with
      panel := setupPanel r
      display := false
      shown := none
      firstRow := 0
      lastRow := (setupPanel r).map fun (p : PanelParams) => p.height - 1
      latchedOrigin := none
      held := none
      frameDeadline := (setupPanel r).map fun (p : PanelParams) => s.control.timer + BitVec.ofNat 64 p.period
      scan := none } }

theorem State.enterRunning_eq (s : State) (r : SetupRecord) :
    s.enterRunning r = (s.configured r).interrupt s.control.deviceVector := rfl

/-- The entry to RUNNING: beside what the blocks are handed, the device vector is signalled, which touches the link alone. -/
theorem State.enterRunning_signals (s : State) (r : SetupRecord) : ∃ l, s.enterRunning r = { s.configured r with link := l } ∧
    Signalled s.link l s.control.deviceVector :=
  ⟨_, State.interrupt_same _ _, State.interrupt_signalled (s.configured r) _⟩

/-- The queues below the count take their descriptors, and the others stay unconfigured (R42). -/
theorem setupQueues_get (r : SetupRecord) (q : QueueId) :
    (setupQueues r)[q] = if q.val < field r 0 1 then setupQueue r q else none := by
  simp only [setupQueues, Fin.getElem_fin, Vector.getElem_ofFn]
  rfl

theorem setupCqs_get (r : SetupRecord) (k : CqId) : (setupCqs r)[k] = if k.val < field r 1 1 then setupCq r k else none := by
  simp only [setupCqs, Fin.getElem_fin, Vector.getElem_ofFn]
  rfl

/-- A completion queue below the count of a valid record is configured by its descriptor (R137). -/
theorem setupCqs_given {r : SetupRecord} (valid : ¬SetupRefused r) {k : CqId} (below : k.val < field r 1 1) :
    ∃ c, (setupCqs r)[k] = some c ∧ CqGives r k.val c := by
  have sound := (setupValid_iff r).2 valid
  simp only [setupValid, Bool.and_eq_true, List.all_eq_true, List.mem_finRange, true_implies, Bool.or_eq_true, decide_eq_true_eq] at sound
  obtain ⟨⟨-, cqs⟩, -⟩ := sound
  obtain ⟨c, given⟩ := Option.isSome_iff_exists.1 ((cqs k).resolve_left (Nat.not_le.2 below))
  exact ⟨c, by rw [setupCqs_get, if_pos below, given], (setupCq_eq_some.1 given).2⟩

/-- A queue below the count of a valid record is configured by its descriptor, which binds it to a configured completion queue (R42, R171). -/
theorem setupQueues_given {r : SetupRecord} (valid : ¬SetupRefused r) {q : QueueId} (below : q.val < field r 0 1) :
    ∃ c, (setupQueues r)[q] = some c ∧ SqGives r q.val c ∧ (setupCqs r)[c.cq] ≠ none := by
  have sound := (setupValid_iff r).2 valid
  simp only [setupValid, Bool.and_eq_true, List.all_eq_true, List.mem_finRange, true_implies, Bool.or_eq_true, decide_eq_true_eq] at sound
  obtain ⟨⟨⟨-, queues⟩, -⟩, -⟩ := sound
  obtain ⟨c, given⟩ := Option.isSome_iff_exists.1 ((queues q).resolve_left (Nat.not_le.2 below))
  obtain ⟨accepted, gives⟩ := setupQueue_eq_some.1 given
  have bound : c.cq.val < field r 1 1 := by
    rw [gives.2]
    unfold SqRefused at accepted
    omega
  obtain ⟨k, configured, -⟩ := setupCqs_given valid bound
  exact ⟨c, by rw [setupQueues_get, if_pos below, given], gives, by rw [configured]; exact nofun⟩

/-- Settles O30: the record's device vector is taken, then every block takes what the record gives it. -/
theorem validSetupRecordStartsRunning : Obligations.ValidSetupRecordStartsRunning := by
  intro s r a loading read valid
  have small : field r 2 1 < 32 := by
    unfold SetupRefused at valid
    omega
  have arrives : exec (.setupReadArrival r) s = .next ((s.takeDeviceVector r).enterRunning r) := by
    show execSetupReadArrival r s = _
    simp only [execSetupReadArrival, read, loading, State.setupArrived, (setupValid_iff r).2 valid, if_true]
  have vector : s.takeDeviceVector r = { s with control := { s.control with deviceVector := ⟨field r 2 1, small⟩ } } := by
    rw [State.takeDeviceVector_eq, dif_pos small]
  obtain ⟨l, entered, signalled⟩ := (s.takeDeviceVector r).enterRunning_signals r
  rw [vector] at entered signalled arrives
  rw [entered] at arrives
  have panel := setupPanel_valid valid
  refine ⟨_, _, arrives, rfl, rfl, signalled, fun q outside => ?_, fun q below => setupQueues_given valid below, fun k outside => ?_,
    fun k below => setupCqs_given valid below, rfl, rfl, rfl, ?_, rfl, rfl, rfl, rfl, rfl, rfl⟩
  · exact (setupQueues_get r q).trans (if_neg (Nat.not_lt.2 outside))
  · exact (setupCqs_get r k).trans (if_neg (Nat.not_lt.2 outside))
  · simp only [State.configured, panel, Option.map_some]

end Sys2Proof.Machine
end

section
/-! PROOF. What one command can do to device control: the sticky flags (R170), the arrows of section 10.8 (R169 to R177) and the device
timer (R180). -/

namespace Sys2Proof.Machine

open Sys2Proof.Safety

/-! ## Device control while slots end: it stays, but that a stop may end -/

/-- Device control is as it was, but that the device may have gone from STOPPING to OFF (R175). -/
def Control.Endures (c d : Control) : Prop := d = c ∨ c.deviceState = .stopping ∧ d = { c with deviceState := .off }

namespace Control.Endures
variable {c d e : Control}

theorem of_eq (same : d = c) : c.Endures d := .inl same

theorem refl (c : Control) : c.Endures c := .inl rfl

theorem trans (h : c.Endures d) (g : d.Endures e) : c.Endures e := by
  obtain rfl | ⟨stopping, rfl⟩ := h
  · exact g
  · obtain rfl | ⟨again, -⟩ := g
    · exact .inr ⟨stopping, rfl⟩
    · cases again

end Control.Endures

theorem State.interrupt_control (s : State) (v : VectorId) : (s.interrupt v).control = s.control := by rw [State.interrupt_same]

theorem State.issueWrites_control (s : State) : s.issueWrites.control = s.control := by rw [State.issueWrites_same]

theorem State.serveFetch_control (s : State) : s.serveFetch.control = s.control := by rw [fetchServed_same s.serveFetch_served]

theorem State.clearShown_control (s : State) : s.clearShown.control = s.control := by rw [State.clearShown_same]

/-- The end of a stop is the passage from STOPPING to OFF (R175). -/
theorem State.finishStop_endures (s : State) : s.control.Endures s.finishStop.control := by
  unfold State.finishStop
  split
  · next ends =>
    refine .inr ⟨ends.1, ?_⟩
    show (State.interrupt _ _).control = _
    rw [State.interrupt_control]
    show { s.stopInterrupts.control with deviceState := .off } = _
    rw [State.stopInterrupts_same]
  · exact .refl _

theorem State.conclude_endures (s : State) : s.control.Endures s.conclude.control :=
  .trans (.of_eq s.issueWrites_control) s.issueWrites.finishStop_endures

theorem State.endSlots_endures (s : State) (es : List Ending) : s.control.Endures (s.endSlots es).control := by
  unfold State.endSlots
  split
  · exact s.finishStop_endures
  · exact .trans (.of_eq (s.settle_goes settleRounds es).control) (State.conclude_endures _)

/-- Slots end, and the fetch that is then possible starts. -/
theorem State.endSlots_serveFetch_endures (s : State) (es : List Ending) : s.control.Endures (s.endSlots es).serveFetch.control := by
  rw [State.serveFetch_control]
  exact s.endSlots_endures es

/-! ## Records and fetches -/

theorem State.release_endures (s : State) (ready : List SlotId) : s.control.Endures (s.release ready).control :=
  .trans (.of_eq (s.executeAll_goes ready).control) (State.endSlots_endures _ _)

theorem State.firstState_endures (s : State) (i : SlotId) (q : QueueId) (op : Op) (sl : Slot) :
    s.control.Endures (s.firstState i q op sl).control := by
  unfold State.firstState
  split
  · exact (s.setSlot i sl).endSlots_endures _
  · split
    · exact (s.setSlot i sl).endSlots_endures _
    · exact .refl _
  · split
    · exact (s.setSlot i { sl with state := .ready }).release_endures _
    · exact .refl _

theorem State.afterArrival_endures (s : State) (f : Fetch) (c : Queue) (r : OpRecord) :
    s.control.Endures (s.afterArrival f c r).control := by
  cases judged : s.checkRecord r with
  | error st =>
    rw [State.afterArrival_refused judged]
    exact (s.withArrival f c r).endSlots_endures _
  | ok op =>
    rw [State.afterArrival_admitted judged]
    refine .trans (.of_eq ?_) (State.firstState_endures _ _ _ _ _)
    rw [State.admissionEffect_same]
    rfl

theorem State.fetchFaulted_endures (s : State) (f : Fetch) (c : Queue) : s.control.Endures (s.fetchFaulted f c).control := by
  unfold State.fetchFaulted
  dsimp only
  rw [State.modifyQueue_control]
  exact State.endSlots_endures { s with fetch := none } _

theorem State.beginFetch_control (s : State) (q : QueueId) (c : Queue) (i : SlotId) : (s.beginFetch q c i).control = s.control := by
  unfold State.beginFetch
  split
  · rfl
  · obtain ⟨v, begun, -, l, -, -, issued, -⟩ := s.refuseFetch_spec q c i
    rw [issued]
    show v.control = _
    rw [begun]
    rfl

/-! ## Engines -/

theorem State.dropEngine_control (s : State) (e : EngineId) : (s.dropEngine e).control = s.control := by
  unfold State.dropEngine State.leaveSlot
  split <;> rfl

theorem State.reportEnd_endures (s : State) (e : EngineId) (st : Status) (lines : Nat) :
    s.control.Endures (s.reportEnd e st lines).control := by
  unfold State.reportEnd
  dsimp only
  split
  · exact (s.setEngine e Engine.idled).endSlots_serveFetch_endures _
  · exact .refl _

theorem State.hostFault_endures (s : State) (e : EngineId) : s.control.Endures (s.hostFault e).control := by
  unfold State.hostFault
  split
  · exact s.reportEnd_endures _ _ _
  · exact .of_eq (s.dropEngine_control e)

theorem State.beginLine_endures (s : State) (e : EngineId) : s.control.Endures (s.beginLine e).control := by
  unfold State.beginLine
  dsimp only
  split
  · exact (s.setEngine e _).hostFault_endures e
  · exact .refl _

theorem State.countLine_control (s : State) (g : Engine) : (s.countLine g).control = s.control := by
  unfold State.countLine
  split <;> rfl

theorem State.afterLine_endures (s : State) (e : EngineId) (j : Job) : s.control.Endures (s.afterLine e j).control := by
  unfold State.afterLine
  refine .trans (.of_eq (s.countLine_control (s.engine e))) ?_
  dsimp only
  split
  · split
    · exact State.reportEnd_endures _ _ _ _
    · exact State.beginLine_endures _ e
  · split
    · exact State.reportEnd_endures _ _ _ _
    · exact .of_eq (State.dropEngine_control _ e)
  · exact .of_eq (State.dropEngine_control _ e)
  · exact .refl _

theorem State.completeLine_endures (s : State) (e : EngineId) (j : Job) : s.control.Endures (s.completeLine e j).control :=
  State.afterLine_endures { s with frame := s.lineMemory j (s.engine e).line } e j

theorem State.answered_endures (s : State) (e : EngineId) (j : Job) : s.control.Endures (s.answered e j).control := by
  unfold State.answered
  split
  · exact (s.setJob e j).completeLine_endures e j
  · exact .refl _

theorem State.dispatchTo_control {s t : State} {e : EngineId} (h : s.dispatchTo e = some t) : t.control = s.control := by
  unfold State.dispatchTo at h
  repeat' split at h
  all_goals cases h
  all_goals rfl

theorem State.dispatchAll_control (es : List EngineId) : ∀ {s t : State}, s.dispatchAll es = some t → t.control = s.control := by
  induction es with
  | nil =>
    intro s t h
    cases h
    rfl
  | cons e rest ih =>
    intro s t h
    unfold State.dispatchAll at h
    split at h
    · next given => exact (ih h).trans (State.dispatchTo_control given)
    · cases h

theorem State.refuseReads_endures (s : State) (given : List EngineId) : s.control.Endures (s.refuseReads given).control := by
  unfold State.refuseReads
  split
  · exact .refl _
  · refine .trans (.of_eq ?_) (State.endSlots_serveFetch_endures _ _)
    show (s.idled _).control = _
    rw [State.idled_same]

/-! ## Completion writes, messages and the panel -/

theorem State.issue_control (s : State) (k : CqId) : (s.issue k).control = s.control := by
  unfold State.issue State.putInFlight
  split
  · rfl
  · split
    · rfl
    · split
      · dsimp only
        split <;> rfl
      · rfl

theorem State.signalCount_control (s : State) (c : CompletionQueue) : (s.signalCount c).control = s.control := by
  rw [State.signalCount_same]

theorem State.coalesce_control (s : State) (k : CqId) (c : CompletionQueue) (d : Time) :
    (s.coalesce k c d).control = (s.reach d).control := by
  unfold State.coalesce
  dsimp only
  split
  · exact State.interrupt_control _ _
  · rfl

theorem State.applyHeld_control (s : State) : s.applyHeld.control = s.control := by
  unfold State.applyHeld State.takeEffect
  split
  · split
    · dsimp only
      split
      · rfl
      · exact s.clearShown_control
    · rfl
    · rfl
  · rfl

theorem State.beginFrame_endures (s : State) (p : PanelParams) (d : Time) :
    (s.reach d).control.Endures (s.beginFrame p d).control := by
  unfold State.beginFrame State.endHeld
  refine .trans (.of_eq (s.countFrame d).applyHeld_control) ?_
  split
  · exact ((s.countFrame d).applyHeld.latchFrame p d).endSlots_serveFetch_endures _
  · exact .refl _

/-! ## Every move of device control -/

/-- The pairs of device states of one command (section 10.8, with the two that are two arrows in one step). -/
def deviceArrows : List (DeviceState × DeviceState) :=
  [(.off, .off), (.off, .loading), (.off, .fault), (.loading, .loading), (.loading, .running), (.loading, .fault),
   (.loading, .off), (.running, .running), (.running, .stopping), (.running, .off), (.running, .fault),
   (.stopping, .stopping), (.stopping, .off), (.stopping, .fault), (.fault, .fault), (.fault, .off)]

theorem stays_mem_deviceArrows (x : DeviceState) : (x, x) ∈ deviceArrows := by cases x <;> decide

theorem fault_mem_deviceArrows (x : DeviceState) : (x, .fault) ∈ deviceArrows := by cases x <;> decide

/-- The device state moves along an arrow, the timer stays, and no sticky flag is cleared. -/
structure Control.Moves (c d : Control) : Prop where
  arrow : (c.deviceState, d.deviceState) ∈ deviceArrows
  timer : d.timer = c.timer
  submit : c.submitIgnored = true → d.submitIgnored = true
  consume : c.consumeIgnored = true → d.consumeIgnored = true
  qctl : c.qctlIgnored = true → d.qctlIgnored = true
  enable : c.enableIgnored = true → d.enableIgnored = true

namespace Control.Moves
variable {c d e : Control}

/-- A move along an arrow that leaves the timer and the flags. -/
theorem along (x y : DeviceState) (start : c.deviceState = x) (last : d.deviceState = y) (arrow : (x, y) ∈ deviceArrows)
    (same : d = { c with
      deviceState := d.deviceState, enable := d.enable, cause := d.cause, setupLo := d.setupLo, setupHi := d.setupHi
      deviceVector := d.deviceVector, setupRead := d.setupRead }) : c.Moves d := by
  subst start last
  rw [same]
  exact ⟨arrow, rfl, id, id, id, id⟩

/-- The device state, the timer and the flags stay. -/
theorem stays (state : d.deviceState = c.deviceState) (same : d = { c with
    enable := d.enable, cause := d.cause, setupLo := d.setupLo, setupHi := d.setupHi, deviceVector := d.deviceVector
    setupRead := d.setupRead }) : c.Moves d :=
  .along c.deviceState c.deviceState rfl state (stays_mem_deviceArrows _) (by rw [same])

theorem refl (c : Control) : c.Moves c := .stays rfl rfl

theorem of_endures (h : c.Endures d) : c.Moves d := by
  obtain rfl | ⟨stopping, rfl⟩ := h
  · exact .refl d
  · exact .along .stopping .off stopping rfl (by decide) rfl

theorem of_eq (same : d = c) : c.Moves d := .of_endures (.of_eq same)

/-- A sticky flag is set, and no other field that the law speaks of changes. -/
theorem flag_set (state : d.deviceState = c.deviceState) (timer : d.timer = c.timer)
    (submit : c.submitIgnored = true → d.submitIgnored = true) (consume : c.consumeIgnored = true → d.consumeIgnored = true)
    (qctl : c.qctlIgnored = true → d.qctlIgnored = true) (enable : c.enableIgnored = true → d.enableIgnored = true) : c.Moves d :=
  ⟨state ▸ stays_mem_deviceArrows _, timer, submit, consume, qctl, enable⟩

end Control.Moves

theorem State.enterFault_control (s : State) (cause : FaultCause) : (s.enterFault cause).control =
    { s.control with deviceState := .fault, cause := cause, setupRead := none } := State.interrupt_control _ _

/-- Every device state may go to FAULT (R176). -/
theorem State.enterFault_moves (s : State) (cause : FaultCause) : s.control.Moves (s.enterFault cause).control := by
  rw [State.enterFault_control]
  exact .along s.control.deviceState .fault rfl rfl (fault_mem_deviceArrows _) rfl

/-! ## Register writes -/

theorem State.submitWrite_moves (s : State) (q : QueueId) (tail : BitVec 12) : s.control.Moves (s.submitWrite q tail).control := by
  have ignored : s.control.Moves s.refuseSubmit.control := .flag_set rfl rfl (fun _ => rfl) id id id
  unfold State.submitWrite
  split
  · exact ignored
  · split
    · exact .of_eq (State.serveFetch_control _)
    · exact ignored

theorem State.consumeWrite_moves (s : State) (k : CqId) (head : BitVec 12) : s.control.Moves (s.consumeWrite k head).control := by
  have ignored : s.control.Moves s.refuseConsume.control := .flag_set rfl rfl id (fun _ => rfl) id id
  unfold State.consumeWrite
  split
  · exact ignored
  · dsimp only
    split
    · exact .of_eq (State.issueWrites_control _)
    · exact ignored

theorem State.refuseQctl_moves (s : State) : s.control.Moves s.refuseQctl.control := .flag_set rfl rfl id id (fun _ => rfl) id

theorem State.resumeAction_moves (s : State) (q : QueueId) : s.control.Moves (s.resumeAction q).control := by
  unfold State.resumeAction
  split
  · exact s.refuseQctl_moves
  · split
    · exact .of_eq (State.serveFetch_control _)
    · exact s.refuseQctl_moves

theorem State.abortAction_moves (s : State) (q : QueueId) : s.control.Moves (s.abortAction q).control := by
  unfold State.abortAction
  split
  · exact s.refuseQctl_moves
  · next c _ =>
    split
    · dsimp only
      rw [State.serveFetch_control, (State.placeAtOnce_control _ q).1]
      exact .of_endures (((s.beginAbort q c).askEngines fun i => (s.slot i).queue = some q).endSlots_endures _)
    · exact s.refuseQctl_moves

theorem State.qctlWrite_moves (s : State) (value : BitVec 32) : s.control.Moves (s.qctlWrite value).control := by
  unfold State.qctlWrite
  dsimp only
  split
  · exact s.resumeAction_moves _
  · exact s.abortAction_moves _
  · exact s.refuseQctl_moves

/-- ENABLE in OFF: LOADING, or FAULT for a load that faults at once (R172). -/
theorem State.beginLoad_moves {s : State} (off : s.control.deviceState = .off) : s.control.Moves s.beginLoad.control := by
  unfold State.beginLoad
  dsimp only
  split
  · rw [State.enterFault_control]
    exact .along s.control.deviceState .fault rfl rfl (fault_mem_deviceArrows _) rfl
  · split
    · exact .along .off .loading off rfl (by decide) rfl
    · rw [State.enterFault_control]
      exact .along s.control.deviceState .fault rfl rfl (fault_mem_deviceArrows _) rfl

theorem State.enableWrite_moves (s : State) : s.control.Moves s.enableWrite.control := by
  have ignored : s.control.Moves { s.control with enableIgnored := true } := .flag_set rfl rfl id id id (fun _ => rfl)
  unfold State.enableWrite
  split
  · exact .refl _
  · split
    · next off => exact State.beginLoad_moves off
    · exact ignored
    · exact ignored
    · exact .refl _
    · exact .refl _

/-- DISABLE in RUNNING: STOPPING, or OFF where every slot is FREE (R175). -/
theorem State.enterStopping_moves {s : State} (running : s.control.deviceState = .running) : s.control.Moves s.enterStopping.control := by
  unfold State.enterStopping
  dsimp only
  generalize hu : State.askEngines _ _ = u
  have stopping : u.control = { s.control with deviceState := .stopping, enable := false } := by
    rw [← hu]
    exact State.clearShown_control _
  obtain same | ⟨-, off⟩ := u.endSlots_endures (u.abortedEndings Slot.endsAtOnce)
  · rw [same, stopping]
    exact .along .running .stopping running rfl (by decide) rfl
  · rw [off, stopping]
    exact .along .running .off running rfl (by decide) rfl

theorem State.discardSlots_control (s : State) : s.discardSlots.control = s.control := by
  rw [State.discardSlots_same]

/-- ENABLE cleared in FAULT: OFF (R177). -/
theorem State.faultToOff_control (s : State) : s.faultToOff.control = { s.control with deviceState := .off, enable := false } := by
  unfold State.faultToOff
  dsimp only
  show { s.discardSlots.clearShown.control with deviceState := .off, enable := false } = _
  rw [State.clearShown_control, State.discardSlots_control]

theorem State.disableWrite_moves (s : State) : s.control.Moves s.disableWrite.control := by
  unfold State.disableWrite
  split
  · split
    · next loading => exact .along .loading .off loading rfl (by decide) rfl
    · next running => exact State.enterStopping_moves running
    · next fault =>
      rw [State.faultToOff_control]
      exact .along .fault .off fault rfl (by decide) rfl
    · exact .refl _
    · exact .refl _
  · exact .refl _

/-! ## Loading -/

/-- An arrived setup record: RUNNING, or FAULT (R173). -/
theorem State.setupArrived_moves {s : State} {r : SetupRecord} (loading : s.control.deviceState = .loading) :
    s.control.Moves (s.setupArrived r).control := by
  have vector : ∃ v, (s.takeDeviceVector r).control = { s.control with deviceVector := v } := by
    unfold State.takeDeviceVector
    split <;> exact ⟨_, rfl⟩
  obtain ⟨v, vector⟩ := vector
  unfold State.setupArrived
  dsimp only
  split
  · unfold State.enterRunning State.signalDevice
    dsimp only
    rw [State.interrupt_control, vector]
    exact .along .loading .running loading rfl (by decide) rfl
  · rw [State.enterFault_control, vector]
    exact .along s.control.deviceState .fault rfl rfl (fault_mem_deviceArrows _) rfl

/-! ## Every command -/

/-- What a command that is no reset can do to device control: a move, a write to STATUS, or the expiry of a timer that runs, which no
other deadline comes before, up to whose deadline the device timer is carried (R180). -/
inductive ControlStep (c : Instr) (s t : State) : Prop
  | moves (h : s.control.Moves t.control)
  | clears (value : BitVec 32) (named : ∀ bit, clearsFlag c bit = value.getLsbD bit) (h : t.control = s.control.clearFlags value)
  | expires (x : Instr) (d : Time) (runs : Deadline s x d) (first : NoEarlierDeadline s d)
      (h : (s.reach d).control.Endures t.control)

namespace ControlStep
variable {c : Instr} {s t : State}

theorem of_eq (same : t.control = s.control) : ControlStep c s t := .moves (.of_eq same)

theorem of_endures (h : s.control.Endures t.control) : ControlStep c s t := .moves (.of_endures h)

/-- Whatever is done only while the link is up. -/
theorem whileUp (h : ControlStep c s t) : ControlStep c s (s.whileUp t) := by
  unfold State.whileUp
  split
  · exact h
  · exact .of_eq rfl

end ControlStep

section
variable {c : Instr} {s t : State}

theorem execRegisterWrite_controlStep {offset : BitVec 12} {size : Nat} {value : BitVec 32}
    (h : execRegisterWrite offset size value s = .next t) (noReset : isReset (.registerWrite offset size value) = false) :
    ControlStep (.registerWrite offset size value) s t := by
  cases h
  refine ControlStep.whileUp ?_
  split
  · next size4 =>
    subst size4
    unfold State.wordWrite
    split
    · exact .moves (.stays rfl rfl)
    · exact .moves (.stays rfl rfl)
    · next at12 =>
      have bit : value.getLsbD 1 = false := by
        simpa [isReset, show offset = 0x0C#12 from BitVec.eq_of_toNat_eq at12] using noReset
      unfold State.controlWrite
      rw [bit, if_neg Bool.false_ne_true]
      split
      · exact .moves s.enableWrite_moves
      · exact .moves s.disableWrite_moves
    · next at16 =>
      refine .clears value (fun bit => ?_) rfl
      simp [clearsFlag, show offset = 0x10#12 from BitVec.eq_of_toNat_eq at16]
    · exact .moves (s.submitWrite_moves _ _)
    · exact .moves (s.consumeWrite_moves _ _)
    · exact .moves (s.qctlWrite_moves _)
    · exact .of_eq rfl
  · exact .of_eq rfl

theorem execSetupReadArrival_controlStep {r : SetupRecord} (h : execSetupReadArrival r s = .next t) : ControlStep c s t := by
  unfold execSetupReadArrival at h
  split at h
  · split at h <;> cases h
    · next loading => exact .moves (State.setupArrived_moves loading)
    · exact .of_eq rfl
  · cases h
    exact .of_eq rfl

theorem execSetupReadFault_controlStep (h : execSetupReadFault s = .next t) : ControlStep c s t := by
  unfold execSetupReadFault at h
  split at h
  · split at h <;> cases h
    · exact .moves (s.enterFault_moves _)
    · exact .of_eq rfl
  · cases h
    exact .of_eq rfl

theorem execFetchStart_controlStep {i : SlotId} (h : execFetchStart i s = .next t) : ControlStep c s t := by
  unfold execFetchStart at h
  repeat' split at h
  all_goals cases h
  · exact .of_eq rfl
  · exact .of_eq ((State.serveFetch_control _).trans (s.beginFetch_control _ _ i))
  · exact .of_eq rfl
  · exact .of_eq rfl

theorem execRecordArrival_controlStep {r : OpRecord} (h : execRecordArrival r s = .next t) : ControlStep c s t := by
  rcases execRecordArrival_cases h with rfl | ⟨f, c, -, rfl⟩
  · exact .of_eq rfl
  · refine .of_endures ?_
    rw [State.serveFetch_control]
    exact s.afterArrival_endures f c r

theorem execFetchFault_controlStep (h : execFetchFault s = .next t) : ControlStep c s t := by
  unfold execFetchFault at h
  repeat' split at h
  all_goals rw [← Host.Outcome.next.inj h]
  · exact .of_eq rfl
  · exact .of_eq rfl
  · refine .of_endures ?_
    rw [State.serveFetch_control]
    exact s.fetchFaulted_endures _ _
  · exact .of_eq rfl

theorem execOvertakenFetchEnd_controlStep (h : execOvertakenFetchEnd s = .next t) : ControlStep c s t := by
  unfold execOvertakenFetchEnd at h
  repeat' split at h
  all_goals cases h
  · exact .of_eq rfl
  · next f _ _ =>
    refine .of_endures ?_
    rw [State.serveFetch_control]
    exact .trans (.of_eq (State.freeSlot_goes { s with fetch := none } f.slot).control) (State.conclude_endures _)
  · exact .of_eq rfl

theorem execAbortAckPlace_controlStep {q : QueueId} {i : SlotId} (h : execAbortAckPlace q i s = .next t) : ControlStep c s t := by
  unfold execAbortAckPlace at h
  repeat' split at h
  all_goals cases h
  · exact .of_eq rfl
  · next used _ n _ _ _ =>
    refine .of_eq ?_
    rw [State.serveFetch_control, State.issueWrites_control]
    exact (State.placeAck_goes used n i).control
  · exact .of_eq rfl
  · exact .of_eq rfl

theorem execDispatch_controlStep (h : execDispatch s = .next t) : ControlStep c s t := by
  unfold execDispatch at h
  repeat' split at h
  all_goals cases h
  · next given => exact .of_endures (.trans (.of_eq (State.dispatchAll_control _ given)) (State.refuseReads_endures _ _))
  · exact .of_eq rfl

theorem execHostReadData_controlStep {e : EngineId} {a : BitVec 64} {data : List Byte} (h : execHostReadData e a data s = .next t) :
    ControlStep c s t := by
  rcases execHostReadData_cases h with rfl | ⟨j, -, ⟨pixel, host, -, -, -, -, -, -, rfl⟩ | ⟨p, first, -, -, -, rfl⟩⟩
  · exact .of_eq rfl
  · exact .of_endures (State.answered_endures { s with
      frame := j.importRun s.palettes (s.engine e).line pixel (host.format.decodeRun data) s.frame } e _)
  · exact .of_endures (State.answered_endures { s with
      palettes := Palette.write s.palettes p (first + (s.engine e).line) ((Format.p32.decode data).setWidth 24) } e _)

theorem execExportWriteAccepted_controlStep {e : EngineId} {n : Nat} (h : execExportWriteAccepted e n s = .next t) :
    ControlStep c s t := by
  unfold execExportWriteAccepted at h
  repeat' split at h
  all_goals cases h
  · exact .of_eq rfl
  · exact .of_endures (State.answered_endures (s.accept _ _) e _)
  · exact .of_eq rfl
  · exact .of_eq rfl

theorem execLineComplete_controlStep {e : EngineId} (h : execLineComplete e s = .next t) : ControlStep c s t := by
  rcases execLineComplete_cases h with rfl | ⟨j, -, rfl⟩
  · exact .of_eq rfl
  · exact .of_endures (s.completeLine_endures e j)

theorem execImportReadFault_controlStep {e : EngineId} (h : execImportReadFault e s = .next t) : ControlStep c s t := by
  unfold execImportReadFault at h
  repeat' split at h
  all_goals cases h
  · exact .of_eq rfl
  · exact .of_eq rfl
  · exact .of_endures (s.hostFault_endures e)
  · exact .of_eq rfl

theorem execExportWriteFault_controlStep {e : EngineId} (h : execExportWriteFault e s = .next t) : ControlStep c s t := by
  unfold execExportWriteFault at h
  repeat' split at h
  all_goals cases h
  · exact .of_eq rfl
  · exact .of_eq rfl
  · exact .of_endures (s.hostFault_endures e)
  · exact .of_eq rfl

theorem execLoadpalReadFault_controlStep {e : EngineId} (h : execLoadpalReadFault e s = .next t) : ControlStep c s t := by
  unfold execLoadpalReadFault at h
  repeat' split at h
  all_goals cases h
  · exact .of_eq rfl
  · exact .of_eq rfl
  · exact .of_endures (s.hostFault_endures e)
  · exact .of_eq rfl

theorem execCompletionWriteIssue_controlStep {k : CqId} (h : execCompletionWriteIssue k s = .next t) : ControlStep c s t := by
  unfold execCompletionWriteIssue at h
  split at h <;> cases h
  · exact .of_eq (s.choose.issue_control k)
  · exact .of_eq rfl

theorem execCompletionWriteAccepted_controlStep {k : CqId} (h : execCompletionWriteAccepted k s = .next t) : ControlStep c s t := by
  rcases execCompletionWriteAccepted_cases h with rfl | ⟨q, w, -, -, -, rfl⟩
  · exact .of_eq rfl
  · refine .of_endures ?_
    rw [State.serveFetch_control]
    refine .trans (.of_eq ?_) (State.conclude_endures _)
    rw [State.signalCount_control]
    exact ((s.entryTaken k q w).freeSlot_goes w.slot).control

theorem execCompletionWriteFault_controlStep {k : CqId} (h : execCompletionWriteFault k s = .next t) : ControlStep c s t := by
  unfold execCompletionWriteFault at h
  repeat' split at h
  all_goals cases h
  · exact .of_eq rfl
  · exact .of_eq rfl
  · exact .moves (State.enterFault_moves (State.setCq (s.dropIssued k) k _) _)

theorem execPendingMessageSend_controlStep {bm mi : Bool} {unmask : List VectorId} (h : execPendingMessageSend bm mi unmask s = .next t) :
    ControlStep c s t := by
  unfold execPendingMessageSend at h
  split at h <;> cases h
  · refine .of_eq ?_
    rw [State.sendPending_eq]
  · exact .of_eq rfl

theorem execMessageWriteFault_controlStep {n : Nat} (h : execMessageWriteFault n s = .next t) : ControlStep c s t := by
  unfold execMessageWriteFault at h
  repeat' split at h
  all_goals cases h
  · exact .of_eq rfl
  · exact .of_eq rfl
  · exact .of_eq rfl

theorem execPcieConfigurationTurnOff_controlStep {bm mi : Bool} {mask : List VectorId}
    (h : execPcieConfigurationTurnOff bm mi mask s = .next t) : ControlStep c s t := by
  unfold execPcieConfigurationTurnOff at h
  split at h <;> cases h
  · exact .of_eq rfl
  · exact .of_eq rfl

theorem execScanPixel_controlStep {x r : Nat} (h : execScanPixel x r s = .next t) : ControlStep c s t := by
  unfold execScanPixel at h
  repeat' split at h
  all_goals cases h
  · exact .of_eq rfl
  · refine .of_eq ?_
    show s.visitPixels.control = _
    rw [State.visitPixels_same]
  · exact .of_eq rfl

/-! ### The expiries -/

theorem execCoalescingTimerExpiry_controlStep {k : CqId} (h : execCoalescingTimerExpiry k s = .next t) : ControlStep c s t := by
  unfold execCoalescingTimerExpiry at h
  repeat' split at h
  all_goals cases h
  · exact .of_eq rfl
  · exact .of_eq rfl
  · next b used _ d deadline may =>
    exact .expires (.coalescingTimerExpiry k) d (.inr (.inl ⟨k, b, used, deadline, rfl⟩)) (State.mayReach_iff.1 may)
      (.of_eq (s.coalesce_control k b d))
  · exact .of_eq rfl

theorem execWaitExpiry_controlStep {i : SlotId} (h : execWaitExpiry i s = .next t) : ControlStep c s t := by
  unfold execWaitExpiry at h
  repeat' split at h
  all_goals cases h
  · exact .of_eq rfl
  · exact .of_eq rfl
  · next w entry _ d deadline may =>
    exact .expires (.waitExpiry w.slot) d (.inl ⟨may.1, w, List.mem_of_find?_eq_some entry, deadline, rfl⟩)
      (State.mayReach_iff.1 may.2) ((s.reach d).endSlots_serveFetch_endures _)
  · exact .of_eq rfl

theorem execFrameStart_controlStep (h : execFrameStart s = .next t) : ControlStep c s t := by
  unfold execFrameStart at h
  repeat' split at h
  all_goals cases h
  · next p d panel deadline may =>
    exact .expires .frameStart d (.inr (.inr ⟨may.1, by rw [panel]; rfl, deadline, rfl⟩)) (State.mayReach_iff.1 may.2.1)
      (s.beginFrame_endures p d)
  · exact .of_eq rfl
  · exact .of_eq rfl

end

/-- Everything that a command which is no reset can do to device control. -/
theorem exec_controlStep {c : Instr} {s t : State} (h : exec c s = .next t) (noReset : isReset c = false) : ControlStep c s t := by
  cases c with
  | submit q tail => cases h; exact .whileUp (.moves (s.submitWrite_moves q tail))
  | consume k head => cases h; exact .whileUp (.moves (s.consumeWrite_moves k head))
  | resume q => cases h; exact .whileUp (.moves (s.resumeAction_moves q))
  | abort q => cases h; exact .whileUp (.moves (s.abortAction_moves q))
  | enable => cases h; exact .whileUp (.moves s.enableWrite_moves)
  | disable => cases h; exact .whileUp (.moves s.disableWrite_moves)
  | statusClear value => cases h; exact .whileUp (.clears value (fun _ => rfl) rfl)
  | setupAddressWrite half value => cases h; cases half <;> exact .whileUp (.moves (.stays rfl rfl))
  | registerWrite => exact execRegisterWrite_controlStep h noReset
  | functionReset | coldReset | linkReset => cases noReset
  | abandonedReadAnswer | abandonedFetchAnswer | abandonedEngineAccessAnswer | abandonedWriteAnswer | linkUp =>
    cases h
    exact .of_eq rfl
  | pendingMessageSend => exact execPendingMessageSend_controlStep h
  | setupReadArrival => exact execSetupReadArrival_controlStep h
  | setupReadFault => exact execSetupReadFault_controlStep h
  | fetchStart => exact execFetchStart_controlStep h
  | recordArrival => exact execRecordArrival_controlStep h
  | fetchFault => exact execFetchFault_controlStep h
  | overtakenFetchEnd => exact execOvertakenFetchEnd_controlStep h
  | abortAckPlace => exact execAbortAckPlace_controlStep h
  | dispatch => exact execDispatch_controlStep h
  | hostReadData => exact execHostReadData_controlStep h
  | exportWriteAccepted => exact execExportWriteAccepted_controlStep h
  | lineComplete => exact execLineComplete_controlStep h
  | importReadFault => exact execImportReadFault_controlStep h
  | exportWriteFault => exact execExportWriteFault_controlStep h
  | loadpalReadFault => exact execLoadpalReadFault_controlStep h
  | completionWriteIssue => exact execCompletionWriteIssue_controlStep h
  | completionWriteAccepted => exact execCompletionWriteAccepted_controlStep h
  | completionWriteFault => exact execCompletionWriteFault_controlStep h
  | messageWriteFault => exact execMessageWriteFault_controlStep h
  | coalescingTimerExpiry => exact execCoalescingTimerExpiry_controlStep h
  | waitExpiry => exact execWaitExpiry_controlStep h
  | frameStart => exact execFrameStart_controlStep h
  | pcieConfigurationTurnOff => exact execPcieConfigurationTurnOff_controlStep h
  | scanPixel => exact execScanPixel_controlStep h

/-! ## The sticky flags -/

/-- A flag that is set and not written as 1 stays set. -/
theorem kept_or_cleared {flag bit : Bool} (set : flag = true) : (flag && !bit) = true ∨ bit = true := by
  cases bit with
  | false => exact .inl (by rw [set]; rfl)
  | true => exact .inr rfl

/-- Settles O11: by what a command can do to device control, of which only a write to STATUS clears a flag. -/
theorem stickyFlagsStaySet : Obligations.StickyFlagsStaySet := by
  intro c s t h noReset
  obtain moved | ⟨value, named, cleared⟩ | ⟨x, d, -, -, kept⟩ := exec_controlStep h noReset
  · exact ⟨fun set => .inl (moved.submit set), fun set => .inl (moved.consume set), fun set => .inl (moved.qctl set),
      fun set => .inl (moved.enable set)⟩
  · rw [cleared, named, named, named, named]
    exact ⟨kept_or_cleared, kept_or_cleared, kept_or_cleared, kept_or_cleared⟩
  · have moved := Control.Moves.of_endures kept
    exact ⟨fun set => .inl (moved.submit set), fun set => .inl (moved.consume set), fun set => .inl (moved.qctl set),
      fun set => .inl (moved.enable set)⟩

/-! ## The device state -/

/-- Settles O13: by what a command can do to device control; a write to STATUS leaves the device state, and an expiry too, but that a stop
may end. -/
theorem deviceStateFollowsTable : Obligations.DeviceStateFollowsTable := by
  intro c s t h noReset
  obtain moved | ⟨value, -, cleared⟩ | ⟨x, d, -, -, kept⟩ := exec_controlStep h noReset
  · exact moved.arrow
  · rw [cleared]
    exact stays_mem_deviceArrows s.control.deviceState
  · exact (Control.Moves.of_endures kept).arrow

/-! ## The device timer -/

theorem le_laterTime (a b : Time) : a.toNat ≤ (laterTime a b).toNat := by
  unfold laterTime
  split
  · next later => exact Nat.le_of_lt later
  · exact Nat.le_refl _

theorem laterTime_le {a b d : Time} (ha : a.toNat ≤ d.toNat) (hb : b.toNat ≤ d.toNat) : (laterTime a b).toNat ≤ d.toNat := by
  unfold laterTime
  split
  · exact hb
  · exact ha

/-- A command leaves the device timer, or carries it up to the deadline of a timer that runs with none before it; but a cold reset sets it
to 0 (R180). -/
theorem exec_timer {c : Instr} {s t : State} (h : exec c s = .next t) : (c = .coldReset ∧ t.control.timer = 0#64) ∨
    t.control.timer = s.control.timer ∨
    ∃ x d, Deadline s x d ∧ NoEarlierDeadline s d ∧ t.control.timer = laterTime s.control.timer d := by
  have blocks : (s.whileUp s.resetBlocks).control.timer = s.control.timer := by
    unfold State.whileUp
    split <;> rfl
  cases reset : isReset c with
  | false =>
    refine .inr ?_
    obtain moved | ⟨value, -, cleared⟩ | ⟨x, d, runs, first, kept⟩ := exec_controlStep h reset
    · exact .inl moved.timer
    · exact .inl (by rw [cleared]; rfl)
    · exact .inr ⟨x, d, runs, first, (Control.Moves.of_endures kept).timer⟩
  | true =>
    cases c with
    | coldReset => cases h; exact .inl ⟨rfl, rfl⟩
    | linkReset => cases h; exact .inr (.inl rfl)
    | functionReset => cases h; exact .inr (.inl blocks)
    | registerWrite offset size value =>
      simp only [isReset, Bool.and_eq_true, decide_eq_true_eq] at reset
      obtain ⟨⟨rfl, rfl⟩, bit⟩ := reset
      cases h
      refine .inr (.inl ?_)
      rw [if_pos rfl, show s.wordWrite 0x0C#12 value = s.controlWrite value from rfl, State.controlWrite, if_pos bit]
      exact blocks
    | _ => cases reset

/-- A command carries the device timer past no deadline of a timer that runs (R180). -/
theorem exec_timer_le {c x : Instr} {s t : State} {d : Time} (h : exec c s = .next t) (runs : Deadline s x d)
    (before : s.control.timer.toNat ≤ d.toNat) : t.control.timer.toNat ≤ d.toNat := by
  obtain ⟨-, zero⟩ | same | ⟨y, e, -, first, later⟩ := exec_timer h
  · rw [zero]
    exact Nat.zero_le _
  · rwa [same]
  · rw [later]
    exact laterTime_le before (first x d runs)

/-- One µs more reaches no further than a deadline that lies ahead. -/
theorem succ_toNat_le {a d : Time} (ahead : a.toNat < d.toNat) : (a + 1#64).toNat ≤ d.toNat := by bv_omega

/-- Where the part does nothing by itself, nothing falls due. -/
theorem State.ownEvent_none {s : State} (own : s.ownEvent = none) : s.dueEvent = none := by
  unfold State.ownEvent at own
  split at own
  · cases own
  · split at own
    · cases own
    · exact own

/-- On an empty queue the event of the part's own runs, where there is one (log 2). -/
theorem step_ownEvent {s : State} {c : Instr} (empty : s.pending = []) (own : s.ownEvent = some c) :
    step s = exec c { s with choices := s.choices + 1 } := by
  unfold step
  split
  · split
    · next d event => cases own.symm.trans event; rfl
    · next none => cases own.symm.trans none
  · next full => cases empty.symm.trans full

/-- Where nothing falls due the device timer counts one µs (R180). -/
theorem step_counts {s : State} (empty : s.pending = []) (own : s.ownEvent = none) :
    step s = .next { s with control := { s.control with timer := s.control.timer + 1#64 } } := by
  unfold step
  split
  · split
    · next event => cases own.symm.trans event
    · rfl
  · next full => cases empty.symm.trans full

theorem step_timer_le {s t : State} {x : Instr} {d : Time} (h : step s = .next t) (runs : Deadline s x d)
    (before : s.control.timer.toNat ≤ d.toNat) : t.control.timer.toNat ≤ d.toNat := by
  cases pending : s.pending with
  | cons c rest =>
    unfold step at h
    rw [pending] at h
    exact exec_timer_le (s := { s with pending := rest }) h runs before
  | nil =>
    cases own : s.ownEvent with
    | some c =>
      rw [step_ownEvent pending own] at h
      exact exec_timer_le (s := { s with choices := s.choices + 1 }) h runs before
    | none =>
      rw [step_counts pending own] at h
      cases h
      exact succ_toNat_le (State.dueEvent_none.1 (State.ownEvent_none own) x d runs)

/-- The next pixel of a scan that has not ended (R160). -/
theorem Presentation.nextPixel_some {p : Presentation} {c : Instr} (h : p.nextPixel = some c) :
    ∃ panel n, p.panel = some panel ∧ p.scan = some n ∧ n < panel.width * panel.height ∧
      c = .scanPixel (n % panel.width) (n / panel.width) := by
  unfold Presentation.nextPixel at h
  split at h
  · next panel n given begun =>
    split at h
    · next inside =>
      cases h
      exact ⟨panel, n, given, begun, inside, rfl⟩
    · cases h
  · cases h

/-- Settles O14: by what a command can do to the device timer, and by the event of an empty queue: a fetch, else a dispatch, else what falls
due. -/
theorem timerRunsOn : Obligations.TimerRunsOn := by
  refine ⟨fun c s t h => ?_, fun s t c d h runs before => step_timer_le h runs before, fun s empty fetch => ?_,
    fun s empty fetch dispatch => ?_, fun s empty fetch dispatch ahead => ?_, fun s c d empty fetch dispatch runs due => ?_⟩
  · obtain zero | same | ⟨x, d, -, -, later⟩ := exec_timer h
    · exact .inl zero
    · exact .inr (Nat.le_of_eq (by rw [same]))
    · exact .inr (later ▸ le_laterTime _ _)
  · obtain ⟨i, free, starts⟩ := State.possibleFetch_some fetch
    exact ⟨i, free, step_ownEvent empty (by rw [State.ownEvent, starts])⟩
  · exact step_ownEvent empty (State.ownEvent_dispatch fetch dispatch)
  · exact step_counts empty ((State.ownEvent_due fetch dispatch).trans (State.dueEvent_none.2 ahead))
  · cases event : s.dueEvent with
    | none => exact absurd (State.dueEvent_none.1 event c d runs) (Nat.not_lt.2 due)
    | some y =>
      have ran := step_ownEvent empty ((State.ownEvent_due fetch dispatch).trans event)
      obtain ⟨x, e, runs', due', first, expires | ⟨frame, pixel⟩⟩ := State.dueEvent_some event
      · exact ⟨x, e, runs', due', first, .inl (expires ▸ ran)⟩
      · obtain ⟨p, n, panel, scan, inside, rfl⟩ := Presentation.nextPixel_some pixel
        exact ⟨x, e, runs', due', first, .inr ⟨frame, p, n, panel, scan, inside, ran⟩⟩

end Sys2Proof.Machine
end

section
/-! PROOF. DISABLE in RUNNING (R175): the slots that end at once, what becomes of the surfaces, the queues and the panel, and OFF in the same
step where every slot is FREE (R148). -/

namespace Sys2Proof.Machine

open Sys2Proof.Safety

/-! ## Endings with another status than OK -/

/-- Of what the presentation unit holds they take out the slots that end (R79). -/
theorem State.foldl_endSlot_presentation (es : List Ending) : ∀ {s : State}, (es.map Ending.slot).Nodup →
    (∀ e ∈ es, (s.slot e.slot).queue.isSome = true) → (es.foldl State.endSlot s).presentation =
      { s.presentation with held := s.presentation.held.filter fun i => i ∉ es.map Ending.slot } := by
  induction es with
  | nil =>
    intro s _ _
    have kept : (s.presentation.held.filter fun i => i ∉ ([] : List Ending).map Ending.slot) = s.presentation.held := by
      cases s.presentation.held <;> rfl
    rw [kept]
    rfl
  | cons e rest ih =>
    intro s nodup used
    rw [List.map_cons, List.nodup_cons] at nodup
    have other : ∀ x ∈ rest, e.slot ≠ x.slot := fun x hx same => nodup.1 (same ▸ List.mem_map_of_mem hx)
    obtain ⟨q, inQueue⟩ := Option.isSome_iff_exists.1 (used e List.mem_cons_self)
    rw [List.foldl_cons, ih nodup.2 fun x hx => by
      rw [State.endSlot_slot_ne (other x hx)]; exact used x (List.mem_cons_of_mem _ hx), (State.endSlot_surfaces inQueue).2.2]
    cases s.presentation.held with
    | none => rfl
    | some i => by_cases own : i = e.slot <;> simp [own, Option.filter]

/-- No acknowledgement that waits for a slot gets one. -/
theorem State.endSlot_ackOrder {s : State} {e : Ending} (failed : e.status ≠ .ok) : (s.endSlot e).ackOrder = s.ackOrder := by
  unfold State.endSlot
  dsimp only
  split
  · rfl
  · rw [if_neg fun both => failed both.1, State.releaseClaim_same]
    unfold State.post
    split <;> rfl

theorem State.foldl_endSlot_ackOrder (es : List Ending) (failed : ∀ e ∈ es, e.status ≠ .ok) (s : State) :
    (es.foldl State.endSlot s).ackOrder = s.ackOrder :=
  List.foldlRecOn (motive := fun t : State => t.ackOrder = s.ackOrder) es State.endSlot rfl fun _ same e member =>
    (State.endSlot_ackOrder (failed e member)).trans same

/-! ## Endings outside RUNNING -/

/-- The slots of some endings have ended, in a free order, and nothing has followed from it (R79). -/
def State.ended (s : State) (es : List Ending) : State := (s.together es).foldl State.endSlot s.choose

/-- Outside RUNNING nothing is released (R71). -/
theorem State.settle_stopped {s : State} (stopped : s.control.deviceState ≠ .running) (e : Ending) (es : List Ending) :
    s.settle settleRounds (e :: es) = ((s.ended (e :: es)).removeDependencies ((e :: es).map Ending.slot)).retestOrdered.choose := by
  refine State.settle_once ?_
  unfold State.releasableSlots
  rw [((s.endTogether_goes (e :: es)).trans (State.retestOrdered_goes _)).control, if_neg stopped]

theorem State.removeDependencies_same (u : State) (gone : List SlotId) : ∃ slots, u.removeDependencies gone = { u with slots := slots } :=
  ⟨_, rfl⟩

theorem State.retestOrdered_same (u : State) : ∃ slots, u.retestOrdered = { u with slots := slots } := ⟨_, rfl⟩

/-- What stands between the endings of a round that releases nothing and the end of its step: dependency sets and completion writes. -/
theorem State.retested_issueWrites (u : State) (gone : List SlotId) : ∃ slots cqs link choices,
    (u.removeDependencies gone).retestOrdered.choose.issueWrites =
      { u with slots := slots, cqs := cqs, link := link, choices := choices } := by
  obtain ⟨loosened, removed⟩ := u.removeDependencies_same gone
  obtain ⟨slots, retested⟩ := (u.removeDependencies gone).retestOrdered_same
  rw [retested, removed]
  exact ⟨slots, _, _, _, State.issueWrites_same _⟩

/-- Outside RUNNING, while some slot stays held, endings with another status than OK change no more than dependency sets and completion writes
beside what each of them does. -/
theorem State.endSlots_stopping {s : State} (stopped : s.control.deviceState ≠ .running) {j : SlotId} (held : (s.slot j).state ≠ .free)
    {es : List Ending} (nodup : (es.map Ending.slot).Nodup) (all : ∀ e ∈ es, (s.slot e.slot).queue.isSome = true ∧ e.status ≠ .ok) :
    ∃ slots cqs link choices,
      s.endSlots es = { s.ended es with slots := slots, cqs := cqs, link := link, choices := choices } := by
  cases es with
  | nil =>
    have none : s.ended [] = s.choose := congrArg (fun l => l.foldl State.endSlot s.choose) (s.together_perm []).eq_nil
    rw [show s.endSlots [] = s.finishStop from rfl, State.finishStop_held held, none]
    exact ⟨s.slots, s.cqs, s.link, s.choices, rfl⟩
  | cons e rest =>
    obtain ⟨used, failed⟩ := all e List.mem_cons_self
    obtain ⟨q, inQueue⟩ := Option.isSome_iff_exists.1 used
    have answered := State.endSlots_answered nodup List.mem_cons_self inQueue
    unfold Answered at answered
    rw [if_neg fun both => failed both.1, State.endSlots_eq List.mem_cons_self, State.conclude_slot] at answered
    rw [State.endSlots_eq List.mem_cons_self, State.conclude_held (i := e.slot) (by rw [answered]; exact nofun),
      State.settle_stopped stopped]
    exact State.retested_issueWrites _ _

/-! ## The slots that a stop ends -/

section
variable {s : State} {which : Slot → Bool}

theorem State.abortedEndings_any (op : Op) : ((s.abortedEndings which).any fun e => (s.slot e.slot).claims op) = true ↔
    ∃ j, which (s.slot j) = true ∧ (s.slot j).unended = true ∧ (s.slot j).op = some op := by
  unfold State.abortedEndings
  simp [Slot.claims]

theorem State.abortedEndings_countP (op : Op) : (s.abortedEndings which).countP (fun e => (s.slot e.slot).claims op) =
    ((List.finRange 32).filter fun j => which (s.slot j) && (s.slot j).unended && decide ((s.slot j).op = some op)).length := by
  unfold State.abortedEndings
  rw [List.countP_map, List.countP_filter, List.countP_eq_length_filter]
  congr 1
  refine List.filter_congr fun j _ => ?_
  show ((s.slot j).claims op && which (s.slot j)) = _
  rw [Slot.claims, Bool.and_comm, Bool.and_assoc]

/-- The slots of the endings, in the order in which they end. -/
theorem State.abortedEndings_together (used : ∀ i, which (s.slot i) = true → (s.slot i).queue.isSome = true) :
    ((s.together (s.abortedEndings which)).map Ending.slot).Nodup ∧
      ∀ e ∈ s.together (s.abortedEndings which), (s.slot e.slot).queue.isSome = true ∧ e.status ≠ .ok := by
  have perm := s.together_perm (s.abortedEndings which)
  refine ⟨(perm.map Ending.slot).nodup_iff.2 (s.abortedEndings_nodup _), fun e member => ?_⟩
  obtain ⟨ends, status, -⟩ := State.mem_abortedEndings.1 (perm.mem_iff.1 member)
  exact ⟨used _ ends, by rw [status]; exact nofun⟩

theorem State.mem_abortedEndings_slots {i : SlotId} :
    i ∈ (s.together (s.abortedEndings which)).map Ending.slot ↔ which (s.slot i) = true := by
  rw [((s.together_perm _).map Ending.slot).mem_iff, List.mem_map]
  constructor
  · rintro ⟨e, member, rfl⟩
    exact (State.mem_abortedEndings.1 member).1
  · exact fun ends => ⟨{ slot := i, status := .aborted, detail := 0#32 }, State.mem_abortedEndings.2 ⟨ends, rfl, rfl⟩, rfl⟩

variable (used : ∀ i, which (s.slot i) = true → (s.slot i).queue.isSome = true)
include used

/-- The endings give back what their slots claim of a surface (R11, R14). -/
theorem State.ended_surface (i : SurfaceId) : (s.ended (s.abortedEndings which)).surface i = (s.surface i).givenBack
    ((s.abortedEndings which).any fun e => (s.slot e.slot).claims (.retire i))
    ((s.abortedEndings which).countP fun e => (s.slot e.slot).claims (.present i)) := by
  obtain ⟨nodup, all⟩ := State.abortedEndings_together used
  have perm := s.together_perm (s.abortedEndings which)
  refine (State.foldl_endSlot_surface _ i (s := s.choose) nodup all).trans ?_
  simp only [State.choose_slot, perm.countP_eq, perm.any_eq]
  rfl

theorem State.ended_presentation : (s.ended (s.abortedEndings which)).presentation =
    { s.presentation with held := s.presentation.held.filter fun i => !which (s.slot i) } := by
  obtain ⟨nodup, all⟩ := State.abortedEndings_together used
  refine (State.foldl_endSlot_presentation _ (s := s.choose) nodup fun e member => (all e member).1).trans ?_
  simp [State.mem_abortedEndings_slots]

theorem State.ended_waiting {w : WaitEntry} : w ∈ (s.ended (s.abortedEndings which)).waiting ↔
    w ∈ s.waiting ∧ which (s.slot w.slot) = false := by
  obtain ⟨nodup, all⟩ := State.abortedEndings_together used
  rw [State.ended, State.foldl_endSlot_waiting _ (s := s.choose) nodup fun e member => (all e member).1]
  simp [State.mem_abortedEndings_slots]

theorem State.ended_ackOrder : (s.ended (s.abortedEndings which)).ackOrder = s.ackOrder :=
  State.foldl_endSlot_ackOrder _ (fun e member => ((State.abortedEndings_together used).2 e member).2) s.choose

/-- A WAITING queue whose WAIT is aborted becomes OPEN (R54). -/
theorem State.ended_opened {i : SlotId} {q : QueueId} {c : Queue} (ends : which (s.slot i) = true) (inQueue : (s.slot i).queue = some q)
    (wait : (s.slot i).isWaiting = true) (configured : s.queue q = some c) (waits : c.state = .waiting) :
    ∃ d, (s.ended (s.abortedEndings which)).queue q = some d ∧ d.state = .opened := by
  obtain ⟨nodup, -⟩ := State.abortedEndings_together used
  have perm := s.together_perm (s.abortedEndings which)
  refine State.foldl_endSlot_opened _ (s := s.choose) nodup configured (fun e member error => ?_)
    (.inr ⟨waits, { slot := i, status := .aborted, detail := 0#32 }, ?_, inQueue, wait⟩)
  · rw [(State.mem_abortedEndings.1 (perm.mem_iff.1 member)).2.1] at error
    cases error
  · exact perm.mem_iff.2 (State.mem_abortedEndings.2 ⟨ends, rfl, rfl⟩)

end

theorem State.ended_marks (s : State) (es : List Ending) : (s.ended es).marks = s.marks := State.foldl_endSlot_marks _ s.choose

theorem State.ended_settled (s : State) (es : List Ending) : Settled s (s.ended es) :=
  (Settled.of_same rfl rfl rfl rfl rfl rfl ⟨rfl, rfl⟩ rfl rfl rfl rfl rfl rfl : Settled s s.choose).trans
    (Settled.foldl State.endSlot_settled _ _)

theorem State.ended_control (s : State) (es : List Ending) : (s.ended es).control = s.control :=
  (s.choose_goes.trans (Goes.foldl State.endSlot_goes _ _)).control

/-! ## The entry to STOPPING -/

/-- The entry to STOPPING at device control and the fetch path (R51, R60, R175). -/
def State.stopBegun (s : State) : State :=
  { s with
    control := { s.control with deviceState := .stopping, enable := false }
    fetch := s.fetch.map fun (f : Fetch) => { f with discard := true }
    queues := Vector.ofFn fun q => s.queues[q].map Queue.dropAcknowledgement
    ackOrder := [] }

/-- What the entry to STOPPING does before any slot ends: the panel is turned off and the engines are asked to stop too (R102, R163). -/
def State.stopping (s : State) : State :=
  ({ s.stopBegun with surfaces := s.clearShown.surfaces, presentation := s.presentation.turnedOff } : State).askEngines fun _ => true

theorem State.stopBegun_clearShown (s : State) : s.stopBegun.clearShown = { s.stopBegun with surfaces := s.clearShown.surfaces } := by
  unfold State.clearShown
  rw [show s.stopBegun.presentation = s.presentation from rfl]
  split <;> rfl

theorem State.enterStopping_eq (s : State) :
    s.enterStopping = s.stopping.endSlots (s.stopping.abortedEndings Slot.endsAtOnce) :=
  congrArg (fun t : State =>
    let u := ({ t with presentation := t.presentation.turnedOff } : State).askEngines fun _ => true
    u.endSlots (u.abortedEndings Slot.endsAtOnce)) s.stopBegun_clearShown

theorem State.stopping_queue (s : State) (q : QueueId) : s.stopping.queue q = (s.queue q).map Queue.dropAcknowledgement := by
  simp [State.queue, State.stopping, State.stopBegun, State.askEngines]

theorem State.stopping_engine (s : State) (e : EngineId) :
    s.stopping.engine e = if (s.engine e).slot.isSome then stopAsked (s.engine e) else s.engine e := State.askEngines_all _ e

theorem State.stopping_surface (s : State) (i : SurfaceId) : s.stopping.surface i =
    { s.surface i with shown := if s.presentation.shown = some i then false else (s.surface i).shown } := s.clearShown_surface i

/-- A queue that drops its acknowledgement keeps the rest (R60). -/
theorem Queue.dropAcknowledgement_same (c : Queue) :
    c.dropAcknowledgement = { c with abort := c.dropAcknowledgement.abort } := by
  unfold Queue.dropAcknowledgement
  split <;> rfl

/-- The slots that end at once give back their claims, and nothing is shown any more (R11, R14, R15). -/
theorem State.stopping_unclaimed {s : State} (used : ∀ i, (s.slot i).endsAtOnce = true → (s.slot i).queue.isSome = true) (i : SurfaceId) :
    (s.stopping.ended (s.stopping.abortedEndings Slot.endsAtOnce)).surface i = unclaimed s (fun j => (s.slot j).endsAtOnce) i := by
  rw [State.ended_surface (s := s.stopping) used, State.stopping_surface]
  unfold Surface.givenBack unclaimed
  simp only [State.abortedEndings_any, State.abortedEndings_countP]
  rfl

/-! ## DISABLE in RUNNING -/

theorem exec_disable_running {s : State} (up : s.link.up = true) (enabled : s.control.enable = true)
    (running : s.control.deviceState = .running) : exec .disable s = .next s.enterStopping := by
  rw [exec_disable up, State.disableWrite, if_pos enabled, running]

theorem Slot.endsAtOnce_unended {sl : Slot} (h : sl.endsAtOnce = true) : sl.unended = true := by
  unfold Slot.endsAtOnce Slot.isHeld at h
  unfold Slot.unended
  simp only [Bool.or_eq_true, Bool.and_eq_true, decide_eq_true_eq] at h ⊢
  tauto

/-- The slots that end at once: BLOCKED, READY, or a held PRESENT or PANEL (R57, R81). -/
theorem Slot.endsAtOnce_iff {sl : Slot} : sl.endsAtOnce = true ↔ sl.state = .blocked ∨ sl.state = .ready ∨
    sl.state = .running ∧ ∃ op, sl.op = some op ∧ op.isPresentation = true := by
  unfold Slot.endsAtOnce Slot.isHeld
  cases sl.op <;> simp [or_assoc]

/-- The slots that a stop ends are answered ABORTED and posted (R79, R175). -/
theorem State.enterStopping_answered {s : State} (running : s.control.deviceState = .running) {i : SlotId} {q : QueueId}
    (inQueue : (s.slot i).queue = some q) (ends : (s.slot i).endsAtOnce = true) :
    Answered s.enterStopping i (s.slot i) .aborted 0#32 ∧ Posted s s.enterStopping q i := by
  have member : ({ slot := i, status := .aborted, detail := 0#32 } : Ending) ∈ s.stopping.abortedEndings Slot.endsAtOnce :=
    State.mem_abortedEndings.2 ⟨ends, rfl, rfl⟩
  have nodup := s.stopping.abortedEndings_nodup Slot.endsAtOnce
  rw [State.enterStopping_eq]
  refine ⟨State.endSlots_answered (s := s.stopping) nodup member inQueue, fun c k configured bound => ?_⟩
  have kept := c.dropAcknowledgement_same
  obtain ⟨l, w, posted, joined, flying, idle⟩ :=
    (State.endSlots_posted (s := s.stopping) nodup member inQueue nofun).1 c.dropAcknowledgement k
      (by rw [State.stopping_queue, configured]; rfl) (by rw [kept]; exact bound)
  rw [kept] at posted
  refine ⟨l, w, posted, joined, flying, fun none => ?_⟩
  obtain ⟨issued, entry⟩ := idle none
  exact ⟨issued.trans (and_congr_left' (iff_of_true (.inr rfl) (.inl running))), entry⟩

/-- The end of a stop leaves the window (R175). -/
theorem State.finishStop_slots (s : State) : s.finishStop.slots = s.slots := Vector.ext fun i h => s.finishStop_slot ⟨i, h⟩

theorem State.finishStop_ackOrder {s : State} (none : s.ackOrder = []) : s.finishStop.ackOrder = [] := by
  unfold State.finishStop State.signalDevice
  split
  · rw [State.interrupt_same]
    rfl
  · exact none

/-- A slot that ends at once is unended, and so it has a queue. -/
theorem Slot.queue_of_endsAtOnce {s : State} (owned : ∀ i, (s.slot i).queue = none → (s.slot i).unended = false) (i : SlotId)
    (ends : (s.slot i).endsAtOnce = true) : (s.slot i).queue.isSome = true := by
  by_contra none
  have finished := owned i (Option.not_isSome_iff_eq_none.1 none)
  rw [Slot.endsAtOnce_unended ends] at finished
  cases finished

/-- While some slot is not FREE the work that waited has ended, and nothing more (R81, R175). -/
theorem State.enterStopping_held {s : State} {j : SlotId} (held : (s.slot j).state ≠ .free)
    (used : ∀ i, (s.slot i).endsAtOnce = true → (s.slot i).queue.isSome = true) : ∃ slots cqs link choices,
      s.enterStopping = { s.stopping.ended (s.stopping.abortedEndings Slot.endsAtOnce) with
        slots := slots, cqs := cqs, link := link, choices := choices } := by
  rw [State.enterStopping_eq]
  refine State.endSlots_stopping (s := s.stopping) nofun held (s.stopping.abortedEndings_nodup _) fun e member => ?_
  obtain ⟨ends, status, -⟩ := State.mem_abortedEndings.1 member
  exact ⟨used _ ends, by rw [status]; exact nofun⟩

theorem Slot.isWaiting_of_blocked {sl : Slot} {m : MarkId} {v : BitVec 32} {n : Nat} (blocked : sl.state = .blocked)
    (wait : sl.op = some (.wait m v n)) : sl.isWaiting = true := by
  simp [Slot.isWaiting, Slot.unended, blocked, wait, Op.isWait]

theorem Slot.endsAtOnce_of_blocked {sl : Slot} (blocked : sl.state = .blocked) : sl.endsAtOnce = true :=
  Slot.endsAtOnce_iff.2 (.inl blocked)

/-- What the entry to STOPPING leaves of the device, while some slot is not FREE (R81, R102, R134, R163, R175). -/
structure Halted (s t : State) : Prop where
  control : t.control = { s.control with deviceState := .stopping, enable := false }
  surface : ∀ i, t.surface i = unclaimed s (fun j => (s.slot j).endsAtOnce) i
  engine : ∀ e, t.engine e = if (s.engine e).slot.isSome then stopAsked (s.engine e) else s.engine e
  fetch : t.fetch = s.fetch.map fun (f : Fetch) => { f with discard := true }
  presentation : t.presentation =
    { s.presentation.turnedOff with held := s.presentation.held.filter fun i => !(s.slot i).endsAtOnce }
  waiting : ∀ w, w ∈ t.waiting ↔ w ∈ s.waiting ∧ (s.slot w.slot).endsAtOnce = false
  opened : ∀ {i q c}, (s.slot i).endsAtOnce = true → (s.slot i).queue = some q → (s.slot i).isWaiting = true →
    s.queue q = some c → c.state = .waiting → ∃ d, t.queue q = some d ∧ d.state = .opened
  kept : t.frame = s.frame ∧ t.palettes = s.palettes ∧ t.marks = s.marks
  ackOrder : t.ackOrder = []

/-- The slots that end leave the device so. -/
theorem State.ended_halted {s : State} (used : ∀ i, (s.slot i).endsAtOnce = true → (s.slot i).queue.isSome = true) :
    Halted s (s.stopping.ended (s.stopping.abortedEndings Slot.endsAtOnce)) := by
  have settled := s.stopping.ended_settled (s.stopping.abortedEndings Slot.endsAtOnce)
  exact
    { control := s.stopping.ended_control _
      surface := State.stopping_unclaimed used
      engine := fun e => (congrArg (·[e.index]) settled.engines).trans (s.stopping_engine e)
      fetch := settled.fetch
      presentation := State.ended_presentation (s := s.stopping) used
      waiting := fun w => State.ended_waiting (s := s.stopping) used
      opened := fun {i q c} ends inQueue wait configured waits => State.ended_opened (s := s.stopping) (c := c.dropAcknowledgement) used
        ends inQueue wait (by rw [State.stopping_queue, configured]; rfl) (by rw [Queue.dropAcknowledgement_same]; exact waits)
      kept := ⟨settled.frame, settled.palettes, s.stopping.ended_marks _⟩
      ackOrder := State.ended_ackOrder (s := s.stopping) used }

/-- The window, the completion queues and the link are not among what it speaks of. -/
theorem Halted.of_same {s t : State} (h : Halted s t) {slots cqs link choices} :
    Halted s { t with slots := slots, cqs := cqs, link := link, choices := choices } := by
  obtain ⟨control, surface, engine, fetch, presentation, waiting, opened, kept, ackOrder⟩ := h
  exact ⟨control, surface, engine, fetch, presentation, waiting, opened, kept, ackOrder⟩

theorem State.enterStopping_halted {s : State} {j : SlotId} (held : (s.slot j).state ≠ .free)
    (used : ∀ i, (s.slot i).endsAtOnce = true → (s.slot i).queue.isSome = true) : Halted s s.enterStopping := by
  obtain ⟨slots, cqs, link, choices, stopped⟩ := State.enterStopping_held held used
  rw [stopped]
  exact (State.ended_halted used).of_same

/-- With every slot FREE no slot ends, and the stop is over (log 26). -/
theorem State.enterStopping_free {s : State} (free : ∀ i, (s.slot i).state = .free) : s.enterStopping = s.stopping.finishStop := by
  have none : s.stopping.abortedEndings Slot.endsAtOnce = [] := by
    refine List.eq_nil_iff_forall_not_mem.2 fun e member => ?_
    have ends : (s.slot e.slot).endsAtOnce = true := (State.mem_abortedEndings.1 member).1
    simp [Slot.endsAtOnce_iff, free] at ends
  rw [State.enterStopping_eq, none]
  rfl

/-- Settles O21: the slots that end at once end together, with nothing released; with every slot FREE the stop ends in the same step. -/
theorem disableStopsDevice : Obligations.DisableStopsDevice := by
  refine ⟨fun s j up enabled running held owned => ?_, fun s up enabled running free => ?_⟩
  · have used := Slot.queue_of_endsAtOnce owned
    obtain ⟨control, surface, engine, fetch, presentation, waiting, opened, ⟨frame, palettes, marks⟩, ackOrder⟩ :=
      State.enterStopping_halted held used
    refine ⟨_, exec_disable_running up enabled running, control,
      fun i q inQueue ends => State.enterStopping_answered running inQueue (Slot.endsAtOnce_iff.2 ends), surface, engine, fetch, ?_,
      fun shows => ?_, fun w member => ?_, fun i q m v n d blocked wait inQueue configured waits => ?_, frame, palettes, marks, ackOrder⟩
    · rw [presentation]
      rfl
    · rw [presentation]
      refine Option.filter_eq_none_iff.2 fun i now => ?_
      simp [Slot.endsAtOnce_iff.2 (.inr (.inr (shows i now).2))]
    · obtain ⟨listed, stays⟩ := (waiting w).1 member
      refine ⟨listed, .inl fun blocked => ?_⟩
      rw [Slot.endsAtOnce_of_blocked blocked] at stays
      cases stays
    · exact opened (Slot.endsAtOnce_of_blocked blocked) inQueue (Slot.isWaiting_of_blocked blocked wait) configured waits
  · obtain ⟨off, queues, cqs, panel, -⟩ := State.finishStop_stopped (s := s.stopping) rfl free
    obtain ⟨x, issues, toldDevice, told⟩ := State.finishStop_issues (s := s.stopping) rfl free
    have settled := s.stopping.finishStop_settled
    obtain ⟨surfaces, marks⟩ := s.stopping.finishStop_marks
    refine ⟨_, x ++ s.link.messages s.control.deviceVector, (exec_disable_running up enabled running).trans
        (congrArg _ (State.enterStopping_free free)), off, queues, cqs, s.stopping.finishStop_slots, State.finishStop_ackOrder rfl,
      fun i => (congrArg (·[i]) surfaces).trans (s.stopping_surface i),
      fun e => (congrArg (·[e.index]) settled.engines).trans (s.stopping_engine e), panel, settled.frame, settled.palettes, marks,
      issues.written, fun k b configured counted => (told k b configured counted).of_configuration (issues.allows _),
      toldDevice.last (issues.allows _) x⟩

end Sys2Proof.Machine
end

section
/-! PROOF. The queue of waiting commands, the model's own: a step takes the command at its front, and no command touches it. -/

namespace Sys2Proof.Machine

/-- Settles O1: the equation of step on a queue that is not empty. -/
theorem stepRunsFrontCommand : Obligations.StepRunsFrontCommand := fun _ _ _ => rfl

/-! ## The register writes -/

/-- Whatever is done only while the link is up. -/
theorem State.whileUp_pending {s t : State} (h : t.pending = s.pending) : (s.whileUp t).pending = s.pending := by
  unfold State.whileUp
  split
  · exact h
  · rfl

theorem State.submitWrite_pending (s : State) (q : QueueId) (tail : BitVec 12) : (s.submitWrite q tail).pending = s.pending := by
  unfold State.submitWrite
  split
  · rfl
  · split
    · exact (State.serveFetch_keeps _).pending
    · rfl

theorem State.consumeWrite_pending (s : State) (k : CqId) (head : BitVec 12) : (s.consumeWrite k head).pending = s.pending := by
  unfold State.consumeWrite
  split
  · rfl
  · dsimp only
    split
    · exact (State.issueWrites_settled _).pending
    · rfl

theorem State.resumeAction_pending (s : State) (q : QueueId) : (s.resumeAction q).pending = s.pending := by
  unfold State.resumeAction
  split
  · rfl
  · split
    · exact (State.serveFetch_keeps _).pending
    · rfl

theorem State.abortAction_pending (s : State) (q : QueueId) : (s.abortAction q).pending = s.pending := by
  unfold State.abortAction
  split
  · rfl
  · split
    · exact ((s.abort_keeps q _).trans (State.serveFetch_keeps _)).pending
    · rfl

theorem State.qctlWrite_pending (s : State) (value : BitVec 32) : (s.qctlWrite value).pending = s.pending := by
  unfold State.qctlWrite
  dsimp only
  split
  · exact s.resumeAction_pending _
  · exact s.abortAction_pending _
  · rfl

theorem State.enableWrite_pending (s : State) : s.enableWrite.pending = s.pending := by
  unfold State.enableWrite
  split
  · rfl
  · split
    · exact s.beginLoad_keeps.pending
    · rfl
    · rfl
    · rfl
    · rfl

/-- A reset, too, leaves the queue of commands: it is no part of the device (R178). -/
theorem State.controlWrite_pending (s : State) (value : BitVec 32) : (s.controlWrite value).pending = s.pending := by
  unfold State.controlWrite
  split
  · rfl
  · split
    · exact s.enableWrite_pending
    · exact s.disableWrite_keeps.pending

theorem State.setupWrite_pending (s : State) (half : SetupHalf) (value : BitVec 32) : (s.setupWrite half value).pending = s.pending := by
  cases half <;> rfl

theorem State.wordWrite_pending (s : State) (offset : BitVec 12) (value : BitVec 32) : (s.wordWrite offset value).pending = s.pending := by
  unfold State.wordWrite
  split
  · exact s.setupWrite_pending .lo value
  · exact s.setupWrite_pending .hi value
  · exact s.controlWrite_pending value
  · rfl
  · exact s.submitWrite_pending _ _
  · exact s.consumeWrite_pending _ _
  · exact s.qctlWrite_pending value
  · rfl

/-! ## Loading, records and read data -/

theorem State.takeDeviceVector_pending (s : State) (r : SetupRecord) : (s.takeDeviceVector r).pending = s.pending := by
  unfold State.takeDeviceVector
  split <;> rfl

theorem State.enterRunning_pending (s : State) (r : SetupRecord) : (s.enterRunning r).pending = s.pending :=
  (State.interrupt_settled _ _).pending

theorem execSetupReadArrival_pending {r : SetupRecord} {s t : State} (h : execSetupReadArrival r s = .next t) :
    t.pending = s.pending := by
  unfold execSetupReadArrival at h
  split at h
  · split at h <;> cases h
    · unfold State.setupArrived
      dsimp only
      split
      · exact (State.enterRunning_pending _ r).trans (s.takeDeviceVector_pending r)
      · exact (State.enterFault_keeps _ _).pending.trans (s.takeDeviceVector_pending r)
    · rfl
  · cases h
    rfl

theorem State.afterArrival_pending (s : State) (f : Fetch) (c : Queue) (r : OpRecord) : (s.afterArrival f c r).pending = s.pending := by
  cases judged : s.checkRecord r with
  | error st =>
    rw [State.afterArrival_refused judged]
    exact (State.endSlots_settled _ _).pending
  | ok op =>
    rw [State.afterArrival_admitted judged, (State.firstState_keeps _ _ _ _ _).pending, State.admissionEffect_same]
    rfl

theorem execRecordArrival_pending {r : OpRecord} {s t : State} (h : execRecordArrival r s = .next t) : t.pending = s.pending := by
  rcases execRecordArrival_cases h with rfl | ⟨f, c, -, rfl⟩
  · rfl
  · exact (State.serveFetch_keeps _).pending.trans (s.afterArrival_pending f c r)

theorem execHostReadData_pending {e : EngineId} {a : BitVec 64} {d : List Byte} {s t : State} (h : execHostReadData e a d s = .next t) :
    t.pending = s.pending := by
  rcases execHostReadData_cases h with rfl | ⟨j, -, ⟨pixel, host, _, _, _, _, _, hop, rfl⟩ | ⟨p, first, _, _, hop, rfl⟩⟩
  · rfl
  · exact (s.importData_keeps e (by rw [hop]; rfl) pixel d host).pending
  · exact (s.entryData_keeps e (by rw [hop]; rfl) p first d).pending

theorem execLineComplete_pending {e : EngineId} {s t : State} (h : execLineComplete e s = .next t) : t.pending = s.pending := by
  rcases execLineComplete_cases h with rfl | ⟨j, -, rfl⟩
  · rfl
  · exact (s.completeLine_keeps e j).pending

/-! ## Every command -/

/-- Settles O2, by what each command keeps: the register writes, the arrivals, read data and a line by the lemmas above, every other
command because it keeps what Keeps names. -/
theorem execKeepsPending : Obligations.ExecKeepsPending := by
  intro c s t h
  cases c with
  | submit q tail => cases h; exact State.whileUp_pending (s.submitWrite_pending q tail)
  | consume k head => cases h; exact State.whileUp_pending (s.consumeWrite_pending k head)
  | resume q => cases h; exact State.whileUp_pending (s.resumeAction_pending q)
  | abort q => cases h; exact State.whileUp_pending (s.abortAction_pending q)
  | enable => cases h; exact State.whileUp_pending s.enableWrite_pending
  | disable => exact (execDisable_keeps h).pending
  | functionReset => cases h; exact State.whileUp_pending rfl
  | statusClear v => cases h; exact State.whileUp_pending rfl
  | setupAddressWrite half v => exact (execSetupAddressWrite_keeps h).pending
  | registerWrite offset size v =>
    cases h
    refine State.whileUp_pending ?_
    split
    · exact s.wordWrite_pending offset v
    · rfl
  | coldReset => cases h; rfl
  | linkReset => cases h; rfl
  | pendingMessageSend a b l => exact (execPendingMessageSend_keeps h).pending
  | setupReadArrival r => exact execSetupReadArrival_pending h
  | setupReadFault => exact (execSetupReadFault_keeps h).pending
  | abandonedReadAnswer => cases h; rfl
  | fetchStart i => exact (execFetchStart_keeps h).pending
  | recordArrival r => exact execRecordArrival_pending h
  | fetchFault => exact (execFetchFault_keeps h).pending
  | overtakenFetchEnd => exact (execOvertakenFetchEnd_keeps h).pending
  | abortAckPlace q i => exact (execAbortAckPlace_keeps h).pending
  | dispatch => exact (execDispatch_keeps h).pending
  | hostReadData e a d => exact execHostReadData_pending h
  | exportWriteAccepted e n => exact (execExportWriteAccepted_keeps h).pending
  | lineComplete e => exact execLineComplete_pending h
  | importReadFault e => exact (execImportReadFault_keeps h).pending
  | exportWriteFault e => exact (execExportWriteFault_keeps h).pending
  | loadpalReadFault e => exact (execLoadpalReadFault_keeps h).pending
  | completionWriteIssue k => exact (execCompletionWriteIssue_keeps h).pending
  | completionWriteAccepted k => exact (execCompletionWriteAccepted_keeps h).pending
  | completionWriteFault k => exact (execCompletionWriteFault_keeps h).pending
  | abandonedWriteAnswer r => exact (execAbandonedWriteAnswer_keeps h).pending
  | messageWriteFault n => exact (execMessageWriteFault_keeps h).pending
  | coalescingTimerExpiry k => exact (execCoalescingTimerExpiry_keeps h).pending
  | waitExpiry i => exact (execWaitExpiry_keeps h).pending
  | frameStart => exact (execFrameStart_keeps h).pending
  | pcieConfigurationTurnOff a b l => exact (execPcieConfigurationTurnOff_keeps h).pending
  | linkUp => exact (execLinkUp_keeps h).pending
  | scanPixel x r => exact (execScanPixel_keeps h).1.pending
  | abandonedFetchAnswer => cases h; rfl
  | abandonedEngineAccessAnswer => cases h; rfl

end Sys2Proof.Machine
end
